-- ==== Sys2Proof/Word.lean ====
section
/-! DEFINITION. The machine's word types and their plainest arithmetic (00_scope.md R1, 01_state.md R19). -/
namespace Sys2Proof

/-- A general register, an operand-extension register or a memory doubleword: 64 bits (R19). -/
abbrev W64 := BitVec 64
/-- A vector register: 512 bits (R19). -/
abbrev V512 := BitVec 512
/-- A byte of any memory. -/
abbrev Byte := BitVec 8
/-- A 56-bit virtual address (R1, R32). -/
abbrev VA := BitVec 56
/-- A 48-bit physical address (R417). -/
abbrev PA := BitVec 48

/-- A sparse table: keys strictly rising; a key that is not listed holds the table's default value. -/
abbrev Tab (α : Type) := List (Nat × α)

end Sys2Proof
end

