-- ==== Sys2Proof/Syntax.lean ====
section
/-! DEFINITION. The instructions and events of the K8J: one constructor for each row of the opcode table
(03_opcode_map.md R80, R82). -/
namespace Sys2Proof


/-- One constructor per row of the opcode table (03_opcode_map.md R80, R82; 95_what_each_step_holds.md):
the encoded instructions first, with the fields their encodings hold (a split immediate joined), then the events
by which the package's other agents and its outside world move. An event's operands stand in State (`State.arg`), where
the agenda that brings it about puts them. -/
inductive Instr where
  /-- ADD. Sets D to a plus b, wrapping modulo 2^64 (R126) -/
  | add (d : BitVec 5) (a : BitVec 5) (b : BitVec 5)
  /-- SUB. Sets D to a minus b, wrapping modulo 2^64 (R126) -/
  | sub (d : BitVec 5) (a : BitVec 5) (b : BitVec 5)
  /-- AND. Sets D to the bitwise AND of a and b (R126) -/
  | and (d : BitVec 5) (a : BitVec 5) (b : BitVec 5)
  /-- OR. Sets D to the bitwise OR of a and b (R126) -/
  | or (d : BitVec 5) (a : BitVec 5) (b : BitVec 5)
  /-- XOR. Sets D to the bitwise XOR of a and b (R126) -/
  | xor (d : BitVec 5) (a : BitVec 5) (b : BitVec 5)
  /-- SHL. Shifts a left by b mod 64 (R126) -/
  | shl (d : BitVec 5) (a : BitVec 5) (b : BitVec 5)
  /-- SHR. Shifts a right logically by b mod 64 (R126) -/
  | shr (d : BitVec 5) (a : BitVec 5) (b : BitVec 5)
  /-- SHA. Shifts a right arithmetically by b mod 64 (R126) -/
  | sha (d : BitVec 5) (a : BitVec 5) (b : BitVec 5)
  /-- MUL. Sets D to the low 64 bits of a times b (R128) -/
  | mul (d : BitVec 5) (a : BitVec 5) (b : BitVec 5)
  /-- MULH. Sets D to the high 64 bits of the signed product (R128) -/
  | mulh (d : BitVec 5) (a : BitVec 5) (b : BitVec 5)
  /-- MULHN. Sets D to the high 64 bits of the unsigned product (R128) -/
  | mulhn (d : BitVec 5) (a : BitVec 5) (b : BitVec 5)
  /-- DIV. Signed division truncated toward zero, without traps (R129) -/
  | div (d : BitVec 5) (a : BitVec 5) (b : BitVec 5)
  /-- DIVN. Unsigned division, without traps (R129) -/
  | divn (d : BitVec 5) (a : BitVec 5) (b : BitVec 5)
  /-- REM. Signed remainder, without traps (R129) -/
  | rem (d : BitVec 5) (a : BitVec 5) (b : BitVec 5)
  /-- REMN. Unsigned remainder, without traps (R129) -/
  | remn (d : BitVec 5) (a : BitVec 5) (b : BitVec 5)
  /-- MIN. Sets D to the signed minimum of a and b (R130) -/
  | min (d : BitVec 5) (a : BitVec 5) (b : BitVec 5)
  /-- MAX. Sets D to the signed maximum of a and b (R130) -/
  | max (d : BitVec 5) (a : BitVec 5) (b : BitVec 5)
  /-- MINN. Sets D to the unsigned minimum of a and b (R130) -/
  | minn (d : BitVec 5) (a : BitVec 5) (b : BitVec 5)
  /-- MAXN. Sets D to the unsigned maximum of a and b (R130) -/
  | maxn (d : BitVec 5) (a : BitVec 5) (b : BitVec 5)
  /-- SLT. Sets D to 1 when a is below b signed, else 0 (R130) -/
  | slt (d : BitVec 5) (a : BitVec 5) (b : BitVec 5)
  /-- SLTN. Sets D to 1 when a is below b unsigned, else 0 (R130) -/
  | sltn (d : BitVec 5) (a : BitVec 5) (b : BitVec 5)
  /-- CLZ. Counts leading zero bits of a (R131) -/
  | clz (d : BitVec 5) (a : BitVec 5)
  /-- CTZ. Counts trailing zero bits of a (R131) -/
  | ctz (d : BitVec 5) (a : BitVec 5)
  /-- POPC. Counts the one bits of a (R131) -/
  | popc (d : BitVec 5) (a : BitVec 5)
  /-- ADDI. Adds a sign-extended 12-bit immediate to a (R126) -/
  | addi (d : BitVec 5) (a : BitVec 5) (i : BitVec 12)
  /-- ANDI. ANDs a with a sign-extended immediate (R126) -/
  | andi (d : BitVec 5) (a : BitVec 5) (i : BitVec 12)
  /-- ORI. ORs a with a sign-extended immediate (R126) -/
  | ori (d : BitVec 5) (a : BitVec 5) (i : BitVec 12)
  /-- XORI. XORs a with a sign-extended immediate (R126) -/
  | xori (d : BitVec 5) (a : BitVec 5) (i : BitVec 12)
  /-- SLTI. Sets D to 1 when a is below the immediate, signed (R126) -/
  | slti (d : BitVec 5) (a : BitVec 5) (i : BitVec 12)
  /-- SHLI. Shifts a left by an immediate amount from 0 to 63 (R127) -/
  | shli (d : BitVec 5) (a : BitVec 5) (n : BitVec 6)
  /-- SHRI. Shifts a right logically by an immediate amount (R127) -/
  | shri (d : BitVec 5) (a : BitVec 5) (n : BitVec 6)
  /-- SHAI. Shifts a right arithmetically by an immediate amount (R127) -/
  | shai (d : BitVec 5) (a : BitVec 5) (n : BitVec 6)
  /-- TERN. Applies an 8-bit truth table bitwise to a, b and the old D (R132) -/
  | tern (d : BitVec 5) (a : BitVec 5) (b : BitVec 5) (t : BitVec 8)
  /-- FSHL. Funnel-shifts a:b left and keeps the high 64 bits (R133) -/
  | fshl (d : BitVec 5) (a : BitVec 5) (b : BitVec 5) (n : BitVec 6)
  /-- FSHR. Funnel-shifts a:b right and keeps the low 64 bits (R133) -/
  | fshr (d : BitVec 5) (a : BitVec 5) (b : BitVec 5) (n : BitVec 6)
  /-- BEXT. Extracts a zero-extended bit field of a (R134) -/
  | bext (d : BitVec 5) (a : BitVec 5) (p : BitVec 6) (l : BitVec 6)
  /-- BINS. Inserts the low bits of a into a field of D (R134) -/
  | bins (d : BitVec 5) (a : BitVec 5) (p : BitVec 6) (l : BitVec 6)
  /-- CSEL. Selects a or b according to whether register c is non-zero (R135) -/
  | csel (d : BitVec 5) (a : BitVec 5) (b : BitVec 5) (c : BitVec 5)
  /-- LUI. Sets D to the 20-bit immediate shifted left by 12, sign-extended (R64) -/
  | lui (d : BitVec 5) (i : BitVec 20)
  /-- ADDPC. Sets D to its own address plus the shifted upper immediate (R64) -/
  | addpc (d : BitVec 5) (i : BitVec 20)
  /-- BEQ. Branches by a halfword offset when a equals b (R137) -/
  | beq (a : BitVec 5) (b : BitVec 5) (o : BitVec 12)
  /-- BNE. Branches when a differs from b (R137) -/
  | bne (a : BitVec 5) (b : BitVec 5) (o : BitVec 12)
  /-- BLT. Branches when a is below b, signed (R137) -/
  | blt (a : BitVec 5) (b : BitVec 5) (o : BitVec 12)
  /-- BGE. Branches when a is at least b, signed (R137) -/
  | bge (a : BitVec 5) (b : BitVec 5) (o : BitVec 12)
  /-- BLTN. Branches when a is below b, unsigned (R137) -/
  | bltn (a : BitVec 5) (b : BitVec 5) (o : BitVec 12)
  /-- BGEN. Branches when a is at least b, unsigned (R137) -/
  | bgen (a : BitVec 5) (b : BitVec 5) (o : BitVec 12)
  /-- JAL. Links the return address in D and jumps by a 20-bit halfword offset (R138) -/
  | jal (d : BitVec 5) (o : BitVec 20)
  /-- JALR. Jumps to a plus offset and links, trapping on an odd target (R139) -/
  | jalr (d : BitVec 5) (a : BitVec 5) (i : BitVec 12)
  /-- LDB. Loads a sign-extended byte from global memory (R146) -/
  | ldb (d : BitVec 5) (a : BitVec 5) (o : BitVec 12)
  /-- LDBN. Loads a zero-extended byte from global memory (R146) -/
  | ldbn (d : BitVec 5) (a : BitVec 5) (o : BitVec 12)
  /-- LDH. Loads a sign-extended halfword from global memory (R146) -/
  | ldh (d : BitVec 5) (a : BitVec 5) (o : BitVec 12)
  /-- LDHN. Loads a zero-extended halfword from global memory (R146) -/
  | ldhn (d : BitVec 5) (a : BitVec 5) (o : BitVec 12)
  /-- LDW. Loads a sign-extended word from global memory (R146) -/
  | ldw (d : BitVec 5) (a : BitVec 5) (o : BitVec 12)
  /-- LDWN. Loads a zero-extended word from global memory (R146) -/
  | ldwn (d : BitVec 5) (a : BitVec 5) (o : BitVec 12)
  /-- LDD. Loads a doubleword from global memory (R146) -/
  | ldd (d : BitVec 5) (a : BitVec 5) (o : BitVec 12)
  /-- LDB_A. Loads a sign-extended byte from the A buffer (R146) -/
  | ldbA (d : BitVec 5) (a : BitVec 5) (o : BitVec 12)
  /-- LDBN_A. Loads a zero-extended byte from the A buffer (R146) -/
  | ldbnA (d : BitVec 5) (a : BitVec 5) (o : BitVec 12)
  /-- LDH_A. Loads a sign-extended halfword from the A buffer (R146) -/
  | ldhA (d : BitVec 5) (a : BitVec 5) (o : BitVec 12)
  /-- LDHN_A. Loads a zero-extended halfword from the A buffer (R146) -/
  | ldhnA (d : BitVec 5) (a : BitVec 5) (o : BitVec 12)
  /-- LDW_A. Loads a sign-extended word from the A buffer (R146) -/
  | ldwA (d : BitVec 5) (a : BitVec 5) (o : BitVec 12)
  /-- LDWN_A. Loads a zero-extended word from the A buffer (R146) -/
  | ldwnA (d : BitVec 5) (a : BitVec 5) (o : BitVec 12)
  /-- LDD_A. Loads a doubleword from the A buffer (R146) -/
  | lddA (d : BitVec 5) (a : BitVec 5) (o : BitVec 12)
  /-- LDB_S. Loads a sign-extended byte from the S buffer (R146) -/
  | ldbS (d : BitVec 5) (a : BitVec 5) (o : BitVec 12)
  /-- LDBN_S. Loads a zero-extended byte from the S buffer (R146) -/
  | ldbnS (d : BitVec 5) (a : BitVec 5) (o : BitVec 12)
  /-- LDH_S. Loads a sign-extended halfword from the S buffer (R146) -/
  | ldhS (d : BitVec 5) (a : BitVec 5) (o : BitVec 12)
  /-- LDHN_S. Loads a zero-extended halfword from the S buffer (R146) -/
  | ldhnS (d : BitVec 5) (a : BitVec 5) (o : BitVec 12)
  /-- LDW_S. Loads a sign-extended word from the S buffer (R146) -/
  | ldwS (d : BitVec 5) (a : BitVec 5) (o : BitVec 12)
  /-- LDWN_S. Loads a zero-extended word from the S buffer (R146) -/
  | ldwnS (d : BitVec 5) (a : BitVec 5) (o : BitVec 12)
  /-- LDD_S. Loads a doubleword from the S buffer (R146) -/
  | lddS (d : BitVec 5) (a : BitVec 5) (o : BitVec 12)
  /-- STB. Stores the low byte of B to global memory (R146) -/
  | stb (a : BitVec 5) (b : BitVec 5) (o : BitVec 12)
  /-- STH. Stores the low halfword of B to global memory (R146) -/
  | sth (a : BitVec 5) (b : BitVec 5) (o : BitVec 12)
  /-- STW. Stores the low word of B to global memory (R146) -/
  | stw (a : BitVec 5) (b : BitVec 5) (o : BitVec 12)
  /-- STD. Stores the doubleword B to global memory (R146) -/
  | std (a : BitVec 5) (b : BitVec 5) (o : BitVec 12)
  /-- STB_A. Stores the low byte of B to the A buffer (R146) -/
  | stbA (a : BitVec 5) (b : BitVec 5) (o : BitVec 12)
  /-- STH_A. Stores the low halfword of B to the A buffer (R146) -/
  | sthA (a : BitVec 5) (b : BitVec 5) (o : BitVec 12)
  /-- STW_A. Stores the low word of B to the A buffer (R146) -/
  | stwA (a : BitVec 5) (b : BitVec 5) (o : BitVec 12)
  /-- STD_A. Stores the doubleword B to the A buffer (R146) -/
  | stdA (a : BitVec 5) (b : BitVec 5) (o : BitVec 12)
  /-- STFL_A. Writes a word of the A buffer and sets its full-empty bit full (R152) -/
  | stflA (a : BitVec 5) (b : BitVec 5) (o : BitVec 12)
  /-- CLRE_A. Sets the full-empty bit of an A-buffer word empty (R153) -/
  | clreA (a : BitVec 5) (o : BitVec 12)
  /-- STB_S. Stores the low byte of B to the S buffer (R146) -/
  | stbS (a : BitVec 5) (b : BitVec 5) (o : BitVec 12)
  /-- STH_S. Stores the low halfword of B to the S buffer (R146) -/
  | sthS (a : BitVec 5) (b : BitVec 5) (o : BitVec 12)
  /-- STW_S. Stores the low word of B to the S buffer (R146) -/
  | stwS (a : BitVec 5) (b : BitVec 5) (o : BitVec 12)
  /-- STD_S. Stores the doubleword B to the S buffer (R146) -/
  | stdS (a : BitVec 5) (b : BitVec 5) (o : BitVec 12)
  /-- STFL_S. Writes a word of the S buffer and sets its full-empty bit full (R152) -/
  | stflS (a : BitVec 5) (b : BitVec 5) (o : BitVec 12)
  /-- CLRE_S. Sets the full-empty bit of an S-buffer word empty (R153) -/
  | clreS (a : BitVec 5) (o : BitVec 12)
  /-- LDWT. Waits until a local word is full, then loads it (R154) -/
  | ldwt (d : BitVec 5) (a : BitVec 5) (b : BitVec 5) (s : BitVec 2)
  /-- TSTF. Sets D to the full-empty state of a local word without waiting (R155) -/
  | tstf (d : BitVec 5) (a : BitVec 5) (b : BitVec 5) (s : BitVec 2)
  /-- LDE. Loads an element decoded to FP32 through the page format (R157) -/
  | lde (d : BitVec 5) (a : BitVec 5) (b : BitVec 5)
  /-- STE. Encodes an FP32 value into an element through the page format (R157) -/
  | ste (d : BitVec 5) (a : BitVec 5) (b : BitVec 5)
  /-- PF. Asks the cluster cache to fill a line, never trapping (R158) -/
  | pf (a : BitVec 5) (b : BitVec 5)
  /-- VLD. Loads 16 words into a vector register (R159) -/
  | vld (d : BitVec 5) (a : BitVec 5) (b : BitVec 5) (s : BitVec 2)
  /-- VST. Stores a vector register as 16 words (R159) -/
  | vst (d : BitVec 5) (a : BitVec 5) (b : BitVec 5) (s : BitVec 2)
  /-- VLDS. Loads vector lanes at a signed stride (R159) -/
  | vlds (d : BitVec 5) (a : BitVec 5) (b : BitVec 5) (w : BitVec 1) (s : BitVec 2)
  /-- VLDX. Gathers vector lanes by a vector of indices (R159) -/
  | vldx (d : BitVec 5) (a : BitVec 5) (b : BitVec 5) (w : BitVec 1) (s : BitVec 2)
  /-- VSTX. Scatters vector lanes by a vector of indices, in lane order (R160) -/
  | vstx (d : BitVec 5) (a : BitVec 5) (b : BitVec 5) (w : BitVec 1) (s : BitVec 2)
  /-- VLDE. Loads 16 elements decoded to FP32 through a format (R161) -/
  | vlde (d : BitVec 5) (a : BitVec 5) (b : BitVec 5) (f : BitVec 3) (s : BitVec 2)
  /-- VSTE. Encodes 16 FP32 lanes into elements of a format (R161) -/
  | vste (d : BitVec 5) (a : BitVec 5) (b : BitVec 5) (f : BitVec 3) (s : BitVec 2)
  /-- VADD. Adds vector lanes (R169) -/
  | vadd (d : BitVec 5) (a : BitVec 5) (b : BitVec 5) (e : BitVec 3)
  /-- VSUB. Subtracts vector lanes (R169) -/
  | vsub (d : BitVec 5) (a : BitVec 5) (b : BitVec 5) (e : BitVec 3)
  /-- VMUL. Multiplies vector lanes (R169) -/
  | vmul (d : BitVec 5) (a : BitVec 5) (b : BitVec 5) (e : BitVec 3)
  /-- VMIN. Takes the lane-wise minimum (R169) -/
  | vmin (d : BitVec 5) (a : BitVec 5) (b : BitVec 5) (e : BitVec 3)
  /-- VMAX. Takes the lane-wise maximum (R169) -/
  | vmax (d : BitVec 5) (a : BitVec 5) (b : BitVec 5) (e : BitVec 3)
  /-- VABS. Takes the lane-wise absolute value (R169) -/
  | vabs (d : BitVec 5) (a : BitVec 5) (e : BitVec 3)
  /-- VFMA. Computes a times b plus c in each lane with one rounding (R169) -/
  | vfma (d : BitVec 5) (a : BitVec 5) (b : BitVec 5) (e : BitVec 3)
  /-- VFMS. Computes a times b minus c in each lane with one rounding (R169) -/
  | vfms (d : BitVec 5) (a : BitVec 5) (b : BitVec 5) (e : BitVec 3)
  /-- VAND. Lane-wise AND (R171) -/
  | vand (d : BitVec 5) (a : BitVec 5) (b : BitVec 5) (e : BitVec 3)
  /-- VOR. Lane-wise OR (R171) -/
  | vor (d : BitVec 5) (a : BitVec 5) (b : BitVec 5) (e : BitVec 3)
  /-- VXOR. Lane-wise XOR (R171) -/
  | vxor (d : BitVec 5) (a : BitVec 5) (b : BitVec 5) (e : BitVec 3)
  /-- VSHL. Lane-wise left shift (R171) -/
  | vshl (d : BitVec 5) (a : BitVec 5) (b : BitVec 5) (e : BitVec 3)
  /-- VSHR. Lane-wise logical right shift (R171) -/
  | vshr (d : BitVec 5) (a : BitVec 5) (b : BitVec 5) (e : BitVec 3)
  /-- VSHA. Lane-wise arithmetic right shift (R171) -/
  | vsha (d : BitVec 5) (a : BitVec 5) (b : BitVec 5) (e : BitVec 3)
  /-- VFSHL. Lane-wise funnel shift left by amounts in V4 (R171) -/
  | vfshl (d : BitVec 5) (a : BitVec 5) (b : BitVec 5) (e : BitVec 3)
  /-- VFSHR. Lane-wise funnel shift right by amounts in V4 (R171) -/
  | vfshr (d : BitVec 5) (a : BitVec 5) (b : BitVec 5) (e : BitVec 3)
  /-- VTERN. Applies a three-input truth table to all 512 bits (R172) -/
  | vtern (d : BitVec 5) (a : BitVec 5) (b : BitVec 5) (t : BitVec 8)
  /-- VCMP. Compares lanes and writes a mask register (R173) -/
  | vcmp (k : BitVec 3) (a : BitVec 5) (b : BitVec 5) (e : BitVec 3) (c : BitVec 4)
  /-- VSEL. Selects lanes of a or b by a mask register (R174) -/
  | vsel (d : BitVec 5) (a : BitVec 5) (b : BitVec 5) (e : BitVec 3) (k : BitVec 3)
  /-- VCVT. Converts lanes between element types (R175) -/
  | vcvt (d : BitVec 5) (a : BitVec 5) (b : BitVec 5) (t : BitVec 4) (s : BitVec 4)
  /-- VRED. Reduces the active lanes in a pairwise tree into lane 0 (R180) -/
  | vred (d : BitVec 5) (a : BitVec 5) (e : BitVec 3) (o : BitVec 4)
  /-- VSCAN. Forms the running combination of lanes in lane order (R181) -/
  | vscan (d : BitVec 5) (a : BitVec 5) (e : BitVec 3) (o : BitVec 4)
  /-- VPERM. Permutes lanes by a vector of indices (R182) -/
  | vperm (d : BitVec 5) (a : BitVec 5) (b : BitVec 5) (e : BitVec 3)
  /-- VBCAST. Broadcasts a general register to every lane (R182) -/
  | vbcast (d : BitVec 5) (a : BitVec 5) (e : BitVec 3)
  /-- VEXT. Extracts one lane to a general register (R182) -/
  | vext (d : BitVec 5) (a : BitVec 5) (b : BitVec 5) (e : BitVec 3)
  /-- VINS. Inserts a general register into one lane (R182) -/
  | vins (d : BitVec 5) (a : BitVec 5) (b : BitVec 5) (e : BitVec 3)
  /-- VPACK. Narrows two registers into one (R178) -/
  | vpack (d : BitVec 5) (a : BitVec 5) (b : BitVec 5) (e : BitVec 3)
  /-- VUNPK. Widens one half of a register (R179) -/
  | vunpk (d : BitVec 5) (a : BitVec 5) (e : BitVec 3) (h : BitVec 1)
  /-- VPOPC. Counts one bits in each lane (R182) -/
  | vpopc (d : BitVec 5) (a : BitVec 5) (e : BitVec 3)
  /-- KAND. ANDs two mask registers (R183) -/
  | kand (d : BitVec 3) (a : BitVec 3) (b : BitVec 3)
  /-- KOR. ORs two mask registers (R183) -/
  | kor (d : BitVec 3) (a : BitVec 3) (b : BitVec 3)
  /-- KNOT. Inverts a mask register (R183) -/
  | knot (d : BitVec 3) (a : BitVec 3)
  /-- KMOV. Copies a mask register to a mask register (R183) -/
  | kmov (d : BitVec 3) (a : BitVec 3)
  /-- KMOV_KG. Copies a general register into a mask register (R183) -/
  | kmovKg (d : BitVec 3) (a : BitVec 5)
  /-- KMOV_GK. Copies a mask register into a general register (R183) -/
  | kmovGk (d : BitVec 5) (a : BitVec 3)
  /-- GANG. Locks 2, 4 or 8 cores of the cluster to the leader's stream and reports a status (R184) -/
  | gang (d : BitVec 5) (n : BitVec 2)
  /-- MZERO. Clears a C tile to +0 (R202) -/
  | mzero (t : BitVec 4)
  /-- MLDB. Loads a weight slot from a column-major image (R200) -/
  | mldb (d : BitVec 5) (a : BitVec 5) (f : BitVec 3) (h : BitVec 1) (v : BitVec 1) (w : BitVec 4)
  /-- MMA. Multiplies an A tile by a weight slot into a C tile (R203) -/
  | mma (t : BitVec 4) (a : BitVec 5) (b : BitVec 5) (h : BitVec 1) (v : BitVec 1) (w : BitVec 4)
  /-- MDRAIN. Narrows a C tile into A as BF16 or E2M1 tile rows (R204) -/
  | mdrain (t : BitVec 4) (x : BitVec 1) (a : BitVec 5) (b : BitVec 5) (h : BitVec 1) (f : BitVec 1) (c : BitVec 1)
  /-- MSCALE. Rescales a C tile in place (R205) -/
  | mscale (t : BitVec 4) (b : BitVec 5) (v : BitVec 1) (i : BitVec 1)
  /-- MSTAT. Waits for accepted matrix work and reads MXSTAT or a slot status (R206) -/
  | mstat (d : BitVec 5) (a : BitVec 5) (s : BitVec 1)
  /-- MTR. Loads a weight slot from a row-major image (R200) -/
  | mtr (d : BitVec 5) (a : BitVec 5) (f : BitVec 3) (h : BitVec 1) (v : BitVec 1) (w : BitVec 4)
  /-- TQ_LD. Copies 1,024 bytes of S into one well row (R215) -/
  | tqLd (d : BitVec 5) (a : BitVec 5) (b : BitVec 5)
  /-- TQ_Q. Looks up 64 indices in a well table (R216) -/
  | tqQ (d : BitVec 5) (a : BitVec 5) (b : BitVec 5) (o : BitVec 1)
  /-- TQ_QS. Looks up 64 indices and sums them in groups (R217) -/
  | tqQs (d : BitVec 5) (a : BitVec 5) (b : BitVec 5) (g : BitVec 2)
  /-- TQ_SCAN. Sends chunks of items for the well to score into memory, restartably (R219) -/
  | tqScan (d : BitVec 5)
  /-- TQ_WAIT. Waits for the context's table queries and reads and clears QSTAT (R220) -/
  | tqWait (d : BitVec 5)
  /-- SF_RCP. Correctly rounded reciprocal of 16 FP32 lanes (R224) -/
  | sfRcp (d : BitVec 5) (a : BitVec 5)
  /-- SF_RSQ. Correctly rounded reciprocal square root (R224) -/
  | sfRsq (d : BitVec 5) (a : BitVec 5)
  /-- SF_SQRT. Correctly rounded square root (R224) -/
  | sfSqrt (d : BitVec 5) (a : BitVec 5)
  /-- SF_EXP2. Correctly rounded base-2 exponential (R224) -/
  | sfExp2 (d : BitVec 5) (a : BitVec 5)
  /-- SF_LOG2. Correctly rounded base-2 logarithm (R224) -/
  | sfLog2 (d : BitVec 5) (a : BitVec 5)
  /-- HSET. Configures or unconfigures a circular-buffer handle after PEND drains (R230) -/
  | hset (h : BitVec 4) (a : BitVec 5)
  /-- HWAIT. Waits until a handle holds w filled slots (R230) -/
  | hwait (h : BitVec 4) (w : BitVec 4)
  /-- HADV. Advances a handle's consumer pointer past n slots (R230) -/
  | hadv (h : BitVec 4) (n : BitVec 5)
  /-- HPUB. Publishes n slots of a core-produced handle (R230) -/
  | hpub (h : BitVec 4) (n : BitVec 5)
  /-- HSTAT. Reads a handle's state or configuration word (R230) -/
  | hstat (d : BitVec 5) (h : BitVec 4) (c : BitVec 1)
  /-- CP_GET. Issues a copy job from a global box into A, S, a handle or a weight slot (R240) -/
  | cpGet (d : BitVec 5) (a : BitVec 5) (p : BitVec 2)
  /-- CP_PUT. Issues a copy job from A or S to a global box (R240) -/
  | cpPut (d : BitVec 5) (a : BitVec 5) (p : BitVec 1)
  /-- CP_GATH. Issues a restartable indexed row gather into the local side (R238) -/
  | cpGath (d : BitVec 5) (a : BitVec 5) (b : BitVec 5) (p : BitVec 2)
  /-- CP_SCAT. Issues an indexed row scatter from the local side (R238) -/
  | cpScat (d : BitVec 5) (a : BitVec 5) (b : BitVec 5) (p : BitVec 1)
  /-- CP_RED. Issues a job that reduces a global box into the local side (R239) -/
  | cpRed (d : BitVec 5) (a : BitVec 5) (p : BitVec 1)
  /-- CP_STAT. Reads a job status, fault address, or clears and reads the one-sided status (R244) -/
  | cpStat (d : BitVec 5) (a : BitVec 5) (p : BitVec 2)
  /-- CP_WAIT. Waits until a job is complete and returns its status (R244) -/
  | cpWait (d : BitVec 5) (a : BitVec 5)
  /-- CC_SET. Writes both halves of a completion counter (R245) -/
  | ccSet (c : BitVec 4) (a : BitVec 5)
  /-- CC_WAIT. Waits until a completion counter's DONE equals EXPECT (R245) -/
  | ccWait (d : BitVec 5) (c : BitVec 4)
  /-- SLEEP_P. Sleeps until a job's promised cycle, trapping if the job is then incomplete (R244) -/
  | sleepP (a : BitVec 5)
  /-- SLEEP_C. Sleeps until CYC reaches a given cycle (R244) -/
  | sleepC (a : BitVec 5)
  /-- PGET. Issues a one-sided read of another core's A or S (R247) -/
  | pget (a : BitVec 5) (b : BitVec 5) (s : BitVec 1)
  /-- PPUT. Issues a one-sided write into another core's A or S (R247) -/
  | pput (a : BitVec 5) (b : BitVec 5) (s : BitVec 1)
  /-- CTRB. Contributes a value to a group round (R252) -/
  | ctrb (a : BitVec 5) (n : BitVec 6)
  /-- GRD. Reads a group result, waiting for a pending round (R252) -/
  | grd (d : BitVec 5) (n : BitVec 6)
  /-- GRPSET. Writes a group's configuration word into every router of its tree (R251) -/
  | grpset (a : BitVec 5) (n : BitVec 6)
  /-- SS_ISECT. Intersects two sorted lists, restartably (R267) -/
  | ssIsect (d : BitVec 5) (s : BitVec 1)
  /-- SS_UNION. Unions two sorted lists, restartably (R267) -/
  | ssUnion (d : BitVec 5) (s : BitVec 1)
  /-- SS_MERGE. Merges two sorted lists keeping duplicates, restartably (R267) -/
  | ssMerge (d : BitVec 5) (s : BitVec 1)
  /-- SS_DIFF. Emits X minus Y of two sorted lists, restartably (R267) -/
  | ssDiff (d : BitVec 5) (s : BitVec 1)
  /-- SS_SEEK. Gallops and halves to find the first element not below a target (R268) -/
  | ssSeek (d : BitVec 5)
  /-- JW_OPEN. Checks a join-tree descriptor and opens a walker on it (R261) -/
  | jwOpen (w : BitVec 1) (a : BitVec 5)
  /-- JW_NEXT. Emits up to 16 tuples of row ids and key codes, restartably (R262) -/
  | jwNext (d : BitVec 5) (k : BitVec 3) (w : BitVec 1)
  /-- JW_CNT. Counts the tuples of 16 key codes (R263) -/
  | jwCnt (d : BitVec 5) (a : BitVec 5) (w : BitVec 1)
  /-- JW_CLOSE. Closes a walker (R264) -/
  | jwClose (w : BitVec 1)
  /-- KACC. Accumulates values into a key-indexed array locally, remotely, or by appending to bins (R271) -/
  | kacc (d : BitVec 5) (a : BitVec 5) (b : BitVec 5) (m : BitVec 2) (t : BitVec 1)
  /-- KEXP. Reads the array word of each active key into a vector (R275) -/
  | kexp (d : BitVec 5) (a : BitVec 5) (b : BitVec 5) (m : BitVec 2)
  /-- KFLUSH. Applies the bins of one key range to an array in directory and append order (R274) -/
  | kflush (d : BitVec 5) (a : BitVec 5) (t : BitVec 1)
  /-- KCNT. Counts keys as KACC.i32 with the value 1 (R276) -/
  | kcnt (a : BitVec 5) (b : BitVec 5) (m : BitVec 2)
  /-- AMOADD. Atomically adds at the home engine and returns the old word (R280) -/
  | amoadd (d : BitVec 5) (a : BitVec 5) (b : BitVec 5)
  /-- AMOAND. Atomic AND returning the old word (R280) -/
  | amoand (d : BitVec 5) (a : BitVec 5) (b : BitVec 5)
  /-- AMOOR. Atomic OR returning the old word (R280) -/
  | amoor (d : BitVec 5) (a : BitVec 5) (b : BitVec 5)
  /-- AMOXOR. Atomic XOR returning the old word (R280) -/
  | amoxor (d : BitVec 5) (a : BitVec 5) (b : BitVec 5)
  /-- AMOMIN. Atomic signed minimum returning the old word (R280) -/
  | amomin (d : BitVec 5) (a : BitVec 5) (b : BitVec 5)
  /-- AMOMAX. Atomic signed maximum returning the old word (R280) -/
  | amomax (d : BitVec 5) (a : BitVec 5) (b : BitVec 5)
  /-- AMOMINN. Atomic unsigned minimum returning the old word (R280) -/
  | amominn (d : BitVec 5) (a : BitVec 5) (b : BitVec 5)
  /-- AMOMAXN. Atomic unsigned maximum returning the old word (R280) -/
  | amomaxn (d : BitVec 5) (a : BitVec 5) (b : BitVec 5)
  /-- AMOSWP. Atomic swap returning the old word (R280) -/
  | amoswp (d : BitVec 5) (a : BitVec 5) (b : BitVec 5)
  /-- AMOCAS. Atomic compare-and-swap against D, returning the old word (R280) -/
  | amocas (d : BitVec 5) (a : BitVec 5) (b : BitVec 5)
  /-- AMOFADD. Atomic FP32 add on the low word, returning the old word (R280) -/
  | amofadd (d : BitVec 5) (a : BitVec 5) (b : BitVec 5)
  /-- REDADD. Sends a wrapping add reduction through the combining buffer (R281) -/
  | redadd (a : BitVec 5) (b : BitVec 5)
  /-- REDMIN. Sends a signed minimum reduction (R281) -/
  | redmin (a : BitVec 5) (b : BitVec 5)
  /-- REDMAX. Sends a signed maximum reduction (R281) -/
  | redmax (a : BitVec 5) (b : BitVec 5)
  /-- REDFADD. Sends an FP32 add reduction (R281) -/
  | redfadd (a : BitVec 5) (b : BitVec 5)
  /-- REDOR. Sends an OR reduction (R281) -/
  | redor (a : BitVec 5) (b : BitVec 5)
  /-- BIND. Binds a region to a sync object for the address space (R283) -/
  | bind (d : BitVec 5) (a : BitVec 5) (b : BitVec 5)
  /-- UNBIND. Removes one exact binding of a region from a sync object (R283) -/
  | unbind (d : BitVec 5) (a : BitVec 5) (b : BitVec 5)
  /-- ACQ. Requests a sync object in exclusive or shared mode at its home engine (R285) -/
  | acq (d : BitVec 5) (a : BitVec 5) (s : BitVec 1)
  /-- REL. Writes back the object's regions, drains the context's work and releases the object (R286) -/
  | rel (a : BitVec 5)
  /-- FENCE. Orders the context's accesses and at die scope or wider writes back or discards cache lines (R288) -/
  | fence (s : BitVec 3) (k : BitVec 2)
  /-- BAR_INIT. Initialises a barrier with an arrival count (R290) -/
  | barInit (a : BitVec 5) (n : BitVec 9)
  /-- BAR_ENROL. Enrols the context in a barrier (R290) -/
  | barEnrol (n : BitVec 9)
  /-- BAR_ARR. Arrives at a barrier, possibly completing its phase (R290) -/
  | barArr (n : BitVec 9)
  /-- BAR_WAIT. Waits while the context's PEND bit is set (R290) -/
  | barWait (n : BitVec 9)
  /-- BAR_SIG. Sends one arrival to a barrier of another context (R292) -/
  | barSig (a : BitVec 5) (n : BitVec 9)
  /-- BAR_DROP. Drops the context from a barrier (R291) -/
  | barDrop (n : BitVec 9)
  /-- BAR_GREL. Arrives at a barrier whose completion contributes to a group round for a staggered release (R293) -/
  | barGrel (n : BitVec 9) (g : BitVec 6)
  /-- MSG_SEND. Sends an active message and returns a send id (R296) -/
  | msgSend (d : BitVec 5) (a : BitVec 5) (b : BitVec 5)
  /-- MSG_SENDW. Sends an active message and waits for its status (R296) -/
  | msgSendw (d : BitVec 5) (a : BitVec 5) (b : BitVec 5)
  /-- MSG_STAT. Reads the status of a send id without waiting (R296) -/
  | msgStat (d : BitVec 5) (a : BitVec 5)
  /-- MSG_MASK. Masks route classes of the core's handlers (R298) -/
  | msgMask (a : BitVec 5)
  /-- MSG_UNMASK. Unmasks route classes of the core's handlers (R298) -/
  | msgUnmask (a : BitVec 5)
  /-- SW_RD. Captures a ring slot's payload at its passage (R302) -/
  | swRd (d : BitVec 5) (a : BitVec 5)
  /-- SW_ADD. Adds into a ring slot at its passage and returns the old payload (R302) -/
  | swAdd (d : BitVec 5) (a : BitVec 5) (b : BitVec 5) (t : BitVec 1)
  /-- SW_MAX. Takes a lane-wise maximum into a ring slot (R302) -/
  | swMax (d : BitVec 5) (a : BitVec 5) (b : BitVec 5) (t : BitVec 1)
  /-- SW_SWAP. Swaps a ring slot's payload (R302) -/
  | swSwap (d : BitVec 5) (a : BitVec 5) (b : BitVec 5)
  /-- SW_CAS. Compares and swaps a ring slot's whole payload (R302) -/
  | swCas (d : BitVec 5) (a : BitVec 5) (b : BitVec 5)
  /-- SW_BOARD. Claims a named or any free ring slot with a tag and initial payload (R303) -/
  | swBoard (d : BitVec 5) (a : BitVec 5) (b : BitVec 5)
  /-- SW_ALIGHT. Writes an owned slot's payload to its recorded address and frees it (R304) -/
  | swAlight (a : BitVec 5)
  /-- SW_WAIT. Waits for the context's ring operations and alights, then reads and clears RSTAT (R305) -/
  | swWait (d : BitVec 5)
  /-- FORK. Pushes a child continuation record onto the core's deque (R311) -/
  | fork (d : BitVec 5) (a : BitVec 5) (b : BitVec 5)
  /-- JOIN. Continues when the join count is zero, else parks the strand in the join record (R312) -/
  | join (a : BitVec 5)
  /-- HALT. Waits for in-flight work and frees the context, optionally retaining local banks (R313) -/
  | halt (r : BitVec 1) (a : BitVec 5)
  /-- HALTJ. Decrements a join count, unparks the parent at zero, and frees the context (R313) -/
  | haltj (a : BitVec 5)
  /-- SUSPEND. Writes the strand's record at an address and frees the context (R312) -/
  | suspend (a : BitVec 5)
  /-- OXL. Writes a 16-bit immediate into one chunk of an ox register (R315) -/
  | oxl (n : BitVec 3) (c : BitVec 2) (i : BitVec 16)
  /-- OXM. Copies a general register into an ox register (R315) -/
  | oxm (n : BitVec 3) (a : BitVec 5)
  /-- OXM_TO_G. Copies an ox register into a general register (R315) -/
  | oxmToG (d : BitVec 5) (n : BitVec 3)
  /-- OXLD. Loads an ox register from global memory (R316) -/
  | oxld (n : BitVec 3) (a : BitVec 5) (o : BitVec 12)
  /-- OXST. Stores an ox register to global memory (R316) -/
  | oxst (a : BitVec 5) (n : BitVec 3) (o : BitVec 12)
  /-- SYSRD. Reads a system register (R317) -/
  | sysrd (d : BitVec 5) (i : BitVec 12)
  /-- SYSWR. Writes a system register that has no behaviour of its own, taking effect at retirement (R39) -/
  | syswr (a : BitVec 5) (i : BitVec 12)
  /-- TRAP. Takes a trap of the cause in a register with a given TRAPVAL (R318) -/
  | trap (a : BitVec 5) (b : BitVec 5)
  /-- VPFX. Prefix word giving the following vector instruction a mask, rounding mode or fourth operand (R88) -/
  | vpfx (m : BitVec 3) (z : BitVec 1) (r : BitVec 3) (x : BitVec 1) (v : BitVec 5)
  /-- ADDI_H. Short form of ADDI on g8 to g15 (R142) -/
  | addiH (d : BitVec 3) (a : BitVec 3) (i : BitVec 5)
  /-- ADD_H. Short form of ADD (R142) -/
  | addH (d : BitVec 3) (a : BitVec 3) (b : BitVec 3)
  /-- SUB_H. Short form of SUB (R142) -/
  | subH (d : BitVec 3) (a : BitVec 3) (b : BitVec 3)
  /-- AND_H. Short form of AND (R142) -/
  | andH (d : BitVec 3) (a : BitVec 3) (b : BitVec 3)
  /-- OR_H. Short form of OR (R142) -/
  | orH (d : BitVec 3) (a : BitVec 3) (b : BitVec 3)
  /-- XOR_H. Short form of XOR (R142) -/
  | xorH (d : BitVec 3) (a : BitVec 3) (b : BitVec 3)
  /-- SHL_H. Short form of SHL (R142) -/
  | shlH (d : BitVec 3) (a : BitVec 3) (b : BitVec 3)
  /-- SHR_H. Short form of SHR (R142) -/
  | shrH (d : BitVec 3) (a : BitVec 3) (b : BitVec 3)
  /-- SHA_H. Short form of SHA (R142) -/
  | shaH (d : BitVec 3) (a : BitVec 3) (b : BitVec 3)
  /-- LDW_H. Short form of LDW in S (R82) -/
  | ldwH (d : BitVec 3) (a : BitVec 3) (i : BitVec 5)
  /-- LDD_H. Short form of LDD in S (R82) -/
  | lddH (d : BitVec 3) (a : BitVec 3) (i : BitVec 5)
  /-- STW_H. Short form of STW in S (R82) -/
  | stwH (d : BitVec 3) (a : BitVec 3) (i : BitVec 5)
  /-- STD_H. Short form of STD in S (R82) -/
  | stdH (d : BitVec 3) (a : BitVec 3) (i : BitVec 5)
  /-- BEQ_H. Short form of BEQ with a 5-bit halfword offset (R142) -/
  | beqH (d : BitVec 3) (a : BitVec 3) (i : BitVec 5)
  /-- BNE_H. Short form of BNE with a 5-bit halfword offset (R142) -/
  | bneH (d : BitVec 3) (a : BitVec 3) (i : BitVec 5)
  /-- SLTI_H. Short form of SLTI (R142) -/
  | sltiH (d : BitVec 3) (a : BitVec 3) (i : BitVec 5)
  /-- ANDI_H. Short form of ANDI (R142) -/
  | andiH (d : BitVec 3) (a : BitVec 3) (i : BitVec 5)
  /-- DISBAND. Ends the gang after earlier instructions retire and frees the followers (R187) -/
  | disband
  /-- MSG_RET. Ends a handler and frees its mailbox row (R298) -/
  | msgRet
  /-- YIELD. Pushes the strand onto the tail of the core's deque and frees the context (R312) -/
  | yield
  /-- SPILLMAP_WRITE. A SYSWR to SPILLMAP that withholds C columns or waits for parked registers to move before releasing them (R38) -/
  | spillmapWrite
  /-- ERET. Leaves trap mode and resumes at TRAPPC (R320) -/
  | eret
  /-- BRK. Takes a breakpoint trap (R318) -/
  | brk
  /-- NOP. Has no effect (R318) -/
  | nop
  /-- NOP_H. Short form of NOP (R82) -/
  | nopH
  /-- HALT_H. Short form of HALT without retain (R82) -/
  | haltH
  /-- BRK_H. Short form of BRK (R82) -/
  | brkH
  /-- ASYNC_TRAP. A pending cause 0x0A or 0x0B trap is taken at the next instruction boundary (R319) -/
  | asyncTrap
  /-- PACKAGE_RESET. Reset release zeroes CYC and starts the package from the mask ROM (R7) -/
  | packageReset
  /-- LINK_TRAINING. The CXL link trains and negotiates only the supported features (R441) -/
  | linkTraining
  /-- POWER_WINDOW. At the end of each 24,000-cycle window the module power is compared with its limits (R472) -/
  | powerWindow
  /-- THERMAL_THROTTLE. A die reaching 105 degrees C steps its clusters down each window until below 100 (R473) -/
  | thermalThrottle
  /-- THERMAL_TRIP. A die reaching 115 degrees C removes power from every compute die and holds reset (R473) -/
  | thermalTrip
  /-- HOST_MEM_WRITE. A host CXL.mem write is checked in class 3 and performed at the memory controller (R443) -/
  | hostMemWrite
  /-- HOST_MEM_READ. A host CXL.mem read returns memory as it stands, or poison when refused (R443) -/
  | hostMemRead
  /-- HOST_SNOOP. A host snoop of a host line held by the device is answered by the DCOH alone (R444) -/
  | hostSnoop
  /-- BOARD_REG. Mailbox command 0xC001 registers a launch board (R446) -/
  | boardReg
  /-- BOARD_UNREG. Mailbox command 0xC002 asks to remove a board once its last launch completes (R446) -/
  | boardUnreg
  /-- BOARD_REMOVE. The board is removed after its last taken launch has completed (R446) -/
  | boardRemove
  /-- ASROOT. Mailbox command 0xC010 writes an address-space root entry on every die (R420) -/
  | asroot
  /-- INVAL. Mailbox command 0xC011 starts an invalidation of translations (R426) -/
  | inval
  /-- INVALIDATION_COMPLETE. An invalidation completes once no TLB holds a match and all matching accesses are performed (R426) -/
  | invalidationComplete
  /-- PREEMPT. Mailbox command 0xC020 saves every context of a launch into an image area (R447) -/
  | preempt
  /-- RESUME. Mailbox command 0xC021 rebinds a pre-empted launch and restores its images (R447) -/
  | resume
  /-- KILL. Mailbox command 0xC022 kills every context of a launch and discards its pending work (R446) -/
  | kill
  /-- PEER_SET. Mailbox command 0xC030 writes an Ultra Ethernet peer entry (R450) -/
  | peerSet
  /-- REGION_SET. Mailbox command 0xC031 writes a receive region (R451) -/
  | regionSet
  /-- FW_LOAD. Mailbox command 0xC0F0 verifies an image and writes it to flash (R468) -/
  | fwLoad
  /-- GET_VERSION. SPDM request served over DOE (R470) -/
  | getVersion
  /-- GET_CAPABILITIES. SPDM request served over DOE (R470) -/
  | getCapabilities
  /-- NEGOTIATE_ALGORITHMS. SPDM request restricted to RSASSA-3072 and SHA-256 (R470) -/
  | negotiateAlgorithms
  /-- GET_DIGESTS. SPDM request for certificate digests (R470) -/
  | getDigests
  /-- GET_CERTIFICATE. SPDM request for the identity certificate (R470) -/
  | getCertificate
  /-- CHALLENGE. SPDM challenge signed with the identity key (R470) -/
  | challenge
  /-- GET_MEASUREMENTS. SPDM request returning the four measurements (R470) -/
  | getMeasurements
  /-- LAUNCH_RECORD_TAKE. Scerix takes a present launch record into an LPB, sets TAKEN and checks it (R404) -/
  | launchRecordTake
  /-- LAUNCH_BIND. Once clusters and wells are free, Scerix binds a launch and starts its entry context (R409) -/
  | launchBind
  /-- BIND_RECORD_REBIND. A bind record with ACT 0 for a new launch resets and rebinds the context (R411) -/
  | bindRecordRebind
  /-- BIND_RECORD_RUN. A bind record with ACT 0 for the same launch lets the free context take work (R411) -/
  | bindRecordRun
  /-- BIND_RECORD_ENTRY. A bind record with ACT 1 picks up the entry strand and starts the launch (R411) -/
  | bindRecordEntry
  /-- BIND_RECORD_UNBIND. A bind record with ACT 2 asks for the slot to be cleared once the context is free (R411) -/
  | bindRecordUnbind
  /-- UNBIND_VALID_CLEAR. Once the context is free, dispatch clears V of an ACT 2 record (R411) -/
  | unbindValidClear
  /-- PREEMPT_SAVE. ACT 3 with OP 1 saves the context into a save image (R434) -/
  | preemptSave
  /-- PREEMPT_RESTORE. ACT 3 with OP 2 restores a context from its save image (R437) -/
  | preemptRestore
  /-- PREEMPT_KILL. ACT 3 with OP 3 kills a resident context or a saved image (R438) -/
  | preemptKill
  /-- LAUNCH_COMPLETE. A launch found complete is flushed, unbound and given its completion record (R413) -/
  | launchComplete
  /-- MSIX_SEND. Once the completion record is in memory, the MSI-X vector is sent (R413) -/
  | msixSend
  /-- CONTEXT_DISPATCH. A free context is given a held record, its deque's head, or starts a steal sequence (R364) -/
  | contextDispatch
  /-- STEAL_BACKOFF_EXPIRE. After a failed round's back-off wait, the next steal round begins (R365) -/
  | stealBackoffExpire
  /-- STEAL_REQUEST_ARRIVE. A victim's queue engine answers a steal request from its deque's tail (R367) -/
  | stealRequestArrive
  /-- STEAL_REPLY_ARRIVE. A steal reply arrives; its record is held for pickup or pushed, or the next try is sent (R368) -/
  | stealReplyArrive
  /-- DEQUE_MIGRATE. The queue engine moves a record between the overflow and resident parts, or performs a waiting push (R361) -/
  | dequeMigrate
  /-- BANK_POWER_DOWN. A core with no work and no retain powers down its A, C and S banks (R31) -/
  | bankPowerDown
  /-- CACHE_EVICT. A cluster cache evicts a line, writing back its dirty bytes (R330) -/
  | cacheEvict
  /-- COPY_PAGE_TRANSLATE. A copy job translates the next page of its box before requesting its bytes (R240) -/
  | copyPageTranslate
  /-- COPY_PIECE_LAND. One piece of at most 64 bytes of a copy job lands at a local port or in memory (R322) -/
  | copyPieceLand
  /-- REMOTE_ACCESS_SERVE. A target port serves a PGET, PPUT, mode-3 KACC or S-alias access (R248) -/
  | remoteAccessServe
  /-- ONE_SIDED_REPLY. Returned PGET data lands at the issuer and counts into its completion counter (R248) -/
  | oneSidedReply
  /-- MATRIX_ACCEPT. A matrix instruction passes its checks and captures its source at acceptance (R193) -/
  | matrixAccept
  /-- MATRIX_COMPLETE. An accepted matrix instruction completes and writes its destination and flags (R193) -/
  | matrixComplete
  /-- SLOT_PARITY_CHECK. A background parity check of a weight slot, at least once every 2^22 cycles (R208) -/
  | slotParityCheck
  /-- WELL_SERVICE. A well serves one TQ.LD, TQ.Q, TQ.QS or scan item indivisibly (R221) -/
  | wellService
  /-- QUERY_RESULT_LAND. Table-query results are written to registers or A and counted (R216) -/
  | queryResultLand
  /-- SCAN_SUM_LAND. A scan item's sum lands in memory and counts into DONE (R219) -/
  | scanSumLand
  /-- SFU_SERVE. The special-function unit serves the next queued entry (R226) -/
  | sfuServe
  /-- AMO_APPLY. An atomic is applied indivisibly at its home engine (R280) -/
  | amoApply
  /-- AMO_REPLY. An atomic's old value arrives and is written to D (R280) -/
  | amoReply
  /-- REDUCTION_APPLY. A flushed merged reduction is applied at its engine as one term (R282) -/
  | reductionApply
  /-- ACQ_GRANT. An object grant arrives; DEAD is reported and bound lines are written back and discarded (R285) -/
  | acqGrant
  /-- OBJECT_RELEASE. After a REL's write-backs and work drain, the object is released at its engine (R286) -/
  | objectRelease
  /-- BAR_SIGNAL_ARRIVE. A barrier signal arrives and is applied, saved in an image, or counted as stray (R292) -/
  | barSignalArrive
  /-- GROUP_ROUND_COMPLETE. The root completes a group round once every member core has contributed (R252) -/
  | groupRoundComplete
  /-- GROUP_RESULT_ARRIVE. A round's result reaches the grpN register of a contributing context (R252) -/
  | groupResultArrive
  /-- GRPSET_COMPLETE. A GRPSET completes when every router of the tree holds the new word (R251) -/
  | grpsetComplete
  /-- GREL_RELEASE. At T plus STEP times the cluster rank, a core's BAR.GREL waiters are released (R293) -/
  | grelRelease
  /-- MESSAGE_ARRIVE. A message arriving at a target is accepted into a mailbox row or refused (R297) -/
  | messageArrive
  /-- MAILBOX_ROW_WRITE. An accepted row is written 64 cycles after arrival at a core whose banks were off (R376) -/
  | mailboxRowWrite
  /-- HANDLER_START. The idle handler context starts the handler of the oldest unmasked accepted row (R298) -/
  | handlerStart
  /-- MESSAGE_STATUS_RETURN. A message's acceptance or refusal status returns to its sender (R296) -/
  | messageStatusReturn
  /-- RING_PASSAGE. A slot passes a station, which applies its accepted operations in acceptance order (R302) -/
  | ringPassage
  /-- RING_ORIGIN. A slot passes the origin, incrementing REV and beginning a new revolution (R379) -/
  | ringOrigin
  /-- BOARD_WINDOW_EXPIRE. An any-free board that claimed no slot in its window fails with reason 3 (R383) -/
  | boardWindowExpire
  /-- ALIGHT_WRITE_LAND. An alighting payload lands in memory as one 64-byte write (R304) -/
  | alightWriteLand
  /-- TLB_WALK_COMPLETE. A page walk finishes and installs its leaf or returns a fault to every waiting miss (R425) -/
  | tlbWalkComplete
  /-- PACKET_RECEIVE. An Ultra Ethernet packet is placed at its offset or refused (R453) -/
  | packetReceive
  /-- PEER_READ_REQUEST. A remote read request is served from the receive region (R453) -/
  | peerReadRequest
  /-- PACKET_ACK. An acknowledgement arrives and its bytes count into the sender's DONE (R454) -/
  | packetAck
  /-- TRANSPORT_FAILURE. A packet unacknowledged through all retries stops its peer job with ERR 7 (R454) -/
  | transportFailure
  /-- CHUNK_LOST. A reduction group reports a lost chunk and each member reruns the fold (R458) -/
  | chunkLost
  /-- SLEEP_WAKE. A sleeping context wakes when CYC reaches its cycle (R244) -/
  | sleepWake
  /-- HANDLE_WAIT_TIMEOUT. A handle wait that lasts 2^20 cycles traps with cause 0x11 (R232) -/
  | handleWaitTimeout
  /-- CC_WAIT_TIMEOUT. A CC.WAIT with nothing in flight for 2^20 cycles traps with cause 0x11 (R245) -/
  | ccWaitTimeout
  /-- PATROL_SCRUB. Patrol scrub reads every DRAM line once in each 2^38 cycles (R459) -/
  | patrolScrub
  /-- FUNCTION_FENCE. Scerix fences a failing cluster, channel, well, lane, endpoint or die (R462) -/
  | functionFence
  /-- CHANNEL_RETIRE. At quiescence a fenced channel is retired and the geometry version raised (R464) -/
  | channelRetire
  /-- SELF_REFRESH_ENTER. An idle channel enters self-refresh once its wells have drained (R465) -/
  | selfRefreshEnter
  /-- ACCESS_TABLE_WRITE. A management core writes an access-table row, discarded once locked (R427) -/
  | accessTableWrite
  /-- ACCESS_TABLE_LOCK. A management core sets a target's LOCK bit (R430) -/
  | accessTableLock
  /-- ILLEGAL_INSTRUCTION. The fetch and decode of an encoding that is not an instruction of revision 3 takes cause 0x02 precisely (R77) -/
  | illegalInstruction
  /-- FETCH_FAULT. An instruction fetch that cannot read its halfwords, or that reads a non-raw or non-executable page, takes cause 0x04 or 0x05 at PC (R53) -/
  | fetchFault
  /-- PREFETCH_FILL. The line fill that a PF requested arrives in the cluster cache, or its fault or error is dropped and reported (R158) -/
  | prefetchFill
  /-- ENDPOINT_LINK_DOWN. An Ultra Ethernet endpoint's link goes down, which starts the 2^32-cycle count that leads to fencing (R462) -/
  | endpointLinkDown
  /-- ENDPOINT_LINK_UP. An endpoint's link comes back before the fence, which ends the count of R462 (R462) -/
  | endpointLinkUp
  /-- PACKET_RETRANSMIT. A sender endpoint retransmits an unacknowledged packet with its entropy value kept (R454) -/
  | packetRetransmit
  /-- HDM_DECODER_SET. The host sets an HDM decoder's host base, which fixes which host addresses reach first- or second-tier memory (R442) -/
  | hdmDecoderSet
  /-- EVENT_LOG_CLEAR. The host clears records from the CXL event log, so that a full log can take records again (R461) -/
  | eventLogClear
  /-- DOE_DISCOVERY. The host sends a DOE discovery request and the device answers with its supported DOE protocols (R441) -/
  | doeDiscovery
  deriving DecidableEq, Repr

end Sys2Proof
end

