-- ==== Sys2Proof/Machine/Forms.lean ====
section
/-! DEFINITION. The checks that an instruction's fields must pass: those of the opcode map that go beyond a row's fixed bits
(03_opcode_map.md R79, R81, R89 and each instruction's own encoding rule), and, for events, that they name parts the
package has (00_scope.md R1). -/
namespace Sys2Proof

/-- The checks an instruction can fail, one name each. -/
inductive Malformed where
  /-- LDWT or TSTF outside a: and s:, or c: where only VLD and VST reach it (R81). -/
  | space
  /-- An element-format code that the space does not take (R161). -/
  | elementFormat
  /-- An ET or operator that the instruction does not accept (R65, R171, R173, R180, R182). -/
  | elementType
  /-- A VCVT pair that is no conversion (R175). -/
  | conversion
  /-- GANG with FN[1:0] = 0 (R184). -/
  | gangSize
  /-- A WAIT or advance bit that does not go with the handle bit, or a handle above 15 (R198, R233). -/
  | handleForm
  /-- A field the form leaves unused is not zero (R79, R198, R233, R308). -/
  | unusedField
  /-- TQ.QS with OPT[1:0] = 0b11 (R214). -/
  | groupCode
  /-- A count or wait of zero (R229). -/
  | zeroCount
  /-- An OPT[1:0] value not listed for the copy instruction (R233). -/
  | copyForm
  /-- JW.NEXT with mask field 0 (R259). -/
  | maskZero
  /-- KEXP in mode 3 (R270). -/
  | keyMode
  /-- A FENCE scope or kind not listed (R288). -/
  | fenceForm
  /-- A prefix field that no instruction accepts (R89). -/
  | prefixField
  deriving DecidableEq, Repr

/-- `m` when the condition fails. -/
def need (c : Bool) (m : Malformed) : Option Malformed := if c then none else some m

/-- The first of two checks that fails. -/
def firstOf (a b : Option Malformed) : Option Malformed := match a with
  | some m => some m
  | none => b

/-- The form of a matrix source by handle or by address (R198). -/
def matrixSource (a : BitVec 5) (h v : BitVec 1) (w : BitVec 4) : Option Malformed :=
  if h = 1#1 then need (w ≠ 0#4 && a.getLsbD 4 = false) .handleForm
  else need (w = 0#4 && v = 0#1) .handleForm

/-- The form of a copy request's local side (R233): handle numbers stand in A[3:0]. -/
def copySide (p : BitVec 2) (a : BitVec 5) : Option Malformed :=
  if p = 2#2 then need (a.getLsbD 4 = false) .handleForm else none

/-- The first check of R79, R81 or the instruction's own encoding rule that it fails; none when it is well formed. -/
def malformed : Instr → Option Malformed
  | .ldwt _ _ _ s => need (s = 1#2 || s = 3#2) .space
  | .tstf _ _ _ s => need (s = 1#2 || s = 3#2) .space
  | .vlds _ _ _ _ s => need (s ≠ 2#2) .space
  | .vldx _ _ _ _ s => need (s ≠ 2#2) .space
  | .vstx _ _ _ _ s => need (s ≠ 2#2) .space
  | .vlde _ _ _ f s => firstOf (need (s ≠ 2#2) .space)
      (need (if s = 0#2 then f = 0#3 else f ≠ 0#3 && f.toNat < 5) .elementFormat)
  | .vste _ _ _ f s => firstOf (need (s ≠ 2#2) .space)
      (need (if s = 0#2 then f = 0#3 else f ≠ 0#3 && f.toNat < 5) .elementFormat)
  | .vand _ _ _ e => need (2 ≤ e.toNat) .elementType
  | .vor _ _ _ e => need (2 ≤ e.toNat) .elementType
  | .vxor _ _ _ e => need (2 ≤ e.toNat) .elementType
  | .vshl _ _ _ e => need (2 ≤ e.toNat) .elementType
  | .vshr _ _ _ e => need (2 ≤ e.toNat) .elementType
  | .vsha _ _ _ e => need (2 ≤ e.toNat) .elementType
  | .vfshl _ _ _ e => need (2 ≤ e.toNat) .elementType
  | .vfshr _ _ _ e => need (2 ≤ e.toNat) .elementType
  | .vcmp _ _ _ e c => need (c.toNat < 6 || (c.toNat < 8 && e.toNat < 2)) .elementType
  | .vcvt _ _ b t s => firstOf (need (t.toNat < 11 && s.toNat < 11 && t ≠ s) .conversion)
      (firstOf (need ((t ≠ 10#4 || s = 0#4) && (s ≠ 10#4 || t = 0#4)) .conversion)
        (need (t = 10#4 || b = 0#5) .unusedField))
  | .vred _ _ e o => need (o.toNat < 3 || (o.toNat < 6 && 2 ≤ e.toNat)) .elementType
  | .vscan _ _ e o => need (o.toNat < 3 || (o.toNat < 6 && 2 ≤ e.toNat)) .elementType
  | .vpack _ _ _ e => need (e = 1#3 || 4 ≤ e.toNat) .elementType
  | .vunpk _ _ e _ => need (e = 1#3 || 4 ≤ e.toNat) .elementType
  | .vpopc _ _ e => need (2 ≤ e.toNat) .elementType
  | .gang _ n => need (n ≠ 0#2) .gangSize
  | .mldb _ a _ h v w => matrixSource a h v w
  | .mtr _ a _ h v w => matrixSource a h v w
  | .mma _ a _ h v w => matrixSource a h v w
  | .mdrain _ _ a b h f _ => firstOf (need (h = 0#1 || a.getLsbD 4 = false) .handleForm)
      (need (f = 1#1 || b = 0#5) .unusedField)
  | .mstat _ a s => need (s = 1#1 || a = 0#5) .unusedField
  | .tqQs _ _ _ g => need (g ≠ 3#2) .groupCode
  | .hwait _ w => need (w ≠ 0#4) .zeroCount
  | .hadv _ n => need (n ≠ 0#5) .zeroCount
  | .hpub _ n => need (n ≠ 0#5) .zeroCount
  | .cpGet _ a p => copySide p a
  | .cpGath _ a _ p => firstOf (need (p ≠ 3#2) .copyForm) (copySide p a)
  | .cpStat _ a p => firstOf (need (p ≠ 3#2) .copyForm) (need (p ≠ 2#2 || a = 0#5) .unusedField)
  | .jwNext _ k _ => need (k ≠ 0#3) .maskZero
  | .kexp _ _ _ m => need (m ≠ 3#2) .keyMode
  | .fence s k => need (s.toNat < 5 && k ≠ 3#2) .fenceForm
  | .halt r a => need (r = 1#1 || a = 0#5) .unusedField
  | .vpfx m z r x v => need (r.toNat < 6 && (z = 0#1 || m ≠ 0#3) && (x = 1#1 || v = 0#5)) .prefixField
  | _ => none

end Sys2Proof
end

