-- ==== Sys2Proof/WellFormed.lean ====
section
/-! DEFINITION. Which instructions are well formed (03_opcode_map.md R79, R81, R89): those that pass every check of
Machine/Forms.lean. An event has no fields and is well formed. -/
namespace Sys2Proof

/-- An instruction is well formed when it fails no check. -/
def wellFormed (i : Instr) : Bool := (malformed i).isNone

end Sys2Proof
end

