-- ==== Sys2Proof/Decode.lean ====
section
/-! DEFINITION. The decoder of the K8J, total on any bytes (02_assembly_and_formats.md R51, R52, R59 to R67;
03_opcode_map.md R77 to R83, R88), and the encoder written from the same encoding tables. A word that is no
instruction is refused by name. -/
namespace Sys2Proof

/-- Why bytes are no instruction of encoding revision 3 (R77 steps 1 to 5). -/
inductive DecodeError where
  | truncated
  | unassignedMajor
  | unassignedSelector
  | reservedField
  | malformed (m : Malformed)
  deriving DecidableEq, Repr

/-- The fields of a 32-bit word (R59): FN, SUB, B, A, D and MAJ. -/
structure Fields where
  fn  : BitVec 7
  sub : BitVec 3
  b   : BitVec 5
  a   : BitVec 5
  d   : BitVec 5
  maj : BitVec 6
  deriving DecidableEq, Repr

/-- The fields of a 16-bit word (R67): bits [15:11], a′, d′ and op4. -/
structure Half where
  i  : BitVec 5
  a  : BitVec 3
  d  : BitVec 3
  op : BitVec 4
  deriving DecidableEq, Repr

/-- The fields a 32-bit word holds (R59). -/
def Fields.ofWord (w : BitVec 32) : Fields :=
  ⟨w.extractLsb' 25 7, w.extractLsb' 22 3, w.extractLsb' 17 5, w.extractLsb' 12 5, w.extractLsb' 7 5,
   w.extractLsb' 1 6⟩

/-- The 32-bit word that holds the fields, bit 0 one (R59). -/
def Fields.toWord (f : Fields) : BitVec 32 := f.fn ++ f.sub ++ f.b ++ f.a ++ f.d ++ f.maj ++ 1#1

/-- The fields a 16-bit word holds (R67). -/
def Half.ofWord (w : BitVec 16) : Half :=
  ⟨w.extractLsb' 11 5, w.extractLsb' 8 3, w.extractLsb' 5 3, w.extractLsb' 1 4⟩

/-- The 16-bit word that holds the fields, bit 0 zero (R67). -/
def Half.toWord (f : Half) : BitVec 16 := f.i ++ f.a ++ f.d ++ f.op ++ 0#1

/-- The instructions of MAJ 0x00 (R80). -/
def decodeMaj00 (f : Fields) : Except DecodeError Instr :=
  if f.sub = 0#3 then
    if f.fn = 0#7 then .ok (.add (f.d) (f.a) (f.b)) else
    if f.fn = 1#7 then .ok (.sub (f.d) (f.a) (f.b)) else
    .error .unassignedSelector
  else if f.sub = 1#3 then
    if f.fn = 0#7 then .ok (.and (f.d) (f.a) (f.b)) else
    if f.fn = 1#7 then .ok (.or (f.d) (f.a) (f.b)) else
    if f.fn = 2#7 then .ok (.xor (f.d) (f.a) (f.b)) else
    .error .unassignedSelector
  else if f.sub = 2#3 then
    if f.fn = 0#7 then .ok (.shl (f.d) (f.a) (f.b)) else
    if f.fn = 1#7 then .ok (.shr (f.d) (f.a) (f.b)) else
    if f.fn = 2#7 then .ok (.sha (f.d) (f.a) (f.b)) else
    .error .unassignedSelector
  else if f.sub = 3#3 then
    if f.fn = 0#7 then .ok (.mul (f.d) (f.a) (f.b)) else
    if f.fn = 1#7 then .ok (.mulh (f.d) (f.a) (f.b)) else
    if f.fn = 2#7 then .ok (.mulhn (f.d) (f.a) (f.b)) else
    if f.fn = 3#7 then .ok (.div (f.d) (f.a) (f.b)) else
    if f.fn = 4#7 then .ok (.divn (f.d) (f.a) (f.b)) else
    if f.fn = 5#7 then .ok (.rem (f.d) (f.a) (f.b)) else
    if f.fn = 6#7 then .ok (.remn (f.d) (f.a) (f.b)) else
    .error .unassignedSelector
  else if f.sub = 4#3 then
    if f.fn = 0#7 then .ok (.min (f.d) (f.a) (f.b)) else
    if f.fn = 1#7 then .ok (.max (f.d) (f.a) (f.b)) else
    if f.fn = 2#7 then .ok (.minn (f.d) (f.a) (f.b)) else
    if f.fn = 3#7 then .ok (.maxn (f.d) (f.a) (f.b)) else
    if f.fn = 4#7 then .ok (.slt (f.d) (f.a) (f.b)) else
    if f.fn = 5#7 then .ok (.sltn (f.d) (f.a) (f.b)) else
    .error .unassignedSelector
  else if f.sub = 5#3 then
    if f.fn = 0#7 then (if f.b = 0#5 then .ok (.clz (f.d) (f.a)) else .error .reservedField) else
    if f.fn = 1#7 then (if f.b = 0#5 then .ok (.ctz (f.d) (f.a)) else .error .reservedField) else
    if f.fn = 2#7 then (if f.b = 0#5 then .ok (.popc (f.d) (f.a)) else .error .reservedField) else
    .error .unassignedSelector
  else .error .unassignedSelector

/-- The instructions of MAJ 0x01 (R80). -/
def decodeMaj01 (f : Fields) : Except DecodeError Instr :=
  if f.sub = 0#3 then
    .ok (.addi (f.d) (f.a) (f.fn ++ f.b))
  else if f.sub = 1#3 then
    .ok (.andi (f.d) (f.a) (f.fn ++ f.b))
  else if f.sub = 2#3 then
    .ok (.ori (f.d) (f.a) (f.fn ++ f.b))
  else if f.sub = 3#3 then
    .ok (.xori (f.d) (f.a) (f.fn ++ f.b))
  else if f.sub = 4#3 then
    .ok (.slti (f.d) (f.a) (f.fn ++ f.b))
  else if f.sub = 5#3 then
    if (f.fn.extractLsb' 1 6) = 0#6 then .ok (.shli (f.d) (f.a) ((f.fn.extractLsb' 0 1) ++ f.b)) else .error .reservedField
  else if f.sub = 6#3 then
    if (f.fn.extractLsb' 1 6) = 0#6 then .ok (.shri (f.d) (f.a) ((f.fn.extractLsb' 0 1) ++ f.b)) else .error .reservedField
  else if f.sub = 7#3 then
    if (f.fn.extractLsb' 1 6) = 0#6 then .ok (.shai (f.d) (f.a) ((f.fn.extractLsb' 0 1) ++ f.b)) else .error .reservedField
  else .error .unassignedSelector

/-- The instructions of MAJ 0x02 (R80). -/
def decodeMaj02 (f : Fields) : Except DecodeError Instr :=
  if (f.sub.extractLsb' 0 2) = 0#2 then .ok (.tern (f.d) (f.a) (f.b) (f.fn ++ (f.sub.extractLsb' 2 1))) else .error .reservedField

/-- The instructions of MAJ 0x03 (R80). -/
def decodeMaj03 (f : Fields) : Except DecodeError Instr :=
  if f.sub = 0#3 then
    if (f.fn.extractLsb' 6 1) = 0#1 then .ok (.fshl (f.d) (f.a) (f.b) ((f.fn.extractLsb' 0 6))) else .error .reservedField
  else if f.sub = 1#3 then
    if (f.fn.extractLsb' 6 1) = 0#1 then .ok (.fshr (f.d) (f.a) (f.b) ((f.fn.extractLsb' 0 6))) else .error .reservedField
  else .error .unassignedSelector

/-- The instructions of MAJ 0x04 (R80). -/
def decodeMaj04 (f : Fields) : Except DecodeError Instr :=
  if f.sub = 0#3 then
    .ok (.bext (f.d) (f.a) ((f.fn.extractLsb' 0 1) ++ f.b) ((f.fn.extractLsb' 1 6)))
  else if f.sub = 1#3 then
    .ok (.bins (f.d) (f.a) ((f.fn.extractLsb' 0 1) ++ f.b) ((f.fn.extractLsb' 1 6)))
  else .error .unassignedSelector

/-- The instructions of MAJ 0x05 (R80). -/
def decodeMaj05 (f : Fields) : Except DecodeError Instr :=
  if f.sub = 0#3 then
    if (f.fn.extractLsb' 5 2) = 0#2 then .ok (.csel (f.d) (f.a) (f.b) ((f.fn.extractLsb' 0 5))) else .error .reservedField
  else .error .unassignedSelector

/-- The instructions of MAJ 0x0A (R80). -/
def decodeMaj0A (f : Fields) : Except DecodeError Instr :=
  .ok (.lui (f.d) (f.fn ++ f.sub ++ f.b ++ f.a))

/-- The instructions of MAJ 0x0B (R80). -/
def decodeMaj0B (f : Fields) : Except DecodeError Instr :=
  .ok (.addpc (f.d) (f.fn ++ f.sub ++ f.b ++ f.a))

/-- The instructions of MAJ 0x0C (R80). -/
def decodeMaj0C (f : Fields) : Except DecodeError Instr :=
  if f.sub = 0#3 then
    .ok (.beq (f.a) (f.b) (f.fn ++ f.d))
  else if f.sub = 1#3 then
    .ok (.bne (f.a) (f.b) (f.fn ++ f.d))
  else if f.sub = 2#3 then
    .ok (.blt (f.a) (f.b) (f.fn ++ f.d))
  else if f.sub = 3#3 then
    .ok (.bge (f.a) (f.b) (f.fn ++ f.d))
  else if f.sub = 4#3 then
    .ok (.bltn (f.a) (f.b) (f.fn ++ f.d))
  else if f.sub = 5#3 then
    .ok (.bgen (f.a) (f.b) (f.fn ++ f.d))
  else .error .unassignedSelector

/-- The instructions of MAJ 0x0D (R80). -/
def decodeMaj0D (f : Fields) : Except DecodeError Instr :=
  .ok (.jal (f.d) (f.fn ++ f.sub ++ f.b ++ f.a))

/-- The instructions of MAJ 0x0E (R80). -/
def decodeMaj0E (f : Fields) : Except DecodeError Instr :=
  if f.sub = 0#3 then
    .ok (.jalr (f.d) (f.a) (f.fn ++ f.b))
  else .error .unassignedSelector

/-- The instructions of MAJ 0x10 (R80). -/
def decodeMaj10 (f : Fields) : Except DecodeError Instr :=
  if f.sub = 0#3 then
    .ok (.ldb (f.d) (f.a) (f.fn ++ f.b))
  else if f.sub = 1#3 then
    .ok (.ldbn (f.d) (f.a) (f.fn ++ f.b))
  else if f.sub = 2#3 then
    .ok (.ldh (f.d) (f.a) (f.fn ++ f.b))
  else if f.sub = 3#3 then
    .ok (.ldhn (f.d) (f.a) (f.fn ++ f.b))
  else if f.sub = 4#3 then
    .ok (.ldw (f.d) (f.a) (f.fn ++ f.b))
  else if f.sub = 5#3 then
    .ok (.ldwn (f.d) (f.a) (f.fn ++ f.b))
  else if f.sub = 6#3 then
    .ok (.ldd (f.d) (f.a) (f.fn ++ f.b))
  else .error .unassignedSelector

/-- The instructions of MAJ 0x11 (R80). -/
def decodeMaj11 (f : Fields) : Except DecodeError Instr :=
  if f.sub = 0#3 then
    .ok (.stb (f.a) (f.b) (f.fn ++ f.d))
  else if f.sub = 1#3 then
    .ok (.sth (f.a) (f.b) (f.fn ++ f.d))
  else if f.sub = 2#3 then
    .ok (.stw (f.a) (f.b) (f.fn ++ f.d))
  else if f.sub = 3#3 then
    .ok (.std (f.a) (f.b) (f.fn ++ f.d))
  else .error .unassignedSelector

/-- The instructions of MAJ 0x12 (R80). -/
def decodeMaj12 (f : Fields) : Except DecodeError Instr :=
  if f.sub = 0#3 then
    .ok (.ldbA (f.d) (f.a) (f.fn ++ f.b))
  else if f.sub = 1#3 then
    .ok (.ldbnA (f.d) (f.a) (f.fn ++ f.b))
  else if f.sub = 2#3 then
    .ok (.ldhA (f.d) (f.a) (f.fn ++ f.b))
  else if f.sub = 3#3 then
    .ok (.ldhnA (f.d) (f.a) (f.fn ++ f.b))
  else if f.sub = 4#3 then
    .ok (.ldwA (f.d) (f.a) (f.fn ++ f.b))
  else if f.sub = 5#3 then
    .ok (.ldwnA (f.d) (f.a) (f.fn ++ f.b))
  else if f.sub = 6#3 then
    .ok (.lddA (f.d) (f.a) (f.fn ++ f.b))
  else .error .unassignedSelector

/-- The instructions of MAJ 0x13 (R80). -/
def decodeMaj13 (f : Fields) : Except DecodeError Instr :=
  if f.sub = 0#3 then
    .ok (.stbA (f.a) (f.b) (f.fn ++ f.d))
  else if f.sub = 1#3 then
    .ok (.sthA (f.a) (f.b) (f.fn ++ f.d))
  else if f.sub = 2#3 then
    .ok (.stwA (f.a) (f.b) (f.fn ++ f.d))
  else if f.sub = 3#3 then
    .ok (.stdA (f.a) (f.b) (f.fn ++ f.d))
  else if f.sub = 4#3 then
    .ok (.stflA (f.a) (f.b) (f.fn ++ f.d))
  else if f.sub = 5#3 then
    if f.b = 0#5 then .ok (.clreA (f.a) (f.fn ++ f.d)) else .error .reservedField
  else .error .unassignedSelector

/-- The instructions of MAJ 0x14 (R80). -/
def decodeMaj14 (f : Fields) : Except DecodeError Instr :=
  if f.sub = 0#3 then
    .ok (.ldbS (f.d) (f.a) (f.fn ++ f.b))
  else if f.sub = 1#3 then
    .ok (.ldbnS (f.d) (f.a) (f.fn ++ f.b))
  else if f.sub = 2#3 then
    .ok (.ldhS (f.d) (f.a) (f.fn ++ f.b))
  else if f.sub = 3#3 then
    .ok (.ldhnS (f.d) (f.a) (f.fn ++ f.b))
  else if f.sub = 4#3 then
    .ok (.ldwS (f.d) (f.a) (f.fn ++ f.b))
  else if f.sub = 5#3 then
    .ok (.ldwnS (f.d) (f.a) (f.fn ++ f.b))
  else if f.sub = 6#3 then
    .ok (.lddS (f.d) (f.a) (f.fn ++ f.b))
  else .error .unassignedSelector

/-- The instructions of MAJ 0x15 (R80). -/
def decodeMaj15 (f : Fields) : Except DecodeError Instr :=
  if f.sub = 0#3 then
    .ok (.stbS (f.a) (f.b) (f.fn ++ f.d))
  else if f.sub = 1#3 then
    .ok (.sthS (f.a) (f.b) (f.fn ++ f.d))
  else if f.sub = 2#3 then
    .ok (.stwS (f.a) (f.b) (f.fn ++ f.d))
  else if f.sub = 3#3 then
    .ok (.stdS (f.a) (f.b) (f.fn ++ f.d))
  else if f.sub = 4#3 then
    .ok (.stflS (f.a) (f.b) (f.fn ++ f.d))
  else if f.sub = 5#3 then
    if f.b = 0#5 then .ok (.clreS (f.a) (f.fn ++ f.d)) else .error .reservedField
  else .error .unassignedSelector

/-- The instructions of MAJ 0x16 (R80). -/
def decodeMaj16 (f : Fields) : Except DecodeError Instr :=
  if f.sub = 0#3 then
    if (f.fn.extractLsb' 0 5) = 0#5 then .ok (.ldwt (f.d) (f.a) (f.b) ((f.fn.extractLsb' 5 2))) else .error .reservedField
  else if f.sub = 1#3 then
    if (f.fn.extractLsb' 0 5) = 0#5 then .ok (.tstf (f.d) (f.a) (f.b) ((f.fn.extractLsb' 5 2))) else .error .reservedField
  else if f.sub = 2#3 then
    if f.fn = 0#7 then .ok (.lde (f.d) (f.a) (f.b)) else .error .reservedField
  else if f.sub = 3#3 then
    if f.fn = 0#7 then .ok (.ste (f.d) (f.a) (f.b)) else .error .reservedField
  else if f.sub = 4#3 then
    if f.fn = 0#7 ∧ f.d = 0#5 then .ok (.pf (f.a) (f.b)) else .error .reservedField
  else .error .unassignedSelector

/-- The instructions of MAJ 0x17 (R80). -/
def decodeMaj17 (f : Fields) : Except DecodeError Instr :=
  if f.sub = 0#3 then
    if (f.fn.extractLsb' 0 5) = 0#5 then .ok (.vld (f.d) (f.a) (f.b) ((f.fn.extractLsb' 5 2))) else .error .reservedField
  else if f.sub = 1#3 then
    if (f.fn.extractLsb' 0 5) = 0#5 then .ok (.vst (f.d) (f.a) (f.b) ((f.fn.extractLsb' 5 2))) else .error .reservedField
  else if f.sub = 2#3 then
    if (f.fn.extractLsb' 1 4) = 0#4 then .ok (.vlds (f.d) (f.a) (f.b) ((f.fn.extractLsb' 0 1)) ((f.fn.extractLsb' 5 2))) else .error .reservedField
  else if f.sub = 3#3 then
    if (f.fn.extractLsb' 1 4) = 0#4 then .ok (.vldx (f.d) (f.a) (f.b) ((f.fn.extractLsb' 0 1)) ((f.fn.extractLsb' 5 2))) else .error .reservedField
  else if f.sub = 4#3 then
    if (f.fn.extractLsb' 1 4) = 0#4 then .ok (.vstx (f.d) (f.a) (f.b) ((f.fn.extractLsb' 0 1)) ((f.fn.extractLsb' 5 2))) else .error .reservedField
  else if f.sub = 5#3 then
    if (f.fn.extractLsb' 3 2) = 0#2 then .ok (.vlde (f.d) (f.a) (f.b) ((f.fn.extractLsb' 0 3)) ((f.fn.extractLsb' 5 2))) else .error .reservedField
  else if f.sub = 6#3 then
    if (f.fn.extractLsb' 3 2) = 0#2 then .ok (.vste (f.d) (f.a) (f.b) ((f.fn.extractLsb' 0 3)) ((f.fn.extractLsb' 5 2))) else .error .reservedField
  else .error .unassignedSelector

/-- The instructions of MAJ 0x18 (R80). -/
def decodeMaj18 (f : Fields) : Except DecodeError Instr :=
  if f.sub = 0#3 then
    if (f.fn.extractLsb' 3 4) = 0#4 then .ok (.vadd (f.d) (f.a) (f.b) ((f.fn.extractLsb' 0 3))) else
    if (f.fn.extractLsb' 3 4) = 1#4 then .ok (.vsub (f.d) (f.a) (f.b) ((f.fn.extractLsb' 0 3))) else
    if (f.fn.extractLsb' 3 4) = 2#4 then .ok (.vmul (f.d) (f.a) (f.b) ((f.fn.extractLsb' 0 3))) else
    if (f.fn.extractLsb' 3 4) = 3#4 then .ok (.vmin (f.d) (f.a) (f.b) ((f.fn.extractLsb' 0 3))) else
    if (f.fn.extractLsb' 3 4) = 4#4 then .ok (.vmax (f.d) (f.a) (f.b) ((f.fn.extractLsb' 0 3))) else
    if (f.fn.extractLsb' 3 4) = 5#4 then (if f.b = 0#5 then .ok (.vabs (f.d) (f.a) ((f.fn.extractLsb' 0 3))) else .error .reservedField) else
    .error .unassignedSelector
  else if f.sub = 1#3 then
    if (f.fn.extractLsb' 3 4) = 0#4 then .ok (.vfma (f.d) (f.a) (f.b) ((f.fn.extractLsb' 0 3))) else
    if (f.fn.extractLsb' 3 4) = 1#4 then .ok (.vfms (f.d) (f.a) (f.b) ((f.fn.extractLsb' 0 3))) else
    .error .unassignedSelector
  else .error .unassignedSelector

/-- The instructions of MAJ 0x19 (R80). -/
def decodeMaj19 (f : Fields) : Except DecodeError Instr :=
  if f.sub = 0#3 then
    if (f.fn.extractLsb' 3 4) = 0#4 then .ok (.vand (f.d) (f.a) (f.b) ((f.fn.extractLsb' 0 3))) else
    if (f.fn.extractLsb' 3 4) = 1#4 then .ok (.vor (f.d) (f.a) (f.b) ((f.fn.extractLsb' 0 3))) else
    if (f.fn.extractLsb' 3 4) = 2#4 then .ok (.vxor (f.d) (f.a) (f.b) ((f.fn.extractLsb' 0 3))) else
    .error .unassignedSelector
  else if f.sub = 1#3 then
    if (f.fn.extractLsb' 3 4) = 0#4 then .ok (.vshl (f.d) (f.a) (f.b) ((f.fn.extractLsb' 0 3))) else
    if (f.fn.extractLsb' 3 4) = 1#4 then .ok (.vshr (f.d) (f.a) (f.b) ((f.fn.extractLsb' 0 3))) else
    if (f.fn.extractLsb' 3 4) = 2#4 then .ok (.vsha (f.d) (f.a) (f.b) ((f.fn.extractLsb' 0 3))) else
    if (f.fn.extractLsb' 3 4) = 3#4 then .ok (.vfshl (f.d) (f.a) (f.b) ((f.fn.extractLsb' 0 3))) else
    if (f.fn.extractLsb' 3 4) = 4#4 then .ok (.vfshr (f.d) (f.a) (f.b) ((f.fn.extractLsb' 0 3))) else
    .error .unassignedSelector
  else .error .unassignedSelector

/-- The instructions of MAJ 0x1A (R80). -/
def decodeMaj1A (f : Fields) : Except DecodeError Instr :=
  if (f.sub.extractLsb' 0 2) = 0#2 then .ok (.vtern (f.d) (f.a) (f.b) (f.fn ++ (f.sub.extractLsb' 2 1))) else .error .reservedField

/-- The instructions of MAJ 0x1B (R80). -/
def decodeMaj1B (f : Fields) : Except DecodeError Instr :=
  if f.sub = 0#3 then
    if (f.d.extractLsb' 3 2) = 0#2 then .ok (.vcmp ((f.d.extractLsb' 0 3)) (f.a) (f.b) ((f.fn.extractLsb' 0 3)) ((f.fn.extractLsb' 3 4))) else .error .reservedField
  else if f.sub = 1#3 then
    if (f.fn.extractLsb' 6 1) = 0#1 then .ok (.vsel (f.d) (f.a) (f.b) ((f.fn.extractLsb' 0 3)) ((f.fn.extractLsb' 3 3))) else .error .reservedField
  else .error .unassignedSelector

/-- The instructions of MAJ 0x1C (R80). -/
def decodeMaj1C (f : Fields) : Except DecodeError Instr :=
  if (f.sub.extractLsb' 1 2) = 0#2 then .ok (.vcvt (f.d) (f.a) (f.b) ((f.sub.extractLsb' 0 1) ++ (f.fn.extractLsb' 0 3)) ((f.fn.extractLsb' 3 4))) else .error .reservedField

/-- The instructions of MAJ 0x1D (R80). -/
def decodeMaj1D (f : Fields) : Except DecodeError Instr :=
  if f.sub = 0#3 then
    if f.b = 0#5 then .ok (.vred (f.d) (f.a) ((f.fn.extractLsb' 0 3)) ((f.fn.extractLsb' 3 4))) else .error .reservedField
  else if f.sub = 1#3 then
    if f.b = 0#5 then .ok (.vscan (f.d) (f.a) ((f.fn.extractLsb' 0 3)) ((f.fn.extractLsb' 3 4))) else .error .reservedField
  else .error .unassignedSelector

/-- The instructions of MAJ 0x1E (R80). -/
def decodeMaj1E (f : Fields) : Except DecodeError Instr :=
  if f.sub = 0#3 then
    if (f.fn.extractLsb' 3 4) = 0#4 then .ok (.vperm (f.d) (f.a) (f.b) ((f.fn.extractLsb' 0 3))) else .error .reservedField
  else if f.sub = 1#3 then
    if (f.fn.extractLsb' 3 4) = 0#4 ∧ f.b = 0#5 then .ok (.vbcast (f.d) (f.a) ((f.fn.extractLsb' 0 3))) else .error .reservedField
  else if f.sub = 2#3 then
    if (f.fn.extractLsb' 3 4) = 0#4 then .ok (.vext (f.d) (f.a) (f.b) ((f.fn.extractLsb' 0 3))) else .error .reservedField
  else if f.sub = 3#3 then
    if (f.fn.extractLsb' 3 4) = 0#4 then .ok (.vins (f.d) (f.a) (f.b) ((f.fn.extractLsb' 0 3))) else .error .reservedField
  else if f.sub = 4#3 then
    if (f.fn.extractLsb' 3 4) = 0#4 then .ok (.vpack (f.d) (f.a) (f.b) ((f.fn.extractLsb' 0 3))) else .error .reservedField
  else if f.sub = 5#3 then
    if (f.fn.extractLsb' 4 3) = 0#3 ∧ f.b = 0#5 then .ok (.vunpk (f.d) (f.a) ((f.fn.extractLsb' 0 3)) ((f.fn.extractLsb' 3 1))) else .error .reservedField
  else if f.sub = 6#3 then
    if (f.fn.extractLsb' 3 4) = 0#4 ∧ f.b = 0#5 then .ok (.vpopc (f.d) (f.a) ((f.fn.extractLsb' 0 3))) else .error .reservedField
  else .error .unassignedSelector

/-- The instructions of MAJ 0x1F (R80). -/
def decodeMaj1F (f : Fields) : Except DecodeError Instr :=
  if f.sub = 0#3 then
    if f.fn = 0#7 then (if (f.b.extractLsb' 3 2) = 0#2 ∧ (f.a.extractLsb' 3 2) = 0#2 ∧ (f.d.extractLsb' 3 2) = 0#2 then .ok (.kand ((f.d.extractLsb' 0 3)) ((f.a.extractLsb' 0 3)) ((f.b.extractLsb' 0 3))) else .error .reservedField) else
    if f.fn = 8#7 then (if (f.b.extractLsb' 3 2) = 0#2 ∧ (f.a.extractLsb' 3 2) = 0#2 ∧ (f.d.extractLsb' 3 2) = 0#2 then .ok (.kor ((f.d.extractLsb' 0 3)) ((f.a.extractLsb' 0 3)) ((f.b.extractLsb' 0 3))) else .error .reservedField) else
    if f.fn = 16#7 then (if f.b = 0#5 ∧ (f.a.extractLsb' 3 2) = 0#2 ∧ (f.d.extractLsb' 3 2) = 0#2 then .ok (.knot ((f.d.extractLsb' 0 3)) ((f.a.extractLsb' 0 3))) else .error .reservedField) else
    if f.fn = 24#7 then (if f.b = 0#5 ∧ (f.a.extractLsb' 3 2) = 0#2 ∧ (f.d.extractLsb' 3 2) = 0#2 then .ok (.kmov ((f.d.extractLsb' 0 3)) ((f.a.extractLsb' 0 3))) else .error .reservedField) else
    if f.fn = 25#7 then (if f.b = 0#5 ∧ (f.d.extractLsb' 3 2) = 0#2 then .ok (.kmovKg ((f.d.extractLsb' 0 3)) (f.a)) else .error .reservedField) else
    if f.fn = 26#7 then (if f.b = 0#5 ∧ (f.a.extractLsb' 3 2) = 0#2 then .ok (.kmovGk (f.d) ((f.a.extractLsb' 0 3))) else .error .reservedField) else
    .error .unassignedSelector
  else .error .unassignedSelector

/-- The instructions of MAJ 0x20 (R80). -/
def decodeMaj20 (f : Fields) : Except DecodeError Instr :=
  if f.sub = 0#3 then
    if (f.fn.extractLsb' 2 5) = 0#5 ∧ f.b = 0#5 ∧ f.a = 0#5 then .ok (.gang (f.d) ((f.fn.extractLsb' 0 2))) else .error .reservedField
  else if f.sub = 1#3 then
    if f.fn = 0#7 ∧ f.b = 0#5 ∧ f.a = 0#5 ∧ f.d = 0#5 then .ok (.disband) else .error .reservedField
  else .error .unassignedSelector

/-- The instructions of MAJ 0x28 (R80). -/
def decodeMaj28 (f : Fields) : Except DecodeError Instr :=
  if f.sub = 0#3 then
    if f.fn = 0#7 ∧ f.b = 0#5 ∧ f.a = 0#5 ∧ (f.d.extractLsb' 4 1) = 0#1 then .ok (.mzero ((f.d.extractLsb' 0 4))) else .error .reservedField
  else if f.sub = 1#3 then
    if (f.fn.extractLsb' 2 1) = 0#1 ∧ (f.b.extractLsb' 3 2) = 0#2 then .ok (.mldb (f.d) (f.a) ((f.b.extractLsb' 0 3)) ((f.fn.extractLsb' 0 1)) ((f.fn.extractLsb' 1 1)) ((f.fn.extractLsb' 3 4))) else .error .reservedField
  else if f.sub = 2#3 then
    if (f.fn.extractLsb' 2 1) = 0#1 ∧ (f.d.extractLsb' 4 1) = 0#1 then .ok (.mma ((f.d.extractLsb' 0 4)) (f.a) (f.b) ((f.fn.extractLsb' 0 1)) ((f.fn.extractLsb' 1 1)) ((f.fn.extractLsb' 3 4))) else .error .reservedField
  else if f.sub = 3#3 then
    if (f.fn.extractLsb' 3 4) = 0#4 then .ok (.mdrain ((f.d.extractLsb' 0 4)) ((f.d.extractLsb' 4 1)) (f.a) (f.b) ((f.fn.extractLsb' 0 1)) ((f.fn.extractLsb' 1 1)) ((f.fn.extractLsb' 2 1))) else .error .reservedField
  else if f.sub = 4#3 then
    if (f.fn.extractLsb' 2 5) = 0#5 ∧ f.a = 0#5 ∧ (f.d.extractLsb' 4 1) = 0#1 then .ok (.mscale ((f.d.extractLsb' 0 4)) (f.b) ((f.fn.extractLsb' 0 1)) ((f.fn.extractLsb' 1 1))) else .error .reservedField
  else if f.sub = 5#3 then
    if (f.fn.extractLsb' 1 6) = 0#6 ∧ f.b = 0#5 then .ok (.mstat (f.d) (f.a) ((f.fn.extractLsb' 0 1))) else .error .reservedField
  else if f.sub = 6#3 then
    if (f.fn.extractLsb' 2 1) = 0#1 ∧ (f.b.extractLsb' 3 2) = 0#2 then .ok (.mtr (f.d) (f.a) ((f.b.extractLsb' 0 3)) ((f.fn.extractLsb' 0 1)) ((f.fn.extractLsb' 1 1)) ((f.fn.extractLsb' 3 4))) else .error .reservedField
  else .error .unassignedSelector

/-- The instructions of MAJ 0x2C (R80). -/
def decodeMaj2C (f : Fields) : Except DecodeError Instr :=
  if f.sub = 0#3 then
    if f.fn = 0#7 then .ok (.tqLd (f.d) (f.a) (f.b)) else .error .reservedField
  else if f.sub = 1#3 then
    if (f.fn.extractLsb' 1 6) = 0#6 then .ok (.tqQ (f.d) (f.a) (f.b) ((f.fn.extractLsb' 0 1))) else .error .reservedField
  else if f.sub = 2#3 then
    if (f.fn.extractLsb' 2 5) = 0#5 then .ok (.tqQs (f.d) (f.a) (f.b) ((f.fn.extractLsb' 0 2))) else .error .reservedField
  else if f.sub = 3#3 then
    if f.fn = 0#7 ∧ f.b = 0#5 ∧ f.a = 0#5 then .ok (.tqScan (f.d)) else .error .reservedField
  else if f.sub = 4#3 then
    if f.fn = 0#7 ∧ f.b = 0#5 ∧ f.a = 0#5 then .ok (.tqWait (f.d)) else .error .reservedField
  else .error .unassignedSelector

/-- The instructions of MAJ 0x2D (R80). -/
def decodeMaj2D (f : Fields) : Except DecodeError Instr :=
  if f.sub = 0#3 then
    if f.fn = 0#7 then (if f.b = 0#5 then .ok (.sfRcp (f.d) (f.a)) else .error .reservedField) else
    if f.fn = 1#7 then (if f.b = 0#5 then .ok (.sfRsq (f.d) (f.a)) else .error .reservedField) else
    if f.fn = 2#7 then (if f.b = 0#5 then .ok (.sfSqrt (f.d) (f.a)) else .error .reservedField) else
    if f.fn = 3#7 then (if f.b = 0#5 then .ok (.sfExp2 (f.d) (f.a)) else .error .reservedField) else
    if f.fn = 4#7 then (if f.b = 0#5 then .ok (.sfLog2 (f.d) (f.a)) else .error .reservedField) else
    .error .unassignedSelector
  else .error .unassignedSelector

/-- The instructions of MAJ 0x2E (R80). -/
def decodeMaj2E (f : Fields) : Except DecodeError Instr :=
  if f.sub = 0#3 then
    if f.fn = 0#7 ∧ f.b = 0#5 ∧ (f.d.extractLsb' 4 1) = 0#1 then .ok (.hset ((f.d.extractLsb' 0 4)) (f.a)) else .error .reservedField
  else if f.sub = 1#3 then
    if (f.fn.extractLsb' 0 3) = 0#3 ∧ f.b = 0#5 ∧ f.a = 0#5 ∧ (f.d.extractLsb' 4 1) = 0#1 then .ok (.hwait ((f.d.extractLsb' 0 4)) ((f.fn.extractLsb' 3 4))) else .error .reservedField
  else if f.sub = 2#3 then
    if f.fn = 0#7 ∧ f.a = 0#5 ∧ (f.d.extractLsb' 4 1) = 0#1 then .ok (.hadv ((f.d.extractLsb' 0 4)) (f.b)) else .error .reservedField
  else if f.sub = 3#3 then
    if f.fn = 0#7 ∧ f.a = 0#5 ∧ (f.d.extractLsb' 4 1) = 0#1 then .ok (.hpub ((f.d.extractLsb' 0 4)) (f.b)) else .error .reservedField
  else if f.sub = 4#3 then
    if (f.fn.extractLsb' 1 6) = 0#6 ∧ f.b = 0#5 ∧ (f.a.extractLsb' 4 1) = 0#1 then .ok (.hstat (f.d) ((f.a.extractLsb' 0 4)) ((f.fn.extractLsb' 0 1))) else .error .reservedField
  else .error .unassignedSelector

/-- The instructions of MAJ 0x2F (R80). -/
def decodeMaj2F (f : Fields) : Except DecodeError Instr :=
  if f.sub = 0#3 then
    if (f.fn.extractLsb' 2 5) = 0#5 ∧ f.b = 0#5 then .ok (.cpGet (f.d) (f.a) ((f.fn.extractLsb' 0 2))) else .error .reservedField
  else if f.sub = 1#3 then
    if (f.fn.extractLsb' 1 6) = 0#6 ∧ f.b = 0#5 then .ok (.cpPut (f.d) (f.a) ((f.fn.extractLsb' 0 1))) else .error .reservedField
  else if f.sub = 2#3 then
    if (f.fn.extractLsb' 2 5) = 0#5 then .ok (.cpGath (f.d) (f.a) (f.b) ((f.fn.extractLsb' 0 2))) else .error .reservedField
  else if f.sub = 3#3 then
    if (f.fn.extractLsb' 1 6) = 0#6 then .ok (.cpScat (f.d) (f.a) (f.b) ((f.fn.extractLsb' 0 1))) else .error .reservedField
  else if f.sub = 4#3 then
    if (f.fn.extractLsb' 1 6) = 0#6 ∧ f.b = 0#5 then .ok (.cpRed (f.d) (f.a) ((f.fn.extractLsb' 0 1))) else .error .reservedField
  else if f.sub = 5#3 then
    if (f.fn.extractLsb' 2 5) = 0#5 ∧ f.b = 0#5 then .ok (.cpStat (f.d) (f.a) ((f.fn.extractLsb' 0 2))) else .error .reservedField
  else if f.sub = 6#3 then
    if f.fn = 0#7 ∧ f.b = 0#5 then .ok (.cpWait (f.d) (f.a)) else .error .reservedField
  else .error .unassignedSelector

/-- The instructions of MAJ 0x30 (R80). -/
def decodeMaj30 (f : Fields) : Except DecodeError Instr :=
  if f.sub = 0#3 then
    if f.fn = 0#7 ∧ f.b = 0#5 ∧ (f.d.extractLsb' 4 1) = 0#1 then .ok (.ccSet ((f.d.extractLsb' 0 4)) (f.a)) else .error .reservedField
  else if f.sub = 1#3 then
    if f.fn = 0#7 ∧ f.b = 0#5 ∧ (f.a.extractLsb' 4 1) = 0#1 then .ok (.ccWait (f.d) ((f.a.extractLsb' 0 4))) else .error .reservedField
  else if f.sub = 2#3 then
    if f.fn = 0#7 ∧ f.b = 0#5 ∧ f.d = 0#5 then .ok (.sleepP (f.a)) else .error .reservedField
  else if f.sub = 3#3 then
    if f.fn = 0#7 ∧ f.b = 0#5 ∧ f.d = 0#5 then .ok (.sleepC (f.a)) else .error .reservedField
  else .error .unassignedSelector

/-- The instructions of MAJ 0x31 (R80). -/
def decodeMaj31 (f : Fields) : Except DecodeError Instr :=
  if f.sub = 0#3 then
    if (f.fn.extractLsb' 1 6) = 0#6 ∧ f.d = 0#5 then .ok (.pget (f.a) (f.b) ((f.fn.extractLsb' 0 1))) else .error .reservedField
  else if f.sub = 1#3 then
    if (f.fn.extractLsb' 1 6) = 0#6 ∧ f.d = 0#5 then .ok (.pput (f.a) (f.b) ((f.fn.extractLsb' 0 1))) else .error .reservedField
  else .error .unassignedSelector

/-- The instructions of MAJ 0x32 (R80). -/
def decodeMaj32 (f : Fields) : Except DecodeError Instr :=
  if f.sub = 0#3 then
    if (f.fn.extractLsb' 1 6) = 0#6 ∧ f.d = 0#5 then .ok (.ctrb (f.a) ((f.fn.extractLsb' 0 1) ++ f.b)) else .error .reservedField
  else if f.sub = 1#3 then
    if (f.fn.extractLsb' 1 6) = 0#6 ∧ f.a = 0#5 then .ok (.grd (f.d) ((f.fn.extractLsb' 0 1) ++ f.b)) else .error .reservedField
  else if f.sub = 2#3 then
    if (f.fn.extractLsb' 1 6) = 0#6 ∧ f.d = 0#5 then .ok (.grpset (f.a) ((f.fn.extractLsb' 0 1) ++ f.b)) else .error .reservedField
  else .error .unassignedSelector

/-- The instructions of MAJ 0x34 (R80). -/
def decodeMaj34 (f : Fields) : Except DecodeError Instr :=
  if f.sub = 0#3 then
    if (f.fn.extractLsb' 1 6) = 0#6 ∧ f.b = 0#5 ∧ f.a = 0#5 then .ok (.ssIsect (f.d) ((f.fn.extractLsb' 0 1))) else .error .reservedField
  else if f.sub = 1#3 then
    if (f.fn.extractLsb' 1 6) = 0#6 ∧ f.b = 0#5 ∧ f.a = 0#5 then .ok (.ssUnion (f.d) ((f.fn.extractLsb' 0 1))) else .error .reservedField
  else if f.sub = 2#3 then
    if (f.fn.extractLsb' 1 6) = 0#6 ∧ f.b = 0#5 ∧ f.a = 0#5 then .ok (.ssMerge (f.d) ((f.fn.extractLsb' 0 1))) else .error .reservedField
  else if f.sub = 3#3 then
    if (f.fn.extractLsb' 1 6) = 0#6 ∧ f.b = 0#5 ∧ f.a = 0#5 then .ok (.ssDiff (f.d) ((f.fn.extractLsb' 0 1))) else .error .reservedField
  else if f.sub = 4#3 then
    if f.fn = 0#7 ∧ f.b = 0#5 ∧ f.a = 0#5 then .ok (.ssSeek (f.d)) else .error .reservedField
  else .error .unassignedSelector

/-- The instructions of MAJ 0x35 (R80). -/
def decodeMaj35 (f : Fields) : Except DecodeError Instr :=
  if f.sub = 0#3 then
    if f.fn = 0#7 ∧ f.b = 0#5 ∧ (f.d.extractLsb' 1 4) = 0#4 then .ok (.jwOpen ((f.d.extractLsb' 0 1)) (f.a)) else .error .reservedField
  else if f.sub = 1#3 then
    if f.fn = 0#7 ∧ (f.b.extractLsb' 1 4) = 0#4 ∧ (f.a.extractLsb' 3 2) = 0#2 then .ok (.jwNext (f.d) ((f.a.extractLsb' 0 3)) ((f.b.extractLsb' 0 1))) else .error .reservedField
  else if f.sub = 2#3 then
    if f.fn = 0#7 ∧ (f.b.extractLsb' 1 4) = 0#4 then .ok (.jwCnt (f.d) (f.a) ((f.b.extractLsb' 0 1))) else .error .reservedField
  else if f.sub = 3#3 then
    if f.fn = 0#7 ∧ f.b = 0#5 ∧ f.a = 0#5 ∧ (f.d.extractLsb' 1 4) = 0#4 then .ok (.jwClose ((f.d.extractLsb' 0 1))) else .error .reservedField
  else .error .unassignedSelector

/-- The instructions of MAJ 0x36 (R80). -/
def decodeMaj36 (f : Fields) : Except DecodeError Instr :=
  if f.sub = 0#3 then
    if (f.fn.extractLsb' 3 4) = 0#4 then .ok (.kacc (f.d) (f.a) (f.b) ((f.fn.extractLsb' 0 2)) ((f.fn.extractLsb' 2 1))) else .error .reservedField
  else if f.sub = 1#3 then
    if (f.fn.extractLsb' 2 5) = 0#5 then .ok (.kexp (f.d) (f.a) (f.b) ((f.fn.extractLsb' 0 2))) else .error .reservedField
  else if f.sub = 2#3 then
    if (f.fn.extractLsb' 0 2) = 0#2 ∧ (f.fn.extractLsb' 3 4) = 0#4 ∧ f.b = 0#5 then .ok (.kflush (f.d) (f.a) ((f.fn.extractLsb' 2 1))) else .error .reservedField
  else if f.sub = 3#3 then
    if (f.fn.extractLsb' 2 5) = 0#5 ∧ f.d = 0#5 then .ok (.kcnt (f.a) (f.b) ((f.fn.extractLsb' 0 2))) else .error .reservedField
  else .error .unassignedSelector

/-- The instructions of MAJ 0x38 (R80). -/
def decodeMaj38 (f : Fields) : Except DecodeError Instr :=
  if f.sub = 0#3 then
    if f.fn = 0#7 then .ok (.amoadd (f.d) (f.a) (f.b)) else
    if f.fn = 1#7 then .ok (.amoand (f.d) (f.a) (f.b)) else
    if f.fn = 2#7 then .ok (.amoor (f.d) (f.a) (f.b)) else
    if f.fn = 3#7 then .ok (.amoxor (f.d) (f.a) (f.b)) else
    if f.fn = 4#7 then .ok (.amomin (f.d) (f.a) (f.b)) else
    if f.fn = 5#7 then .ok (.amomax (f.d) (f.a) (f.b)) else
    if f.fn = 6#7 then .ok (.amominn (f.d) (f.a) (f.b)) else
    if f.fn = 7#7 then .ok (.amomaxn (f.d) (f.a) (f.b)) else
    if f.fn = 8#7 then .ok (.amoswp (f.d) (f.a) (f.b)) else
    if f.fn = 9#7 then .ok (.amocas (f.d) (f.a) (f.b)) else
    if f.fn = 10#7 then .ok (.amofadd (f.d) (f.a) (f.b)) else
    .error .unassignedSelector
  else .error .unassignedSelector

/-- The instructions of MAJ 0x39 (R80). -/
def decodeMaj39 (f : Fields) : Except DecodeError Instr :=
  if f.sub = 0#3 then
    if f.fn = 0#7 then (if f.d = 0#5 then .ok (.redadd (f.a) (f.b)) else .error .reservedField) else
    if f.fn = 1#7 then (if f.d = 0#5 then .ok (.redmin (f.a) (f.b)) else .error .reservedField) else
    if f.fn = 2#7 then (if f.d = 0#5 then .ok (.redmax (f.a) (f.b)) else .error .reservedField) else
    if f.fn = 3#7 then (if f.d = 0#5 then .ok (.redfadd (f.a) (f.b)) else .error .reservedField) else
    if f.fn = 4#7 then (if f.d = 0#5 then .ok (.redor (f.a) (f.b)) else .error .reservedField) else
    .error .unassignedSelector
  else .error .unassignedSelector

/-- The instructions of MAJ 0x3A (R80). -/
def decodeMaj3A (f : Fields) : Except DecodeError Instr :=
  if f.sub = 0#3 then
    if f.fn = 0#7 then .ok (.bind (f.d) (f.a) (f.b)) else
    if f.fn = 1#7 then .ok (.unbind (f.d) (f.a) (f.b)) else
    .error .unassignedSelector
  else if f.sub = 1#3 then
    if (f.fn.extractLsb' 1 6) = 0#6 ∧ f.b = 0#5 then .ok (.acq (f.d) (f.a) ((f.fn.extractLsb' 0 1))) else .error .reservedField
  else if f.sub = 2#3 then
    if f.fn = 0#7 ∧ f.b = 0#5 ∧ f.d = 0#5 then .ok (.rel (f.a)) else .error .reservedField
  else if f.sub = 3#3 then
    if (f.fn.extractLsb' 5 2) = 0#2 ∧ f.b = 0#5 ∧ f.a = 0#5 ∧ f.d = 0#5 then .ok (.fence ((f.fn.extractLsb' 0 3)) ((f.fn.extractLsb' 3 2))) else .error .reservedField
  else .error .unassignedSelector

/-- The instructions of MAJ 0x3B (R80). -/
def decodeMaj3B (f : Fields) : Except DecodeError Instr :=
  if f.sub = 0#3 then
    if (f.fn.extractLsb' 4 3) = 0#3 ∧ f.b = 0#5 then .ok (.barInit (f.a) ((f.fn.extractLsb' 0 4) ++ f.d)) else .error .reservedField
  else if f.sub = 1#3 then
    if (f.fn.extractLsb' 4 3) = 0#3 ∧ f.b = 0#5 ∧ f.a = 0#5 then .ok (.barEnrol ((f.fn.extractLsb' 0 4) ++ f.d)) else .error .reservedField
  else if f.sub = 2#3 then
    if (f.fn.extractLsb' 4 3) = 0#3 ∧ f.b = 0#5 ∧ f.a = 0#5 then .ok (.barArr ((f.fn.extractLsb' 0 4) ++ f.d)) else .error .reservedField
  else if f.sub = 3#3 then
    if (f.fn.extractLsb' 4 3) = 0#3 ∧ f.b = 0#5 ∧ f.a = 0#5 then .ok (.barWait ((f.fn.extractLsb' 0 4) ++ f.d)) else .error .reservedField
  else if f.sub = 4#3 then
    if (f.fn.extractLsb' 4 3) = 0#3 ∧ f.b = 0#5 then .ok (.barSig (f.a) ((f.fn.extractLsb' 0 4) ++ f.d)) else .error .reservedField
  else if f.sub = 5#3 then
    if (f.fn.extractLsb' 4 3) = 0#3 ∧ f.b = 0#5 ∧ f.a = 0#5 then .ok (.barDrop ((f.fn.extractLsb' 0 4) ++ f.d)) else .error .reservedField
  else if f.sub = 6#3 then
    if (f.fn.extractLsb' 5 2) = 0#2 ∧ f.a = 0#5 then .ok (.barGrel ((f.fn.extractLsb' 0 4) ++ f.d) ((f.fn.extractLsb' 4 1) ++ f.b)) else .error .reservedField
  else .error .unassignedSelector

/-- The instructions of MAJ 0x3C (R80). -/
def decodeMaj3C (f : Fields) : Except DecodeError Instr :=
  if f.sub = 0#3 then
    if f.fn = 0#7 then .ok (.msgSend (f.d) (f.a) (f.b)) else .error .reservedField
  else if f.sub = 1#3 then
    if f.fn = 0#7 then .ok (.msgSendw (f.d) (f.a) (f.b)) else .error .reservedField
  else if f.sub = 2#3 then
    if f.fn = 0#7 ∧ f.b = 0#5 then .ok (.msgStat (f.d) (f.a)) else .error .reservedField
  else if f.sub = 3#3 then
    if f.fn = 0#7 ∧ f.b = 0#5 ∧ f.d = 0#5 then .ok (.msgMask (f.a)) else .error .reservedField
  else if f.sub = 4#3 then
    if f.fn = 0#7 ∧ f.b = 0#5 ∧ f.d = 0#5 then .ok (.msgUnmask (f.a)) else .error .reservedField
  else if f.sub = 5#3 then
    if f.fn = 0#7 ∧ f.b = 0#5 ∧ f.a = 0#5 ∧ f.d = 0#5 then .ok (.msgRet) else .error .reservedField
  else .error .unassignedSelector

/-- The instructions of MAJ 0x3D (R80). -/
def decodeMaj3D (f : Fields) : Except DecodeError Instr :=
  if f.sub = 0#3 then
    if f.fn = 0#7 ∧ f.b = 0#5 then .ok (.swRd (f.d) (f.a)) else .error .reservedField
  else if f.sub = 1#3 then
    if (f.fn.extractLsb' 1 6) = 0#6 then .ok (.swAdd (f.d) (f.a) (f.b) ((f.fn.extractLsb' 0 1))) else .error .reservedField
  else if f.sub = 2#3 then
    if (f.fn.extractLsb' 1 6) = 0#6 then .ok (.swMax (f.d) (f.a) (f.b) ((f.fn.extractLsb' 0 1))) else .error .reservedField
  else if f.sub = 3#3 then
    if f.fn = 0#7 then .ok (.swSwap (f.d) (f.a) (f.b)) else .error .reservedField
  else if f.sub = 4#3 then
    if f.fn = 0#7 then .ok (.swCas (f.d) (f.a) (f.b)) else .error .reservedField
  else if f.sub = 5#3 then
    if f.fn = 0#7 then .ok (.swBoard (f.d) (f.a) (f.b)) else .error .reservedField
  else if f.sub = 6#3 then
    if f.fn = 0#7 ∧ f.b = 0#5 ∧ f.d = 0#5 then .ok (.swAlight (f.a)) else .error .reservedField
  else if f.sub = 7#3 then
    if f.fn = 0#7 ∧ f.b = 0#5 ∧ f.a = 0#5 then .ok (.swWait (f.d)) else .error .reservedField
  else .error .unassignedSelector

/-- The instructions of MAJ 0x3E (R80). -/
def decodeMaj3E (f : Fields) : Except DecodeError Instr :=
  if f.sub = 0#3 then
    if f.fn = 0#7 then .ok (.fork (f.d) (f.a) (f.b)) else
    if f.fn = 1#7 then (if f.b = 0#5 ∧ f.d = 0#5 then .ok (.join (f.a)) else .error .reservedField) else
    if f.fn = 2#7 then (if f.b = 0#5 ∧ (f.d.extractLsb' 1 4) = 0#4 then .ok (.halt ((f.d.extractLsb' 0 1)) (f.a)) else .error .reservedField) else
    if f.fn = 3#7 then (if f.b = 0#5 ∧ f.d = 0#5 then .ok (.haltj (f.a)) else .error .reservedField) else
    if f.fn = 4#7 then (if f.b = 0#5 ∧ f.a = 0#5 ∧ f.d = 0#5 then .ok (.yield) else .error .reservedField) else
    if f.fn = 5#7 then (if f.b = 0#5 ∧ f.d = 0#5 then .ok (.suspend (f.a)) else .error .reservedField) else
    .error .unassignedSelector
  else if f.sub = 1#3 then
    if (f.fn.extractLsb' 6 1) = 0#1 then .ok (.oxl ((f.d.extractLsb' 0 3)) ((f.d.extractLsb' 3 2)) ((f.fn.extractLsb' 0 6) ++ f.b ++ f.a)) else .error .reservedField
  else if f.sub = 2#3 then
    if f.fn = 0#7 then (if f.b = 0#5 ∧ (f.d.extractLsb' 3 2) = 0#2 then .ok (.oxm ((f.d.extractLsb' 0 3)) (f.a)) else .error .reservedField) else
    if f.fn = 1#7 then (if f.b = 0#5 ∧ (f.a.extractLsb' 3 2) = 0#2 then .ok (.oxmToG (f.d) ((f.a.extractLsb' 0 3))) else .error .reservedField) else
    .error .unassignedSelector
  else if f.sub = 3#3 then
    if (f.d.extractLsb' 3 2) = 0#2 then .ok (.oxld ((f.d.extractLsb' 0 3)) (f.a) (f.fn ++ f.b)) else .error .reservedField
  else if f.sub = 4#3 then
    if (f.b.extractLsb' 3 2) = 0#2 then .ok (.oxst (f.a) ((f.b.extractLsb' 0 3)) (f.fn ++ f.d)) else .error .reservedField
  else if f.sub = 5#3 then
    if f.a = 0#5 then .ok (.sysrd (f.d) (f.fn ++ f.b)) else .error .reservedField
  else if f.sub = 6#3 then
    if f.d = 0#5 then .ok (.syswr (f.a) (f.fn ++ f.b)) else .error .reservedField
  else if f.sub = 7#3 then
    if f.fn = 0#7 then (if f.d = 0#5 then .ok (.trap (f.a) (f.b)) else .error .reservedField) else
    if f.fn = 1#7 then (if f.b = 0#5 ∧ f.a = 0#5 ∧ f.d = 0#5 then .ok (.eret) else .error .reservedField) else
    if f.fn = 2#7 then (if f.b = 0#5 ∧ f.a = 0#5 ∧ f.d = 0#5 then .ok (.brk) else .error .reservedField) else
    if f.fn = 3#7 then (if f.b = 0#5 ∧ f.a = 0#5 ∧ f.d = 0#5 then .ok (.nop) else .error .reservedField) else
    .error .unassignedSelector
  else .error .unassignedSelector

/-- The instructions of MAJ 0x3F (R80). -/
def decodeMaj3F (f : Fields) : Except DecodeError Instr :=
  if f.sub = 0#3 then
    if f.fn = 0#7 ∧ (f.b.extractLsb' 3 2) = 0#2 then .ok (.vpfx ((f.d.extractLsb' 0 3)) ((f.d.extractLsb' 3 1)) ((f.a.extractLsb' 0 2) ++ (f.d.extractLsb' 4 1)) ((f.a.extractLsb' 2 1)) ((f.b.extractLsb' 0 3) ++ (f.a.extractLsb' 3 2))) else .error .reservedField
  else .error .unassignedSelector

/-- A 32-bit instruction by its major opcode (R77 steps 3 to 5, R80, R81). -/
def decodeFields (f : Fields) : Except DecodeError Instr :=
  if f.maj = 0x00#6 then decodeMaj00 f else
  if f.maj = 0x01#6 then decodeMaj01 f else
  if f.maj = 0x02#6 then decodeMaj02 f else
  if f.maj = 0x03#6 then decodeMaj03 f else
  if f.maj = 0x04#6 then decodeMaj04 f else
  if f.maj = 0x05#6 then decodeMaj05 f else
  if f.maj = 0x0A#6 then decodeMaj0A f else
  if f.maj = 0x0B#6 then decodeMaj0B f else
  if f.maj = 0x0C#6 then decodeMaj0C f else
  if f.maj = 0x0D#6 then decodeMaj0D f else
  if f.maj = 0x0E#6 then decodeMaj0E f else
  if f.maj = 0x10#6 then decodeMaj10 f else
  if f.maj = 0x11#6 then decodeMaj11 f else
  if f.maj = 0x12#6 then decodeMaj12 f else
  if f.maj = 0x13#6 then decodeMaj13 f else
  if f.maj = 0x14#6 then decodeMaj14 f else
  if f.maj = 0x15#6 then decodeMaj15 f else
  if f.maj = 0x16#6 then decodeMaj16 f else
  if f.maj = 0x17#6 then decodeMaj17 f else
  if f.maj = 0x18#6 then decodeMaj18 f else
  if f.maj = 0x19#6 then decodeMaj19 f else
  if f.maj = 0x1A#6 then decodeMaj1A f else
  if f.maj = 0x1B#6 then decodeMaj1B f else
  if f.maj = 0x1C#6 then decodeMaj1C f else
  if f.maj = 0x1D#6 then decodeMaj1D f else
  if f.maj = 0x1E#6 then decodeMaj1E f else
  if f.maj = 0x1F#6 then decodeMaj1F f else
  if f.maj = 0x20#6 then decodeMaj20 f else
  if f.maj = 0x28#6 then decodeMaj28 f else
  if f.maj = 0x2C#6 then decodeMaj2C f else
  if f.maj = 0x2D#6 then decodeMaj2D f else
  if f.maj = 0x2E#6 then decodeMaj2E f else
  if f.maj = 0x2F#6 then decodeMaj2F f else
  if f.maj = 0x30#6 then decodeMaj30 f else
  if f.maj = 0x31#6 then decodeMaj31 f else
  if f.maj = 0x32#6 then decodeMaj32 f else
  if f.maj = 0x34#6 then decodeMaj34 f else
  if f.maj = 0x35#6 then decodeMaj35 f else
  if f.maj = 0x36#6 then decodeMaj36 f else
  if f.maj = 0x38#6 then decodeMaj38 f else
  if f.maj = 0x39#6 then decodeMaj39 f else
  if f.maj = 0x3A#6 then decodeMaj3A f else
  if f.maj = 0x3B#6 then decodeMaj3B f else
  if f.maj = 0x3C#6 then decodeMaj3C f else
  if f.maj = 0x3D#6 then decodeMaj3D f else
  if f.maj = 0x3E#6 then decodeMaj3E f else
  if f.maj = 0x3F#6 then decodeMaj3F f else
  .error .unassignedMajor

/-- A 16-bit instruction by op4 and f2 (R67, R82, R83). -/
noncomputable def decodeHalf (f : Half) : Except DecodeError Instr :=
  if f.op = 1#4 then
    .ok (.addiH (f.d) (f.a) (f.i))
  else if f.op = 2#4 then
    if (f.i.extractLsb' 3 2) = 0#2 then .ok (.addH (f.d) (f.a) ((f.i.extractLsb' 0 3))) else
    if (f.i.extractLsb' 3 2) = 1#2 then .ok (.subH (f.d) (f.a) ((f.i.extractLsb' 0 3))) else
    if (f.i.extractLsb' 3 2) = 2#2 then .ok (.andH (f.d) (f.a) ((f.i.extractLsb' 0 3))) else
    if (f.i.extractLsb' 3 2) = 3#2 then .ok (.orH (f.d) (f.a) ((f.i.extractLsb' 0 3))) else
    .error .reservedField
  else if f.op = 3#4 then
    if (f.i.extractLsb' 3 2) = 0#2 then .ok (.xorH (f.d) (f.a) ((f.i.extractLsb' 0 3))) else
    if (f.i.extractLsb' 3 2) = 1#2 then .ok (.shlH (f.d) (f.a) ((f.i.extractLsb' 0 3))) else
    if (f.i.extractLsb' 3 2) = 2#2 then .ok (.shrH (f.d) (f.a) ((f.i.extractLsb' 0 3))) else
    if (f.i.extractLsb' 3 2) = 3#2 then .ok (.shaH (f.d) (f.a) ((f.i.extractLsb' 0 3))) else
    .error .reservedField
  else if f.op = 4#4 then
    .ok (.ldwH (f.d) (f.a) (f.i))
  else if f.op = 5#4 then
    .ok (.lddH (f.d) (f.a) (f.i))
  else if f.op = 6#4 then
    .ok (.stwH (f.d) (f.a) (f.i))
  else if f.op = 7#4 then
    .ok (.stdH (f.d) (f.a) (f.i))
  else if f.op = 8#4 then
    .ok (.beqH (f.d) (f.a) (f.i))
  else if f.op = 9#4 then
    .ok (.bneH (f.d) (f.a) (f.i))
  else if f.op = 10#4 then
    .ok (.sltiH (f.d) (f.a) (f.i))
  else if f.op = 11#4 then
    .ok (.andiH (f.d) (f.a) (f.i))
  else if f.op = 15#4 then
    if f.i = 0#5 ∧ f.a = 0#3 ∧ f.d = 0#3 then .ok (.nopH) else
    if f.i = 1#5 ∧ f.a = 0#3 ∧ f.d = 0#3 then .ok (.haltH) else
    if f.i = 2#5 ∧ f.a = 0#3 ∧ f.d = 0#3 then .ok (.brkH) else
    .error .reservedField
  else .error .unassignedMajor

/-- What the opcode map assigns, checked for the field values an instruction does not accept (R77 steps 4, 5, R81). -/
def accept (r : Except DecodeError Instr) : Except DecodeError Instr :=
  match r with
  | .error e => .error e
  | .ok i => match malformed i with
    | none => .ok i
    | some m => .error (.malformed m)

/-- A 32-bit word. DEDUCED, log entry 52. -/
def decode32 (w : BitVec 32) : Except DecodeError Instr := accept (decodeFields (Fields.ofWord w))

/-- A 16-bit word. -/
noncomputable def decode16 (w : BitVec 16) : Except DecodeError Instr := accept (decodeHalf (Half.ofWord w))

/-- The halfword at the head of a list of bytes, little-endian (R51). -/
def halfword : List Byte → Option (BitVec 16)
  | b0 :: b1 :: _ => some (b1 ++ b0)
  | _ => none

/-- The instruction at the head of the bytes with the length it takes (R52): bit 0 of the first halfword alone
decides the length. -/
noncomputable def decodeBytes (bs : List Byte) : Except DecodeError (Instr × Nat) :=
  match halfword bs with
  | none => .error .truncated
  | some h0 =>
    if h0.getLsbD 0 then
      match halfword (bs.drop 2) with
      | none => .error .truncated
      | some h1 => (decode32 (h1 ++ h0)).map (·, 4)
    else (decode16 h0).map (·, 2)

/-- The bytes of a number, least significant first. -/
def bytesOf : Nat → Nat → List Byte
  | 0, _ => []
  | n + 1, w => BitVec.ofNat 8 w :: bytesOf n (w / 256)

/-- What the decoder reads from an instruction whose bits are numbered as the opcode table numbers them: bit 0 is
the least significant bit of the first halfword, which is stored first (R51). The longest instruction word is 4
bytes. -/
noncomputable def decodeTableWord (nbits w : Nat) : Option Instr :=
  match decodeBytes (bytesOf 4 (w % 2 ^ nbits)) with
  | .ok (i, _) => some i
  | .error _ => none

/-- What an instruction is encoded as: a 32-bit word, a 16-bit word, or nothing for an event. -/
inductive Encoding where
  | word (f : Fields)
  | half (f : Half)
  | none_
  deriving DecidableEq, Repr

/-- The encoding of an instruction, from the formats of R59 to R67 and the opcode map (R80, R82, R88). -/
def encode : Instr → Encoding
  | .add d_ a_ b_ =>
    .word ⟨0#7, 0#3, b_, a_, d_, 0x00#6⟩
  | .sub d_ a_ b_ =>
    .word ⟨1#7, 0#3, b_, a_, d_, 0x00#6⟩
  | .and d_ a_ b_ =>
    .word ⟨0#7, 1#3, b_, a_, d_, 0x00#6⟩
  | .or d_ a_ b_ =>
    .word ⟨1#7, 1#3, b_, a_, d_, 0x00#6⟩
  | .xor d_ a_ b_ =>
    .word ⟨2#7, 1#3, b_, a_, d_, 0x00#6⟩
  | .shl d_ a_ b_ =>
    .word ⟨0#7, 2#3, b_, a_, d_, 0x00#6⟩
  | .shr d_ a_ b_ =>
    .word ⟨1#7, 2#3, b_, a_, d_, 0x00#6⟩
  | .sha d_ a_ b_ =>
    .word ⟨2#7, 2#3, b_, a_, d_, 0x00#6⟩
  | .mul d_ a_ b_ =>
    .word ⟨0#7, 3#3, b_, a_, d_, 0x00#6⟩
  | .mulh d_ a_ b_ =>
    .word ⟨1#7, 3#3, b_, a_, d_, 0x00#6⟩
  | .mulhn d_ a_ b_ =>
    .word ⟨2#7, 3#3, b_, a_, d_, 0x00#6⟩
  | .div d_ a_ b_ =>
    .word ⟨3#7, 3#3, b_, a_, d_, 0x00#6⟩
  | .divn d_ a_ b_ =>
    .word ⟨4#7, 3#3, b_, a_, d_, 0x00#6⟩
  | .rem d_ a_ b_ =>
    .word ⟨5#7, 3#3, b_, a_, d_, 0x00#6⟩
  | .remn d_ a_ b_ =>
    .word ⟨6#7, 3#3, b_, a_, d_, 0x00#6⟩
  | .min d_ a_ b_ =>
    .word ⟨0#7, 4#3, b_, a_, d_, 0x00#6⟩
  | .max d_ a_ b_ =>
    .word ⟨1#7, 4#3, b_, a_, d_, 0x00#6⟩
  | .minn d_ a_ b_ =>
    .word ⟨2#7, 4#3, b_, a_, d_, 0x00#6⟩
  | .maxn d_ a_ b_ =>
    .word ⟨3#7, 4#3, b_, a_, d_, 0x00#6⟩
  | .slt d_ a_ b_ =>
    .word ⟨4#7, 4#3, b_, a_, d_, 0x00#6⟩
  | .sltn d_ a_ b_ =>
    .word ⟨5#7, 4#3, b_, a_, d_, 0x00#6⟩
  | .clz d_ a_ =>
    .word ⟨0#7, 5#3, 0#5, a_, d_, 0x00#6⟩
  | .ctz d_ a_ =>
    .word ⟨1#7, 5#3, 0#5, a_, d_, 0x00#6⟩
  | .popc d_ a_ =>
    .word ⟨2#7, 5#3, 0#5, a_, d_, 0x00#6⟩
  | .addi d_ a_ i_ =>
    .word ⟨(i_.extractLsb' 5 7), 0#3, (i_.extractLsb' 0 5), a_, d_, 0x01#6⟩
  | .andi d_ a_ i_ =>
    .word ⟨(i_.extractLsb' 5 7), 1#3, (i_.extractLsb' 0 5), a_, d_, 0x01#6⟩
  | .ori d_ a_ i_ =>
    .word ⟨(i_.extractLsb' 5 7), 2#3, (i_.extractLsb' 0 5), a_, d_, 0x01#6⟩
  | .xori d_ a_ i_ =>
    .word ⟨(i_.extractLsb' 5 7), 3#3, (i_.extractLsb' 0 5), a_, d_, 0x01#6⟩
  | .slti d_ a_ i_ =>
    .word ⟨(i_.extractLsb' 5 7), 4#3, (i_.extractLsb' 0 5), a_, d_, 0x01#6⟩
  | .shli d_ a_ n_ =>
    .word ⟨0#6 ++ (n_.extractLsb' 5 1), 5#3, (n_.extractLsb' 0 5), a_, d_, 0x01#6⟩
  | .shri d_ a_ n_ =>
    .word ⟨0#6 ++ (n_.extractLsb' 5 1), 6#3, (n_.extractLsb' 0 5), a_, d_, 0x01#6⟩
  | .shai d_ a_ n_ =>
    .word ⟨0#6 ++ (n_.extractLsb' 5 1), 7#3, (n_.extractLsb' 0 5), a_, d_, 0x01#6⟩
  | .tern d_ a_ b_ t_ =>
    .word ⟨(t_.extractLsb' 1 7), (t_.extractLsb' 0 1) ++ 0#2, b_, a_, d_, 0x02#6⟩
  | .fshl d_ a_ b_ n_ =>
    .word ⟨0#1 ++ n_, 0#3, b_, a_, d_, 0x03#6⟩
  | .fshr d_ a_ b_ n_ =>
    .word ⟨0#1 ++ n_, 1#3, b_, a_, d_, 0x03#6⟩
  | .bext d_ a_ p_ l_ =>
    .word ⟨l_ ++ (p_.extractLsb' 5 1), 0#3, (p_.extractLsb' 0 5), a_, d_, 0x04#6⟩
  | .bins d_ a_ p_ l_ =>
    .word ⟨l_ ++ (p_.extractLsb' 5 1), 1#3, (p_.extractLsb' 0 5), a_, d_, 0x04#6⟩
  | .csel d_ a_ b_ c_ =>
    .word ⟨0#2 ++ c_, 0#3, b_, a_, d_, 0x05#6⟩
  | .lui d_ i_ =>
    .word ⟨(i_.extractLsb' 13 7), (i_.extractLsb' 10 3), (i_.extractLsb' 5 5), (i_.extractLsb' 0 5), d_, 0x0A#6⟩
  | .addpc d_ i_ =>
    .word ⟨(i_.extractLsb' 13 7), (i_.extractLsb' 10 3), (i_.extractLsb' 5 5), (i_.extractLsb' 0 5), d_, 0x0B#6⟩
  | .beq a_ b_ o_ =>
    .word ⟨(o_.extractLsb' 5 7), 0#3, b_, a_, (o_.extractLsb' 0 5), 0x0C#6⟩
  | .bne a_ b_ o_ =>
    .word ⟨(o_.extractLsb' 5 7), 1#3, b_, a_, (o_.extractLsb' 0 5), 0x0C#6⟩
  | .blt a_ b_ o_ =>
    .word ⟨(o_.extractLsb' 5 7), 2#3, b_, a_, (o_.extractLsb' 0 5), 0x0C#6⟩
  | .bge a_ b_ o_ =>
    .word ⟨(o_.extractLsb' 5 7), 3#3, b_, a_, (o_.extractLsb' 0 5), 0x0C#6⟩
  | .bltn a_ b_ o_ =>
    .word ⟨(o_.extractLsb' 5 7), 4#3, b_, a_, (o_.extractLsb' 0 5), 0x0C#6⟩
  | .bgen a_ b_ o_ =>
    .word ⟨(o_.extractLsb' 5 7), 5#3, b_, a_, (o_.extractLsb' 0 5), 0x0C#6⟩
  | .jal d_ o_ =>
    .word ⟨(o_.extractLsb' 13 7), (o_.extractLsb' 10 3), (o_.extractLsb' 5 5), (o_.extractLsb' 0 5), d_, 0x0D#6⟩
  | .jalr d_ a_ i_ =>
    .word ⟨(i_.extractLsb' 5 7), 0#3, (i_.extractLsb' 0 5), a_, d_, 0x0E#6⟩
  | .ldb d_ a_ o_ =>
    .word ⟨(o_.extractLsb' 5 7), 0#3, (o_.extractLsb' 0 5), a_, d_, 0x10#6⟩
  | .ldbn d_ a_ o_ =>
    .word ⟨(o_.extractLsb' 5 7), 1#3, (o_.extractLsb' 0 5), a_, d_, 0x10#6⟩
  | .ldh d_ a_ o_ =>
    .word ⟨(o_.extractLsb' 5 7), 2#3, (o_.extractLsb' 0 5), a_, d_, 0x10#6⟩
  | .ldhn d_ a_ o_ =>
    .word ⟨(o_.extractLsb' 5 7), 3#3, (o_.extractLsb' 0 5), a_, d_, 0x10#6⟩
  | .ldw d_ a_ o_ =>
    .word ⟨(o_.extractLsb' 5 7), 4#3, (o_.extractLsb' 0 5), a_, d_, 0x10#6⟩
  | .ldwn d_ a_ o_ =>
    .word ⟨(o_.extractLsb' 5 7), 5#3, (o_.extractLsb' 0 5), a_, d_, 0x10#6⟩
  | .ldd d_ a_ o_ =>
    .word ⟨(o_.extractLsb' 5 7), 6#3, (o_.extractLsb' 0 5), a_, d_, 0x10#6⟩
  | .ldbA d_ a_ o_ =>
    .word ⟨(o_.extractLsb' 5 7), 0#3, (o_.extractLsb' 0 5), a_, d_, 0x12#6⟩
  | .ldbnA d_ a_ o_ =>
    .word ⟨(o_.extractLsb' 5 7), 1#3, (o_.extractLsb' 0 5), a_, d_, 0x12#6⟩
  | .ldhA d_ a_ o_ =>
    .word ⟨(o_.extractLsb' 5 7), 2#3, (o_.extractLsb' 0 5), a_, d_, 0x12#6⟩
  | .ldhnA d_ a_ o_ =>
    .word ⟨(o_.extractLsb' 5 7), 3#3, (o_.extractLsb' 0 5), a_, d_, 0x12#6⟩
  | .ldwA d_ a_ o_ =>
    .word ⟨(o_.extractLsb' 5 7), 4#3, (o_.extractLsb' 0 5), a_, d_, 0x12#6⟩
  | .ldwnA d_ a_ o_ =>
    .word ⟨(o_.extractLsb' 5 7), 5#3, (o_.extractLsb' 0 5), a_, d_, 0x12#6⟩
  | .lddA d_ a_ o_ =>
    .word ⟨(o_.extractLsb' 5 7), 6#3, (o_.extractLsb' 0 5), a_, d_, 0x12#6⟩
  | .ldbS d_ a_ o_ =>
    .word ⟨(o_.extractLsb' 5 7), 0#3, (o_.extractLsb' 0 5), a_, d_, 0x14#6⟩
  | .ldbnS d_ a_ o_ =>
    .word ⟨(o_.extractLsb' 5 7), 1#3, (o_.extractLsb' 0 5), a_, d_, 0x14#6⟩
  | .ldhS d_ a_ o_ =>
    .word ⟨(o_.extractLsb' 5 7), 2#3, (o_.extractLsb' 0 5), a_, d_, 0x14#6⟩
  | .ldhnS d_ a_ o_ =>
    .word ⟨(o_.extractLsb' 5 7), 3#3, (o_.extractLsb' 0 5), a_, d_, 0x14#6⟩
  | .ldwS d_ a_ o_ =>
    .word ⟨(o_.extractLsb' 5 7), 4#3, (o_.extractLsb' 0 5), a_, d_, 0x14#6⟩
  | .ldwnS d_ a_ o_ =>
    .word ⟨(o_.extractLsb' 5 7), 5#3, (o_.extractLsb' 0 5), a_, d_, 0x14#6⟩
  | .lddS d_ a_ o_ =>
    .word ⟨(o_.extractLsb' 5 7), 6#3, (o_.extractLsb' 0 5), a_, d_, 0x14#6⟩
  | .stb a_ b_ o_ =>
    .word ⟨(o_.extractLsb' 5 7), 0#3, b_, a_, (o_.extractLsb' 0 5), 0x11#6⟩
  | .sth a_ b_ o_ =>
    .word ⟨(o_.extractLsb' 5 7), 1#3, b_, a_, (o_.extractLsb' 0 5), 0x11#6⟩
  | .stw a_ b_ o_ =>
    .word ⟨(o_.extractLsb' 5 7), 2#3, b_, a_, (o_.extractLsb' 0 5), 0x11#6⟩
  | .std a_ b_ o_ =>
    .word ⟨(o_.extractLsb' 5 7), 3#3, b_, a_, (o_.extractLsb' 0 5), 0x11#6⟩
  | .stbA a_ b_ o_ =>
    .word ⟨(o_.extractLsb' 5 7), 0#3, b_, a_, (o_.extractLsb' 0 5), 0x13#6⟩
  | .sthA a_ b_ o_ =>
    .word ⟨(o_.extractLsb' 5 7), 1#3, b_, a_, (o_.extractLsb' 0 5), 0x13#6⟩
  | .stwA a_ b_ o_ =>
    .word ⟨(o_.extractLsb' 5 7), 2#3, b_, a_, (o_.extractLsb' 0 5), 0x13#6⟩
  | .stdA a_ b_ o_ =>
    .word ⟨(o_.extractLsb' 5 7), 3#3, b_, a_, (o_.extractLsb' 0 5), 0x13#6⟩
  | .stflA a_ b_ o_ =>
    .word ⟨(o_.extractLsb' 5 7), 4#3, b_, a_, (o_.extractLsb' 0 5), 0x13#6⟩
  | .clreA a_ o_ =>
    .word ⟨(o_.extractLsb' 5 7), 5#3, 0#5, a_, (o_.extractLsb' 0 5), 0x13#6⟩
  | .stbS a_ b_ o_ =>
    .word ⟨(o_.extractLsb' 5 7), 0#3, b_, a_, (o_.extractLsb' 0 5), 0x15#6⟩
  | .sthS a_ b_ o_ =>
    .word ⟨(o_.extractLsb' 5 7), 1#3, b_, a_, (o_.extractLsb' 0 5), 0x15#6⟩
  | .stwS a_ b_ o_ =>
    .word ⟨(o_.extractLsb' 5 7), 2#3, b_, a_, (o_.extractLsb' 0 5), 0x15#6⟩
  | .stdS a_ b_ o_ =>
    .word ⟨(o_.extractLsb' 5 7), 3#3, b_, a_, (o_.extractLsb' 0 5), 0x15#6⟩
  | .stflS a_ b_ o_ =>
    .word ⟨(o_.extractLsb' 5 7), 4#3, b_, a_, (o_.extractLsb' 0 5), 0x15#6⟩
  | .clreS a_ o_ =>
    .word ⟨(o_.extractLsb' 5 7), 5#3, 0#5, a_, (o_.extractLsb' 0 5), 0x15#6⟩
  | .ldwt d_ a_ b_ s_ =>
    .word ⟨s_ ++ 0#5, 0#3, b_, a_, d_, 0x16#6⟩
  | .tstf d_ a_ b_ s_ =>
    .word ⟨s_ ++ 0#5, 1#3, b_, a_, d_, 0x16#6⟩
  | .lde d_ a_ b_ =>
    .word ⟨0#7, 2#3, b_, a_, d_, 0x16#6⟩
  | .ste d_ a_ b_ =>
    .word ⟨0#7, 3#3, b_, a_, d_, 0x16#6⟩
  | .pf a_ b_ =>
    .word ⟨0#7, 4#3, b_, a_, 0#5, 0x16#6⟩
  | .vld d_ a_ b_ s_ =>
    .word ⟨s_ ++ 0#5, 0#3, b_, a_, d_, 0x17#6⟩
  | .vst d_ a_ b_ s_ =>
    .word ⟨s_ ++ 0#5, 1#3, b_, a_, d_, 0x17#6⟩
  | .vlds d_ a_ b_ w_ s_ =>
    .word ⟨s_ ++ 0#4 ++ w_, 2#3, b_, a_, d_, 0x17#6⟩
  | .vldx d_ a_ b_ w_ s_ =>
    .word ⟨s_ ++ 0#4 ++ w_, 3#3, b_, a_, d_, 0x17#6⟩
  | .vstx d_ a_ b_ w_ s_ =>
    .word ⟨s_ ++ 0#4 ++ w_, 4#3, b_, a_, d_, 0x17#6⟩
  | .vlde d_ a_ b_ f_ s_ =>
    .word ⟨s_ ++ 0#2 ++ f_, 5#3, b_, a_, d_, 0x17#6⟩
  | .vste d_ a_ b_ f_ s_ =>
    .word ⟨s_ ++ 0#2 ++ f_, 6#3, b_, a_, d_, 0x17#6⟩
  | .vadd d_ a_ b_ e_ =>
    .word ⟨0#4 ++ e_, 0#3, b_, a_, d_, 0x18#6⟩
  | .vsub d_ a_ b_ e_ =>
    .word ⟨1#4 ++ e_, 0#3, b_, a_, d_, 0x18#6⟩
  | .vmul d_ a_ b_ e_ =>
    .word ⟨2#4 ++ e_, 0#3, b_, a_, d_, 0x18#6⟩
  | .vmin d_ a_ b_ e_ =>
    .word ⟨3#4 ++ e_, 0#3, b_, a_, d_, 0x18#6⟩
  | .vmax d_ a_ b_ e_ =>
    .word ⟨4#4 ++ e_, 0#3, b_, a_, d_, 0x18#6⟩
  | .vabs d_ a_ e_ =>
    .word ⟨5#4 ++ e_, 0#3, 0#5, a_, d_, 0x18#6⟩
  | .vfma d_ a_ b_ e_ =>
    .word ⟨0#4 ++ e_, 1#3, b_, a_, d_, 0x18#6⟩
  | .vfms d_ a_ b_ e_ =>
    .word ⟨1#4 ++ e_, 1#3, b_, a_, d_, 0x18#6⟩
  | .vand d_ a_ b_ e_ =>
    .word ⟨0#4 ++ e_, 0#3, b_, a_, d_, 0x19#6⟩
  | .vor d_ a_ b_ e_ =>
    .word ⟨1#4 ++ e_, 0#3, b_, a_, d_, 0x19#6⟩
  | .vxor d_ a_ b_ e_ =>
    .word ⟨2#4 ++ e_, 0#3, b_, a_, d_, 0x19#6⟩
  | .vshl d_ a_ b_ e_ =>
    .word ⟨0#4 ++ e_, 1#3, b_, a_, d_, 0x19#6⟩
  | .vshr d_ a_ b_ e_ =>
    .word ⟨1#4 ++ e_, 1#3, b_, a_, d_, 0x19#6⟩
  | .vsha d_ a_ b_ e_ =>
    .word ⟨2#4 ++ e_, 1#3, b_, a_, d_, 0x19#6⟩
  | .vfshl d_ a_ b_ e_ =>
    .word ⟨3#4 ++ e_, 1#3, b_, a_, d_, 0x19#6⟩
  | .vfshr d_ a_ b_ e_ =>
    .word ⟨4#4 ++ e_, 1#3, b_, a_, d_, 0x19#6⟩
  | .vtern d_ a_ b_ t_ =>
    .word ⟨(t_.extractLsb' 1 7), (t_.extractLsb' 0 1) ++ 0#2, b_, a_, d_, 0x1A#6⟩
  | .vcmp k_ a_ b_ e_ c_ =>
    .word ⟨c_ ++ e_, 0#3, b_, a_, 0#2 ++ k_, 0x1B#6⟩
  | .vsel d_ a_ b_ e_ k_ =>
    .word ⟨0#1 ++ k_ ++ e_, 1#3, b_, a_, d_, 0x1B#6⟩
  | .vcvt d_ a_ b_ t_ s_ =>
    .word ⟨s_ ++ (t_.extractLsb' 0 3), 0#2 ++ (t_.extractLsb' 3 1), b_, a_, d_, 0x1C#6⟩
  | .vred d_ a_ e_ o_ =>
    .word ⟨o_ ++ e_, 0#3, 0#5, a_, d_, 0x1D#6⟩
  | .vscan d_ a_ e_ o_ =>
    .word ⟨o_ ++ e_, 1#3, 0#5, a_, d_, 0x1D#6⟩
  | .vperm d_ a_ b_ e_ =>
    .word ⟨0#4 ++ e_, 0#3, b_, a_, d_, 0x1E#6⟩
  | .vbcast d_ a_ e_ =>
    .word ⟨0#4 ++ e_, 1#3, 0#5, a_, d_, 0x1E#6⟩
  | .vext d_ a_ b_ e_ =>
    .word ⟨0#4 ++ e_, 2#3, b_, a_, d_, 0x1E#6⟩
  | .vins d_ a_ b_ e_ =>
    .word ⟨0#4 ++ e_, 3#3, b_, a_, d_, 0x1E#6⟩
  | .vpack d_ a_ b_ e_ =>
    .word ⟨0#4 ++ e_, 4#3, b_, a_, d_, 0x1E#6⟩
  | .vunpk d_ a_ e_ h_ =>
    .word ⟨0#3 ++ h_ ++ e_, 5#3, 0#5, a_, d_, 0x1E#6⟩
  | .vpopc d_ a_ e_ =>
    .word ⟨0#4 ++ e_, 6#3, 0#5, a_, d_, 0x1E#6⟩
  | .kand d_ a_ b_ =>
    .word ⟨0#7, 0#3, 0#2 ++ b_, 0#2 ++ a_, 0#2 ++ d_, 0x1F#6⟩
  | .kor d_ a_ b_ =>
    .word ⟨8#7, 0#3, 0#2 ++ b_, 0#2 ++ a_, 0#2 ++ d_, 0x1F#6⟩
  | .knot d_ a_ =>
    .word ⟨16#7, 0#3, 0#5, 0#2 ++ a_, 0#2 ++ d_, 0x1F#6⟩
  | .kmov d_ a_ =>
    .word ⟨24#7, 0#3, 0#5, 0#2 ++ a_, 0#2 ++ d_, 0x1F#6⟩
  | .kmovKg d_ a_ =>
    .word ⟨25#7, 0#3, 0#5, a_, 0#2 ++ d_, 0x1F#6⟩
  | .kmovGk d_ a_ =>
    .word ⟨26#7, 0#3, 0#5, 0#2 ++ a_, d_, 0x1F#6⟩
  | .gang d_ n_ =>
    .word ⟨0#5 ++ n_, 0#3, 0#5, 0#5, d_, 0x20#6⟩
  | .disband =>
    .word ⟨0#7, 1#3, 0#5, 0#5, 0#5, 0x20#6⟩
  | .mzero t_ =>
    .word ⟨0#7, 0#3, 0#5, 0#5, 0#1 ++ t_, 0x28#6⟩
  | .mldb d_ a_ f_ h_ v_ w_ =>
    .word ⟨w_ ++ 0#1 ++ v_ ++ h_, 1#3, 0#2 ++ f_, a_, d_, 0x28#6⟩
  | .mma t_ a_ b_ h_ v_ w_ =>
    .word ⟨w_ ++ 0#1 ++ v_ ++ h_, 2#3, b_, a_, 0#1 ++ t_, 0x28#6⟩
  | .mdrain t_ x_ a_ b_ h_ f_ c_ =>
    .word ⟨0#4 ++ c_ ++ f_ ++ h_, 3#3, b_, a_, x_ ++ t_, 0x28#6⟩
  | .mscale t_ b_ v_ i_ =>
    .word ⟨0#5 ++ i_ ++ v_, 4#3, b_, 0#5, 0#1 ++ t_, 0x28#6⟩
  | .mstat d_ a_ s_ =>
    .word ⟨0#6 ++ s_, 5#3, 0#5, a_, d_, 0x28#6⟩
  | .mtr d_ a_ f_ h_ v_ w_ =>
    .word ⟨w_ ++ 0#1 ++ v_ ++ h_, 6#3, 0#2 ++ f_, a_, d_, 0x28#6⟩
  | .tqLd d_ a_ b_ =>
    .word ⟨0#7, 0#3, b_, a_, d_, 0x2C#6⟩
  | .tqQ d_ a_ b_ o_ =>
    .word ⟨0#6 ++ o_, 1#3, b_, a_, d_, 0x2C#6⟩
  | .tqQs d_ a_ b_ g_ =>
    .word ⟨0#5 ++ g_, 2#3, b_, a_, d_, 0x2C#6⟩
  | .tqScan d_ =>
    .word ⟨0#7, 3#3, 0#5, 0#5, d_, 0x2C#6⟩
  | .tqWait d_ =>
    .word ⟨0#7, 4#3, 0#5, 0#5, d_, 0x2C#6⟩
  | .sfRcp d_ a_ =>
    .word ⟨0#7, 0#3, 0#5, a_, d_, 0x2D#6⟩
  | .sfRsq d_ a_ =>
    .word ⟨1#7, 0#3, 0#5, a_, d_, 0x2D#6⟩
  | .sfSqrt d_ a_ =>
    .word ⟨2#7, 0#3, 0#5, a_, d_, 0x2D#6⟩
  | .sfExp2 d_ a_ =>
    .word ⟨3#7, 0#3, 0#5, a_, d_, 0x2D#6⟩
  | .sfLog2 d_ a_ =>
    .word ⟨4#7, 0#3, 0#5, a_, d_, 0x2D#6⟩
  | .hset h_ a_ =>
    .word ⟨0#7, 0#3, 0#5, a_, 0#1 ++ h_, 0x2E#6⟩
  | .hwait h_ w_ =>
    .word ⟨w_ ++ 0#3, 1#3, 0#5, 0#5, 0#1 ++ h_, 0x2E#6⟩
  | .hadv h_ n_ =>
    .word ⟨0#7, 2#3, n_, 0#5, 0#1 ++ h_, 0x2E#6⟩
  | .hpub h_ n_ =>
    .word ⟨0#7, 3#3, n_, 0#5, 0#1 ++ h_, 0x2E#6⟩
  | .hstat d_ h_ c_ =>
    .word ⟨0#6 ++ c_, 4#3, 0#5, 0#1 ++ h_, d_, 0x2E#6⟩
  | .cpGet d_ a_ p_ =>
    .word ⟨0#5 ++ p_, 0#3, 0#5, a_, d_, 0x2F#6⟩
  | .cpPut d_ a_ p_ =>
    .word ⟨0#6 ++ p_, 1#3, 0#5, a_, d_, 0x2F#6⟩
  | .cpGath d_ a_ b_ p_ =>
    .word ⟨0#5 ++ p_, 2#3, b_, a_, d_, 0x2F#6⟩
  | .cpScat d_ a_ b_ p_ =>
    .word ⟨0#6 ++ p_, 3#3, b_, a_, d_, 0x2F#6⟩
  | .cpRed d_ a_ p_ =>
    .word ⟨0#6 ++ p_, 4#3, 0#5, a_, d_, 0x2F#6⟩
  | .cpStat d_ a_ p_ =>
    .word ⟨0#5 ++ p_, 5#3, 0#5, a_, d_, 0x2F#6⟩
  | .cpWait d_ a_ =>
    .word ⟨0#7, 6#3, 0#5, a_, d_, 0x2F#6⟩
  | .ccSet c_ a_ =>
    .word ⟨0#7, 0#3, 0#5, a_, 0#1 ++ c_, 0x30#6⟩
  | .ccWait d_ c_ =>
    .word ⟨0#7, 1#3, 0#5, 0#1 ++ c_, d_, 0x30#6⟩
  | .sleepP a_ =>
    .word ⟨0#7, 2#3, 0#5, a_, 0#5, 0x30#6⟩
  | .sleepC a_ =>
    .word ⟨0#7, 3#3, 0#5, a_, 0#5, 0x30#6⟩
  | .pget a_ b_ s_ =>
    .word ⟨0#6 ++ s_, 0#3, b_, a_, 0#5, 0x31#6⟩
  | .pput a_ b_ s_ =>
    .word ⟨0#6 ++ s_, 1#3, b_, a_, 0#5, 0x31#6⟩
  | .ctrb a_ n_ =>
    .word ⟨0#6 ++ (n_.extractLsb' 5 1), 0#3, (n_.extractLsb' 0 5), a_, 0#5, 0x32#6⟩
  | .grd d_ n_ =>
    .word ⟨0#6 ++ (n_.extractLsb' 5 1), 1#3, (n_.extractLsb' 0 5), 0#5, d_, 0x32#6⟩
  | .grpset a_ n_ =>
    .word ⟨0#6 ++ (n_.extractLsb' 5 1), 2#3, (n_.extractLsb' 0 5), a_, 0#5, 0x32#6⟩
  | .ssIsect d_ s_ =>
    .word ⟨0#6 ++ s_, 0#3, 0#5, 0#5, d_, 0x34#6⟩
  | .ssUnion d_ s_ =>
    .word ⟨0#6 ++ s_, 1#3, 0#5, 0#5, d_, 0x34#6⟩
  | .ssMerge d_ s_ =>
    .word ⟨0#6 ++ s_, 2#3, 0#5, 0#5, d_, 0x34#6⟩
  | .ssDiff d_ s_ =>
    .word ⟨0#6 ++ s_, 3#3, 0#5, 0#5, d_, 0x34#6⟩
  | .ssSeek d_ =>
    .word ⟨0#7, 4#3, 0#5, 0#5, d_, 0x34#6⟩
  | .jwOpen w_ a_ =>
    .word ⟨0#7, 0#3, 0#5, a_, 0#4 ++ w_, 0x35#6⟩
  | .jwNext d_ k_ w_ =>
    .word ⟨0#7, 1#3, 0#4 ++ w_, 0#2 ++ k_, d_, 0x35#6⟩
  | .jwCnt d_ a_ w_ =>
    .word ⟨0#7, 2#3, 0#4 ++ w_, a_, d_, 0x35#6⟩
  | .jwClose w_ =>
    .word ⟨0#7, 3#3, 0#5, 0#5, 0#4 ++ w_, 0x35#6⟩
  | .kacc d_ a_ b_ m_ t_ =>
    .word ⟨0#4 ++ t_ ++ m_, 0#3, b_, a_, d_, 0x36#6⟩
  | .kexp d_ a_ b_ m_ =>
    .word ⟨0#5 ++ m_, 1#3, b_, a_, d_, 0x36#6⟩
  | .kflush d_ a_ t_ =>
    .word ⟨0#4 ++ t_ ++ 0#2, 2#3, 0#5, a_, d_, 0x36#6⟩
  | .kcnt a_ b_ m_ =>
    .word ⟨0#5 ++ m_, 3#3, b_, a_, 0#5, 0x36#6⟩
  | .amoadd d_ a_ b_ =>
    .word ⟨0#7, 0#3, b_, a_, d_, 0x38#6⟩
  | .amoand d_ a_ b_ =>
    .word ⟨1#7, 0#3, b_, a_, d_, 0x38#6⟩
  | .amoor d_ a_ b_ =>
    .word ⟨2#7, 0#3, b_, a_, d_, 0x38#6⟩
  | .amoxor d_ a_ b_ =>
    .word ⟨3#7, 0#3, b_, a_, d_, 0x38#6⟩
  | .amomin d_ a_ b_ =>
    .word ⟨4#7, 0#3, b_, a_, d_, 0x38#6⟩
  | .amomax d_ a_ b_ =>
    .word ⟨5#7, 0#3, b_, a_, d_, 0x38#6⟩
  | .amominn d_ a_ b_ =>
    .word ⟨6#7, 0#3, b_, a_, d_, 0x38#6⟩
  | .amomaxn d_ a_ b_ =>
    .word ⟨7#7, 0#3, b_, a_, d_, 0x38#6⟩
  | .amoswp d_ a_ b_ =>
    .word ⟨8#7, 0#3, b_, a_, d_, 0x38#6⟩
  | .amocas d_ a_ b_ =>
    .word ⟨9#7, 0#3, b_, a_, d_, 0x38#6⟩
  | .amofadd d_ a_ b_ =>
    .word ⟨10#7, 0#3, b_, a_, d_, 0x38#6⟩
  | .redadd a_ b_ =>
    .word ⟨0#7, 0#3, b_, a_, 0#5, 0x39#6⟩
  | .redmin a_ b_ =>
    .word ⟨1#7, 0#3, b_, a_, 0#5, 0x39#6⟩
  | .redmax a_ b_ =>
    .word ⟨2#7, 0#3, b_, a_, 0#5, 0x39#6⟩
  | .redfadd a_ b_ =>
    .word ⟨3#7, 0#3, b_, a_, 0#5, 0x39#6⟩
  | .redor a_ b_ =>
    .word ⟨4#7, 0#3, b_, a_, 0#5, 0x39#6⟩
  | .bind d_ a_ b_ =>
    .word ⟨0#7, 0#3, b_, a_, d_, 0x3A#6⟩
  | .unbind d_ a_ b_ =>
    .word ⟨1#7, 0#3, b_, a_, d_, 0x3A#6⟩
  | .acq d_ a_ s_ =>
    .word ⟨0#6 ++ s_, 1#3, 0#5, a_, d_, 0x3A#6⟩
  | .rel a_ =>
    .word ⟨0#7, 2#3, 0#5, a_, 0#5, 0x3A#6⟩
  | .fence s_ k_ =>
    .word ⟨0#2 ++ k_ ++ s_, 3#3, 0#5, 0#5, 0#5, 0x3A#6⟩
  | .barInit a_ n_ =>
    .word ⟨0#3 ++ (n_.extractLsb' 5 4), 0#3, 0#5, a_, (n_.extractLsb' 0 5), 0x3B#6⟩
  | .barEnrol n_ =>
    .word ⟨0#3 ++ (n_.extractLsb' 5 4), 1#3, 0#5, 0#5, (n_.extractLsb' 0 5), 0x3B#6⟩
  | .barArr n_ =>
    .word ⟨0#3 ++ (n_.extractLsb' 5 4), 2#3, 0#5, 0#5, (n_.extractLsb' 0 5), 0x3B#6⟩
  | .barWait n_ =>
    .word ⟨0#3 ++ (n_.extractLsb' 5 4), 3#3, 0#5, 0#5, (n_.extractLsb' 0 5), 0x3B#6⟩
  | .barSig a_ n_ =>
    .word ⟨0#3 ++ (n_.extractLsb' 5 4), 4#3, 0#5, a_, (n_.extractLsb' 0 5), 0x3B#6⟩
  | .barDrop n_ =>
    .word ⟨0#3 ++ (n_.extractLsb' 5 4), 5#3, 0#5, 0#5, (n_.extractLsb' 0 5), 0x3B#6⟩
  | .barGrel n_ g_ =>
    .word ⟨0#2 ++ (g_.extractLsb' 5 1) ++ (n_.extractLsb' 5 4), 6#3, (g_.extractLsb' 0 5), 0#5, (n_.extractLsb' 0 5), 0x3B#6⟩
  | .msgSend d_ a_ b_ =>
    .word ⟨0#7, 0#3, b_, a_, d_, 0x3C#6⟩
  | .msgSendw d_ a_ b_ =>
    .word ⟨0#7, 1#3, b_, a_, d_, 0x3C#6⟩
  | .msgStat d_ a_ =>
    .word ⟨0#7, 2#3, 0#5, a_, d_, 0x3C#6⟩
  | .msgMask a_ =>
    .word ⟨0#7, 3#3, 0#5, a_, 0#5, 0x3C#6⟩
  | .msgUnmask a_ =>
    .word ⟨0#7, 4#3, 0#5, a_, 0#5, 0x3C#6⟩
  | .msgRet =>
    .word ⟨0#7, 5#3, 0#5, 0#5, 0#5, 0x3C#6⟩
  | .swRd d_ a_ =>
    .word ⟨0#7, 0#3, 0#5, a_, d_, 0x3D#6⟩
  | .swAdd d_ a_ b_ t_ =>
    .word ⟨0#6 ++ t_, 1#3, b_, a_, d_, 0x3D#6⟩
  | .swMax d_ a_ b_ t_ =>
    .word ⟨0#6 ++ t_, 2#3, b_, a_, d_, 0x3D#6⟩
  | .swSwap d_ a_ b_ =>
    .word ⟨0#7, 3#3, b_, a_, d_, 0x3D#6⟩
  | .swCas d_ a_ b_ =>
    .word ⟨0#7, 4#3, b_, a_, d_, 0x3D#6⟩
  | .swBoard d_ a_ b_ =>
    .word ⟨0#7, 5#3, b_, a_, d_, 0x3D#6⟩
  | .swAlight a_ =>
    .word ⟨0#7, 6#3, 0#5, a_, 0#5, 0x3D#6⟩
  | .swWait d_ =>
    .word ⟨0#7, 7#3, 0#5, 0#5, d_, 0x3D#6⟩
  | .fork d_ a_ b_ =>
    .word ⟨0#7, 0#3, b_, a_, d_, 0x3E#6⟩
  | .join a_ =>
    .word ⟨1#7, 0#3, 0#5, a_, 0#5, 0x3E#6⟩
  | .halt r_ a_ =>
    .word ⟨2#7, 0#3, 0#5, a_, 0#4 ++ r_, 0x3E#6⟩
  | .haltj a_ =>
    .word ⟨3#7, 0#3, 0#5, a_, 0#5, 0x3E#6⟩
  | .yield =>
    .word ⟨4#7, 0#3, 0#5, 0#5, 0#5, 0x3E#6⟩
  | .suspend a_ =>
    .word ⟨5#7, 0#3, 0#5, a_, 0#5, 0x3E#6⟩
  | .oxl n_ c_ i_ =>
    .word ⟨0#1 ++ (i_.extractLsb' 10 6), 1#3, (i_.extractLsb' 5 5), (i_.extractLsb' 0 5), c_ ++ n_, 0x3E#6⟩
  | .oxm n_ a_ =>
    .word ⟨0#7, 2#3, 0#5, a_, 0#2 ++ n_, 0x3E#6⟩
  | .oxmToG d_ n_ =>
    .word ⟨1#7, 2#3, 0#5, 0#2 ++ n_, d_, 0x3E#6⟩
  | .oxld n_ a_ o_ =>
    .word ⟨(o_.extractLsb' 5 7), 3#3, (o_.extractLsb' 0 5), a_, 0#2 ++ n_, 0x3E#6⟩
  | .oxst a_ n_ o_ =>
    .word ⟨(o_.extractLsb' 5 7), 4#3, 0#2 ++ n_, a_, (o_.extractLsb' 0 5), 0x3E#6⟩
  | .sysrd d_ i_ =>
    .word ⟨(i_.extractLsb' 5 7), 5#3, (i_.extractLsb' 0 5), 0#5, d_, 0x3E#6⟩
  | .syswr a_ i_ =>
    .word ⟨(i_.extractLsb' 5 7), 6#3, (i_.extractLsb' 0 5), a_, 0#5, 0x3E#6⟩
  | .spillmapWrite => .none_
  | .trap a_ b_ =>
    .word ⟨0#7, 7#3, b_, a_, 0#5, 0x3E#6⟩
  | .eret =>
    .word ⟨1#7, 7#3, 0#5, 0#5, 0#5, 0x3E#6⟩
  | .brk =>
    .word ⟨2#7, 7#3, 0#5, 0#5, 0#5, 0x3E#6⟩
  | .nop =>
    .word ⟨3#7, 7#3, 0#5, 0#5, 0#5, 0x3E#6⟩
  | .vpfx m_ z_ r_ x_ v_ =>
    .word ⟨0#7, 0#3, 0#2 ++ (v_.extractLsb' 2 3), (v_.extractLsb' 0 2) ++ x_ ++ (r_.extractLsb' 1 2), (r_.extractLsb' 0 1) ++ z_ ++ m_, 0x3F#6⟩
  | .addiH d_ a_ i_ =>
    .half ⟨i_, a_, d_, 1#4⟩
  | .addH d_ a_ b_ =>
    .half ⟨0#2 ++ b_, a_, d_, 2#4⟩
  | .subH d_ a_ b_ =>
    .half ⟨1#2 ++ b_, a_, d_, 2#4⟩
  | .andH d_ a_ b_ =>
    .half ⟨2#2 ++ b_, a_, d_, 2#4⟩
  | .orH d_ a_ b_ =>
    .half ⟨3#2 ++ b_, a_, d_, 2#4⟩
  | .xorH d_ a_ b_ =>
    .half ⟨0#2 ++ b_, a_, d_, 3#4⟩
  | .shlH d_ a_ b_ =>
    .half ⟨1#2 ++ b_, a_, d_, 3#4⟩
  | .shrH d_ a_ b_ =>
    .half ⟨2#2 ++ b_, a_, d_, 3#4⟩
  | .shaH d_ a_ b_ =>
    .half ⟨3#2 ++ b_, a_, d_, 3#4⟩
  | .ldwH d_ a_ i_ =>
    .half ⟨i_, a_, d_, 4#4⟩
  | .lddH d_ a_ i_ =>
    .half ⟨i_, a_, d_, 5#4⟩
  | .stwH d_ a_ i_ =>
    .half ⟨i_, a_, d_, 6#4⟩
  | .stdH d_ a_ i_ =>
    .half ⟨i_, a_, d_, 7#4⟩
  | .beqH d_ a_ i_ =>
    .half ⟨i_, a_, d_, 8#4⟩
  | .bneH d_ a_ i_ =>
    .half ⟨i_, a_, d_, 9#4⟩
  | .sltiH d_ a_ i_ =>
    .half ⟨i_, a_, d_, 10#4⟩
  | .andiH d_ a_ i_ =>
    .half ⟨i_, a_, d_, 11#4⟩
  | .nopH =>
    .half ⟨0#5, 0#3, 0#3, 15#4⟩
  | .haltH =>
    .half ⟨1#5, 0#3, 0#3, 15#4⟩
  | .brkH =>
    .half ⟨2#5, 0#3, 0#3, 15#4⟩
  | .asyncTrap => .none_
  | .packageReset => .none_
  | .linkTraining => .none_
  | .powerWindow => .none_
  | .thermalThrottle => .none_
  | .thermalTrip => .none_
  | .hostMemWrite => .none_
  | .hostMemRead => .none_
  | .hostSnoop => .none_
  | .boardReg => .none_
  | .boardUnreg => .none_
  | .boardRemove => .none_
  | .asroot => .none_
  | .inval => .none_
  | .invalidationComplete => .none_
  | .preempt => .none_
  | .resume => .none_
  | .kill => .none_
  | .peerSet => .none_
  | .regionSet => .none_
  | .fwLoad => .none_
  | .getVersion => .none_
  | .getCapabilities => .none_
  | .negotiateAlgorithms => .none_
  | .getDigests => .none_
  | .getCertificate => .none_
  | .challenge => .none_
  | .getMeasurements => .none_
  | .launchRecordTake => .none_
  | .launchBind => .none_
  | .bindRecordRebind => .none_
  | .bindRecordRun => .none_
  | .bindRecordEntry => .none_
  | .bindRecordUnbind => .none_
  | .unbindValidClear => .none_
  | .preemptSave => .none_
  | .preemptRestore => .none_
  | .preemptKill => .none_
  | .launchComplete => .none_
  | .msixSend => .none_
  | .contextDispatch => .none_
  | .stealBackoffExpire => .none_
  | .stealRequestArrive => .none_
  | .stealReplyArrive => .none_
  | .dequeMigrate => .none_
  | .bankPowerDown => .none_
  | .cacheEvict => .none_
  | .copyPageTranslate => .none_
  | .copyPieceLand => .none_
  | .remoteAccessServe => .none_
  | .oneSidedReply => .none_
  | .matrixAccept => .none_
  | .matrixComplete => .none_
  | .slotParityCheck => .none_
  | .wellService => .none_
  | .queryResultLand => .none_
  | .scanSumLand => .none_
  | .sfuServe => .none_
  | .amoApply => .none_
  | .amoReply => .none_
  | .reductionApply => .none_
  | .acqGrant => .none_
  | .objectRelease => .none_
  | .barSignalArrive => .none_
  | .groupRoundComplete => .none_
  | .groupResultArrive => .none_
  | .grpsetComplete => .none_
  | .grelRelease => .none_
  | .messageArrive => .none_
  | .mailboxRowWrite => .none_
  | .handlerStart => .none_
  | .messageStatusReturn => .none_
  | .ringPassage => .none_
  | .ringOrigin => .none_
  | .boardWindowExpire => .none_
  | .alightWriteLand => .none_
  | .tlbWalkComplete => .none_
  | .packetReceive => .none_
  | .peerReadRequest => .none_
  | .packetAck => .none_
  | .transportFailure => .none_
  | .chunkLost => .none_
  | .sleepWake => .none_
  | .handleWaitTimeout => .none_
  | .ccWaitTimeout => .none_
  | .patrolScrub => .none_
  | .functionFence => .none_
  | .channelRetire => .none_
  | .selfRefreshEnter => .none_
  | .accessTableWrite => .none_
  | .accessTableLock => .none_
  | .illegalInstruction => .none_
  | .fetchFault => .none_
  | .prefetchFill => .none_
  | .endpointLinkDown => .none_
  | .endpointLinkUp => .none_
  | .packetRetransmit => .none_
  | .hdmDecoderSet => .none_
  | .eventLogClear => .none_
  | .doeDiscovery => .none_

/-- The bytes an encoding is stored as (R51); none for an event. -/
def Encoding.bytes : Encoding → List Byte
  | .word f => bytesOf 4 f.toWord.toNat
  | .half f => bytesOf 2 f.toWord.toNat
  | .none_ => []

end Sys2Proof
end

