-- ==== Sys2Proof/Machine/Bits.lean ====
section
/-! DEFINITION. Bit fields, byte order and sparse tables: the helpers every meaning uses (02_assembly_and_formats.md
R51, R60). -/
namespace Sys2Proof.Machine
open Sys2Proof

/-- What a sparse table holds at a key: its entry, else the default. -/
def tabGet {α : Type} (d : α) : Tab α → Nat → α
  | [], _ => d
  | (k, x) :: t, n => if k = n then x else tabGet d t n

/-- A sparse table with one entry set, keys kept rising. -/
def tabPut {α : Type} : Tab α → Nat → α → Tab α
  | [], n, x => [(n, x)]
  | (k, y) :: t, n, x =>
    if k = n then (n, x) :: t else if n < k then (n, x) :: (k, y) :: t else (k, y) :: tabPut t n x

/-- A sparse table without a key. -/
def tabDel {α : Type} (t : Tab α) (n : Nat) : Tab α := t.filter (fun p => p.1 ≠ n)

/-- A byte written into sparse bytes whose unlisted addresses read zero: writing zero removes the entry. -/
def byteSet (t : Tab Byte) (a : Nat) (b : Byte) : Tab Byte := if b = 0#8 then tabDel t a else tabPut t a b

/-- The byte at an address of sparse bytes. -/
def byteGet (t : Tab Byte) (a : Nat) : Byte := tabGet 0#8 t a

/-- `n` bytes from address `a`, lowest first. -/
def bytesGet (t : Tab Byte) (a : Nat) : Nat → List Byte
  | 0 => []
  | n + 1 => byteGet t a :: bytesGet t (a + 1) n

/-- Bytes written from address `a` upward. -/
def bytesSet (t : Tab Byte) (a : Nat) : List Byte → Tab Byte
  | [] => t
  | b :: bs => bytesSet (byteSet t a b) (a + 1) bs

/-- Every byte of [a, a + n) back to zero. -/
def bytesClear (t : Tab Byte) (a n : Nat) : Tab Byte := t.filter (fun p => ¬ (a ≤ p.1 ∧ p.1 < a + n))

/-- The keys of a table strictly rise. -/
def rising {α : Type} : Tab α → Bool
  | [] => true
  | (_, _) :: [] => true
  | (k, _) :: (m, y) :: t => decide (k < m) && rising ((m, y) :: t)

/-- The canonical form of sparse bytes: keys strictly rising, no zero listed. -/
def bytesWf (t : Tab Byte) : Bool := rising t && t.all (fun p => p.2 ≠ 0#8)

/-- Memory's canonical form: addresses strictly rising, and no entry equal to what an unlisted address reads as. -/
def Memory.wf (m : List Host.Cell) : Bool := bytesWf m

/-- Little-endian value of bytes (R51). -/
def natOf : List Byte → Nat
  | [] => 0
  | b :: bs => b.toNat + 256 * natOf bs

/-- The low `n` bytes of a number, lowest first (R51). -/
def toBytes : Nat → Nat → List Byte
  | 0, _ => []
  | n + 1, w => BitVec.ofNat 8 w :: toBytes n (w / 256)

/-- Big-endian value of bytes (R467). -/
def natOfBE (bs : List Byte) : Nat := natOf bs.reverse

/-- A doubleword from bytes. -/
def wordOf (bs : List Byte) : W64 := BitVec.ofNat 64 (natOf bs)

/-- Bits [hi:lo] of a doubleword as a number. -/
def bits (w : W64) (hi lo : Nat) : Nat := (w.toNat >>> lo) % 2 ^ (hi - lo + 1)

/-- A doubleword with bits [hi:lo] replaced. -/
def putBits (w : W64) (hi lo : Nat) (x : Nat) : W64 :=
  let m := 2 ^ (hi - lo + 1)
  BitVec.ofNat 64 (w.toNat - ((w.toNat >>> lo) % m) * 2 ^ lo + (x % m) * 2 ^ lo)

/-- A number placed at a bit position of a doubleword. -/
def at64 (x lo : Nat) : W64 := BitVec.ofNat 64 (x <<< lo)

/-- A signed 12-bit immediate as a doubleword (R60). -/
def sext12 (i : BitVec 12) : W64 := i.signExtend 64

/-- A truth value as a doubleword. -/
def bool64 (b : Bool) : W64 := if b then 1 else 0

/-- Lane `i` of a vector of lanes of `w` bits (R165). -/
def lane (v : V512) (w i : Nat) : BitVec w := v.extractLsb' (w * i) w

/-- The vector whose lane `i` is `f i`, for `n` lanes of `w` bits; bits above are zero. -/
def ofLanes (w n : Nat) (f : Nat → BitVec w) : V512 :=
  BitVec.ofNat 512 ((List.range n).foldl (fun acc i => acc + (f i).toNat <<< (w * i)) 0)

/-- A vector with lane `i` replaced. -/
def setLane (v : V512) (w i : Nat) (x : BitVec w) : V512 :=
  (v &&& ~~~ (BitVec.ofNat 512 ((2 ^ w - 1) <<< (w * i)))) ||| (BitVec.ofNat 512 (x.toNat <<< (w * i)))

/-- The 64 bytes of a vector register, byte 0 first. -/
def vecBytes (v : V512) : List Byte := toBytes 64 v.toNat

/-- A vector register from bytes. -/
def vecOf (bs : List Byte) : V512 := BitVec.ofNat 512 (natOf bs)

/-- The list split into pieces of `n`. -/
def chunks {α : Type} (n : Nat) : Nat → List α → List (List α)
  | 0, _ => []
  | k + 1, l => l.take n :: chunks n k (l.drop n)

/-- The element of a list at an index, else a default. -/
def nth {α : Type} (d : α) (l : List α) (i : Nat) : α := l.getD i d

/-- ceil(a / b). -/
def ceilDiv (a b : Nat) : Nat := (a + b - 1) / b

end Sys2Proof.Machine
end

