-- ==== Sys2Proof/Machine/Flags.lean ====
section
/-! DEFINITION. Flags and numbers: the sticky flags of 04_number_formats.md R95, every number format of R92 to R113 with
its rounding, and the exact arithmetic that the vector unit, the special-function unit, the matrix engine and the other
engines share (R114 to R119, R224). -/
namespace Sys2Proof.Machine
open Sys2Proof

/-! ## The flags of FPSTAT and MXSTAT (R45, R95) -/

/-- FPSTAT flags as a set: SAT, NV, DZ, OF, UF, NX from bit 5 down (R45). -/
abbrev FpFlags := BitVec 6
abbrev fNX : FpFlags := 1
abbrev fUF : FpFlags := 2
abbrev fOF : FpFlags := 4
abbrev fDZ : FpFlags := 8
abbrev fNV : FpFlags := 16
abbrev fSAT : FpFlags := 32

/-- MXSTAT flags: ISAT, OF, NAN from bit 2 down (R45). -/
abbrev MxFlags := BitVec 3
abbrev mNAN : MxFlags := 1
abbrev mOF : MxFlags := 2
abbrev mISAT : MxFlags := 4

/-- A rounding mode (R93). -/
inductive Rounding where
  | rne
  | rtz
  | rup
  | rdn
  | rna
  deriving DecidableEq, Repr

/-- The mode of a VPFX RM field; 0 leaves the default, nearest-even (R93). -/
def roundOf (rm : BitVec 3) : Rounding :=
  match rm.toNat with
  | 2 => .rtz
  | 3 => .rup
  | 4 => .rdn
  | 5 => .rna
  | _ => .rne

/-- An exact value: a NaN or an infinity with its sign, or (−1)^neg × m × 2^e. -/
inductive FpNum where
  | nan (neg : Bool)
  | inf (neg : Bool)
  | fin (neg : Bool) (m : Nat) (e : Int)
  deriving DecidableEq, Repr

/-- A binary format: exponent bits, fraction bits, bias (R92, R96, R98). -/
structure Fmt where
  exp  : Nat
  frac : Nat
  bias : Nat
  deriving DecidableEq, Repr

def f32 : Fmt := ⟨8, 23, 127⟩
def bf16 : Fmt := ⟨8, 7, 127⟩
def e4m3 : Fmt := ⟨4, 3, 7⟩
def e5m2 : Fmt := ⟨5, 2, 15⟩

def Fmt.signBit (f : Fmt) : Nat := 2 ^ (f.exp + f.frac)
/-- The width of a format in bits. -/
def Fmt.width (f : Fmt) : Nat := f.exp + f.frac + 1

/-- A code read as a value (R92, R96, R98): E4M3 has one NaN code a sign and no infinity. -/
def decodeNum (f : Fmt) (x : Nat) : FpNum :=
  let neg := decide (x / f.signBit % 2 = 1)
  let ex := x / 2 ^ f.frac % 2 ^ f.exp
  let fr := x % 2 ^ f.frac
  if f = e4m3 && ex = 15 && fr = 7 then .nan neg
  else if f ≠ e4m3 && ex = 2 ^ f.exp - 1 then (if fr = 0 then .inf neg else .nan neg)
  else if ex = 0 then .fin neg fr (1 - (f.bias : Int) - f.frac)
  else .fin neg (2 ^ f.frac + fr) ((ex : Int) - f.bias - f.frac)

/-- The number of bits of a number. -/
def bitLen (m : Nat) : Nat := if m = 0 then 0 else m.log2 + 1

/-- Whether a magnitude that lies `r / 2^k` above the multiple `n` (with `sticky` for more below) rounds up. -/
def roundsUp (mode : Rounding) (neg : Bool) (n r half : Nat) (sticky : Bool) : Bool :=
  let lost := decide (r ≠ 0) || sticky
  let above := decide (half < r) || (decide (r = half) && sticky)
  let tie := decide (r = half) && !sticky
  match mode with
  | .rne => above || (tie && decide (n % 2 = 1))
  | .rna => above || tie
  | .rtz => false
  | .rup => lost && !neg
  | .rdn => lost && neg

/-- The magnitude m × 2^e (and, with `sticky`, a part of 2^e more) as a multiple of 2^q, and whether anything was lost. -/
def roundAt (mode : Rounding) (neg : Bool) (m : Nat) (e q : Int) (sticky : Bool) : Nat × Bool :=
  if q ≤ e then (m * 2 ^ (e - q).toNat, sticky)
  else
    let k := (q - e).toNat
    let n := m / 2 ^ k
    let r := m % 2 ^ k
    (if roundsUp mode neg n r (2 ^ (k - 1)) sticky then n + 1 else n, decide (r ≠ 0) || sticky)

/-- A finite nonzero magnitude rounded to a format, with its flags (R93, R95, R97, R99, R100): the code without
sign. Tininess is found after rounding. -/
def packMag (f : Fmt) (mode : Rounding) (neg : Bool) (m : Nat) (e : Int) (sticky : Bool) : Nat × FpFlags :=
  let lead := e + (bitLen m : Int) - 1
  let emin : Int := 1 - f.bias
  let qu := lead - f.frac
  let q := max qu (emin - f.frac)
  let (n, lost) := roundAt mode neg m e q sticky
  let (nu, _) := roundAt mode neg m e qu sticky
  let leadU := qu + (bitLen nu : Int) - 1
  let code := (q + f.frac + f.bias).toNat * 2 ^ f.frac + n - 2 ^ f.frac
  let nx : FpFlags := if lost then fNX else 0
  let uf : FpFlags := if lost && decide (leadU < emin) then fUF else 0
  if f = e4m3 then
    if 0x7E < code then (0x7E, fSAT ||| fNX) else (code, nx ||| uf)
  else if (f.bias : Int) < leadU then
    let toInf := match mode with | .rne => true | .rna => true | .rtz => false | .rup => !neg | .rdn => neg
    (if toInf then (2 ^ f.exp - 1) * 2 ^ f.frac else (2 ^ f.exp - 1) * 2 ^ f.frac - 1, fOF ||| fNX)
  else (code, nx ||| uf)

/-- The quiet NaN a format delivers (R94, R97, R99, R100): FP32's has no sign. -/
def nanCode (f : Fmt) (neg : Bool) : Nat :=
  if f = f32 then 0x7FC00000
  else (if neg then f.signBit else 0) +
    (if f = bf16 then 0x7FC0 else if f = e4m3 then 0x7F else 0x7E)

/-- A value rounded once to a format (R92 to R100), with its flags. `sticky` says that a finite magnitude lies above
m × 2^e by less than 2^e. -/
def packNum (f : Fmt) (mode : Rounding) (v : FpNum) (sticky : Bool := false) : Nat × FpFlags :=
  match v with
  | .nan neg => (nanCode f neg, 0)
  | .inf neg =>
    let s := if neg then f.signBit else 0
    if f = e4m3 then (s + 0x7E, fSAT ||| fNX) else (s + (2 ^ f.exp - 1) * 2 ^ f.frac, 0)
  | .fin neg m e =>
    let s := if neg then f.signBit else 0
    if m = 0 then (s, 0)
    else
      let (c, fl) := packMag f mode neg m e sticky
      (s + c, fl)

/-! ## Exact arithmetic -/

/-- A finite value's signed integer at exponent `e`, which is at most its own. -/
def alignTo (neg : Bool) (m : Nat) (ex e : Int) : Int :=
  let x : Int := m * 2 ^ (ex - e).toNat
  if neg then -x else x

/-- The exact sum (R92): infinities of opposite signs are invalid; the sign of an exact zero follows R92. -/
def addNum (mode : Rounding) : FpNum → FpNum → FpNum × FpFlags
  | .nan _, _ => (.nan false, 0)
  | _, .nan _ => (.nan false, 0)
  | .inf a, .inf b => if a = b then (.inf a, 0) else (.nan false, fNV)
  | .inf a, .fin _ _ _ => (.inf a, 0)
  | .fin _ _ _, .inf b => (.inf b, 0)
  | .fin na ma ea, .fin nb mb eb =>
    if ma = 0 && mb = 0 then (.fin (if na = nb then na else mode = .rdn) 0 0, 0)
    else
      let e := min ea eb
      let t := alignTo na ma ea e + alignTo nb mb eb e
      if t = 0 then (.fin (mode = .rdn) 0 0, 0) else (.fin (decide (t < 0)) t.natAbs e, 0)

/-- The exact product: 0 × ∞ is invalid. -/
def mulNum : FpNum → FpNum → FpNum × FpFlags
  | .nan _, _ => (.nan false, 0)
  | _, .nan _ => (.nan false, 0)
  | .inf a, .inf b => (.inf (a != b), 0)
  | .inf a, .fin b m _ => if m = 0 then (.nan false, fNV) else (.inf (a != b), 0)
  | .fin a m _, .inf b => if m = 0 then (.nan false, fNV) else (.inf (a != b), 0)
  | .fin a ma ea, .fin b mb eb => (.fin (a != b) (ma * mb) (ea + eb), 0)

def negNum : FpNum → FpNum
  | .nan n => .nan n
  | .inf n => .inf (!n)
  | .fin n m e => .fin (!n) m e

/-- The order of two values: none with a NaN; +0 and −0 are equal (R173). -/
def cmpNum : FpNum → FpNum → Option Ordering
  | .nan _, _ => none
  | _, .nan _ => none
  | .inf a, .inf b => some (if a = b then .eq else if a then .lt else .gt)
  | .inf a, .fin _ _ _ => some (if a then .lt else .gt)
  | .fin _ _ _, .inf b => some (if b then .gt else .lt)
  | .fin na ma ea, .fin nb mb eb =>
    let e := min ea eb
    some (compare (alignTo na ma ea e) (alignTo nb mb eb e))

def FpNum.isNan : FpNum → Bool
  | .nan _ => true
  | _ => false
def FpNum.isZero : FpNum → Bool
  | .fin _ 0 _ => true
  | _ => false
def FpNum.neg : FpNum → Bool
  | .nan n => n
  | .inf n => n
  | .fin n _ _ => n

/-- An integer as a value. -/
def intNum (x : Int) : FpNum := .fin (decide (x < 0)) x.natAbs 0

/-- A value rounded to an integer in a mode (R113): clamped to [lo, hi] with SAT, NV and NX; a NaN gives 0 with NV. -/
def toIntNum (mode : Rounding) (lo hi : Int) : FpNum → Int × FpFlags
  | .nan _ => (0, fNV)
  | .inf neg => (if neg then lo else hi, fSAT ||| fNV ||| fNX)
  | .fin neg m e =>
    let (n, lost) := roundAt mode neg m e 0 false
    let x : Int := if neg then -(n : Int) else n
    if x < lo then (lo, fSAT ||| fNV ||| fNX)
    else if hi < x then (hi, fSAT ||| fNV ||| fNX)
    else (x, if lost then fNX else 0)

/-- An integer clamped to [lo, hi]; SAT when that changes it (R176, R178). -/
def clampInt (lo hi x : Int) : Int × FpFlags :=
  if x < lo then (lo, fSAT) else if hi < x then (hi, fSAT) else (x, 0)

/-! ## FP32 lanes and words -/

/-- An FP32 word as a value. -/
def num32 (x : BitVec 32) : FpNum := decodeNum f32 x.toNat
/-- A value rounded to FP32. -/
def to32 (mode : Rounding) (v : FpNum) (sticky : Bool := false) : BitVec 32 × FpFlags :=
  let (c, f) := packNum f32 mode v sticky
  (BitVec.ofNat 32 c, f)

/-- The FP32 sum rounded to nearest-even, as the engines form it (R119). -/
def add32 (a b : BitVec 32) : BitVec 32 × FpFlags :=
  let (v, f) := addNum .rne (num32 a) (num32 b)
  let (c, g) := to32 .rne v
  (c, f ||| g)

/-- BF16 widened to FP32 (R96): sixteen zero bits appended; a NaN becomes 0x7FC0_0000. -/
def widen16 (x : BitVec 16) : BitVec 32 := (to32 .rne (decodeNum bf16 x.toNat)).1

/-- The smaller or larger of two codes of a format (R170): a NaN when either is; −0 below +0; never rounded. -/
def minMaxNum (f : Fmt) (wantMax : Bool) (x y : Nat) : Nat :=
  let a := decodeNum f x
  let b := decodeNum f y
  match cmpNum a b with
  | none => nanCode f false
  | some .lt => if wantMax then y else x
  | some .gt => if wantMax then x else y
  | some .eq => if a.neg = wantMax then y else x

/-! ## E2M1 blocks (R101 to R109) -/

/-- The doubled magnitude of an E2M1 code's low three bits (R101). -/
def doubled (c : Nat) : Nat :=
  match c % 8 with
  | 0 => 0
  | 1 => 1
  | 2 => 2
  | 3 => 3
  | 4 => 4
  | 5 => 6
  | 6 => 8
  | _ => 12

/-- An E3M5 block scale (R103): 0xFF is a NaN. -/
def scaleNum (c : Nat) : FpNum :=
  if c = 0xFF then .nan false
  else if c / 32 = 0 then .fin false (c % 32) (-7)
  else .fin false (32 + c % 32) ((c / 32 : Nat) - 8 : Int)

/-- An E2M1 element's exact value (R104): code 0b1000 is +0. -/
def e2m1Num (code scale : Nat) (band : BitVec 16) : FpNum :=
  match scaleNum scale, decodeNum bf16 band.toNat with
  | .fin _ sm se, .fin bn bm be =>
    let neg := decide (8 ≤ code % 16) && decide (doubled code ≠ 0)
    .fin (neg != bn) (doubled code * sm * bm) (se + be - 1)
  | _, _ => .nan false

/-- Whether m × 2^e ≤ n × 2^g. -/
def leMag (m : Nat) (e : Int) (n : Nat) (g : Int) : Bool :=
  let b := min e g
  decide (m * 2 ^ (e - b).toNat ≤ n * 2 ^ (g - b).toNat)

/-- The smallest finite block scale s from `c` on, of `fuel` codes, with amax ≤ 6 × s × |band|, or 31 (R107). -/
def findScale (am : Nat) (ae : Int) (bm : Nat) (be : Int) : Nat → Nat → Nat
  | 0, _ => 0xFE
  | fuel + 1, c =>
    match scaleNum c with
    | .fin _ sm se => if leMag am ae (6 * sm * bm) (se + be) then c else findScale am ae bm be fuel (c + 1)
    | _ => 0xFE

/-- The E2M1 magnitude code of |x| / (s × |band|), where d × 2^de is s × |band| (R102; toward zero on the drain path,
R112), and whether it lies above 6 and whether it is inexact. -/
def e2m1Mag (rtz : Bool) (m : Nat) (e : Int) (d : Nat) (de : Int) : Nat × Bool × Bool :=
  -- the largest code whose doubled magnitude does not exceed twice the quotient
  let below := (List.range 8).foldl (fun acc c => if leMag (doubled c * d) (de - 1) m e then c else acc) 0
  let exact := leMag m e (doubled below * d) (de - 1)
  if exact then (below, false, false)
  else if below = 7 then (7, true, true)
  else if rtz then (below, false, true)
  else
    let mid := (doubled below + doubled (below + 1)) * d
    let ended := !leMag m e mid (de - 2)
    let tie := leMag m e mid (de - 2) && leMag mid (de - 2) m e
    (if ended || (tie && below % 2 = 1) then below + 1 else below, false, true)

/-- An encoded block: its scale, its eight codes, its flags, and whether a quotient was clamped at 6 (R107, R112). -/
structure Block where
  scale : Nat
  codes : List Nat
  flags : FpFlags
  ended  : Bool
  deriving DecidableEq, Repr

/-- The greatest magnitude of finite values, as (m, e). -/
def maxMag (xs : List FpNum) : Nat × Int :=
  xs.foldl (fun p x => match x with
    | .fin _ m e => if leMag m e p.1 p.2 then p else (m, e)
    | _ => p) (0, 0)

/-- Eight values encoded into one block under a band scale (R107, R108); `rtz` is the drain's rounding (R112). -/
def encodeBlock (rtz : Bool) (xs : List FpNum) (band : BitVec 16) : Block :=
  let bad : Block := ⟨0xFF, List.replicate 8 0, fNV, false⟩
  match decodeNum bf16 band.toNat with
  | .fin bn bm be =>
    if bm = 0 || xs.any FpNum.isNan then bad
    else if xs.all FpNum.isZero then ⟨0, List.replicate 8 0, 0, false⟩
    else
      let (am, ae) := maxMag xs
      let scale := if xs.any (fun x => match x with | .inf _ => true | _ => false) then 0xFE
        else findScale am ae bm be 0xFF 0
      match scaleNum scale with
      | .fin _ sm se =>
        let one := fun (x : FpNum) => match x with
          | .fin n m e =>
            let (c, ended, lost) := e2m1Mag rtz m e (sm * bm) (se + be)
            (if c = 0 then 0 else c + (if n != bn then 8 else 0), ended, lost)
          | .inf n => (7 + (if n != bn then 8 else 0), true, true)
          | .nan _ => (0, false, false)
        let cs := xs.map one
        let ended := cs.any (·.2.1)
        ⟨scale, cs.map (·.1), (if ended && !rtz then fSAT else 0) ||| (if cs.any (·.2.2) then fNX else 0), ended⟩
      | _ => bad
  | _ => bad

/-! ## E2M1 lines (R105, R109) -/

/-- A line's band scale. -/
def lineBand (l : V512) : BitVec 16 := l.extractLsb' 480 16
/-- A line's code of element `i` and the scale of its block. -/
def lineCode (l : V512) (i : Nat) : Nat := (lane l 4 i).toNat
def lineScale (l : V512) (b : Nat) : Nat := (lane l 8 (48 + b)).toNat

/-- Element `i` of a line, decoded and rounded once to nearest-even (R120). -/
def lineGet (l : V512) (i : Nat) : BitVec 32 :=
  (to32 .rne (e2m1Num (lineCode l i) (lineScale l (i / 8)) (lineBand l))).1

/-- Elements of a line replaced (R109): each block touched is encoded once with all its new values in place, under
the line's own band scale; an element left in a block of scale 0xFF is a NaN, so that R107 leaves such a block at 0xFF
under a partial write. The elements left are taken as the exact products of their codes and scales, R120's one rounding to FP32
not made (DESIGN CHOICE, log entry 87). Bytes 62 and 63 of a line that is written are written as zero (R105). -/
def linePut (l : V512) (new : List (Nat × BitVec 32)) : V512 × FpFlags :=
  let band := lineBand l
  (List.range 12).foldl (fun (p : V512 × FpFlags) b =>
    let mine := new.filter (fun n => n.1 / 8 = b)
    if mine.isEmpty then p
    else
      let xs := (List.range 8).map fun j => match mine.reverse.find? (fun n => n.1 = 8 * b + j) with
        | some n => num32 n.2
        | none => e2m1Num (lineCode l (8 * b + j)) (lineScale l b) band
      let blk := encodeBlock false xs band
      let l' := blk.codes.zipIdx.foldl (fun l c => setLane l 4 (8 * b + c.2) (BitVec.ofNat 4 c.1)) p.1
      (setLane l' 8 (48 + b) (BitVec.ofNat 8 blk.scale), p.2 ||| blk.flags))
    (if new.isEmpty then l else setLane l 16 31 0, 0)

/-! ## Page formats (R120, R121, R157) -/

/-- Bytes of an element of page formats 0 to 3. -/
def elemBytes (f : Nat) : Nat := if f = 0 then 4 else if f = 1 then 2 else 1

/-- The number format of page formats 1 to 3. -/
def pageFmt (f : Nat) : Fmt := if f = 1 then bf16 else if f = 2 then e4m3 else e5m2

/-- An element of formats 0 to 3 decoded to FP32 (R120): no flag. -/
def elemGet (f : Nat) (bs : List Byte) : BitVec 32 :=
  if f = 0 then BitVec.ofNat 32 (natOf bs) else (to32 .rne (decodeNum (pageFmt f) (natOf bs))).1

/-- An FP32 value encoded to formats 0 to 3, nearest-even (R121). -/
def elemPut (f : Nat) (x : BitVec 32) : List Byte × FpFlags :=
  if f = 0 then (toBytes 4 x.toNat, 0)
  else
    let (c, fl) := packNum (pageFmt f) .rne (num32 x)
    (toBytes (elemBytes f) c, fl)

/-! ## Square roots and the special functions (R119, R224, R225) -/

/-- The integer square root found bit by bit from `2^k` down. -/
def sqrtBits (n : Nat) : Nat → Nat → Nat
  | 0, r => r
  | k + 1, r => if (r + 2 ^ k) * (r + 2 ^ k) ≤ n then sqrtBits n k (r + 2 ^ k) else sqrtBits n k r

/-- The integer square root. -/
def isqrt (n : Nat) : Nat := sqrtBits n (bitLen n / 2 + 1) 0

/-- 1 / (m × 2^e) as a magnitude with its sticky bit. -/
def recipMag (m : Nat) (e : Int) : Nat × Int × Bool :=
  let k := bitLen m + 60
  (2 ^ k / m, -e - k, decide (2 ^ k % m ≠ 0))

/-- The square root of m × 2^e, likewise. -/
def sqrtMag (m : Nat) (e : Int) : Nat × Int × Bool :=
  let odd := decide (e % 2 ≠ 0)
  let m := if odd then 2 * m else m
  let e := if odd then e - 1 else e
  let n := m * 2 ^ 120
  let r := isqrt n
  (r, e / 2 - 60, decide (r * r ≠ n))

/-- The reciprocal square root of m × 2^e, likewise. -/
def rsqrtMag (m : Nat) (e : Int) : Nat × Int × Bool :=
  let odd := decide (e % 2 ≠ 0)
  let m := if odd then 2 * m else m
  let e := if odd then e - 1 else e
  let p := bitLen m + 80
  let q := 2 ^ (2 * p) / m
  let r := isqrt q
  (r, -e / 2 - p, decide (r * r * m ≠ 2 ^ (2 * p)))

/-- The scale of the fixed-point work of EXP2 and LOG2: 2^256. -/
def fxOne : Nat := 2 ^ 256

/-- 2^f for a binary fraction f = `fr` / 2^`k` in [0, 1), as a multiple of 2^−256: the product of the roots of 2 that
the bits of f name, root `c` = 2^(2^−i) at bit i. -/
def exp2Frac (fr : Nat) : Nat → Nat → Nat → Nat
  | 0, _, acc => acc
  | k + 1, c, acc =>
    let c := isqrt (c * fxOne)
    exp2Frac fr k c (if fr / 2 ^ k % 2 = 1 then acc * c / fxOne else acc)

/-- The bits of log2 of y × 2^−256, for y in [2^256, 2^257), found by repeated squaring. -/
def log2Frac : Nat → Nat → Nat → Nat
  | 0, _, acc => acc
  | k + 1, y, acc =>
    let y := y * y / fxOne
    if 2 * fxOne ≤ y then log2Frac k (y / 2) (2 * acc + 1) else log2Frac k y (2 * acc)

/-- 2^x for a finite x, rounded to FP32 (R224, R225). -/
def exp2Of (neg : Bool) (m : Nat) (e : Int) : BitVec 32 × FpFlags :=
  let big := leMag (256 * 1) 0 m e
  if m = 0 then to32 .rne (.fin false 1 0)
  else if big then (if neg then to32 .rne (.fin false 1 (-400)) else to32 .rne (.fin false 1 400))
  else
    -- x = n + f, f a fraction of k bits
    let k := (-e).toNat
    let x : Int := (if neg then -(m : Int) else m) * 2 ^ e.toNat
    let n := x / 2 ^ k
    let f := (x % 2 ^ k).toNat
    if f = 0 then to32 .rne (.fin false 1 n)
    else to32 .rne (.fin false (exp2Frac f k (2 * fxOne) fxOne) (n - 256)) true

/-- log2 of a finite positive m × 2^e, rounded to FP32 (R224, R225). -/
def log2Of (m : Nat) (e : Int) : BitVec 32 × FpFlags :=
  let l := bitLen m
  let ex : Int := e + l - 1
  if m = 2 ^ (l - 1) then to32 .rne (intNum ex)
  else
    let t : Int := ex * 2 ^ 160 + log2Frac 160 (m * 2 ^ (257 - l)) 0
    if t < 0 then to32 .rne (.fin true (t.natAbs - 1) (-160)) true
    else to32 .rne (.fin false t.natAbs (-160)) true

/-- A special function of one FP32 lane (R224, R225): 0 RCP, 1 RSQ, 2 SQRT, 3 EXP2, 4 LOG2. -/
def sfuLane (op : Nat) (x : BitVec 32) : BitVec 32 × FpFlags :=
  let ofMag := fun (neg : Bool) (p : Nat × Int × Bool) => to32 .rne (.fin neg p.1 p.2.1) p.2.2
  match num32 x with
  | .nan _ => (0x7FC00000, 0)
  | .inf neg =>
    if op = 0 then (if neg then 0x80000000 else 0, 0)
    else if op = 3 then (if neg then 0 else 0x7F800000, 0)
    else if neg then (0x7FC00000, fNV)
    else if op = 1 then (0, 0) else (0x7F800000, 0)
  | .fin neg m e =>
    if op = 0 then (if m = 0 then (if neg then 0xFF800000 else 0x7F800000, fDZ) else ofMag neg (recipMag m e))
    else if op = 3 then exp2Of neg m e
    else if m = 0 then
      if op = 1 then (if neg then 0xFF800000 else 0x7F800000, fDZ)
      else if op = 2 then (x, 0) else (0xFF800000, fDZ)
    else if neg then (0x7FC00000, fNV)
    else if op = 1 then ofMag false (rsqrtMag m e)
    else if op = 2 then ofMag false (sqrtMag m e)
    else log2Of m e

/-! ## The toward-zero path of the matrix engine (R111, R114 to R117) -/

/-- A value rounded toward zero to FP32; an overflow gives ±max and sets OF (R111, R93). -/
def rtz32 (v : FpNum) : BitVec 32 × MxFlags :=
  let (c, f) := to32 .rtz v
  (c, if f &&& fOF ≠ 0 then mOF else 0)

/-- The toward-zero sum of two FP32 words (R116, R117): any NaN gives the NaN. -/
def addRtz (a b : BitVec 32) : BitVec 32 × MxFlags := rtz32 (addNum .rtz (num32 a) (num32 b)).1

end Sys2Proof.Machine
end

