-- ==== Sys2Proof/Config.lean ====
section
/-! DEFINITION. What one K8J fixes and the values its manual leaves open. Every `opaque` below is a FREE VALUE:
no body, so nothing can be proved of the value it takes (notes/assumptions names each). -/
namespace Sys2Proof

/-- The cycles an engine or a message takes where the manual gives none (R241, R324, R280, R297): free, applied to
`State.tick`. -/
opaque Config.latency : Nat → Nat

/-- Which TLB entry a full cluster TLB gives up (R424 names no replacement rule): free, applied to `State.tick`. -/
opaque Config.tlbVictim : Nat → Nat

/-- A bit that settles an order two outcomes of which the manual allows: free, applied to `State.tick`. -/
opaque Config.coin : Nat → Bool

/-- Bytes the manual does not lay down (certificates, nonces, opaque image regions): free.
DESIGN CHOICE, log entry 19. -/
opaque Config.freeBytes : Nat → Nat → List Byte

/-- A word the manual does not lay down: free. -/
opaque Config.freeWord : Nat → W64

/-- How far a well's bank lies from a core of its die, by which R209 takes the nearest (the manual gives no measure):
free, applied to the core's number and the bank. -/
opaque Config.wellDistance : Nat → Nat → Nat

/-- The module power measured over a window, in watts (R472): free, applied to `State.tick`. -/
opaque Config.modulePower : Nat → Nat

/-- The flash image the package holds at power-up (R467 fixes its form, not its bytes): free. -/
opaque Config.flash : List Byte

/-- The key hash fused in the package (R467): free. -/
opaque Config.keyHash : List Byte

/-- The minimum security version fused at power-up (R467): free. -/
opaque Config.minSvn : Nat

/-- The modulus of the identity key pair of R470, 384 bytes: free. -/
opaque Config.identityMod : List Byte

/-- Its private exponent, which never leaves the mask ROM's store (R470): free. -/
opaque Config.identityExp : Nat

/-- The identity certificate chain of R470, whose bytes the manual does not give: free. -/
opaque Config.certChain : List Byte

/-- SHA-256 of the mask ROM, measurement 1 of R470: free. -/
opaque Config.romHash : List Byte

/-- The bank-block count WB that Scerix fixes at boot (R418), a number from 0 to 16: free. -/
opaque Config.wbRaw : Nat

/-- WB of R418, kept within its range 0 to 16. DESIGN CHOICE, log entry 5. -/
def Config.wb : Nat := Config.wbRaw % 17

/-- The outbound CXL limit Scerix sets at boot, MB/s (R471: at most 128 GB/s): free. -/
opaque Config.cxlLimitRaw : Nat
/-- The outbound CXL limit of R471, kept within its bound. -/
def Config.cxlLimit : Nat := min Config.cxlLimitRaw 128000

/-- The transmit limit of an endpoint set at boot, Mb/s (R471: at most 800 Gb/s): free. -/
opaque Config.epLimitRaw : Nat
/-- The endpoint limit of R471, kept within its bound. -/
def Config.epLimit : Nat := min Config.epLimitRaw 800000

/-- How many records beyond the first the event log of R461 holds: free. -/
opaque Config.logRoom : Nat
/-- The records the event log holds (R461), one at least. DESIGN CHOICE, log entry 80. -/
def Config.logSize : Nat := Config.logRoom + 1

end Sys2Proof
end

