-- ==== Sys2Proof/Machine/State.lean ====
section
/-! DEFINITION. The state of the whole K8J package as plain data: every context, core, cluster and die (01_state.md
R19 to R50), the engines' queues, memory, the swift ring, launches, translation, access tables and the host's side;
and the machine right after reset. INVENTORY.md lists each field with the rule that names it. -/
namespace Sys2Proof.Machine
open Sys2Proof

/-- The context that issued a piece of engine work, as the work remembers it: core, context and instance tag (R4,
R42), and the launch it ran for (R40). -/
structure Who where
  core : BitVec 14
  ctx  : BitVec 3
  inst : BitVec 16
  asid : BitVec 16
  dom  : BitVec 12
  ltag : BitVec 32
  deriving DecidableEq, Repr

/-- What an access in flight keeps of the leaf it was translated by (R426): its ASID and the bits of its page. -/
structure LeafTag where
  asid : BitVec 16
  bits : Nat
  deriving DecidableEq, Repr

/-- What a one-sided access does at its target (R247, R272). -/
inductive RemoteOp where
  | get
  | put
  | accF32
  | accI32
  deriving DecidableEq, Repr

/-- A one-sided access on its way to its target's port: PGET, PPUT or a KACC of mode 3 (R247, R248, R272). `next` counts the
elements that the port, or the issuer's own as they return, has taken; `here` says that it has arrived there (R29); `seq` is
its own number. -/
structure Remote where
  who    : Who
  target : BitVec 14
  inS    : Bool
  op     : RemoteOp
  size   : Nat
  offs   : List Nat
  data   : List Byte
  cc     : BitVec 4
  laddr  : Nat
  lS     : Bool
  next   : Nat
  here   : Bool
  seq    : Nat
  deriving DecidableEq, Repr

/-- One piece of a copy job, at most 64 local bytes, or one packet of a peer job (R322, R448): `pos` counts local bytes
through the box's rows; `va` is the address of its first byte, or of its line on an E2M1 page, and `elem` the element of
its row it begins with. Once its page is translated it is `ready`, `pa` is its physical address and `pb` that of the next
page of 64 KiB when it crosses into that, `leaf` and `leafB` what it keeps of their leaves (R426). A `fill` piece has no
source (R238); `err` is the error it stops its job with (R237). -/
structure Piece where
  pos   : Nat
  bytes : Nat
  va    : VA
  elem  : Nat
  pa    : Nat
  pb    : Nat
  leaf  : LeafTag
  leafB : LeafTag
  fill  : Bool
  ready : Bool
  err   : BitVec 8
  deriving DecidableEq, Repr

/-- The answer of a well to TQ.Q, TQ.QS or TQ.LD on its way back (R216, R217): v registers from `d`, or bytes for A. -/
structure QueryResult where
  who   : Who
  toA   : Option Nat
  d     : BitVec 5
  vals  : List V512
  bytes : List Byte
  cc    : BitVec 4
  oor   : Bool
  ue    : Bool
  deriving DecidableEq, Repr

/-- One sum of a TQ.SCAN on its way to memory (R219), with what it keeps of the leaf of its page and the scan's own number. -/
structure ScanSum where
  who  : Who
  leaf : LeafTag
  pa   : Nat
  val  : BitVec 32
  cc   : BitVec 4
  oor  : Bool
  ue   : Bool
  seq  : Nat
  deriving DecidableEq, Repr

/-- A returning atomic on its way to its engine (R280): what it keeps of the leaf of its page, the FN, the word, the operand, the
comparand and D. -/
structure AmoReq where
  who : Who
  leaf : LeafTag
  fn  : BitVec 4
  pa  : Nat
  b   : W64
  cmp : W64
  d   : BitVec 5
  deriving DecidableEq, Repr

/-- A merged reduction on its way to its engine (R282), with the contexts whose reductions it holds (R286) and the addresses
they were translated from, each with what it keeps of its leaf (R426). -/
structure RedReq where
  whos    : List Who
  vas     : List (LeafTag × VA)
  cluster : Nat
  fn      : BitVec 3
  pa      : Nat
  val     : W64
  deriving DecidableEq, Repr

/-- A barrier signal on its way (R292). -/
structure BarSig where
  dom  : BitVec 12
  core : BitVec 14
  ctx  : BitVec 3
  inst : BitVec 16
  bar  : BitVec 9
  deriving DecidableEq, Repr

/-- An active message on its way (R295, R296): its payload already narrowed by the sender's interface, with the
flags that the narrowing raised (R122, R123). -/
structure Msg where
  who     : Who
  target  : BitVec 14
  cls     : BitVec 3
  hidx    : BitVec 8
  fmt     : BitVec 2
  len     : BitVec 7
  payload : List Byte
  flags   : BitVec 6
  sid     : Option (BitVec 3)
  deriving DecidableEq, Repr

/-- What a packet of the Ultra Ethernet does at the endpoint it reaches (R448, R453, R457). -/
inductive PacketKind where
  | write
  | read
  | readReply
  | reduce
  | ack (refused : Bool)
  deriving DecidableEq, Repr

/-- An Ultra Ethernet packet (R448 to R453): the endpoint it is at, the peer entry or region it names, the copy job of this
package it belongs to, when it belongs to one, the address space it acts for, the operator and the element of a contribution
(R457), the cycle in which this package first sent it, and the number that its sender gives it and its retransmissions, by
which duplicates are known (R448). -/
structure Packet where
  ep      : Nat
  peer    : Nat
  kind    : PacketKind
  job     : BitVec 24
  region  : BitVec 8
  offset  : Nat
  data    : List Byte
  count   : Nat
  entropy : BitVec 16
  cluster : Nat
  jobId   : Nat
  piece   : Nat
  asid    : BitVec 16
  rop     : BitVec 2
  rtype   : BitVec 2
  sentAt  : Nat
  seq     : Nat
  deriving DecidableEq, Repr

/-- The fenceable functions of R18 and R462. -/
inductive FencedKind where
  | cluster
  | channel
  | well
  | lane
  | endpoint
  | die
  deriving DecidableEq, Repr

/-- The operands of an event (95_what_each_step_holds.md): the parts it names by number, a context, words, bytes,
or the piece of work it brings about. -/
inductive EvArg where
  | none
  | num (a b c : Nat)
  | flag (a b : Nat) (bad : Bool)
  | word (w x : W64) (n : Nat)
  | data (w : W64) (d : List Byte)
  | row (a b c : Nat) (r : BitVec 256)
  | record (n : Nat) (r : Option V512)
  | piece (cluster job : Nat) (p : Piece)
  | remote (r : Remote) (data : List Byte)
  | query (r : QueryResult)
  | sum (r : ScanSum)
  | amo (r : AmoReq) (old : W64)
  | red (r : RedReq)
  | barSig (r : BarSig)
  | who (w : Who) (n : Nat) (v : W64)
  | msg (m : Msg) (status : BitVec 3)
  | land (w : Who) (leaf : LeafTag) (va : VA) (pa : Nat) (payload : V512)
  | packet (p : Packet) (refused : Bool)
  | lost (p : Packet) (contribs : List (List Byte))
  | func (f : FencedKind) (unit : Nat)
  | page (cluster : Nat) (asid : BitVec 16) (va : VA)
  deriving DecidableEq, Repr

/-- A register that may be interlocked (R125, R166, R216, R280, R302). -/
inductive RegId where
  | g (n : BitVec 5)
  | v (n : BitVec 5)
  | k (n : BitVec 3)
  deriving DecidableEq, Repr

/-- An interlocked register: until cycle `till`, or until a reply arrives when `till` is none (R125, R435). -/
structure Lock where
  reg  : RegId
  till : Option Nat
  deriving DecidableEq, Repr

/-- A completion counter (R35). -/
structure Counter where
  expect : BitVec 32
  done   : BitVec 32
  deriving DecidableEq, Repr

/-- A circular-buffer handle: the configuration word of R227 (zero when unconfigured) and the state of R228. -/
structure Handle where
  cfg    : W64
  pend   : BitVec 8
  filled : BitVec 8
  cptr   : BitVec 8
  deriving DecidableEq, Repr

/-- One node record of a join-tree descriptor, as its four words (R256). -/
structure JNode where
  w0 : W64
  w1 : W64
  w2 : W64
  w3 : W64
  deriving DecidableEq, Repr

/-- A range a walker's cursor stands in: the leaf node, the range's end and the row it is at (R258). -/
structure JPos where
  node : Nat
  code : Nat
  row  : Nat
  stop : Nat
  deriving DecidableEq, Repr

/-- A join walker (R254, R261): the descriptor it holds (none when closed), its options, and its cursor: the leaf
ranges the next tuple stands in (none before the first tuple), and whether the walk is over. -/
structure Walker where
  nodes  : List JNode
  root   : Nat
  leaves : Nat
  opts   : W64
  delta  : W64
  cursor : Option (List JPos)
  ended   : Bool
  deriving DecidableEq, Repr

/-- A message send id (R296): free, in flight, or resolved with a status; `age` orders resolutions. -/
inductive SendId where
  | free
  | flying
  | resolved (status : BitVec 3) (age : Nat)
  deriving DecidableEq, Repr

/-- What an issued instruction waits for before its context goes on (R154, R193, R220, R230, R244, R285, R286,
R296): the context does not issue while one stands. -/
inductive Hold where
  | accept (op : Nat)
  | grant (obj : W64)
  | release (obj : W64)
  | sendw (d : BitVec 5)
  | sleep (v : W64)
  deriving DecidableEq, Repr

/-- What a context is doing: free (idle, for the handler), running its strand, held by an issued instruction, or
following a gang's leader. -/
inductive Run where
  | free
  | running
  | held (h : Hold)
  | follower
  deriving DecidableEq, Repr

/-- A special-function instruction in the cluster's queue, or removed into a context's replay state (R226): `start` is the
cycle in which the unit takes it. -/
structure SfuEntry where
  id    : Nat
  start : Nat
  who : Who
  op  : BitVec 3
  a   : V512
  d   : BitVec 5
  deriving DecidableEq, Repr

/-- An entry of a cluster TLB (R424): the page base, its size in bits, the ASID that installed it (none when the
leaf is global) and the leaf. -/
structure TlbEntry where
  base : Nat
  bits : Nat
  asid : Option (BitVec 16)
  leaf : W64
  deriving DecidableEq, Repr

/-- What an instruction waits for: the word of A or S of an LDWT, with its value once a write has set it full (R154), or the
phase of a barrier (R290), its checks passed; or pages, with the leaves that the walks it has waited for have given it
(R424). -/
inductive Await where
  | word (sp : BitVec 2) (off : Nat) (data : Option (BitVec 32))
  | bar (b : BitVec 9)
  | pages (leaves : List TlbEntry)
  deriving DecidableEq, Repr

/-- A context (R19 to R25): its register files, its status words, its trap state, its launch and its engine bookkeeping.
`bound` is V of its bind record as dispatch acted on it. `await` is what its instruction waits for; `midway` says that a
restartable instruction has made progress since it was last taken up (R86); `grpWait` lists the groups whose results it is
owed, once for each (R252); `tqOut` counts its outstanding table queries but for scans, and `scans` lists, newest first, its
scans by their own numbers with the sums each still has to land (R219, R220); `leaving` that a gang's end frees the context
once its work has completed (R186). -/
structure Ctx where
  run       : Run
  bound     : Bool
  g         : Vector W64 32
  v         : Vector V512 32
  k         : Vector W64 8
  ox        : Vector W64 8
  h         : Vector Handle 16
  cc        : Vector Counter 16
  grp       : Vector W64 64
  pc        : VA
  fpstat    : BitVec 6
  mxstat    : BitVec 3
  qstat     : BitVec 2
  rstat     : BitVec 3
  trapCause : BitVec 9
  trapPc    : VA
  trapVal   : W64
  trapVec   : BitVec 55
  trapMode  : Bool
  pending   : List (BitVec 8 × W64)
  inst      : BitVec 16
  gangSize  : BitVec 3
  gangIdx   : BitVec 3
  gangLead  : BitVec 3
  dom       : BitVec 12
  clcount   : BitVec 12
  rank      : BitVec 11
  ltag      : BitVec 32
  asid      : BitVec 16
  prio      : BitVec 2
  lpb       : W64
  wmap      : W64
  oneSided  : W64
  held      : List W64
  sends     : Vector SendId 8
  walkers   : Vector Walker 2
  locks     : List Lock
  nextIssue : Nat
  waitSince : Option Nat
  grpWait   : List (BitVec 6)
  tqOut     : Nat
  scans     : List (Nat × Nat)
  replay    : List SfuEntry
  walkFail  : Option Nat
  await     : Option Await
  midway    : Bool
  leaving   : Bool
  joinPtr   : W64
  mailRow   : Nat
  deriving DecidableEq, Repr

/-- A barrier (R290); `enrol` and `pend` hold one bit for each hardware context. -/
structure Barrier where
  init    : Bool
  expect  : BitVec 16
  arrived : BitVec 16
  group   : Option (BitVec 6)
  enrol   : BitVec 4
  pend    : BitVec 4
  drops   : BitVec 16
  gone    : Bool
  deriving DecidableEq, Repr

/-- An occupied mailbox row (R297, R298): the row number, its message's class, handler and source, the flags of its
narrowing, whether its bytes are written, and whether its handler runs. -/
structure MailRow where
  row     : Nat
  cls     : BitVec 3
  hidx    : BitVec 8
  pc      : VA
  src     : BitVec 14
  flags   : BitVec 6
  bytes   : List Byte
  written : Bool
  deriving DecidableEq, Repr

/-- A steal sequence (R365): its own number, and the round and the try it is at. -/
structure Steal where
  seq   : Nat
  round : Nat
  tries : Nat
  deriving DecidableEq, Repr

/-- The deque of a core (R360 to R363): the resident part's first entry and count in s:0x7000, the overflow ring's
first entry and count, the reserved entry, the waiting pushes and the carried reply, a record held for pickup, and one more
than the cycle of its engine's last operation of R363. -/
structure Deque where
  rFirst : Nat
  rCount : Nat
  oFirst : Nat
  oCount : Nat
  resv   : Bool
  waits  : List V512
  carry  : Option V512
  hold   : Option V512
  busy   : Nat
  deriving DecidableEq, Repr

/-- Registers parked under R37: the context, and the lowest of the C columns that hold them, or none for an idle
bank. -/
structure Parked where
  ctx  : Nat
  inst : BitVec 16
  cols : Option (List Nat)
  deriving DecidableEq, Repr

/-- A core (R26, R31, R35 to R50): its five contexts, its typed local spaces with their empty words and bad words, its
barrier file, mailbox, deque, trace ring and issue state. `keeps` says that its banks hold what a launch retained for the one
it is bound to (R412). `upAt` is the cycle in which banks that power up are up (R376); `inbox` holds the messages that have
arrived and wait for the one before them to be decided on, each with the cycle of its arrival (R297, R298, R376). `ports` holds, by space code, one more than the cycle
in which the port last served an access (R29). -/
structure Core where
  ctxs      : Vector Ctx 5
  a         : Tab Byte
  c         : Tab Byte
  s         : Tab Byte
  emptyA    : List Nat
  emptyS    : List Nat
  badA      : List Nat
  badC      : List Nat
  badS      : List Nat
  powered   : Bool
  upAt      : Nat
  retain    : Option (BitVec 32)
  keeps     : Bool
  bars      : Tab Barrier
  spv       : Bool
  cfree     : BitVec 32
  parked    : List Parked
  straySig  : BitVec 32
  lfsr      : BitVec 16
  trcIdx    : BitVec 8
  trc       : Tab W64
  last      : BitVec 2
  hrun      : BitVec 2
  classMask : BitVec 8
  mbcap     : W64
  htab      : W64
  ovfl      : W64
  ovn       : BitVec 16
  ltag      : BitVec 32
  inbox     : List (Msg × Nat)
  mail      : List MailRow
  deque     : Deque
  steal     : Option Steal
  ports     : Vector Nat 4
  deriving DecidableEq, Repr

/-- A line of a cluster data cache (R149, R330, R460): its line number in physical memory, its bytes, the bytes it
holds (all, but in a line stored to over an error of memory), the dirty bytes, the mark of an uncorrectable error of the
line itself, and the ASID of the context that last stored to it, the master of its write-back (R429). -/
structure Line where
  line   : Nat
  data   : V512
  known  : BitVec 64
  dirty  : BitVec 64
  failed : Bool
  owner  : BitVec 16
  deriving DecidableEq, Repr

/-- An engine of a cluster that translates for itself (R419, R428): the copy unit for a job, by the job's own number; the
queue engine of a core, for itself (0) or for the instruction of context x of core c (8c + x + 1); the message port of a core, for its handler table. -/
inductive Engine where
  | job (seq : Nat)
  | queue (core user : Nat)
  | port (core : Nat)
  deriving DecidableEq, Repr

/-- A weight slot (R191, R192): its status word and what it holds. -/
structure WSlot where
  status : BitVec 32
  cells  : List (BitVec 16)
  grp    : List Byte
  band   : List (BitVec 16)
  bad    : Bool
  deriving DecidableEq, Repr

/-- The matrix instructions that run past their acceptance (R193, R198). -/
inductive MtxKind where
  | mzero
  | load (fmt : BitVec 3) (rowMajor : Bool)
  | mma
  | drain (e2m1 hi clr : Bool) (band : BitVec 16)
  | scale (i32 : Bool) (s : List (BitVec 32))
  deriving DecidableEq, Repr

/-- A matrix instruction of a cluster between issue and completion (R193 to R196): `sel` its weight selector, `addr` its
source or destination in A, `span` the ranges of bytes a drain writes there, `capture` whether its macro is taking its
source, `slot` the slot an MMA names as its acceptance finds it, `finish` when its capture ends and, once accepted, when it
completes. -/
structure MtxOp where
  id       : Nat
  who      : Who
  kind     : MtxKind
  tile     : BitVec 4
  sel      : BitVec 8
  handle   : Option (BitVec 4)
  addr     : Nat
  span     : List (Nat × Nat)
  adv      : Bool
  wait     : BitVec 4
  capture  : Bool
  accepted : Bool
  data     : List Byte
  slot     : WSlot
  finish   : Nat
  deriving DecidableEq, Repr

/-- What a copy job does (R233). -/
inductive CpKind where
  | get
  | put
  | gath
  | scat
  | red
  deriving DecidableEq, Repr

/-- The local side of a copy job (R233). -/
inductive CpLoc where
  | bufA
  | bufS
  | handle (h : BitVec 4)
  | weight (sel : BitVec 8)
  deriving DecidableEq, Repr

/-- A copy job, from its issue until its id is reused (R234 to R243): `seq` is its own number, `d` the register that has
its value, `cost` what R242 adds for its promise. `rowLen`, `pitch` and `rows` give its local image, `lat` is L of R242
and `loaded` says that it is not unloaded (R324). `stopping` says that it meets no more pieces (R240), `issuing` that its
CP.GATH is not complete (R238). `left` counts bytes not landed; `hFirst`, `hDone` and `hLeft` its handle slots: the first
reserved, how many it has published, and the bytes each later one lacks (R231). `chunks` lists the chunks whose result
its group still owes it (R457). `queued` counts the rows that are queued (R238); `retired` says that its id has been given to
another job while slots of its handle are still to be published (R231, R243). `worked` names, by its `pos`, each flying piece that
begins rows whose own work the copy unit has done (R322). -/
structure Job where
  id       : BitVec 8
  seq      : Nat
  who      : Who
  kind     : CpKind
  loc      : CpLoc
  d        : BitVec 5
  lbase    : Nat
  rowLen   : Nat
  pitch    : Nat
  rows     : Nat
  ox2      : W64
  ox4      : W64
  fill     : Byte
  fmt      : Nat
  lat      : Nat
  cost     : Nat
  state    : BitVec 2
  err      : BitVec 8
  flags    : BitVec 6
  oor      : BitVec 16
  fault    : VA
  promise  : BitVec 56
  issued   : Nat
  loaded   : Bool
  issuing  : Bool
  queued   : Nat
  retired  : Bool
  stopping : Bool
  todo     : List Piece
  flying   : List Piece
  left     : Nat
  hcfg     : W64
  hFirst   : Nat
  hDone    : Nat
  hLeft    : List Nat
  wimage   : Tab Byte
  wbegun   : Bool
  peer     : Option Nat
  chunks   : List Nat
  worked   : List Nat
  deriving DecidableEq, Repr

/-- An entry of the combining buffer (R282), with the contexts whose reductions it holds and the addresses they were
translated from, each with what it keeps of its leaf (R426). -/
structure Comb where
  whos : List Who
  vas  : List (LeafTag × VA)
  pa  : Nat
  fn  : BitVec 3
  val : W64
  deriving DecidableEq, Repr

/-- The swift-ring operations (R299). -/
inductive RingKind where
  | rd
  | add (i64 : Bool)
  | max (i64 : Bool)
  | swap
  | cas
  | board
  | alight
  deriving DecidableEq, Repr

/-- An operation a ring station has accepted (R300 to R304): `anyFree` is bit 15 of a board's operand word, `addr` its
alighting address as translated from `va` by the leaf of `leaf`, `limited` says that the limit of R384 has passed a
slot over, `outdone` that its destination is not to be written any more, a later operation having written it or, with `replaced`, another
instruction (R387), and `fail` is the reason of a board that failed
at its issue (R303). -/
structure RingOp where
  id      : Nat
  who     : Who
  kind    : RingKind
  lane    : BitVec 2
  idx     : Nat
  anyFree : Bool
  tag     : BitVec 16
  b       : V512
  cmp     : V512
  d       : BitVec 5
  addr    : Nat
  va      : VA
  leaf    : LeafTag
  issued  : Nat
  limited : Bool
  outdone : Bool
  replaced : Bool
  fail    : BitVec 3
  deriving DecidableEq, Repr

/-- A cluster (R1, R30): its data cache (most recently used line first), TLB, the results of the walks that its engines have waited
for and not taken yet (engine, ASID, page of 64 KiB and leaf; none of a failed walk), weight slots (by macro × 32 + slot),
matrix instructions, copy unit, special-function queue, combining buffer and ring station. `cpLand` is the first
cycle in which its copy unit is free to move bytes (R322); `bids` lists the requests of a cycle that meet a queue with fewer entries than
cores (R243): the cycle and the core. -/
structure Cluster where
  cache    : List Line
  tlb      : List TlbEntry
  misses   : List (Engine × BitVec 16 × Nat × Option TlbEntry)
  slots    : Tab WSlot
  mtx      : List MtxOp
  mtxLast  : Vector Nat 8
  nextJob  : BitVec 8
  jobs     : List Job
  cpLast   : Nat
  cpPrev   : Nat
  cpCycle  : Nat
  cpLand   : Nat
  bids     : List (Nat × Nat)
  sfu      : List SfuEntry
  sfuNext  : Nat
  comb     : List Comb
  ringQ    : List RingOp
  fenced   : Bool
  parity   : List (Nat × Nat)
  deriving DecidableEq, Repr

/-- What a table query asks of its well (R215 to R219): TQ.LD's row and bytes; a TQ.Q or TQ.QS; a chunk of a scan
with the items it still has to serve and the scan's own number. -/
inductive WellOp where
  | ld (row : Nat) (bytes : List Byte)
  | q (tab : W64) (idx : List Nat) (toA : Option Nat) (cc : BitVec 4) (d : BitVec 5)
  | qs (tab : W64) (idx : List Nat) (grp : Nat) (stride : Nat) (d : BitVec 5)
  | scan (tab : W64) (grp : Nat) (stride : Nat) (iva sva : VA) (ileaf sleaf : LeafTag) (ipa spa : Nat) (left : Nat)
    (cc : BitVec 4) (seq : Nat)
  deriving DecidableEq, Repr

/-- A request in a well's queue (R221). -/
structure WellReq where
  id   : Nat
  who  : Who
  well : Nat
  op   : WellOp
  deriving DecidableEq, Repr

/-- A walk a die's walker owes (R425): the page missed on, the cycle in which its first miss arrived, the clusters whose
misses it serves, the contexts and the engines (by cluster) that wait for it, the lines that PFs of clusters want filled
after it, and whether an invalidation began while it ran (R426). -/
structure Walk where
  id       : Nat
  asid     : BitVec 16
  va       : VA
  came     : Nat
  clusters : List Nat
  waiters  : List (Nat × Nat)
  engines  : List (Nat × Engine)
  prefetch : List (Nat × VA)
  stale    : Bool
  deriving DecidableEq, Repr

/-- A saved context in the directory of its die's synchronisation engine (R431 to R436): the physical address of its image,
whether it holds A, C and S, weight slots and barriers, whether it is killed, whether its registers are parked, and the
context, its barriers, its slots and its full-empty bits as the image's opaque regions hold them. DEDUCED, log entry 34. -/
structure Saved where
  core    : Nat
  ctx     : Nat
  inst    : BitVec 16
  image   : Nat
  ctxt    : Ctx
  held    : Bool
  wsave   : Bool
  barm    : Bool
  killed  : Bool
  parked  : Bool
  bars    : Tab Barrier
  slots   : Tab WSlot
  emptyA  : List Nat
  emptyS  : List Nat
  deriving DecidableEq, Repr

/-- A request waiting at an object's home engine (R285), with what it keeps of the leaf of its word's page and the regions
bound to the object, base and length, as at the request's issue (R283). -/
structure AcqReq where
  who    : Who
  obj    : W64
  leaf   : LeafTag
  pa     : Nat
  shared : Bool
  d      : BitVec 5
  regions : List (W64 × W64)
  deriving DecidableEq, Repr

/-- A binding of a region to an object (R283). -/
structure Binding where
  asid : BitVec 16
  obj  : W64
  base : W64
  len  : W64
  deriving DecidableEq, Repr

/-- A die: its wells (byte `well × 524,288 + offset`), bad well rows, the lines whose error is one of the synchronisation
engine's SRAM (R476), well queue, walks, save-image directory, unfenced channels (L of R463), channels in self-refresh, peer
entries, receive regions, chunk counts and the packets its endpoint has received, by job, sender and number (R448 to R453),
endpoint and clock state, and the words of its dispatch SRAM in error: bind records by their index, 8,192 for what else it
holds (R410, R459). -/
structure Die where
  wells    : Tab Byte
  badRows  : List Nat
  engineBad : List Nat
  wellQ    : List WellReq
  walks    : List Walk
  dir      : List Saved
  chans    : BitVec 32
  fencedCh : BitVec 32
  refresh  : BitVec 32
  wellOff  : List Nat
  peers    : Tab (BitVec 256)
  regions  : Tab (BitVec 256)
  chunks   : List (Nat × Nat × List (Nat × Nat))
  heard    : List (BitVec 24 × Nat × Nat)
  linkUp   : Bool
  epFenced : Bool
  linkDown : Option Nat
  fenced   : Bool
  bypassed : Bool
  clock    : Nat
  hot      : Bool
  epLimit  : Nat
  dispBad  : List Nat
  deriving DecidableEq, Repr

/-- A bind record of the slot table (R410). -/
structure BindRec where
  v       : Bool
  act     : BitVec 2
  prio    : BitVec 2
  dom     : BitVec 12
  asid    : BitVec 16
  ltag    : BitVec 32
  rank    : BitVec 11
  clcount : BitVec 12
  lpb     : W64
  wmap    : W64
  deriving DecidableEq, Repr

/-- A slot of the swift ring (R300, R381, R382): tag zero when free; `who` and `addr` are the boarding context and the
alighting address, translated from `va` by the leaf of `leaf`; `passed` says that it has passed the origin since it
was last freed (R303). REV, the revolutions it has made, is a function of CYC (R301). -/
structure RingSlot where
  payload : V512
  tag     : BitVec 16
  owner   : BitVec 11
  who     : Option Who
  addr    : Nat
  va      : VA
  leaf    : LeafTag
  passed  : Bool
  deriving DecidableEq, Repr

/-- A registered launch board (R403): its ASID and slot count as its header gave them at registration, the sequence number
of the last record taken (R404), and whether it is to be removed (R446). -/
structure Board where
  num   : Nat
  addr  : Nat
  asid  : BitVec 16
  nslot : Nat
  taken : Nat
  leaving : Bool
  deriving DecidableEq, Repr

/-- Where a launch stands (R404 to R413). -/
inductive Phase where
  | waiting
  | bound
  | running
  | finishing
  | preempted
  | done
  deriving DecidableEq, Repr

/-- What a core keeps for a pre-empted launch beside the images of its contexts (R439; DEDUCED, log entry 40): its deque, with
the bytes of the deque region of S and its words in error, and its class mask. -/
structure Kept where
  deque : Deque
  ring  : List Byte
  bad   : List Nat
  mask  : BitVec 8
  deriving DecidableEq, Repr

/-- A launch taken from a board: the board's ASID, its 32 words, its domain's clusters in rank order, its physical wells
(die × 2,048 + bank), its domain number, LPB and well map addresses, its start, its first kill (cause, context, core, join
pointer), the configuration words of its groups' trees (R251), and what its cores keep while it is pre-empted. -/
structure Launch where
  board    : Nat
  asid     : BitVec 16
  words    : List W64
  phase    : Phase
  clusters : List Nat
  wells    : List Nat
  dom      : BitVec 12
  lpb      : W64
  wmap     : W64
  start    : Nat
  kill     : Option (BitVec 8 × Nat × Nat × W64)
  groups   : Tab W64
  kept     : Tab Kept
  deriving DecidableEq, Repr

/-- The contributions of a group's round (R252): the domain, the group, the cores that have contributed and their
values, and the contexts that wait for the result; `greln` holds cores that arrived by BAR.GREL with their barrier. -/
structure Round where
  dom    : BitVec 12
  grp    : BitVec 6
  vals   : List (Nat × Option W64)
  whos   : List Who
  greln  : List (Nat × Nat)
  setting : Nat
  deriving DecidableEq, Repr

/-- A record of the event log (R461). -/
structure LogRec where
  kind  : Nat
  func  : Nat
  unit  : Nat
  geo   : BitVec 32
  addr  : W64
  cyc   : Nat
  cls   : Nat
  mnum  : Nat
  core  : Nat
  deriving DecidableEq, Repr

/-- The forms of a record of the event log (R461): two of the CXL standard's, and the vendor's. -/
inductive LogForm where
  | generalMedia
  | dram
  | vendor
  deriving DecidableEq, Repr

/-- A mailbox command that takes time (R446): an invalidation of an ASID's pages (0xFFFF for every ASID) from a first page
on, none or a count of them; the saving of a launch's contexts, with whether any was refused; their restoring. -/
inductive Cmd where
  | inval (asid : BitVec 16) (first count : Nat)
  | preempt (launch area : Nat) (refused : Bool)
  | resume (launch area : Nat)
  deriving DecidableEq, Repr

/-- The answer to a mailbox command (R446): its opcode, its K8J status, and the number it returns. -/
structure CmdReply where
  op     : Nat
  status : Nat
  value  : Nat
  deriving DecidableEq, Repr

/-- An event that is due: the cycle of CYC at which it comes about, the event and its operands. -/
structure Due where
  at_ : Nat
  ev  : Instr
  arg : EvArg
  deriving DecidableEq, Repr

/-- Where a step stands within a cycle: the cores still to be asked for an instruction start at `scan`. -/
abbrev Scan := Nat

/-- The `scan` value once every core has been asked for an instruction in this cycle. -/
def scanEnd : Scan := 16385

/-- The last uses of a channel (R324): one more than the cycle of the last one, whose it was (0, or one more than the number of
a copy job), and one more than the cycle of the last by another than that. -/
structure Uses where
  last  : Nat
  user  : Nat
  other : Nat
  deriving DecidableEq, Repr

/-- The whole package; what lies outside it is not held (DESIGN CHOICE, log entry 54). `uses` holds the last uses of its
channels: 64 × die + channel, 32 for a die's second tier, 1,024 for host memory, 1,025 + die for its endpoint and 1,040 for the die links. `features` holds the features of CXL
that the link's training has agreed on (R441), and `hdmOn` the decoders whose base the host has set (R442). `spdmA`, `spdmB`
and `spdmL` are the messages that a signature of R470 covers. `late` lists the cores, with a context, that choose in this cycle once the
ports have served the others: the context has an instruction with S-alias accesses (R29, R32, R415; DEDUCED, log entry 9); `gangUse` the cores whose
S has served an earlier member of the gang's instruction that is being run (R185; log entry 9). `log` holds the events reported
since the host last cleared records, of which the event log has room for the first Config.logSize (R461). -/
structure State where
  cyc      : W64
  scan     : Scan
  late     : List (Nat × Nat)
  gangUse  : List Nat
  core     : Nat
  ctx      : Nat
  stalled  : Bool
  tick     : Nat
  nextId   : Nat
  cores    : Tab Core
  clusters : Tab Cluster
  dies     : Tab Die
  mem      : List Host.Cell
  badLines : List Nat
  badCount : List (Nat × Nat × Nat)
  uses     : Tab Uses
  ring     : Tab RingSlot
  lanesOff : BitVec 4
  laneDue  : BitVec 4
  root     : Tab W64
  access   : Tab (BitVec 128)
  locked   : List Nat
  slotTab  : Tab BindRec
  acqs     : List AcqReq
  binds    : List Binding
  rounds   : List Round
  boards   : List Board
  lastBoard : Nat
  launches : List Launch
  agenda   : List Due
  arg      : EvArg
  geo      : BitVec 32
  recovery : Bool
  poweredOff : Bool
  flash    : List Byte
  flashBad : Bool
  minSvn   : Nat
  running  : List Byte
  link     : Nat
  features : BitVec 16
  hdm0     : W64
  hdm1     : W64
  hdmOn    : BitVec 2
  hostHeld : List Nat
  hostRead : List Byte
  hostBad  : Bool
  msix     : List (BitVec 11)
  mailbox  : List CmdReply
  cmd      : Option Cmd
  cmds     : List Due
  cmdGo    : Bool
  doe      : List Byte
  spdmA    : List Byte
  spdmB    : List Byte
  spdmL    : List Byte
  sent     : List Packet
  log      : List LogRec
  winUnder : Nat
  cxlLimit : Nat
  deriving DecidableEq, Repr

/-- The reasons a step can stop for good. Raised by an event constructor whose operands name a part the package
does not have (R1); no instruction raises one. Safe: such an event cannot come about on the hardware. -/
inductive Fault where
  /-- A step of the step function met an event that names no part of the package (die 8, ring index 2,176). Safe. -/
  | noSuchPart
  deriving DecidableEq, Repr

/-- The reasons a step can be refused. -/
inductive Refusal where
  /-- Raised by a dispatch arm whose instruction has no meaning yet. Safe: the machine stops. -/
  | notModelled (mnemonic : String)
  deriving DecidableEq, Repr

/-- An unconfigured handle (R36, R228). -/
def Handle.reset : Handle := ⟨0, 0, 0, 0⟩
/-- A counter at reset (R35). -/
def Counter.reset : Counter := ⟨0, 0⟩
/-- A closed walker (R254). -/
def Walker.reset : Walker := ⟨[], 0, 0, 0, 0, none, true⟩

/-- A context at reset (R19, R22, R40): every register zero, k1 to k7 zero, nothing configured. -/
def Ctx.reset : Ctx where
  run := .free
  bound := false
  g := Vector.replicate 32 0
  v := Vector.replicate 32 0
  k := Vector.replicate 8 0
  ox := Vector.replicate 8 0
  h := Vector.replicate 16 Handle.reset
  cc := Vector.replicate 16 Counter.reset
  grp := Vector.replicate 64 0
  pc := 0
  fpstat := 0
  mxstat := 0
  qstat := 0
  rstat := 0
  trapCause := 0
  trapPc := 0
  trapVal := 0
  trapVec := 0
  trapMode := false
  pending := []
  inst := 0
  gangSize := 0
  gangIdx := 0
  gangLead := 0
  dom := 0
  clcount := 0
  rank := 0
  ltag := 0
  asid := 0
  prio := 0
  lpb := 0
  wmap := 0
  oneSided := 0
  held := []
  sends := Vector.replicate 8 .free
  walkers := Vector.replicate 2 Walker.reset
  locks := []
  nextIssue := 0
  waitSince := none
  grpWait := []
  tqOut := 0
  scans := []
  replay := []
  walkFail := none
  await := none
  midway := false
  leaving := false
  joinPtr := 0
  mailRow := 0

/-- A barrier never initialised (R19, R290). -/
def Barrier.reset : Barrier := ⟨false, 0, 0, none, 0, 0, 0, false⟩

/-- An empty deque (R360). -/
def Deque.reset : Deque := ⟨0, 0, 0, 0, false, [], none, none, 0⟩

/-- A core at reset: banks down and empty of data (R31), barriers uninitialised (R19), every class unmasked (R298),
hrun 0 (R415). `last` is 3 (DESIGN CHOICE, log entry 3). -/
def Core.reset : Core where
  ctxs := Vector.replicate 5 Ctx.reset
  a := []
  c := []
  s := []
  emptyA := []
  emptyS := []
  badA := []
  badC := []
  badS := []
  powered := false
  upAt := 0
  retain := none
  keeps := false
  bars := []
  spv := false
  cfree := 0
  parked := []
  straySig := 0
  lfsr := 0
  trcIdx := 0
  trc := []
  last := 3
  hrun := 0
  classMask := 0
  mbcap := 0
  htab := 0
  ovfl := 0
  ovn := 0
  ltag := 0
  inbox := []
  mail := []
  deque := Deque.reset
  steal := none
  ports := Vector.replicate 4 0

/-- An empty weight slot (R191). -/
def WSlot.reset : WSlot := ⟨0, [], [], [], false⟩

/-- A cluster at reset: empty cache and TLB, empty slots (R191), the first job id 0 (R242).
DESIGN CHOICE, log entry 4. -/
def Cluster.reset : Cluster where
  cache := []
  tlb := []
  misses := []
  slots := []
  mtx := []
  mtxLast := Vector.replicate 8 7
  nextJob := 0
  jobs := []
  cpLast := 7
  cpPrev := 7
  cpCycle := 0
  cpLand := 0
  bids := []
  sfu := []
  sfuNext := 0
  comb := []
  ringQ := []
  fenced := false
  parity := []

/-- A die at reset: every channel in L (R463), nothing fenced, the clock at 2,400 MHz (R472). -/
def Die.reset : Die where
  wells := []
  badRows := []
  engineBad := []
  wellQ := []
  walks := []
  dir := []
  chans := 0xFFFFFFFF
  fencedCh := 0
  refresh := 0
  wellOff := []
  peers := []
  regions := []
  chunks := []
  heard := []
  linkUp := true
  epFenced := false
  linkDown := none
  fenced := false
  bypassed := false
  clock := 2400
  hot := false
  epLimit := Config.epLimit
  dispBad := []

/-- A bind record with V = 0 (R410). -/
def BindRec.reset : BindRec := ⟨false, 0, 0, 0, 0, 0, 0, 0, 0, 0⟩

/-- A free slot, boardable from package reset (R303). -/
def RingSlot.reset : RingSlot := ⟨0, 0, 0, none, 0, 0, ⟨0, 0⟩, true⟩

/-- The package right after reset (R7): CYC zero, nothing bound, memory with nothing listed.
DESIGN CHOICE, log entry 1. DESIGN CHOICE, log entry 2. DEDUCED, log entry 47. -/
def State.reset : State where
  cyc := 0
  scan := 0
  late := []
  gangUse := []
  core := 0
  ctx := 0
  stalled := false
  tick := 0
  nextId := 0
  cores := []
  clusters := []
  dies := []
  mem := []
  badLines := []
  badCount := []
  uses := []
  ring := []
  lanesOff := 0
  laneDue := 0
  root := []
  access := []
  locked := []
  slotTab := []
  acqs := []
  binds := []
  rounds := []
  boards := []
  lastBoard := 63
  launches := []
  agenda := [⟨23999, .powerWindow, .none⟩]
  arg := .none
  geo := 1
  recovery := false
  poweredOff := false
  flash := Config.flash
  flashBad := false
  minSvn := Config.minSvn
  running := Config.flash
  link := 0
  features := 0
  hdm0 := 0
  hdm1 := 0
  hdmOn := 0
  hostHeld := []
  hostRead := []
  hostBad := false
  msix := []
  mailbox := []
  cmd := none
  cmds := []
  cmdGo := false
  doe := []
  spdmA := []
  spdmB := []
  spdmL := []
  sent := []
  log := []
  winUnder := 0
  cxlLimit := Config.cxlLimit

end Sys2Proof.Machine
end

