-- ==== Sys2Proof/Machine/Image.lean ====
section
/-! DEFINITION. The layout of a save image (27_contexts_preemption.md R431, R432) and the status words it shares with the
instructions that read them (10_engines.md R228, 12_sync_ring.md R296). -/
namespace Sys2Proof.Machine
open Sys2Proof

/-- The state word of a handle (R228). -/
def handleState (h : Handle) : W64 :=
  if h.cfg = 0#64 then 0 else at64 1 63 ||| at64 h.pend.toNat 16 ||| at64 h.filled.toNat 8 ||| at64 h.cptr.toNat 0

/-- A completion counter as a register (R35). -/
def counterWord (k : Counter) : W64 := at64 k.expect.toNat 32 ||| at64 k.done.toNat 0

/-- The status of a send id (R296). -/
def sendStatus : SendId → BitVec 3
  | .free => 7
  | .flying => 0
  | .resolved st _ => st

/-- Words as bytes, lowest first. -/
def wordBytes (ws : List W64) : List Byte := (ws.map fun w => toBytes 8 w.toNat).flatten

/-- g, v, k and ox as an image and parking hold them (R431, R332): 2,432 bytes. -/
def regBytes (c : Ctx) : List Byte :=
  wordBytes c.g.toList ++ (c.v.toList.map vecBytes).flatten ++
  wordBytes ((c.k.toList.drop 1).insertIdx 0 (BitVec.allOnes 64)) ++ wordBytes c.ox.toList

/-- The register files taken back from an image. -/
def withRegBytes (c : Ctx) (bs : List Byte) : Ctx :=
  let word := fun i => wordOf ((bs.drop (8 * i)).take 8)
  { c with
    g := Vector.ofFn fun i => if i.val = 0 then 0 else word i.val
    v := Vector.ofFn fun i => vecOf ((bs.drop (256 + 64 * i.val)).take 64)
    k := Vector.ofFn fun i => if i.val = 0 then 0 else word (288 + i.val)
    ox := Vector.ofFn fun i => word (296 + i.val) }

/-- The word of an image that lists pending asynchronous traps: bit c for cause c (DEDUCED, log entry 20). -/
def pendingWord (c : Ctx) : W64 := c.pending.foldl (fun w p => w ||| at64 1 p.1.toNat) 0

/-- The control words (R431), in their order. -/
def controlWords (c : Ctx) : List W64 :=
  [c.pc.setWidth 64, c.fpstat.setWidth 64, c.mxstat.setWidth 64, c.qstat.setWidth 64, c.rstat.setWidth 64,
   c.prio.setWidth 64, c.trapCause.setWidth 64, c.trapPc.setWidth 64, c.trapVal, (c.trapVec ++ 0#1).setWidth 64,
   pendingWord c]

/-- The control words taken back; a PC is even (R53), and bit 0 of an image's PC word is dropped (R431 and R437 say nothing of it;
DESIGN CHOICE, log entry 86). -/
def withControl (c : Ctx) (bs : List Byte) : Ctx :=
  let word := fun i => wordOf ((bs.drop (8 * i)).take 8)
  { c with
    pc := (word 0).setWidth 56 &&& ~~~ 1
    fpstat := (word 1).setWidth 6
    mxstat := (word 2).setWidth 3
    qstat := (word 3).setWidth 2
    rstat := (word 4).setWidth 3
    prio := (word 5).setWidth 2
    trapCause := (word 6).setWidth 9
    trapPc := (word 7).setWidth 56
    trapVal := word 8
    trapVec := (word 9).extractLsb' 1 55 }

/-- A handle taken back from its two words. -/
def handleOf (cfg st : W64) : Handle :=
  if cfg = 0#64 then Handle.reset
  else ⟨cfg, st.extractLsb' 16 8, st.extractLsb' 8 8, st.extractLsb' 0 8⟩

/-- One bit for each barrier b0 to b511, as a row of 64 bytes (R431). -/
def barBits (bars : Tab Barrier) (p : Barrier → Bool) : List Byte :=
  (List.range 64).map fun i => BitVec.ofNat 8 ((List.range 8).foldl (fun a j =>
    if p (tabGet Barrier.reset bars (8 * i + j)) then a + 2 ^ j else a) 0)

/-- The parts of an image that are not opaque, from the registers on, each with its offset (R431); `bars` is the barrier
file of the core. Reserved bytes are zero. -/
def imageParts (c : Ctx) (x : Nat) (bars : Tab Barrier) : List (Nat × List Byte) :=
  [(0x9C0, wordBytes (controlWords c) ++ List.replicate 40 0),
   (0xA40, wordBytes (c.h.toList.flatMap fun h => [h.cfg, handleState h])),
   (0xB40, wordBytes (c.cc.toList.map counterWord)),
   (0xBC0, wordBytes c.grp.toList),
   (0xDC0, wordBytes (c.held ++ List.replicate (8 - c.held.length) 0)),
   (0xE00, barBits bars (fun b => b.init && b.enrol.getLsbD x) ++ barBits bars (fun b => b.init && b.pend.getLsbD x)),
   (0xE80, wordBytes (c.sends.toList.map fun i => (sendStatus i).setWidth 64)),
   (0xEC0, List.replicate 320 0)]

/-- The header of an image (R432). -/
def headerWords (e : Saved) (done killed err : Bool) : List W64 :=
  let bit := fun (b : Bool) (i : Nat) => if b then at64 1 i else 0
  [at64 1 48 ||| at64 e.ctxt.ltag.toNat 0,
   bit done 63 ||| bit killed 62 ||| bit err 61 ||| bit e.held 60 ||| bit e.wsave 59 ||| bit e.barm 58 |||
     bit e.ctxt.trapMode 57 ||| bit e.parked 56 ||| at64 e.ctx 53 ||| at64 e.core 39 ||| at64 e.inst.toNat 23,
   e.ctxt.lpb, e.ctxt.wmap, 0, 0, 0, 0]

/-- A context as its image gives it back (R437): what the image holds of it, and the rest of the record of its directory
entry, whose opaque regions no one may change. -/
def fromImage (e : Saved) (read : Nat → Nat → List Byte) : Ctx :=
  let c := withControl (withRegBytes e.ctxt (if e.parked then regBytes e.ctxt else read 0x40 2432)) (read 0x9C0 128)
  let word := fun (o i : Nat) => wordOf (read (o + 8 * i) 8)
  { c with
    h := Vector.ofFn fun i => handleOf (word 0xA40 (2 * i.val)) (word 0xA40 (2 * i.val + 1))
    cc := Vector.ofFn fun i => ⟨(word 0xB40 i.val).extractLsb' 32 32, (word 0xB40 i.val).extractLsb' 0 32⟩
    grp := Vector.ofFn fun i => word 0xBC0 i.val
    held := ((List.range 8).map fun i => word 0xDC0 i).filter (· ≠ 0#64) }

end Sys2Proof.Machine
end

