-- ==== Sys2Proof/Machine/Ops.lean ====
section
/-! DEFINITION. The named operations every meaning is built from: the parts of the package, registers and their
interlocks (01_state.md R19 to R21, R125), memory, translation and access tables (26_translation_protection.md),
the cluster data cache (R149, R330), the agenda, taking and leaving a trap (13_strand_system.md R319, R320), and the
two ways an instruction or an event runs. -/
namespace Sys2Proof.Machine
open Sys2Proof

/-- Why an instruction or an event does not go on: it waits for a TLB walk of a page, for the walk that an engine of a
cluster has missed on (R424), for the port that serves its S-alias accesses last (R29, R32), for the order in which its copy
unit takes the requests of a cycle (R243), for a word of A or S to be full (R154), for a barrier's phase (R290), for its
cluster's combining buffer to be flushed (R286), for anything else, or under a timer of R232 or R245 (`run` says whether the
timer's condition holds; `val` is the TRAPVAL it would give). -/
inductive Wait where
  | walk (va : VA)
  | miss (cl : Nat) (e : Engine) (asid : BitVec 16) (va : VA)
  | late
  | bid
  | full (sp : BitVec 2) (off : Nat)
  | bar (b : BitVec 9)
  | plain
  | flush
  | handle (val : W64) (run : Bool)
  | counter (val : W64) (run : Bool)
  deriving DecidableEq, Repr

/-- How an instruction stops short: a trap (with `keep`, what it did so far stands and `prog` is TRAPCAUSE.PROG), a
wait without effect, or the end of the machine. -/
inductive Stop where
  | trap (cause : BitVec 8) (val : W64) (prog keep : Bool)
  | wait (w : Wait)
  | fault (f : Fault)
  deriving DecidableEq, Repr

/-- The outcome of a step. -/
abbrev Out := Host.Outcome State Fault Refusal

/-- A piece of a meaning: it reads and changes the state, and may stop. -/
abbrev M := EStateM Stop State

/-- A precise trap (R78). -/
def trapM {α : Type} (cause : BitVec 8) (val : W64) : M α := throw (.trap cause val false false)
/-- A wait without effect. DEDUCED, log entry 10. -/
def waitM {α : Type} : M α := throw (.wait .plain)

/-! ## The parts of the package -/

def getCore (s : State) (n : Nat) : Core := tabGet Core.reset s.cores n
def setCore (s : State) (n : Nat) (c : Core) : State := { s with cores := tabPut s.cores n c }
def modCore (s : State) (n : Nat) (f : Core → Core) : State := setCore s n (f (getCore s n))
def getCluster (s : State) (n : Nat) : Cluster := tabGet Cluster.reset s.clusters n
def setCluster (s : State) (n : Nat) (c : Cluster) : State := { s with clusters := tabPut s.clusters n c }
def modCluster (s : State) (n : Nat) (f : Cluster → Cluster) : State := setCluster s n (f (getCluster s n))
def getDie (s : State) (n : Nat) : Die := tabGet Die.reset s.dies n
def setDie (s : State) (n : Nat) (d : Die) : State := { s with dies := tabPut s.dies n d }
def modDie (s : State) (n : Nat) (f : Die → Die) : State := setDie s n (f (getDie s n))

/-- Context `x` of a core: 0 to 3 hardware, 4 the handler (R42). -/
def coreCtx (c : Core) (x : Nat) : Ctx := (c.ctxs[x]?).getD Ctx.reset
def getCtx (s : State) (n x : Nat) : Ctx := coreCtx (getCore s n) x
def coreSetCtx (c : Core) (x : Nat) (k : Ctx) : Core := { c with ctxs := c.ctxs.setIfInBounds x k }
def setCtx (s : State) (n x : Nat) (k : Ctx) : State := setCore s n (coreSetCtx (getCore s n) x k)
def modCtx (s : State) (n x : Nat) (f : Ctx → Ctx) : State := setCtx s n x (f (getCtx s n x))

/-- The cluster and the die of a core (R4). -/
def clusterOf (core : Nat) : Nat := core / 8
def dieOf (core : Nat) : Nat := core / 2048
def dieOfCluster (cl : Nat) : Nat := cl / 256

/-- The cycle counter as a number. -/
def now (s : State) : Nat := s.cyc.toNat

/-- The cycle of CYC that ends `n` cycles of a clock of `f` MHz from cycle `t` on (R8): that clock begins its cycle k in the
first cycle of CYC at or after k × 2,400 / f. DESIGN CHOICE, log entry 60. -/
def cyclesAfter (f t n : Nat) : Nat := ceilDiv ((t * f / 2400 + n) * 2400) f
/-- The clock of a core's die, which its cores, matrix engines and special-function units run at (R8, R472). -/
def clockOf (s : State) (core : Nat) : Nat := max 1 (getDie s (dieOf core)).clock
/-- The cycle of CYC that is `n` cycles of a core's own clock from now (R8). -/
def after (s : State) (core n : Nat) : Nat := cyclesAfter (clockOf s core) (now s) n
/-- Whether a cycle of a core's own clock begins in this cycle of CYC (R8). -/
def onEdge (s : State) (core : Nat) : Bool := decide (now s * clockOf s core % 2400 < clockOf s core)
/-- The cycle of CYC that is `n` cycles of a cluster's own clock from a cycle `t` on (R8). -/
def afterFrom (s : State) (cl t n : Nat) : Nat := cyclesAfter (clockOf s (8 * cl)) t n

/-! ## The current context -/

def cur : M Ctx := fun s => .ok (getCtx s s.core s.ctx) s
def modCur (f : Ctx → Ctx) : M Unit := fun s => .ok () (modCtx s s.core s.ctx f)
def curCore : M Core := fun s => .ok (getCore s s.core) s
def modCurCore (f : Core → Core) : M Unit := fun s => .ok () (modCore s s.core f)
def curCluster : M Cluster := fun s => .ok (getCluster s (clusterOf s.core)) s
def modCurCluster (f : Cluster → Cluster) : M Unit := fun s => .ok () (modCluster s (clusterOf s.core) f)
/-- The whole state read, and changed. -/
def ask : M State := fun s => .ok s s
def update (f : State → State) : M Unit := fun s => .ok () (f s)
/-- Goes on only when the condition holds. -/
def waitUntil (c : Bool) : M Unit := if c then pure () else waitM
/-- Traps when the condition holds. -/
def trapIf (c : Bool) (cause : BitVec 8) (val : W64) : M Unit := if c then trapM cause val else pure ()
/-- An action for each element in order. -/
def each {α : Type} (f : α → M Unit) : List α → M Unit
  | [] => pure ()
  | x :: xs => do f x; each f xs
/-- An action for each element in order, its results listed. -/
def gather {α β : Type} (f : α → M β) : List α → M (List β)
  | [] => pure []
  | x :: xs => do
    let y ← f x
    let ys ← gather f xs
    pure (y :: ys)

/-- Who the current context is to the engines it hands work to (R42, R428). -/
def whoOf (c : Ctx) (core ctx : Nat) : Who := ⟨BitVec.ofNat 14 core, BitVec.ofNat 3 ctx, c.inst, c.asid, c.dom, c.ltag⟩
def whoNow : M Who := fun s => .ok (whoOf (getCtx s s.core s.ctx) s.core s.ctx) s
/-- Whether the handler context runs (R21). -/
def isHandler : M Bool := fun s => .ok (s.ctx == 4) s

/-! ## Registers and their interlocks (R20, R125, R166) -/

/-- Whether a register is interlocked at a cycle. -/
def lockedAt (c : Ctx) (r : RegId) (t : Nat) : Bool :=
  c.locks.any (fun l => l.reg = r && (match l.till with | none => true | some u => decide (t < u)))

/-- Waits while a register is interlocked. -/
def free (r : RegId) : M Unit := fun s =>
  if lockedAt (getCtx s s.core s.ctx) r (now s) then .error (.wait .plain) s else .ok () s

/-- Interlocks a register (R125, R166): for `n` cycles of the core's clock from issue, or until a reply when `n` is 0.
Run-out locks are dropped. -/
def addLock (r : RegId) (n : Nat) : M Unit := fun s =>
  let t := now s
  .ok () (modCtx s s.core s.ctx fun c => { c with
    locks := ⟨r, if n = 0 then none else some (after s s.core n)⟩ ::
      c.locks.filter (fun l => l.reg ≠ r && (match l.till with | none => true | some u => decide (t < u))) })

/-- Ends a register's interlock when its reply arrives. -/
def unlock (c : Ctx) (r : RegId) : Ctx := { c with locks := c.locks.filter (fun l => l.reg ≠ r) }

/-- General register `r`: g0 reads zero (R19). -/
def gOf (c : Ctx) (r : BitVec 5) : W64 := if r = 0 then 0 else c.g[r.toNat]'(r.isLt)
/-- General register `r` written: a write to g0 is discarded (R20). -/
def gSet (c : Ctx) (r : BitVec 5) (x : W64) : Ctx := if r = 0 then c else { c with g := c.g.set r.toNat x r.isLt }
def vOf (c : Ctx) (r : BitVec 5) : V512 := c.v[r.toNat]'(r.isLt)
def vSet (c : Ctx) (r : BitVec 5) (x : V512) : Ctx := { c with v := c.v.set r.toNat x r.isLt }
/-- Mask register `r`: k0 reads all ones (R19). -/
def kOf (c : Ctx) (r : BitVec 3) : W64 := if r = 0 then BitVec.allOnes 64 else c.k[r.toNat]'(r.isLt)
/-- Mask register `r` written: a write to k0 is discarded (R20). -/
def kSet (c : Ctx) (r : BitVec 3) (x : W64) : Ctx := if r = 0 then c else { c with k := c.k.set r.toNat x r.isLt }
def oxOf (c : Ctx) (r : BitVec 3) : W64 := c.ox[r.toNat]'(r.isLt)
def oxSet (c : Ctx) (r : BitVec 3) (x : W64) : Ctx := { c with ox := c.ox.set r.toNat x r.isLt }

/-- The register that an operation of the swift ring has still to write (R302, R303). -/
def RingOp.dest (o : RingOp) : Option RegId :=
  if o.replaced then none
  else match o.kind with
    | .alight => none
    | .board => some (.g o.d)
    | _ => some (.v o.d)

/-- Waits until a register may be written by an instruction that does not read it: an outstanding reply holds it back (R435), but
not one of the swift ring, whose result is then not written any more (R387). DEDUCED, log entry 75. -/
def claim (r : RegId) : M Unit := fun s =>
  let c := getCtx s s.core s.ctx
  let mine := fun (o : RingOp) => decide (o.who.core.toNat = s.core) && decide (o.who.ctx.toNat = s.ctx) &&
    decide (o.who.inst = c.inst) && decide (o.dest = some r)
  if !lockedAt c r (now s) then .ok () s
  else if (getCluster s (clusterOf s.core)).ringQ.any mine then
    .ok () (modCtx (modCluster s (clusterOf s.core) fun c => { c with
      ringQ := c.ringQ.map fun o => if mine o then { o with outdone := true, replaced := true } else o }) s.core s.ctx (unlock · r))
  else .error (.wait .plain) s

def rg (r : BitVec 5) : M W64 := do free (.g r); let c ← cur; pure (gOf c r)
def wg (r : BitVec 5) (x : W64) : M Unit := do claim (.g r); modCur (gSet · r x)
def rv (r : BitVec 5) : M V512 := do free (.v r); let c ← cur; pure (vOf c r)
def wv (r : BitVec 5) (x : V512) : M Unit := do claim (.v r); modCur (vSet · r x)
def rk (r : BitVec 3) : M W64 := do free (.k r); let c ← cur; pure (kOf c r)
def wk (r : BitVec 3) (x : W64) : M Unit := do free (.k r); modCur (kSet · r x)
def rox (r : BitVec 3) : M W64 := do let c ← cur; pure (oxOf c r)
def wox (r : BitVec 3) (x : W64) : M Unit := modCur (oxSet · r x)

/-! ## Free values, ids, the agenda and the event log -/

/-- An event put on the agenda `n` cycles from now. -/
def later (s : State) (n : Nat) (ev : Instr) (arg : EvArg) : State :=
  { s with agenda := s.agenda ++ [⟨now s + n, ev, arg⟩] }

/-- An event put on the agenda after a time the manual does not give: a free number of cycles, one at least.
DESIGN CHOICE, log entry 6. -/
def sometime (s : State) (ev : Instr) (arg : EvArg) : State :=
  { s with tick := s.tick + 1, agenda := s.agenda ++ [⟨now s + 1 + Config.latency s.tick, ev, arg⟩] }

/-- An event after a free time, but not before those of the agenda that must come first. -/
def laterAfter (s : State) (ev : Instr) (arg : EvArg) (p : Due → Bool) : State :=
  let t := (s.agenda.filter p).foldl (fun m d => max m d.at_) (now s + 1 + Config.latency s.tick)
  { s with tick := s.tick + 1, agenda := s.agenda ++ [⟨t, ev, arg⟩] }

/-- A fresh number for a piece of work. -/
def fresh : M Nat := fun s => .ok s.nextId { s with nextId := s.nextId + 1 }

/-- An event of the agenda that a context of an instance issued and that matches. -/
def dueAny (s : State) (p : Due → Bool) : Bool := s.agenda.any p

/-- Whether a cluster, or its die, is fenced (R18, R462). -/
def clusterFenced (s : State) (cl : Nat) : Bool := (getCluster s cl).fenced || (getDie s (dieOfCluster cl)).fenced
/-- Whether a physical well is fenced: its own fence, its channel's retirement or its die (R462). -/
def wellFenced (s : State) (w : Nat) : Bool :=
  let d := getDie s (w / 2048)
  d.fenced || d.wellOff.contains (w % 2048)

/-! ## Physical memory (R417, R460, R463) -/

/-- Where a physical address lies (R417). -/
inductive Place where
  | first (die off : Nat)
  | second (die off : Nat)
  | peer (entry off : Nat)
  | host (off : Nat)
  | nowhere
  deriving DecidableEq, Repr

/-- The place of a physical address (R417, R449). -/
def placeOf (pa : Nat) : Place :=
  if pa < 0x8000000000 then .first (pa / 0x1000000000) (pa % 0x1000000000)
  else if pa < 0x20000000000 then .nowhere
  else if pa < 0x40000000000 then .second ((pa - 0x20000000000) / 0x4000000000) (pa % 0x4000000000)
  else if pa < 0x400000000000 then .nowhere
  else if pa < 0x800000000000 then .peer ((pa - 0x400000000000) / 0x1000000000) (pa % 0x1000000000)
  else .host (pa - 0x800000000000)

/-- Whether a physical address lies in the peer window (R449). -/
def inPeer (pa : Nat) : Bool := match placeOf pa with | .peer _ _ => true | _ => false

/-- The channels of L in increasing number (R463). -/
def channelList (d : Die) : List Nat := (List.range 32).filter (fun i => d.chans.getLsbD i)

/-- The capacity K of a channel outside the bank-block region (R463). -/
def channelCap : Nat := 0x8000000 * (16 - Config.wb)

/-- The base of a die's bank-block region as a die offset (R418). -/
def bankBase : Nat := 0x100000000 * (16 - Config.wb)

/-- Whether a die offset of the first tier exists under the channel geometry (R463). While every channel is in L all
64 GiB do. -/
def offsetServed (d : Die) (off : Nat) : Bool :=
  if d.chans = 0xFFFFFFFF#32 then true
  else if off < bankBase then decide (off < (channelList d).length * channelCap)
  else d.chans.getLsbD ((((off - bankBase) / 0x200000) % 2048) / 64)

/-- The channel that serves a first-tier die offset (R418, R463). -/
def channelAt (d : Die) (off : Nat) : Nat :=
  if bankBase ≤ off then (((off - bankBase) / 0x200000) % 2048) / 64
  else (channelList d).getD ((off / 256) % max 1 (channelList d).length) 0

/-- Whether a physical address belongs to memory that is there and not fenced (R417, R462, R463). -/
def served (s : State) (pa : Nat) : Bool :=
  match placeOf pa with
  | .first d off => !(getDie s d).fenced && offsetServed (getDie s d) off
  | .second d _ => !(getDie s d).fenced
  | .host _ => true
  | .peer _ _ => false
  | .nowhere => false

/-- The die whose engine is home to a word of first- or second-tier memory (R278). -/
def homeDie (pa : Nat) : Option Nat :=
  match placeOf pa with
  | .first d _ => some d
  | .second d _ => some d
  | _ => none

/-- The 64-byte line of a physical address. -/
def lineOf (pa : Nat) : Nat := pa / 64

/-- Whether the line of an address holds an uncorrectable error (R460). -/
def badAt (s : State) (pa : Nat) : Bool := s.badLines.contains (lineOf pa)

/-- Bytes of memory as they stand. -/
def memRead (s : State) (pa n : Nat) : List Byte := bytesGet s.mem pa n

/-- A channel of a die woken from self-refresh by an access (R465). -/
def wakeChannel (s : State) (die ch : Nat) : State :=
  if (getDie s die).refresh.getLsbD ch then
    modDie s die fun d => { d with refresh := d.refresh &&& ~~~ (BitVec.ofNat 32 (2 ^ ch)) }
  else s

/-- The channel in self-refresh that an access to a physical address arrives at (R465). -/
def asleep (s : State) (pa : Nat) : Option (Nat × Nat) :=
  match placeOf pa with
  | .first d off =>
    if (getDie s d).refresh = 0#32 then none
    else
      let ch := channelAt (getDie s d) off
      if (getDie s d).refresh.getLsbD ch then some (d, ch) else none
  | _ => none

/-- The channel behind which a physical address lies, as State numbers it; a second tier and host memory count as one each. -/
def channelKey (s : State) (pa : Nat) : Option Nat :=
  match placeOf pa with
  | .first d off => some (64 * d + channelAt (getDie s d) off)
  | .second d _ => some (64 * d + 32)
  | .host _ => some 1024
  | _ => none

/-- A channel, an endpoint or the die links used: by 0, or by one more than the number of a copy job (R324). -/
def useKey (s : State) (k user : Nat) : State :=
  let u := tabGet ⟨0, 0, 0⟩ s.uses k
  { s with uses := tabPut s.uses k ⟨now s + 1, user, if u.user = user then u.other else u.last⟩ }

/-- The channel of an access used. -/
def touch (s : State) (pa user : Nat) : State :=
  match channelKey s pa with
  | none => s
  | some k => useKey s k user

/-- The keys of the endpoint of a die and of the die links, which State counts as one: R324 does not name the links of a way
(DEDUCED, log entry 90). -/
def endpointKey (die : Nat) : Nat := 1025 + die
def linksKey : Nat := 1040

/-- Whether an access of a die to a physical address passes die links (R5, R324). -/
def behindLinks (die pa : Nat) : Bool :=
  match placeOf pa with
  | .first d _ => decide (d ≠ die)
  | .second d _ => decide (d ≠ die)
  | .host _ => true
  | _ => false

/-- The die links used by work that goes from one die to another. -/
def linkUse (s : State) (a b : Nat) : State := if a = b then s else useKey s linksKey 0

/-- The channel of a physical address used by an access, which wakes it (R465). -/
def wake (s : State) (pa : Nat) : State :=
  let s := touch s pa 0
  match asleep s pa with
  | some (d, ch) => wakeChannel s d ch
  | none => s

/-- The same by an access of a die, which may pass die links (R324). -/
def wakeFrom (s : State) (die pa : Nat) : State :=
  wake (if behindLinks die pa then useKey s linksKey 0 else s) pa

/-- The uncorrectable errors of a first-tier channel, a well or a ring lane counted; the one that reaches the limit of R462
within its window has the function fenced. -/
def countError (s : State) (f : FencedKind) (func unit limit window : Nat) : State :=
  let s := { s with badCount :=
    (s.badCount.filter fun p => p.1 ≠ func || decide (now s < p.2.2 + window)) ++ [(func, unit, now s)] }
  if limit ≤ (s.badCount.filter fun p => p.1 = func && p.2.1 = unit).length then
    later s 0 .functionFence (.func f unit)
  else s

/-- The die whose engine's SRAM holds the error of a line (R459, R476). -/
def engineErrorAt (s : State) (pa : Nat) : Option Nat := (s.dies.find? fun d => d.2.engineBad.contains (pa / 64)).map (·.1)

/-- The unit of a channel record: channel 32d + c of a first-tier address (R461), 0 for other memory. -/
def channelUnit (s : State) (pa : Nat) : Nat :=
  match placeOf pa with
  | .first d off => 32 * d + channelAt (getDie s d) off
  | _ => 0

/-- What an uncorrectable error met brings about beside its record: the read of a line in error has woken its channel (R465);
an error of an engine's SRAM has its die fenced (R476), as has one of a die's dispatch SRAM (R459), and the others count
towards the fence of their function, a line's whoever reads it (R462). -/
def errorMet (s : State) (func unit addr : Nat) : State :=
  if func = 1 || func = 7 then
    let s := wake s addr
    match engineErrorAt s addr with
    | some d => later s 0 .functionFence (.func .die d)
    | none => if addr < 0x8000000000 then countError s .channel 1 (channelUnit s addr) 16 4294967296 else s
  else if func = 2 then countError s .well 2 unit 4 4294967296
  else if func = 3 then countError s .lane 3 unit 4 2176
  else if func = 5 then later s 0 .functionFence (.func .die unit)
  else s

/-- A record entered in the event log (R461). -/
def report (s : State) (kind func unit addr cls mnum core : Nat) : State :=
  let s := { s with log := s.log ++ [⟨kind, func, unit, s.geo, BitVec.ofNat 64 addr, now s, cls, mnum, core⟩] }
  if kind = 2 then errorMet s func unit addr else s

/-- What an instruction that stops short has reported stays reported (R460): its records entered, after a state in which it
has no other effect. -/
def keepReports (s s' : State) : State :=
  (s'.log.drop s.log.length).foldl (fun s r => report s r.kind r.func r.unit r.addr.toNat r.cls r.mnum r.core) s

/-- The DCOH's back-invalidation of a line the host holds, before a device write to it is performed (R443). -/
def backInvalidate (s : State) (pa : Nat) : State :=
  if s.hostHeld.contains (lineOf pa) then { s with hostHeld := s.hostHeld.filter (· ≠ lineOf pa) } else s

/-- The error of a line that is written whole ended, that of an engine's SRAM among them (R460, R476). -/
def healLine (s : State) (line : Nat) : State :=
  let s := { s with badLines := s.badLines.filter (· ≠ line) }
  match engineErrorAt s (64 * line) with
  | some d => modDie s d fun d => { d with engineBad := d.engineBad.filter (· ≠ line) }
  | none => s

/-- A device write of bytes within one line. A write of the whole line clears its error; a smaller one is merged into
the stored bits and leaves it (R443, R460). DEDUCED, log entry 13. -/
def memWrite (s : State) (pa : Nat) (bs : List Byte) : State :=
  let s := backInvalidate (wake s pa) pa
  let s := if bs.length = 64 && pa % 64 = 0 then healLine s (lineOf pa) else s
  { s with mem := bytesSet s.mem pa bs }

/-- A device write of the bytes named by a mask of one line (R149). -/
def memWriteMask (s : State) (line : Nat) (data : V512) (mask : BitVec 64) : State :=
  let s := backInvalidate (wake s (line * 64)) (line * 64)
  let m := (List.range 64).foldl (fun m i =>
    if mask.getLsbD i then byteSet m (line * 64 + i) (lane data 8 i) else m) s.mem
  { if mask = BitVec.allOnes 64 then healLine s line else s with mem := m }

/-- A device write of any number of bytes, line by line. -/
def memWriteAll (s : State) (pa : Nat) (bs : List Byte) : Nat → State
  | 0 => s
  | f + 1 =>
    if bs.isEmpty then s
    else
      let k := min bs.length (64 - pa % 64)
      memWriteAll (memWrite s pa (bs.take k)) (pa + k) (bs.drop k) f

/-- A device write of any number of bytes. -/
def memPut (s : State) (pa : Nat) (bs : List Byte) : State := memWriteAll s pa bs (bs.length + 1)

/-- A doubleword of memory as it stands. -/
def memWord (s : State) (pa : Nat) : W64 := wordOf (memRead s pa 8)

/-! ## Access tables (R427, R428) -/

/-- The permission an access needs (R428). -/
inductive Perm where
  | read
  | write
  | sync
  deriving DecidableEq, Repr

/-- The target that holds a physical address and the offset from its base (R427): 0 first tier, 1 second tier,
3 synchronisation engine, 4 CXL port, 5 Ethernet endpoint, each die × 8 on. The endpoint is the issuing die's. -/
def targetOf (pa : Nat) (p : Perm) (myDie : Nat) : Option (Nat × Nat) :=
  match placeOf pa with
  | .first d off => some (d * 8 + (if p = .sync then 3 else 0), off)
  | .second d off => some (d * 8 + (if p = .sync then 3 else 1), off)
  | .host off => some (4, off)
  | .peer n off => some (myDie * 8 + 5, n * 0x1000000000 + off)
  | .nowhere => none

/-- Whether one row of an access table admits an access (R427). -/
def rowAdmits (r : BitVec 128) (cls mnum : Nat) (p : Perm) (off : Nat) : Bool :=
  let w0 := r.extractLsb' 0 64
  let w1 := r.extractLsb' 64 64
  w0.getLsbD 63 && (match p with | .read => w0.getLsbD 62 | .write => w0.getLsbD 61 | .sync => w0.getLsbD 60) &&
  decide (bits w0 59 56 = cls) && decide (cls < 5) &&
  decide (bits w0 55 40 ≤ mnum) && decide (mnum ≤ bits w0 39 24) &&
  decide (bits w1 31 0 ≤ off / 0x200000) && decide (off / 0x200000 < bits w1 63 32)

/-- Whether a target's table admits an access at an offset. -/
def tableAdmits (s : State) (tgt off cls mnum : Nat) (p : Perm) : Bool :=
  s.access.any (fun e => decide (e.1 / 256 = tgt) && rowAdmits e.2 cls mnum p off)

/-- Whether memory admits an access of a master to a physical address (R417, R427, R462). -/
def admits (s : State) (cls mnum : Nat) (p : Perm) (pa : Nat) (myDie : Nat) : Bool :=
  match targetOf pa p myDie with
  | none => false
  | some (tgt, off) =>
    (served s pa || (match placeOf pa with | .peer _ _ => !(getDie s myDie).fenced | _ => false)) &&
    tableAdmits s tgt off cls mnum p

/-! ## Translation (R419 to R426) -/

/-- What an access is to the translation (R423). -/
inductive Acc where
  | load
  | store
  | fetch
  deriving DecidableEq, Repr

/-- A leaf with the bits below its page size (R421). -/
structure Leaf where
  entry : W64
  bits  : Nat
  deriving DecidableEq, Repr

def leafFmt (e : W64) : Nat := bits e 61 59
def leafWell (e : W64) : Bool := e.getLsbD 58
def leafW (e : W64) : Bool := e.getLsbD 57
def leafX (e : W64) : Bool := e.getLsbD 56
def leafAsid (e : W64) : Nat := bits e 15 0

/-- The physical address of a virtual address under a leaf (R421). -/
def leafPa (l : Leaf) (va : VA) : Nat := (bits l.entry 47 16) * 65536 + va.toNat % 2 ^ l.bits

/-- Whether a frame lies in a bank-block region (R418). -/
def inBankBlock (pa : Nat) : Bool :=
  match placeOf pa with
  | .first _ off => decide (bankBase ≤ off) && decide (Config.wb ≠ 0)
  | _ => false

/-- The bank of a frame of a bank-block region (R418): die and bank. -/
def bankOf (pa : Nat) : Option (Nat × Nat) :=
  match placeOf pa with
  | .first d off => if bankBase ≤ off then some (d, ((off - bankBase) / 0x200000) % 2048) else none
  | _ => none

/-- Whether a leaf entry read on a walk is well formed for its level and the accessing ASID (R422, R423). -/
def leafOk (e : W64) (bts : Nat) (asid : BitVec 16) : Bool :=
  decide (leafFmt e < 5) &&
  (if leafFmt e = 4 then decide (bits e 55 48 ≠ 0) else decide (bits e 55 48 = 0)) &&
  decide ((bits e 47 16 * 65536) % 2 ^ bts = 0) &&
  (!leafWell e || (decide (bts = 21) && decide (leafFmt e = 0) && inBankBlock (bits e 47 16 * 65536))) &&
  (decide (leafAsid e = asid.toNat) || decide (leafAsid e = 0xFFFF))

/-- The table a table entry names, when the entry is well formed (R421, R422). -/
def tableOf (e : W64) (align : Nat) : Option Nat :=
  let a := (bits e 47 16) * 65536 + (bits e 15 8) * 256
  if bits e 61 48 = 0 && bits e 7 0 = 0 && a % align = 0 &&
     (match placeOf a with | .first _ _ => true | .second _ _ => true | _ => false) then some a else none

/-- The end of a walk: the leaf, or a failure with the address of an entry that met an uncorrectable error. -/
inductive WalkEnd where
  | leaf (l : Leaf)
  | fail (bad : Option Nat)
  deriving DecidableEq, Repr

/-- The walk over the levels still to come (R421): each level's index shift, entry count, the leaf size of an entry
there (none where a leaf is malformed) and the alignment of the table below (none where there is none). -/
def walkLevels (s : State) (asid : BitVec 16) (va : VA) :
    List (Nat × Nat × Option Nat × Option Nat) → Nat → WalkEnd
  | [], _ => .fail none
  | (sh, cnt, leafBits, below) :: rest, table =>
    let ea := table + 8 * ((va.toNat >>> sh) % cnt)
    if badAt s ea then .fail (some ea)
    else
      let e := memWord s ea
      if !e.getLsbD 63 then .fail none
      else if e.getLsbD 62 then
        match leafBits with
        | some b => if leafOk e b asid then .leaf ⟨e, b⟩ else .fail none
        | none => .fail none
      else
        match below with
        | some al => match tableOf e al with
          | some t => walkLevels s asid va rest t
          | none => .fail none
        | none => .fail none

/-- The entries that such a walk reads, each once (R425). -/
def walkReads (s : State) (va : VA) : List (Nat × Nat × Option Nat × Option Nat) → Nat → List Nat
  | [], _ => []
  | (sh, cnt, _, below) :: rest, table =>
    let ea := table + 8 * ((va.toNat >>> sh) % cnt)
    let e := memWord s ea
    if badAt s ea || !e.getLsbD 63 || e.getLsbD 62 then [ea]
    else ea :: ((below.bind (tableOf e)).map (walkReads s va rest)).getD []

/-- The four levels of R421. -/
def levels : List (Nat × Nat × Option Nat × Option Nat) :=
  [(43, 8192, none, some 65536), (30, 8192, some 30, some 4096), (21, 512, some 21, some 256), (16, 32, some 16, none)]

/-- The walk of an address space (R420, R421). ASID 0xFFFF is not one (R419). -/
def walk (s : State) (asid : BitVec 16) (va : VA) : WalkEnd :=
  let r := tabGet 0 s.root asid.toNat
  let t := (bits r 47 16) * 65536
  if !r.getLsbD 63 || asid = 0xFFFF#16 then .fail none
  else match placeOf t with
    | .first _ _ => walkLevels s asid va levels t
    | .second _ _ => walkLevels s asid va levels t
    | _ => .fail none

/-- The channels that the reads of a walk arrive at woken, and used (R324, R465). -/
def walkWakes (s : State) (asid : BitVec 16) (va : VA) : State :=
  let r := tabGet 0 s.root asid.toNat
  if !r.getLsbD 63 || asid = 0xFFFF#16 then s
  else (walkReads s va levels ((bits r 47 16) * 65536)).foldl wake s

/-- Whether an entry translates an address of an address space (R424). -/
def TlbEntry.hits (e : TlbEntry) (asid : BitVec 16) (va : VA) : Bool :=
  decide (e.base = va.toNat / 2 ^ e.bits * 2 ^ e.bits) && (match e.asid with | none => true | some a => decide (a = asid))

/-- The entry of a page under a leaf (R424). -/
def tlbEntry (asid : BitVec 16) (va : VA) (l : Leaf) : TlbEntry :=
  ⟨va.toNat / 2 ^ l.bits * 2 ^ l.bits, l.bits, if leafAsid l.entry = 0xFFFF then none else some asid, l.entry⟩

/-- The leaf of a list of entries that translates an address (R424). -/
def leafIn (l : List TlbEntry) (asid : BitVec 16) (va : VA) : Option Leaf :=
  (l.find? (·.hits asid va)).map (fun e => ⟨e.leaf, e.bits⟩)

/-- The TLB entry of a cluster that translates an address (R424). -/
def tlbHit (c : Cluster) (asid : BitVec 16) (va : VA) : Option Leaf := leafIn c.tlb asid va

/-- The leaves that walks have given an instruction of a context while it waits for more (R424). -/
def leavesOf (c : Ctx) : List TlbEntry := match c.await with | some (.pages l) => l | _ => []

/-- The leaf by which an access of a context is translated: its cluster's TLB's, or that of a walk it has waited for (R424). -/
def leafAt (s : State) (core : Nat) (c : Ctx) (va : VA) : Option Leaf :=
  (tlbHit (getCluster s (clusterOf core)) c.asid va).or (leafIn (leavesOf c) c.asid va)

/-- A valid leaf installed in a cluster TLB of 1,024 entries (R400, R424); a full one gives up a free choice.
DESIGN CHOICE, log entry 18. -/
def tlbInstall (s : State) (cl : Nat) (asid : BitVec 16) (va : VA) (l : Leaf) : State :=
  let c := getCluster s cl
  let e := tlbEntry asid va l
  if c.tlb.contains e then s
  else if c.tlb.length < 1024 then setCluster s cl { c with tlb := c.tlb ++ [e] }
  else
    { setCluster s cl { c with tlb := c.tlb.eraseIdx (Config.tlbVictim s.tick % 1024) ++ [e] } with tick := s.tick + 1 }

/-- A walk's uncorrectable error is reported (R423). -/
def reportWalk (s : State) (bad : Option Nat) : State :=
  match bad with
  | some a => report s 2 1 (channelUnit s a) a 2 0 0
  | none => s

/-- The checks of the leaf that an access meets at each use (R53, R423). -/
def leafAllows (l : Leaf) (a : Acc) : Bool :=
  match a with
  | .load => true
  | .store => leafW l.entry
  | .fetch => leafX l.entry && decide (leafFmt l.entry = 0)

/-- Step 3 of R148 for the current context: the page's leaf. A miss waits for the walker (R424, R425); the failure
of the walk this context waited for faults. DEDUCED, log entry 17. -/
def leafFor (va : VA) (a : Acc) : M Leaf := do
  let s ← ask
  let c ← cur
  match leafAt s s.core c va with
  | some l =>
    trapIf (!leafAllows l a) 0x04 (va.setWidth 64)
    pure l
  | none =>
    if c.walkFail = some (va.toNat / 65536) then do
      modCur fun c => { c with walkFail := none }
      trapM 0x04 (va.setWidth 64)
    else throw (.wait (.walk va))

/-- Who a miss belongs to: a context, an engine of the cluster, or a PF, which wants a line filled (R158, R424). -/
inductive Missed where
  | ctx (core x : Nat)
  | engine (e : Engine)
  | fill
  deriving DecidableEq, Repr

/-- The misses a die's walker still owes a cluster (R424). -/
def missesOf (s : State) (cl : Nat) : List Walk := (getDie s (dieOfCluster cl)).walks.filter (·.clusters.contains cl)

/-- Whether a miss would be a cluster's seventeenth (R424): it is of no page that the cluster already misses on. -/
def walkFull (s : State) (cl : Nat) (asid : BitVec 16) (va : VA) : Bool :=
  let mine := missesOf s cl
  decide (16 ≤ mine.length) &&
    !(mine.any fun w => decide (w.asid = asid) && decide (w.va.toNat / 65536 = va.toNat / 65536) && !w.stale)

/-- A list with an element, once. -/
def withElem {α : Type} [DecidableEq α] (x : α) (l : List α) : List α := if l.contains x then l else l ++ [x]

/-- A miss joined to a walk in a cycle `t` (R424, R425); of the clusters whose misses arrived in its first cycle the lowest
stands first. -/
def Walk.join (w : Walk) (t cl : Nat) (va : VA) (m : Missed) : Walk :=
  let w := { w with clusters :=
    if t = w.came && decide (cl < w.clusters.headD cl) then cl :: w.clusters.filter (· ≠ cl) else withElem cl w.clusters }
  match m with
  | .ctx core x => { w with waiters := withElem (core, x) w.waiters }
  | .engine e => { w with engines := withElem (cl, e) w.engines }
  | .fill => { w with prefetch := w.prefetch ++ [(cl, va)] }

/-- A miss taken to the walker of the cluster's die (R424, R425): it joins the outstanding walk of its page, or adds one,
unless it would be the cluster's seventeenth. -/
def startWalk (s : State) (cl : Nat) (asid : BitVec 16) (va : VA) (m : Missed) : State :=
  let d := getDie s (dieOfCluster cl)
  let mine := fun (w : Walk) => decide (w.asid = asid) && decide (w.va.toNat / 65536 = va.toNat / 65536) && !w.stale
  if walkFull s cl asid va then s
  else if d.walks.any mine then
    setDie s (dieOfCluster cl) { d with walks := d.walks.map fun w => if mine w then w.join (now s) cl va m else w }
  else
    let w : Walk := Walk.join ⟨s.nextId, asid, va, now s, [], [], [], [], false⟩ (now s) cl va m
    let s := { setDie s (dieOfCluster cl) { d with walks := d.walks ++ [w] } with nextId := s.nextId + 1 }
    sometime s .tlbWalkComplete (.num (dieOfCluster cl) w.id 0)

/-- Where a walk stands in the order of arrival at its walker, lower cluster id first within a cycle (R425). -/
def Walk.before (v w : Walk) : Bool :=
  let key := fun (x : Walk) => x.came * 2048 + x.clusters.headD 0
  decide (key v < key w) || (decide (key v = key w) && decide (v.id < w.id))
/-- Whether a walk runs: at most 64 do, the earliest that have arrived (R425). -/
def Die.walkRuns (d : Die) (w : Walk) : Bool := decide ((d.walks.filter fun v => v.before w).length < 64)

/-- The result of a walk that an engine of a cluster has waited for, and has not taken yet (R424): the leaf, or none. -/
def missTaken (c : Cluster) (e : Engine) (asid : BitVec 16) (va : VA) : Option (Option Leaf) :=
  (c.misses.find? fun m => decide (m.1 = e) && decide (m.2.1 = asid) && decide (m.2.2.1 = va.toNat / 65536)).map fun m =>
    m.2.2.2.map fun t => ⟨t.leaf, t.bits⟩

/-- The translation an engine of a cluster makes for itself (R419, R424): the result of the walk it missed on; or the leaf of
its TLB; or nothing yet, while it waits for a walk. A result is taken once. -/
def engineLeaf (s : State) (cl : Nat) (e : Engine) (asid : BitVec 16) (va : VA) : Option (Option Leaf) × State :=
  let c := getCluster s cl
  match missTaken c e asid va with
  | some r => (some r, setCluster s cl { c with
      misses := c.misses.filter fun m => !(decide (m.1 = e) && decide (m.2.1 = asid) && decide (m.2.2.1 = va.toNat / 65536)) })
  | none => ((tlbHit c asid va).map some, s)

/-- What an access keeps of its leaf (R426). -/
def tagOf (l : Leaf) : LeafTag := ⟨BitVec.ofNat 16 (leafAsid l.entry), l.bits⟩

/-- What an access keeps of the leaf by which its context translates an address (R426). -/
def pageTag (s : State) (core : Nat) (c : Ctx) (va : VA) : LeafTag :=
  ((leafAt s core c va).map tagOf).getD ⟨c.asid, 16⟩

/-- The same in a meaning, which waits for the walk. -/
def engineWait (cl : Nat) (e : Engine) (asid : BitVec 16) (va : VA) : M (Option Leaf) := fun s =>
  match engineLeaf s cl e asid va with
  | (some r, s) => .ok r s
  | (none, s) => .error (.wait (.miss cl e asid va)) s

/-- The part of some engines in walks given up: the access that missed is not made again for certain (R400, R424). -/
def forgetEngines (s : State) (p : Engine → Bool) : State :=
  let s := if s.dies.any fun d => d.2.walks.any fun w => w.engines.any fun e => p e.2 then
      { s with dies := s.dies.map fun d => (d.1, { d.2 with walks := d.2.walks.map fun w =>
          { w with engines := w.engines.filter fun e => !p e.2 } }) }
    else s
  if s.clusters.any fun c => c.2.misses.any fun m => p m.1 then
    { s with clusters := s.clusters.map fun c => (c.1, { c.2 with misses := c.2.misses.filter fun m => !p m.1 }) }
  else s

/-- The user that an instruction's context is to a queue engine. -/
def queueUser (core x : Nat) : Nat := 8 * core + x + 1

/-- A context's part in walks given up, and that of queue engines for it: the access that missed is not made again
for certain (R148, R400). -/
def forgetMiss (s : State) (core x : Nat) : State :=
  let d := getDie s (dieOf core)
  let s := if d.walks.any (·.waiters.contains (core, x)) then
      setDie s (dieOf core) { d with walks := d.walks.map fun w =>
        { w with waiters := w.waiters.filter fun p => !(p = (core, x)) } }
    else s
  let s := forgetEngines s fun e => match e with | .queue _ u => decide (u = queueUser core x) | _ => false
  modCtx s core x fun c => { c with walkFail := none }

/-! ## The cluster data cache (R149, R330, R460) -/

/-- The dirty bytes of a line of a cluster's cache written to memory (R149), as an access of the context that stored them
(R428); a refused one is dropped and reported with its master and address (R429), a failed line is never written back
(R460). DEDUCED, log entry 61. -/
def writeBack (cl : Nat) (s : State) (l : Line) : State :=
  if l.failed || l.dirty = 0#64 then s
  else if admits s 0 l.owner.toNat .write (l.line * 64) (dieOfCluster cl) then
    memWriteMask (wakeFrom s (dieOfCluster cl) (l.line * 64)) l.line l.data l.dirty
  else report s 3 6 cl (l.line * 64) 0 l.owner.toNat (8 * cl)

/-- Whether a line may stay in its set: at most 15 others there (R330). -/
def setCount (c : Cluster) (line : Nat) : Nat := (c.cache.filter (fun l => l.line % 256 = line % 256)).length

/-- The least recently used line of a set: the last of the list in that set. -/
def lruOf (c : Cluster) (line : Nat) : Option Line := (c.cache.filter (fun l => l.line % 256 = line % 256)).getLast?

/-- A line evicted from a cluster's cache, its dirty bytes written back (R330). -/
def evict (s : State) (cl line : Nat) : State :=
  let c := getCluster s cl
  match c.cache.find? (·.line = line) with
  | none => s
  | some l => writeBack cl (setCluster s cl { c with cache := c.cache.filter (·.line ≠ line) }) l

/-- A line placed as the most recently used, evicting the least recently used of a full set. -/
def cacheInsert (s : State) (cl : Nat) (l : Line) : State :=
  let c := getCluster s cl
  let s := if c.cache.any (·.line = l.line) || setCount c l.line < 16 then s
    else match lruOf c l.line with
      | some v => evict s cl v.line
      | none => s
  modCluster s cl fun c => { c with cache := l :: c.cache.filter (·.line ≠ l.line) }

/-- A line of memory as a fill takes it. -/
def fillLine (s : State) (pa : Nat) : Line :=
  ⟨lineOf pa, vecOf (memRead s (lineOf pa * 64) 64), BitVec.allOnes 64, 0, false, 0⟩

/-- A line's unknown bytes taken from memory. -/
def completeLine (s : State) (l : Line) : Line :=
  { l with
    known := BitVec.allOnes 64
    data := (List.range 64).foldl (fun d i =>
      if l.known.getLsbD i then d else setLane d 8 i (byteGet s.mem (l.line * 64 + i))) l.data }

/-- The bits of the `n` bytes from a physical address on in its line. -/
def spanMask (pa n : Nat) : BitVec 64 := BitVec.ofNat 64 ((2 ^ n - 1) <<< (pa % 64))

/-- `n` bytes of one line read through a cluster's cache, which fills on a miss (R149). An uncorrectable error of the
line or of the fill is none, and is reported (R460). A host line's fill takes a shared copy from the host (R444). -/
def cacheRead (s : State) (cl pa n : Nat) : Option (List Byte) × State :=
  let take := fun (l : Line) => (List.range n).map fun i => lane l.data 8 (pa % 64 + i)
  match (getCluster s cl).cache.find? (·.line = lineOf pa) with
  | some l =>
    if l.failed then (none, report s 2 6 cl (lineOf pa * 64) 0 (getCtx s s.core s.ctx).asid.toNat s.core)
    else if l.known &&& spanMask pa n = spanMask pa n then (some (take l), cacheInsert s cl l)
    else if badAt s pa then (none, report s 2 1 (channelUnit s pa) (lineOf pa * 64) 0 (getCtx s s.core s.ctx).asid.toNat s.core)
    else (some (take (completeLine s l)), cacheInsert (wakeFrom s (dieOfCluster cl) pa) cl (completeLine s l))
  | none =>
    if badAt s pa then (none, report s 2 1 (channelUnit s pa) (lineOf pa * 64) 0 (getCtx s s.core s.ctx).asid.toNat s.core)
    else (some (take (fillLine s pa)), cacheInsert (wakeFrom s (dieOfCluster cl) pa) cl (fillLine s pa))

/-- Bytes of one line stored through a cluster's cache: the line is allocated and only those bytes become dirty (R149).
A failed line refuses the store (R460). A line that the store allocates is filled from memory, but over an error of memory it
holds only what is stored: R149 leaves both open (DESIGN CHOICE, log entry 81). -/
def cacheWrite (s : State) (cl pa : Nat) (bs : List Byte) : Option Unit × State :=
  let put := fun (l : Line) =>
    { l with
      data := bs.zipIdx.foldl (fun d b => setLane d 8 (pa % 64 + b.2) b.1) l.data
      known := l.known ||| spanMask pa bs.length
      dirty := l.dirty ||| spanMask pa bs.length
      owner := (getCtx s s.core s.ctx).asid }
  match (getCluster s cl).cache.find? (·.line = lineOf pa) with
  | some l =>
    if l.failed then (none, report s 2 6 cl (lineOf pa * 64) 0 (getCtx s s.core s.ctx).asid.toNat s.core)
    else (some (), cacheInsert s cl (put l))
  | none =>
    if badAt s pa then (some (), cacheInsert s cl (put ⟨lineOf pa, 0, 0, 0, false, 0⟩))
    else (some (), cacheInsert (wakeFrom s (dieOfCluster cl) pa) cl (put (fillLine s pa)))

/-- The lines of a cluster that satisfy a test written back, staying cached and clean. -/
def cleanLines (s : State) (cl : Nat) (p : Nat → Bool) : State :=
  let ls := (getCluster s cl).cache.filter (fun l => p l.line)
  let s := ls.foldl (writeBack cl) s
  modCluster s cl fun c => { c with
   cache := c.cache.map fun l =>
    if p l.line && !l.failed then { l with dirty := 0 } else l }

/-- The clean lines of a cluster that satisfy a test discarded; a failed line is dropped too (R460). -/
def dropLines (s : State) (cl : Nat) (p : Nat → Bool) : State :=
  modCluster s cl fun c => { c with cache := c.cache.filter fun l => !(p l.line && (l.dirty = 0#64 || l.failed)) }

/-! ## Trace rings, powering banks -/

/-- A remote store entered in a core's trace ring when it is served (R50). -/
def trace (s : State) (target src : Nat) (inS : Bool) (off : Nat) : State :=
  modCore s target fun c => { c with
    trc := tabPut c.trc c.trcIdx.toNat
      (at64 src 44 ||| at64 (if inS then 2 else 1) 42 ||| at64 (off % 65536) 24 ||| at64 (now s % 16777216) 0)
    trcIdx := c.trcIdx + 1 }

/-- The banks of a core powered up, which takes 64 cycles: every byte zero and every full-empty bit full, unless they were
powered (R31, R376). -/
def powerUp (s : State) (core : Nat) : State :=
  modCore s core fun c => if c.powered then c else
    { c with powered := true, upAt := now s + 64, a := [], c := [], s := [], emptyA := [], emptyS := [], badA := [], badC := [], badS := [] }

/-- The launch a core is bound to, as its handler context holds it from the core's first bind to that launch on (R411):
domain, rank, address space. -/
def coreLaunch (s : State) (core : Nat) : Ctx := getCtx s core 4

/-- The launch that a domain runs (R409). -/
def launchOf (s : State) (dom : BitVec 12) : Option Launch :=
  s.launches.find? fun l => decide (l.dom = dom) && decide (l.phase ≠ .waiting) && decide (l.phase ≠ .done)

/-- Whether a core belongs to a domain (R6): one of its contexts is bound to the domain's launch, or every one is saved while
the launch, which is not pre-empted as a whole, still holds the core's cluster. -/
def inDomain (s : State) (core : Nat) (dom : BitVec 12) : Bool :=
  ((List.range 4).any fun x => let c := getCtx s core x; c.bound && decide (c.dom = dom)) ||
  (decide ((coreLaunch s core).dom = dom) &&
    (launchOf s dom).any fun l => decide (l.phase ≠ .preempted) && l.clusters.contains (clusterOf core))

/-! ## A context named by engine work, resident or saved (R435, R436) -/

/-- Whether the context a piece of work belongs to is resident with the same instance. -/
def resident (s : State) (w : Who) : Bool :=
  let c := getCtx s w.core.toNat w.ctx.toNat
  decide (c.inst = w.inst) && (c.bound || w.ctx = 4#3)

/-- The directory's entry whose image holds the barriers that a saved context belongs to: that of its core and launch with
BARM set (R371). -/
def barsOf (s : State) (e : Saved) : Option Saved :=
  (getDie s (dieOf e.core)).dir.find? fun o => decide (o.core = e.core) && decide (o.ctxt.dom = e.ctxt.dom) && o.barm

/-- The barriers a saved context's ENROL and PEND bits stand in: those moved into an image of its core and launch, else the
core's own file while the core is bound to its launch (R371). -/
def savedBars (s : State) (e : Saved) : Tab Barrier :=
  match barsOf s e with
  | some o => o.bars
  | none => if (coreLaunch s e.core).dom = e.ctxt.dom then (getCore s e.core).bars else []

/-- The parts of an image that hold a saved context, by offset, beside its opaque regions (R431); parked registers are not in
it. -/
def savedParts (s : State) (e : Saved) : List (Nat × List Byte) :=
  (if e.parked then [] else [(0x40, regBytes e.ctxt)]) ++ imageParts e.ctxt e.ctx (savedBars s e)

/-- The doublewords of a part that differ from those it held before. -/
def changedWords : Nat → Nat → List Byte → List Byte → List (Nat × List Byte)
  | 0, _, _, _ => []
  | f + 1, off, old, new =>
    if new.isEmpty then []
    else
      (if old.take 8 = new.take 8 then [] else [(off, new.take 8)]) ++ changedWords f (off + 8) (old.drop 8) (new.drop 8)

/-- What an arrival has changed of a saved context written into its image, and nothing else of it (R436): `old` are the parts
that it held before. -/
def refreshImage (s : State) (e : Saved) (old : List (Nat × List Byte)) : State :=
  ((old.zip (savedParts s e)).flatMap fun p => changedWords (p.2.2.length + 1) p.2.1 p.1.2 p.2.2).foldl
    (fun s p => memPut s (e.image + p.1) p.2) s

/-- The header of an image written (R432): an ERR that a refused operation set stays. -/
def putHeader (s : State) (e : Saved) : State :=
  memPut s e.image (wordBytes (headerWords e true e.killed ((memWord s (e.image + 8)).getLsbD 61)))

/-- The directory entry of a saved context that a piece of work belongs to (R436). -/
def savedOf (s : State) (w : Who) : Option Saved :=
  (getDie s (dieOf w.core.toNat)).dir.find? fun e =>
    decide (e.core = w.core.toNat) && decide (e.ctx = w.ctx.toNat) && decide (e.inst = w.inst)

/-- A directory entry replaced, and what changes of its image with it. -/
def putSaved (s : State) (e : Saved) : State :=
  let it := fun (o : Saved) => decide (o.core = e.core) && decide (o.ctx = e.ctx) && decide (o.inst = e.inst)
  let old := (((getDie s (dieOf e.core)).dir.find? it).map (savedParts s)).getD []
  refreshImage (modDie s (dieOf e.core) fun d => { d with dir := d.dir.map fun o => if it o then e else o }) e old

/-- A directory entry whose image takes the core's barriers (R371, R431): BARM is set and the opaque region written. -/
def putBarm (s : State) (e : Saved) : State :=
  let s := putHeader (putSaved s e) e
  memPut { s with tick := s.tick + 1 } (e.image + 0x4000) (((Config.freeBytes s.tick 0) ++ List.replicate 8192 0).take 8192)

/-- A reply delivered to the context it belongs to: in its core while it is resident, else to its saved state by the
directory of its die (R435, R436); a killed or reset context's replies are discarded (R438). DEDUCED, log entry 35. -/
def deliver (s : State) (w : Who) (f : Ctx → Ctx) : State :=
  if resident s w then modCtx s w.core.toNat w.ctx.toNat f
  else match savedOf s w with
    | some e => putSaved s { e with ctxt := f e.ctxt }
    | none => s

/-- Landed bytes counted into a completion counter (R35). -/
def countDone (n : Nat) (cc : BitVec 4) (c : Ctx) : Ctx :=
  let k := c.cc[cc.toNat]'(cc.isLt)
  { c with cc := c.cc.set cc.toNat { k with done := k.done + BitVec.ofNat 32 n } cc.isLt }

/-- Bytes posted to a completion counter of the current context; the issue waits while they would put EXPECT − DONE
above 2^31 (R35, R323). -/
def post (n : Nat) (cc : BitVec 4) : M Unit := do
  let c ← cur
  let k := c.cc[cc.toNat]'(cc.isLt)
  waitUntil (decide ((k.expect + BitVec.ofNat 32 n - k.done).toNat ≤ 2 ^ 31))
  modCur fun c => { c with cc := c.cc.set cc.toNat { k with expect := k.expect + BitVec.ofNat 32 n } cc.isLt }

/-! ## The combining buffer (R282) -/

/-- The events at the engines of one word that a later one of the same cluster must follow (R280). -/
def wordEvents (cl pa : Nat) (d : Due) : Bool :=
  match d.arg with
  | .amo r _ => d.ev = .amoApply && decide (r.pa = pa) && decide (clusterOf r.who.core.toNat = cl)
  | .red r => decide (r.pa = pa) && decide (r.cluster = cl)
  | _ => false

/-- The entries of a cluster's combining buffer that satisfy a test, each sent to its engine as one term (R282). -/
def flushComb (s : State) (cl : Nat) (p : Comb → Bool) : State :=
  let c := getCluster s cl
  let s := setCluster s cl { c with comb := c.comb.filter (fun e => !p e) }
  (c.comb.filter p).foldl (fun s e =>
    laterAfter s .reductionApply (.red ⟨e.whos, e.vas, cl, e.fn, e.pa, e.val⟩) (wordEvents cl e.pa)) s

/-! ## Groups (R251, R252) -/

/-- The configuration word of a group that has a tree in a domain (R251). -/
def groupWord (s : State) (dom : BitVec 12) (grp : BitVec 6) : Option W64 :=
  match launchOf s dom with
  | none => none
  | some l => (l.groups.find? (·.1 = grp.toNat)).map (·.2)

/-- Whether a round is a group's. -/
def Round.of (r : Round) (dom : BitVec 12) (grp : BitVec 6) : Bool := decide (r.dom = dom) && decide (r.grp = grp)

/-- The round of a group as it stands. -/
def groupRound (s : State) (dom : BitVec 12) (grp : BitVec 6) : Round :=
  (s.rounds.find? (·.of dom grp)).getD ⟨dom, grp, [], [], [], 0⟩

/-- A group's round replaced; an empty one is not kept. -/
def putRound (s : State) (r : Round) : State :=
  let rest := s.rounds.filter (fun q => !q.of r.dom r.grp)
  { s with rounds := if r.vals.isEmpty && r.setting = 0 then rest else r :: rest }

/-- Whether a core has contributed to a group's round (R252). -/
def contributed (s : State) (dom : BitVec 12) (grp : BitVec 6) (core : Nat) : Bool :=
  (groupRound s dom grp).vals.any (·.1 = core)

/-- A core's contribution to a round (R252, R293): a value with the context that is to have the result, or a barrier
that waits for its release. The last one lets the root complete the round. -/
def contribute (s : State) (dom : BitVec 12) (grp : BitVec 6) (core : Nat) (val : Option (W64 × Who)) (bar : Option Nat) :
    State :=
  let r := groupRound s dom grp
  let r := { r with
    vals := r.vals ++ [(core, val.map (·.1))]
    whos := r.whos ++ (val.map (·.2)).toList
    greln := r.greln ++ (bar.map fun b => (core, b)).toList }
  let s := putRound s r
  match launchOf s dom with
  | some l =>
    if r.vals.length = 8 * l.clusters.length then sometime s .groupRoundComplete (.num dom.toNat grp.toNat 0) else s
  | none => s

/-! ## Barriers, objects and ring slots of a context that ends (R291, R287, R306) -/

/-- A phase completes when enough arrivals are counted: its arrivals and pending bits are cleared, and the drops that
waited for it take effect, and one that leaves nobody to expect has it uninitialised (R290, R291). A phase under a group waits for its round (R293). -/
def phaseEnd (b : Barrier) : Barrier :=
  if b.expect.toNat ≤ b.drops.toNat then Barrier.reset
  else { b with arrived := 0, pend := 0, group := none, expect := b.expect - b.drops, drops := 0, gone := false }

/-- A barrier after an arrival or a drop: complete it when ARRIVED ≥ EXPECT and it has no group. -/
def phaseCheck (b : Barrier) : Barrier :=
  if b.init && b.group.isNone && decide (b.expect.toNat ≤ b.arrived.toNat) then phaseEnd b else b

/-- A context dropped from a barrier in which it is enrolled (R291). -/
def barDrop (x : Nat) (b : Barrier) : Barrier :=
  if !(b.init && b.enrol.getLsbD x) then b
  else
    let b := { b with enrol := b.enrol &&& ~~~ (BitVec.ofNat 4 (2 ^ x)) }
    if b.pend.getLsbD x then { b with drops := b.drops + 1 }
    else
      let b := { b with expect := b.expect - 1 }
      if b.expect = 0#16 then Barrier.reset else phaseCheck b

/-- The barriers of a core whose phase under a group has all its arrivals contribute to the group's round, each once, as
long as the core has not contributed to it yet (R293). -/
def settleBars (s : State) (core : Nat) : State :=
  (getCore s core).bars.foldl (fun s p =>
    let b := tabGet Barrier.reset (getCore s core).bars p.1
    let dom := (coreLaunch s core).dom
    match b.group with
    | some g =>
      if b.init && !b.gone && decide (b.expect.toNat ≤ b.arrived.toNat) && !contributed s dom g core then
        contribute (modCore s core fun c => { c with bars := tabPut c.bars p.1 { b with gone := true } })
          dom g core none (some p.1)
      else s
    | none => s) s

/-- The barriers moved into an image whose phase under a group has all its arrivals contribute to the group's round, as those
of a core do (R293, R371). -/
def settleMoved (s : State) (e : Saved) : State :=
  (e.bars.foldl (fun q p =>
    match p.2.group with
    | some g =>
      if p.2.init && !p.2.gone && decide (p.2.expect.toNat ≤ p.2.arrived.toNat) && !contributed q.1 e.ctxt.dom g e.core then
        let e' := { q.2 with bars := tabPut q.2.bars p.1 { p.2 with gone := true } }
        (contribute (putSaved q.1 e') e.ctxt.dom g e.core none (some p.1), e')
      else q
    | none => q) (s, e)).1

/-- Every enrolment of a context of a core ended (R291, R370). -/
def dropAll (s : State) (core x : Nat) : State :=
  settleBars (modCore s core fun c => { c with bars := c.bars.map fun p => (p.1, barDrop x p.2) }) core

/-- An object's word with its DEAD bit set and a holder's hold ended, as the management core of the holder's die leaves it when
the holder is killed (R287): a write in class 2, reported when it is refused (R428; log entry 82). -/
def objectDead (s : State) (die : Nat) (asid : BitVec 16) (obj : W64) : State :=
  match walk s asid (obj.setWidth 56) with
  | .fail bad => reportWalk (walkWakes s asid (obj.setWidth 56)) bad
  | .leaf l =>
    let pa := leafPa l (obj.setWidth 56)
    let s := walkWakes s asid (obj.setWidth 56)
    if !admits s 2 die .write pa die then report s 3 5 die pa 2 die 0 else
    let w := memWord s pa
    let w := if w.getLsbD 63 then putBits w 63 63 0 else putBits w 15 0 (bits w 15 0 - 1)
    let s := memPut s pa (toBytes 8 (putBits w 62 62 1).toNat)
    later s 0 .acqGrant (.num pa 0 0)

/-- A slot freed: boardable after its next passage of the origin (R303, R304). -/
def freeSlot (s : State) (name : Nat) : State :=
  { s with ring := tabPut s.ring name { RingSlot.reset with passed := false } }

/-- A slot alighted by the management core of a die: its payload goes to its recorded address, unless that lies in fenced
memory or is refused to it in class 2, which is reported; the slot is freed (R306, R385, R428). DEDUCED, log entry 46. -/
def alightSlot (s : State) (die name : Nat) : State :=
  let r := tabGet RingSlot.reset s.ring name
  freeSlot (if !served s r.addr then s
    else if admits s 2 die .write r.addr die then memPut s r.addr (vecBytes r.payload)
    else report s 3 5 die r.addr 2 die 0) name

/-- The boarded slots that satisfy a test alighted by the management cores of their stations' dies (R306, R382). -/
def alightIf (s : State) (p : RingSlot → Bool) : State :=
  (s.ring.filter fun r => decide (r.2.tag ≠ 0) && p r.2).foldl
    (fun s r => alightSlot s (dieOfCluster r.2.owner.toNat) r.1) s

/-- The slots of the ring that a context boarded alighted when it is destroyed (R306, R382). -/
def alightAll (s : State) (core x : Nat) (inst : BitVec 16) : State :=
  alightIf s fun r => r.who.any fun w =>
    decide (w.core.toNat = core) && decide (w.ctx.toNat = x) && decide (w.inst = inst)

/-- The slots of a destroyed context alighted (R306, R382); those of a bypassed die's station wait for the origin (R386). -/
def destroyBoarder (s : State) (core x : Nat) (inst : BitVec 16) : State :=
  if (getDie s (dieOf core)).bypassed then s else alightAll s core x inst

/-! ## Freeing and killing contexts (R31, R47, R313, R438) -/

/-- A core's dispatch asked to look for work in this cycle (R364). -/
def dispatch (s : State) (core : Nat) : State := later s 0 .contextDispatch (.num core 0 0)

/-- A core's steal sequence ended when no context of the core is free any more (R365). -/
def endSteals (s : State) (core : Nat) : State :=
  let c := getCore s core
  if c.steal.isSome && !((List.range 4).any fun x => let k := coreCtx c x; k.run = .free && k.bound) then
    setCore s core { c with steal := none }
  else s

/-- The strand's state cleared as a pickup or a reset clears it: every file of R19 but the enrolments, the status
words and the trap state (R19, R22). -/
def clearStrand (c : Ctx) : Ctx :=
  { Ctx.reset with
    run := c.run, bound := c.bound, inst := c.inst, dom := c.dom, clcount := c.clcount, rank := c.rank, ltag := c.ltag,
    asid := c.asid, prio := c.prio, lpb := c.lpb, wmap := c.wmap, sends := c.sends, pending := c.pending, trapVec := 0 }

/-- The issues of CP.GATH that a context of an instance leaves unfinished for good: their jobs complete with the rows they
hold (R238, R438). -/
def endGather (s : State) (core x : Nat) (inst : BitVec 16) : State :=
  let mine := fun (j : Job) => j.issuing && decide (j.who.core.toNat = core) && decide (j.who.ctx.toNat = x) &&
    decide (j.who.inst = inst)
  let cl := clusterOf core
  let s := ((getCluster s cl).jobs.filter mine).foldl
    (fun s j => later s 0 .copyPageTranslate (.num cl j.seq 0)) s
  if (getCluster s cl).jobs.any mine then
    modCluster s cl fun c => { c with jobs := c.jobs.map fun j => if mine j then { j with issuing := false } else j }
  else s

/-- A context freed at HALT: trap mode clear, walkers closed, its core asked for work and for a handler that waited for
a gang's end (R24, R254, R313, R373); a walk it missed on no longer concerns it. -/
def freeCtx (s : State) (core x : Nat) : State :=
  let s := if (getCore s core).mail.isEmpty then s else later s 0 .handlerStart (.num core 0 0)
  let s := forgetMiss (endGather s core x (getCtx s core x).inst) core x
  dispatch (modCtx s core x fun c => { c with
    run := .free, trapMode := false, gangSize := 0, gangIdx := 0, waitSince := none, await := none, midway := false
    leaving := false, locks := [], walkers := Vector.replicate 2 Walker.reset }) core

/-- The followers of the gang that a context leads: core and context of each, by member index. -/
def followers (s : State) (core x : Nat) : List (Nat × Nat) :=
  let l := getCtx s core x
  if l.gangSize = 0 || l.gangIdx ≠ 0 then []
  else (List.range (2 ^ l.gangSize.toNat - 1)).filterMap fun j =>
    (List.range 4).findSome? fun y =>
      let f := getCtx s (core + j + 1) y
      if f.run = .follower && f.gangLead.toNat = x && f.gangIdx.toNat = j + 1 then some (core + j + 1, y) else none

/-- A gang's end: its leader an ordinary context, its followers on their way out: each is freed as at HALT, once its own
work has completed (R23, R186, R197, R370). DEDUCED, log entry 25. -/
def endGang (s : State) (core x : Nat) : State :=
  let s := (followers s core x).foldl (fun s p => modCtx s p.1 p.2 fun c =>
    { c with run := .running, leaving := true, gangSize := 0, gangIdx := 0 }) s
  modCtx s core x fun c => { c with gangSize := 0, gangIdx := 0 }

/-- The first kill of a launch, as its completion record reports it (R375, R414): the launch of a domain. -/
def noteKill (s : State) (dom : BitVec 12) (cause : BitVec 8) (core x : Nat) (join : W64) : State :=
  { s with launches := s.launches.map fun l =>
      if l.dom = dom && l.kill.isNone && l.phase ≠ .waiting && l.phase ≠ .done
      then { l with kill := some (cause, core, x, join) } else l }

/-- Whether a cluster's special-function queue has no room for `n` more entries: 32 that the unit has not taken (R226). -/
def sfuFull (s : State) (cl n : Nat) : Bool :=
  decide (32 < ((getCluster s cl).sfu.filter fun e => decide (now s < e.start)).length + n)

/-- A special-function instruction entered in its cluster's queue: one is taken every 4 cluster cycles and is served 20
cycles later (R226). -/
def pushSfu (s : State) (e : SfuEntry) : State :=
  let cl := clusterOf e.who.core.toNat
  let start := max (afterFrom s cl (now s) 1) (getCluster s cl).sfuNext
  let e := { e with id := s.nextId, start := start }
  let s := modCluster s cl fun c => { c with sfu := c.sfu ++ [e], sfuNext := afterFrom s cl start 4 }
  later { s with nextId := s.nextId + 1 } (afterFrom s cl start 20 - now s) .sfuServe (.num cl e.id 0)

/-- The entries that the special-function unit has still to take moved up, the first to a cycle `t` at the earliest, and the
cycle in which it can take another (R226). -/
def moveUp (s : State) (cl : Nat) : Nat → List SfuEntry → List SfuEntry × Nat
  | t, [] => ([], t)
  | t, e :: es =>
    let e := { e with start := min e.start t }
    let (es, t) := moveUp s cl (afterFrom s cl e.start 4) es
    (e :: es, t)

/-- The service of an entry that has moved up comes 20 of the cluster's cycles after its new start (R226). -/
def sfuMoved (s : State) (cl : Nat) (moved : List SfuEntry) (d : Due) : Due :=
  match d.arg with
  | .num c id 0 =>
    match moved.find? (·.id = id) with
    | some e => if d.ev = .sfuServe && c = cl then { d with at_ := afterFrom s cl e.start 20 } else d
    | none => d
  | _ => d

/-- A context's special-function entries taken out of the cluster's queue; those behind move up (R226). -/
def takeSfu (s : State) (core x : Nat) : List SfuEntry × State :=
  let mine := fun (e : SfuEntry) => decide (e.who.core.toNat = core) && decide (e.who.ctx.toNat = x)
  let cl := clusterOf core
  let c := getCluster s cl
  if !c.sfu.any mine then ([], s) else
  let begun := c.sfu.filter fun e => decide (e.start ≤ now s)
  let t := begun.foldl (fun t e => max t (afterFrom s cl e.start 4)) (afterFrom s cl (now s) 1)
  let (rest, next) := moveUp s cl t (c.sfu.filter fun e => decide (now s < e.start) && !mine e)
  let s := setCluster s cl { c with sfu := begun.filter (fun e => !mine e) ++ rest, sfuNext := next }
  (c.sfu.filter mine, { s with agenda := s.agenda.map (sfuMoved s cl rest) })

/-- The next instance tag that none of a list of used ones is; `n` bounds the search. -/
def skipInst (used : List (BitVec 16)) : Nat → BitVec 16 → BitVec 16
  | 0, i => i
  | n + 1, i => if used.contains i then skipInst used n (i + 1) else i

/-- The instance tag after another of a slot: it skips those that the directory holds for the slot (R436).
DEDUCED, log entry 57. -/
def nextInst (s : State) (core x : Nat) (old : BitVec 16) : BitVec 16 :=
  let used := ((getDie s (dieOf core)).dir.filter fun e => e.core = core && e.ctx = x).map (·.inst)
  skipInst used used.length (old + 1)

/-- What a killed context waited for at the home engines withdrawn (R438): its requests, each leaving its word to the next
one in line (R285), and the release of a REL that has not come about, which its held objects' release takes the place of. -/
def withdraw (s : State) (core x : Nat) (inst : BitVec 16) : State :=
  let mine := fun (w : Who) => decide (w.core.toNat = core) && decide (w.ctx.toNat = x) && decide (w.inst = inst)
  let gone := s.acqs.filter fun a => mine a.who
  let s := { s with
    acqs := s.acqs.filter fun a => !mine a.who
    agenda := s.agenda.filter fun d => !(d.ev = .objectRelease && (match d.arg with | .who w _ _ => mine w | _ => false)) }
  gone.foldl (fun s a => later s 0 .acqGrant (.num a.pa 0 0)) s

/-- A context killed (R47, R319, R438): its gang ends, its arrivals drop, its objects are released dead, its slots
alight, its walkers close, its special-function work is discarded, its instance tag moves on so that later replies
are discarded, and the launch and the management core learn of it. A killed handler frees its mailbox row. -/
def killCtx (s : State) (core x : Nat) (cause : BitVec 8) : State :=
  let c := getCtx s core x
  if x = 4 then
    let s := noteKill s c.dom cause core 4 0
    let s := modCore s core fun k => { k with mail := k.mail.filter (·.row ≠ c.mailRow) }
    let s := forgetMiss (takeSfu s core 4).2 core 4
    dispatch (later (modCtx s core 4 fun c => { c with
      run := .free, trapMode := false, locks := [], midway := false, replay := [], inst := c.inst + 1 }) 0
      .handlerStart (.num core 0 0)) core
  else
    let s := endGang s core x
    let s := dropAll s core x
    let s := withdraw s core x c.inst
    let s := c.held.foldl (fun s o => objectDead s (dieOf core) c.asid o) s
    let s := destroyBoarder s core x c.inst
    let s := (takeSfu s core x).2
    let s := endGather s core x c.inst
    let s := noteKill s c.dom cause core x c.joinPtr
    freeCtx (modCtx s core x fun c => { c with
      inst := nextInst s core x c.inst, held := [], pending := [], replay := [], tqOut := 0, scans := [] }) core x

/-- A saved context killed (R438): KILLED is set and its entry removed; its arrivals drop, its objects are released dead,
its slots alight, its work is discarded, the tag of a slot that bears its own still moves on, and the kill is reported. The core's barriers, when its image holds them, pass to
another image of the core and launch (R371). -/
def killSaved (s : State) (e : Saved) (cause : BitVec 8) : State :=
  let die := dieOf e.core
  let s := putHeader s { e with killed := true }
  let s := modDie s die fun d => { d with dir := d.dir.filter fun o => !(o.image = e.image && o.inst = e.inst) }
  let s := modCore s e.core fun c => { c with parked := c.parked.filter fun p => !(p.ctx = e.ctx && p.inst = e.inst) }
  let s := match barsOf s e with
    | some o =>
      let o := { o with bars := o.bars.map fun p => (p.1, barDrop e.ctx p.2) }
      settleMoved (putSaved s o) o
    | none =>
      if e.barm then
        match (getDie s die).dir.find? fun o => o.core = e.core && o.ctxt.dom = e.ctxt.dom with
        | some o =>
          let o := { o with barm := true, bars := e.bars.map fun p => (p.1, barDrop e.ctx p.2) }
          settleMoved (putBarm s o) o
        | none => s
      else dropAll s e.core e.ctx
  let s := withdraw s e.core e.ctx e.inst
  let s := e.ctxt.held.foldl (fun s o => objectDead s die e.ctxt.asid o) s
  let s := destroyBoarder s e.core e.ctx e.inst
  let s := endGather s e.core e.ctx e.inst
  let s := if (getCtx s e.core e.ctx).inst = e.inst then
      modCtx s e.core e.ctx fun c => { c with inst := nextInst s e.core e.ctx c.inst }
    else s
  noteKill s e.ctxt.dom cause e.core e.ctx e.ctxt.joinPtr

/-- The context that a piece of work belongs to killed, resident or saved (R438). -/
def killWho (s : State) (w : Who) (cause : BitVec 8) : State :=
  if resident s w then killCtx s w.core.toNat w.ctx.toNat cause
  else match savedOf s w with
    | some e => killSaved s e cause
    | none => s

/-- The work a trap or a descheduling takes out of the special-function queue, kept in order for re-injection (R226). -/
def keepReplay (s : State) (core x : Nat) : State :=
  let (es, s) := takeSfu s core x
  modCtx s core x fun c => { c with replay := c.replay ++ es }

/-! ## Taking a trap and returning from one (R46, R47, R319, R320) -/

/-- A trap taken by a context: with no handler, or inside one, the context is killed (R47, R319); else the three trap
registers are written together, trap mode is set and the PC goes to the handler. TRAPPC is the context's PC. PROG says that
the instruction there is a restartable one that has made progress since it was last taken up (R86; DEDUCED, log entry 70). -/
def takeTrap (s : State) (core x : Nat) (cause : BitVec 8) (val : W64) (prog : Bool) : State :=
  let c := getCtx s core x
  if c.trapVec = 0 || c.trapMode then killCtx s core x cause
  else
    let s := forgetMiss s core x
    keepReplay (modCtx s core x fun c => { c with
      trapCause := (if prog || c.midway then 1#1 else 0#1) ++ cause
      trapPc := c.pc
      trapVal := val
      trapMode := true
      pc := c.trapVec ++ 0#1
      run := .running
      waitSince := none
      await := none
      midway := false
      nextIssue := after s core 1 }) core x

/-- Returning from a trap (R320): outside trap mode cause 0x02; to an odd address cause 0x03, which kills; else trap
mode is cleared and the PC is TRAPPC.PC. -/
def leaveTrap (word : W64) : M Unit := do
  let c ← cur
  trapIf (!c.trapMode) 0x02 word
  trapIf (c.trapPc.getLsbD 0) 0x03 (c.trapPc.setWidth 64)
  modCur fun c => { c with trapMode := false, pc := c.trapPc }

/-! ## How an instruction runs -/

/-- The timer of a wait of R232 or R245: it starts when its condition holds, and stops when it does not. -/
def waitTimer (s : State) (core x : Nat) (ev : Instr) (val : W64) (run : Bool) : State :=
  let c := getCtx s core x
  if !run then modCtx s core x fun c => { c with waitSince := none }
  else if c.waitSince.isSome then s
  else later (modCtx s core x fun c => { c with waitSince := some (now s) }) 1048576 ev (.who (whoOf c core x) (now s) val)

/-- What a stalled instruction leaves behind: the mark that it stalled, its timer (R232, R245), the walk its miss starts
(R424), and the word or barrier it waits for (R154, R290). A timer's wait that is over stops its timer. An instruction whose
S-alias accesses the ports serve last is not stalled yet: its core, with those of its gang, chooses again later in the cycle
(R29, R32), and so is a copy request that waits for the others of its cycle (R243). It has no other effect (R434). -/
def noteStall (w : Wait) (s : State) : State :=
  let c := getCtx s s.core s.ctx
  let t := { s with stalled := true }
  let still := modCtx t s.core s.ctx fun c => { c with waitSince := none }
  match w with
  | .late => { s with late := s.late ++ (s.core, s.ctx) :: followers s s.core s.ctx }
  | .bid => { modCluster s (clusterOf s.core) fun c => { c with
      bids := (c.bids.filter fun b => b.1 = now s) ++ [(now s, s.core % 8)] } with late := s.late ++ [(s.core, s.ctx)] }
  | .walk va => startWalk (if c.await.isSome then still else modCtx still s.core s.ctx fun c => { c with await := some (.pages []) })
      (clusterOf s.core) c.asid va (.ctx s.core s.ctx)
  | .miss cl e asid va => startWalk still cl asid va (.engine e)
  | .full sp off => match c.await with
    | some (.word sp' off' _) =>
      if sp' = sp && off' = off then still
      else modCtx still s.core s.ctx fun c => { c with await := some (.word sp off none) }
    | _ => modCtx still s.core s.ctx fun c => { c with await := some (.word sp off none) }
  | .bar b => modCtx still s.core s.ctx fun c => { c with await := some (.bar b) }
  | .plain => still
  | .flush => flushComb still (clusterOf s.core) fun _ => true
  | .handle val run => waitTimer t s.core s.ctx .handleWaitTimeout val run
  | .counter val run => waitTimer t s.core s.ctx .ccWaitTimeout val run

/-- A context whose instruction is done: it is at a PC and ready again in a given cycle, and waits for nothing. -/
def Ctx.goOn (c : Ctx) (pc : VA) (ready : Nat) : Ctx :=
  { c with pc := pc, nextIssue := ready, waitSince := none, walkFail := none, await := none, midway := false }

/-- The PC past an instruction of `len` bytes, the context ready again in its core's next cycle. -/
def advance (len : Nat) : M Unit := fun s =>
  .ok () (modCtx s s.core s.ctx fun c => c.goOn (c.pc + BitVec.ofNat 56 len) (after s s.core 1))

/-- The PC at the target of a branch or jump, whose first instruction issues three cycles later (R125). -/
def goTo (pc : VA) : M Unit := fun s =>
  .ok () (modCtx s s.core s.ctx fun c => c.goOn pc (after s s.core 3))

/-- A restartable instruction that has made progress and is not done: it goes on as its context issues again (R86). -/
def goOnMidway : M Unit := fun s =>
  .ok () (modCtx s s.core s.ctx fun c => { c.goOn c.pc (after s s.core 1) with midway := true })

/-- What comes of a stop (R78, R86, R148): a precise trap undoes all but the reports to the management core, which stay with
what they bring about. DESIGN CHOICE, log entry 8. DEDUCED, log entry 11. -/
def stopped (s s' : State) : Stop → Out
  | .trap cause val prog keep =>
    .next (takeTrap (if keep then s' else keepReports s s') s.core s.ctx cause val prog)
  | .wait w => .next (noteStall w s)
  | .fault f => .fault f

/-- One context's instruction: its effect, or what its stop leaves. DEDUCED, log entry 9. -/
def runOne (m : M Unit) (s : State) : Out :=
  match m s with
  | .ok _ s' => .next s'
  | .error e s' => stopped s s' e

/-- The members of the gang that the current context leads, itself first. -/
def members (s : State) : List (Nat × Nat) := (s.core, s.ctx) :: followers s s.core s.ctx

/-- An instruction run by one member of a gang alone. -/
def runMember (m : M Unit) (s : State) (p : Nat × Nat) : EStateM.Result Stop State Unit := m { s with core := p.1, ctx := p.2 }

/-- An instruction run by the members in turn (R185), all its checks passed: the state after all, or the first stop with its
member. -/
def runMembers (m : M Unit) : List (Nat × Nat) → State → Except ((Nat × Nat) × State × Stop) State
  | [], s => .ok s
  | p :: rest, s =>
    match runMember m s p with
    | .ok _ s' => runMembers m rest s'
    | .error e s' => .error (p, s', e)

/-- The waits of the members of a gang that cannot go on noted, each in its own context (R185, R424, R154). -/
def noteStalls (l : List ((Nat × Nat) × Wait)) (s : State) : State :=
  { l.foldl (fun t p => noteStall p.2 { t with core := p.1.1, ctx := p.1.2 }) s with core := s.core, ctx := s.ctx }

/-- Whether a matrix instruction of a context has not completed (R197). -/
def matrixPending (s : State) (core x : Nat) : Bool :=
  (getCluster s (clusterOf core)).mtx.any fun m => decide (m.who.core.toNat = core) && decide (m.who.ctx.toNat = x)

/-- A trap that ends the gang of the current context (R141, R186), for which the leader waits until the matrix instructions it
has had accepted have completed (R197): the trap registers of the followers are written, each holding 0x08, the follower's PC
and its own value `vals`, or its PC where it has none (R186 gives no value; DESIGN CHOICE, log entry 83), and the followers
are freed; the leader takes cause `cause`. -/
def gangEnds (s : State) (vals : List ((Nat × Nat) × W64)) (cause : BitVec 8) (val : W64) : Out :=
  if matrixPending s s.core s.ctx then .next (noteStall .plain s)
  else
    let s := (followers s s.core s.ctx).foldl (fun s p => modCtx s p.1 p.2 fun c =>
      { c with trapCause := 0x08, trapPc := c.pc
               trapVal := ((vals.find? (·.1 = p)).map (·.2)).getD (c.pc.setWidth 64) }) s
    .next (takeTrap (endGang s s.core s.ctx) s.core s.ctx cause val false)

/-- The end of a gang by a trap other than by divergence (R186). -/
def gangTrap (s : State) (cause : BitVec 8) (val : W64) : Out := gangEnds s [] cause val

/-- The end of a gang by a check that its member `p` has failed (R186): the leader takes its own cause, or 0x08 with the
follower's cause and index. -/
def gangFails (s : State) (p : Nat × Nat) (cause : BitVec 8) (val : W64) : Out :=
  if p = (s.core, s.ctx) then gangTrap s cause val
  else gangTrap s 0x08 (at64 1 63 ||| at64 cause.toNat 8 ||| at64 (p.1 - s.core) 0)

/-- The members that wait, and for what, of the outcomes that the members have each for itself. -/
def waitsOf (l : List ((Nat × Nat) × EStateM.Result Stop State Unit)) : List ((Nat × Nat) × Wait) :=
  l.filterMap fun r => match r.2 with
    | .error (.wait w) _ => some (r.1, w)
    | _ => none

/-- The members that fail a check, with what each has reported: the cause, the value and whether what it did so far stands. -/
def failsOf (l : List ((Nat × Nat) × EStateM.Result Stop State Unit)) :
    List ((Nat × Nat) × State × BitVec 8 × W64 × Bool) :=
  l.filterMap fun r => match r.2 with
    | .error (.trap cause val _ keep) s' => some (r.1, s', cause, val, keep)
    | _ => none

/-- The effects of an instruction of a gang whose members have all passed their checks (R185): the members one after the other,
an S that two of them reach by the window serving them in turn; the gang ends when their next PCs differ (R141). -/
def gangEffects (m : M Unit) (s : State) : Out :=
  match runMembers m (members s) { s with gangUse := [] } with
  | .ok s' =>
    let pc := (getCtx s' s.core s.ctx).pc
    if (members s).all (fun p => (getCtx s' p.1 p.2).pc = pc) then
      .next { s' with core := s.core, ctx := s.ctx, gangUse := [] }
    else gangEnds s ((members s).map fun p => (p, (getCtx s' p.1 p.2).pc.setWidth 64)) 0x08 (pc.setWidth 64)
  | .error (p, _, .wait w) => .next (noteStalls [(p, w)] s)
  | .error (p, s', .trap cause val _ _) => gangFails (keepReports s s') p cause val
  | .error (_, _, .fault f) => .fault f

/-- An instruction of a gang's leader (R185, R186): every member passes its checks before any has an effect. While a member
waits for anything but a word to be full, the gang stalls; a member that fails a check ends the gang, the leader taking its own
cause when it is the leader that fails; else members that wait for words to be full wait (R154). -/
def runGang (m : M Unit) (s : State) : Out :=
  let each := (members s).map fun p => (p, runMember m s p)
  let waits := waitsOf each
  let held := waits.filter fun w => match w.2 with | .full _ _ => false | .late => false | _ => true
  if !held.isEmpty then .next (noteStalls (waits.filter (·.2 ≠ .late)) s)
  else if waits.any (·.2 = .late) then .next (noteStall .late s)
  else
    let fails := failsOf each
    let t := fails.foldl (fun t f => keepReports t { f.2.1 with log := t.log ++ f.2.1.log.drop s.log.length }) s
    match fails with
    | (p, s', cause, val, keep) :: _ =>
      gangFails (if keep && p.1 = s.core then modCtx t s.core s.ctx fun c => { c with pc := (getCtx s' s.core s.ctx).pc } else t)
        p cause val
    | [] => if waits.isEmpty then gangEffects m s else .next (noteStalls waits s)

/-- Whether the current context leads a gang. -/
def leads (s : State) : Bool := (getCtx s s.core s.ctx).gangSize ≠ 0#3

/-- An instruction that R185 allows in a gang. -/
def instrG (len : Nat) (m : M Unit) (s : State) : Out :=
  let m := do m; advance len
  if leads s then runGang m s else runOne m s

/-- A branch or jump allowed in a gang: its effect gives the next PC, taken or not (R137, R141). -/
def branchG (len : Nat) (m : M (Option VA)) (s : State) : Out :=
  let m := do
    let t ← m
    match t with
    | some pc => goTo pc
    | none => advance len
  if leads s then runGang m s else runOne m s

/-- An instruction that a gang may not execute: the gang ends, and none of the instruction's own checks is made (R185, R186;
their order: DESIGN CHOICE, log entry 83). -/
def gangBar (m : M Unit) (s : State) : Out :=
  if leads s then gangTrap s 0x08 (at64 1 63 ||| at64 1 61) else runOne m s

/-- An instruction that a gang may not execute, the PC past it when it is done. -/
def instr (len : Nat) (m : M Unit) (s : State) : Out :=
  gangBar (do m; advance len) s

/-- An instruction that leaves its context elsewhere (freed, held, gone to a handler). -/
def instrRaw (m : M Unit) (s : State) : Out := gangBar m s

/-- A restartable instruction (R86): what it does as its context issues once, and whether it is done then. A piece of its work
takes one cycle. DESIGN CHOICE, log entry 69. -/
def restartable (len : Nat) (m : M Bool) : State → Out := instrRaw do
  if ← m then advance len else goOnMidway

/-- An event of the package (95_what_each_step_holds.md): its effect; when it cannot come about yet, it is due again
later. An event whose operands are not of its form does nothing. -/
def event (ev : Instr) (m : M Unit) (s : State) : Out :=
  match m s with
  | .ok _ s' => .next s'
  | .error (.wait w) _ => .next (sometime (match w with
      | .miss cl e asid va => startWalk s cl asid va (.engine e)
      | .flush => flushComb s (clusterOf s.core) fun _ => true
      | _ => s) ev s.arg)
  | .error (.trap _ _ _ _) _ => .next s
  | .error (.fault f) _ => .fault f

end Sys2Proof.Machine
end

