-- ==== Sys2Proof/Machine/Operands.lean ====
section
/-! DEFINITION. The operand forms: the sites a memory operand names, the checks of 06_memory_access.md R148 in their
order, the local spaces with their regions and withheld columns (01_state.md R26 to R38), and the prefix word's
operands (03_opcode_map.md R88, R89). -/
namespace Sys2Proof.Machine
open Sys2Proof

/-! ## The local spaces of a core (R26 to R38) -/

/-- The codes of the local spaces (R61): 1 A, 2 C, 3 S. -/
abbrev spA : BitVec 2 := 1
abbrev spC : BitVec 2 := 2
abbrev spS : BitVec 2 := 3

/-- The sparse bytes of a local space. -/
def spaceBytes (c : Core) (sp : BitVec 2) : Tab Byte := if sp = 1#2 then c.a else if sp = 2#2 then c.c else c.s
/-- The words of a local space that hold an uncorrectable error (R459). -/
def spaceBad (c : Core) (sp : BitVec 2) : List Nat := if sp = 1#2 then c.badA else if sp = 2#2 then c.badC else c.badS

/-- Whether a byte of C lies in a withheld column (R38). -/
def withheld (c : Core) (off : Nat) : Bool := c.cfree.getLsbD (off / 1024)
/-- Whether any of `n` bytes of C does. -/
def anyWithheld (c : Core) (off n : Nat) : Bool := (List.range n).any fun i => withheld c (off + i)

/-- Bytes of a local space as an access reads them: a withheld column of C reads zero (R38). -/
def spaceRead (c : Core) (sp : BitVec 2) (off n : Nat) : List Byte :=
  if sp = 2#2 then (List.range n).map fun i => if withheld c (off + i) then 0 else byteGet c.c (off + i)
  else bytesGet (spaceBytes c sp) off n

/-- Whether any word of a span holds an uncorrectable error; a withheld column of C has none to read. -/
def spaceFails (c : Core) (sp : BitVec 2) (off n : Nat) : Bool :=
  (spaceBad c sp).any fun w => decide (w * 4 < off + n) && decide (off < w * 4 + 4) && !(sp = 2#2 && withheld c (w * 4))

/-- How far into a span its first bad word lies. -/
def badOffset (c : Core) (sp : BitVec 2) (off n : Nat) : Nat :=
  (((spaceBad c sp).filter fun w => decide (w * 4 < off + n) && decide (off < w * 4 + 4)).map fun w => w * 4 - off).min?.getD 0

/-- The errors left after a span is written: a word written whole is cleared (R460's rule for lines; DESIGN CHOICE, log entry
12). -/
def badAfter (bad : List Nat) (off n : Nat) : List Nat :=
  bad.filter fun w => !(decide (off ≤ w * 4) && decide (w * 4 + 4 ≤ off + n))

/-- Bytes of a local space written: a withheld column of C discards them (R38). -/
def spaceWrite (c : Core) (sp : BitVec 2) (off : Nat) (bs : List Byte) : Core :=
  if sp = 1#2 then { c with a := bytesSet c.a off bs, badA := badAfter c.badA off bs.length }
  else if sp = 2#2 then
    { c with
      c := bs.zipIdx.foldl (fun t b => if withheld c (off + b.2) then t else byteSet t (off + b.2) b.1) c.c
      badC := badAfter c.badC off bs.length }
  else { c with s := bytesSet c.s off bs, badS := badAfter c.badS off bs.length }

/-- An access to a withheld column sets SPILLMAP.SPV (R38). -/
def noteSpv (c : Core) (sp : BitVec 2) (off n : Nat) : Core :=
  if sp = 2#2 && anyWithheld c off n then { c with spv := true } else c

/-- The words of A or S that are EMPTY. -/
def emptyOf (c : Core) (sp : BitVec 2) : List Nat := if sp = 1#2 then c.emptyA else c.emptyS
def setEmptyOf (c : Core) (sp : BitVec 2) (l : List Nat) : Core :=
  if sp = 1#2 then { c with emptyA := l } else { c with emptyS := l }
/-- The full-empty bit of a word (R34). -/
def isFull (c : Core) (sp : BitVec 2) (off : Nat) : Bool := !(emptyOf c sp).contains (off / 4)

/-- What the contexts of a core that wait in LDWT for words observe as soon as these are full: each reads its word then, all
at once; a word that holds an error is left to be read as the LDWT issues again (R154, R156). -/
def observeFull (c : Core) : Core :=
  { c with ctxs := c.ctxs.map fun k => match k.await with
      | some (.word sp off none) =>
        if isFull c sp off && !spaceFails c sp off 4 then
          { k with await := some (.word sp off (some (BitVec.ofNat 32 (natOf (bytesGet (spaceBytes c sp) off 4))))) }
        else k
      | _ => k }

/-- A word set full (R34). -/
def setFull (c : Core) (sp : BitVec 2) (off : Nat) : Core :=
  observeFull (setEmptyOf c sp ((emptyOf c sp).filter (· ≠ off / 4)))
/-- A word set empty (R153); the list is kept rising. -/
def setEmpty (c : Core) (sp : BitVec 2) (off : Nat) : Core :=
  let l := emptyOf c sp
  if l.contains (off / 4) then c
  else setEmptyOf c sp (l.filter (· < off / 4) ++ [off / 4] ++ l.filter (fun w => decide (off / 4 < w)))

/-- An engine's bytes written to A or S: every word whose last byte is written becomes full (R34). -/
def engineWrite (c : Core) (sp : BitVec 2) (off : Nat) (bs : List Byte) : Core :=
  let c := spaceWrite c sp off bs
  if sp = 2#2 then c
  else observeFull (setEmptyOf c sp
    ((emptyOf c sp).filter fun w => !(decide (off ≤ w * 4 + 3) && decide (w * 4 + 3 < off + bs.length))))

/-- The deque region of S and the mailbox region (R27). -/
def inDeque (off n : Nat) : Bool := decide (0x7000 < off + n) && decide (off < 0x8000)
def inMailbox (off n : Nat) : Bool := decide (0x6000 < off + n) && decide (off < 0x7000)

/-- A port marked as serving in a cycle (R29). DEDUCED, log entry 28. -/
def usePort (c : Core) (sp : BitVec 2) (t : Nat) : Core :=
  { c with ports := c.ports.set sp.toNat (max (c.ports[sp.toNat]'(sp.isLt)) (t + 1)) sp.isLt }
/-- Whether a port has already served an access in a cycle, or is taken for it (R29, R322). -/
def portBusy (c : Core) (sp : BitVec 2) (t : Nat) : Bool := decide (t + 1 ≤ c.ports[sp.toNat]'(sp.isLt))

/-! ## Sites and the checks of R148 -/

/-- Where a memory operand points: a local address, a byte of a core's S through the window of R32, or a virtual
address. -/
inductive Site where
  | loc (sp : BitVec 2) (off : Nat)
  | window (core off : Nat)
  | mem (va : VA)
  deriving DecidableEq, Repr

/-- A virtual address in the S window (R32): its core and offset. DEDUCED, log entry 16. -/
def windowOf (va : VA) : Option (Nat × Nat) :=
  if va.toNat / 0x40000000 = 0x40000000000000 / 0x40000000 then
    some ((va.toNat / 0x10000) % 0x4000, va.toNat % 0x10000)
  else none

/-- The site of an address in a space (R144): global modulo 2^56, local modulo 2^16. -/
def siteAt (sp : BitVec 2) (addr : W64) : Site :=
  if sp = 0#2 then match windowOf (addr.setWidth 56) with
    | some (c, o) => .window c o
    | none => .mem (addr.setWidth 56)
  else .loc sp (addr.toNat % 65536)

/-- The address of a site, as TRAPVAL holds it. -/
def Site.val : Site → W64
  | .loc _ off => BitVec.ofNat 64 off
  | .window c off => BitVec.ofNat 64 (0x40000000000000 + c * 0x10000 + off)
  | .mem va => va.setWidth 64

/-- A site that has passed translation: a local address, a window byte, or a physical address under a leaf. -/
inductive Spot where
  | loc (sp : BitVec 2) (off : Nat)
  | window (core off : Nat)
  | phys (va : VA) (pa : Nat) (leaf : Leaf)
  deriving DecidableEq, Repr

def Spot.val : Spot → W64
  | .loc _ off => BitVec.ofNat 64 off
  | .window c off => BitVec.ofNat 64 (0x40000000000000 + c * 0x10000 + off)
  | .phys va _ _ => va.setWidth 64

/-- Step 1 of R148. -/
def rangeOk : Site → Bool
  | .loc sp off => sp = 1#2 || decide (off < 0x8000)
  | .window _ off => decide (off < 0x8000)
  | .mem _ => true

/-- Whether a site is aligned to `n` bytes. -/
def alignedTo (n : Nat) : Site → Bool
  | .loc _ off => decide (off % n = 0)
  | .window _ off => decide (off % n = 0)
  | .mem va => decide (va.toNat % n = 0)

/-- Step 3 of R148 for one site. -/
def toSpot (a : Acc) : Site → M Spot
  | .loc sp off => pure (.loc sp off)
  | .window c off => pure (.window c off)
  | .mem va => do
    let l ← leafFor va a
    pure (.phys va (leafPa l va) l)

/-- The permission of an access kind. -/
def permOf : Acc → Perm
  | .load => .read
  | .store => .write
  | .fetch => .read

/-- Step 4 of R148 for one spot: the access table of its target (R427, R449), or, in the window, the domain (R419). -/
def admitOk (s : State) (p : Perm) : Spot → Bool
  | .loc _ _ => true
  | .window c _ => inDomain s c (getCtx s s.core s.ctx).dom
  | .phys _ pa _ => served s pa && admits s 0 (getCtx s s.core s.ctx).asid.toNat p pa (dieOf s.core)

/-- Step 5 of R148 for one spot: the cause that a region gives an access of `n` bytes (R27, R28). -/
def regionCause (a : Acc) (n : Nat) : Spot → Option (BitVec 8)
  | .loc sp off =>
    if sp = 3#2 && a = .store then
      if inDeque off n then some 0x05 else if inMailbox off n then some 0x0E else none
    else none
  | .window _ off => if inDeque off n then some 0x05 else if inMailbox off n then some 0x0E else none
  | .phys _ _ _ => none

/-- A master's access to host memory that the CXL port refuses is entered in the event log (R445; the function it names:
DESIGN CHOICE, log entry 71). -/
def portRefusal (s : State) (pa cls mnum core : Nat) : State :=
  match placeOf pa with
  | .host _ => report s 3 5 0 pa cls mnum core
  | _ => s

/-- Step 4 of R148 for one spot (R445). -/
def refused (a : Acc) (x : Spot) : M Unit := do
  let s ← ask
  if admitOk s (permOf a) x then pure ()
  else do
    match x with
    | .phys _ pa _ => update fun s => portRefusal s pa 0 (getCtx s s.core s.ctx).asid.toNat s.core
    | _ => pure ()
    trapM 0x05 x.val

/-- Steps 1 to 5 of R148 for accesses of `n` bytes that must be aligned to `al`: each step for every site before the
next, the first failing site named. -/
def checkSites (a : Acc) (n al : Nat) (sites : List Site) : M (List Spot) := do
  each (fun x => trapIf (!rangeOk x) 0x04 x.val) sites
  each (fun x => trapIf (!alignedTo al x) 0x03 x.val) sites
  let spots ← gather (toSpot a) sites
  each (refused a) spots
  each (fun x => match regionCause a n x with
    | some cause => trapM cause x.val
    | none => pure ()) spots
  pure spots

/-- Whether remote accesses of the current context are on their way to a core: a later access of the context to that
core is performed after them (R338). -/
def remoteBefore (s : State) (core : Nat) : Bool :=
  s.agenda.any fun e => match e.arg with
    | .remote r _ => decide (e.ev = .remoteAccessServe) && decide (r.target.toNat = core) &&
        decide (r.who.core.toNat = s.core) && decide (r.who.ctx.toNat = s.ctx)
    | _ => false

/-- Whether a matrix instruction of the current context that has not completed touches a span: a C span that meets its
tile, or an A span that meets a drain's bytes. A later access waits for it (R164, R195). -/
def matrixBefore (s : State) (sp : BitVec 2) (off n : Nat) : Bool :=
  (getCluster s (clusterOf s.core)).mtx.any fun m =>
    decide (m.who.core.toNat = s.core) && decide (m.who.ctx.toNat = s.ctx) &&
    (if sp = 2#2 then (match m.kind with
      | .load _ _ => false
      | _ => decide (off / 2048 ≤ m.tile.toNat) && decide (m.tile.toNat ≤ (off + n - 1) / 2048))
    else sp = 1#2 && m.span.any fun r => decide (r.1 < off + n) && decide (off < r.1 + r.2))

/-- A failure recorded in the one-sided status of a context: its bit (0 REFUSED, 1 RANGE, 2 UE, 3 OFF), the target and the
remote offset (R248, R249). -/
def oneSidedFail (bit target off : Nat) (c : Ctx) : Ctx :=
  { c with oneSided := putBits (putBits (putBits c.oneSided 49 36 target) 31 16 off) bit bit 1 }

/-- An uncorrectable error of a core's A, C or S buffer reported (R459, R461). -/
def localError (s : State) (core : Nat) : State :=
  report s 2 0 (clusterOf core) 0 0 (getCtx s s.core s.ctx).asid.toNat s.core

/-- Step 6 of R148 in a local space: an error there is reported and traps, TRAPVAL naming the bad data (R321). -/
def checkLocal (c : Core) (core : Nat) (sp : BitVec 2) (off n : Nat) (val : W64) : M Unit :=
  if spaceFails c sp off n then do
    update (localError · core)
    trapM 0x0C (val + BitVec.ofNat 64 (badOffset c sp off n))
  else pure ()

/-- Whether returning atomics of the current context are still to write their D: no later access of the context is performed
before (R341); atomics and reductions may be (R338). DEDUCED, log entry 62. -/
def atomicsOut (s : State) : Bool :=
  s.agenda.any fun d => match d.arg with
    | .amo r _ => decide (r.who.core.toNat = s.core) && decide (r.who.ctx.toNat = s.ctx)
    | _ => false

/-- An access through the S-alias window is a remote access at its target's S port (R29, R32): it is made once every core
has issued in the cycle and the port's other requesters have been served, when the port is free, and after the context's
earlier accesses to that port (R338). A port that has served an earlier member of the same instruction of a gang serves the
next in the cycle after (R185; DEDUCED, log entry 9). -/
def aliasTurn (core : Nat) : M Unit := do
  let s ← ask
  waitUntil (!remoteBefore s core)
  if s.scan ≠ scanEnd then throw (.wait .late) else pure ()
  waitUntil (s.gangUse.contains core || !portBusy (getCore s core) spS (now s))

/-- The bytes of a spot read (step 6 of R148). An S-alias access to banks that are down reads zero (R249). -/
def readPlain (n : Nat) (x : Spot) : M (List Byte) := do
  let s ← ask
  match x with
  | .loc sp off =>
    waitUntil (!matrixBefore s sp off n)
    let c := getCore s s.core
    checkLocal c s.core sp off n x.val
    modCurCore fun c => usePort (noteSpv c sp off n) sp (now s)
    pure (spaceRead c sp off n)
  | .window core off =>
    aliasTurn core
    let c := getCore s core
    if c.powered then do
      checkLocal c core 3 off n x.val
      pure (spaceRead c 3 off n)
    else pure (List.replicate n 0)
  | .phys _ pa _ =>
    match cacheRead s (clusterOf s.core) pa n with
    | (some bs, s) => do update (fun _ => s); pure bs
    | (none, s) => do update (fun _ => s); trapM 0x0C x.val

/-- The bytes of a spot read by an instruction's access, which the context's atomics come before (R341). -/
def readSpot (n : Nat) (x : Spot) : M (List Byte) := do
  let s ← ask
  waitUntil (!atomicsOut s)
  readPlain n x

/-- Bytes written at a spot; at a core without power an S-alias store is discarded (R249). -/
def writeSpot (x : Spot) (bs : List Byte) : M Unit := do
  let s ← ask
  waitUntil (!atomicsOut s)
  match x with
  | .loc sp off =>
    waitUntil (!matrixBefore s sp off bs.length)
    modCurCore fun c => usePort (spaceWrite (noteSpv c sp off bs.length) sp off bs) sp (now s)
  | .window core off =>
    aliasTurn core
    if (getCore s core).powered then update fun s => modCore s core (spaceWrite · 3 off bs) else pure ()
  | .phys _ pa _ =>
    match cacheWrite s (clusterOf s.core) pa bs with
    | (some _, s) => update (fun _ => s)
    | (none, s) => do update (fun _ => s); trapM 0x0C x.val

/-- Whether a spot is of the S window of a core whose banks have power, or of one whose banks have none. -/
def Spot.alias (s : State) (on : Bool) : Spot → Option (Nat × Nat)
  | .window core off => if (getCore s core).powered = on then some (core, off) else none
  | _ => none

/-- What an instruction's S-alias accesses leave once their ports have served them: accesses at a core without power set OFF
with the first offset not served (R249), and the trace rings hold the stores served, each at its first byte (R50). `stores`
are the spots at which a store begins, `spots` all of them, in order. -/
def aliasNoted (stores spots : List Spot) (s : State) : State :=
  let t := match spots.findSome? (·.alias s false) with
    | some (core, off) => modCtx s s.core s.ctx (oneSidedFail 3 core off)
    | none => s
  (stores.filterMap (·.alias s true)).foldl (fun t p => trace t p.1 s.core true p.2) t

/-- The S port of a core used by an access through the window (R29): by a member of a gang after another one, in the next
cycle that it has (R185). -/
def takeAlias (s : State) (core : Nat) : State :=
  if (getCtx s s.core s.ctx).gangSize = 0 then modCore s core (usePort · spS (now s))
  else if s.gangUse.contains core then
    modCore s core fun c => usePort c spS (c.ports[spS.toNat]'(spS.isLt))
  else { modCore s core (usePort · spS (now s)) with gangUse := s.gangUse ++ [core] }

/-- The same, the ports used (R29). -/
def aliasServed (stores spots : List Spot) (s : State) : State :=
  ((spots.filterMap (·.alias s true)).map (·.1)).eraseDups.foldl takeAlias (aliasNoted stores spots s)

def aliasNote (stores spots : List Spot) : M Unit := update (aliasNoted stores spots)
def aliasDone (stores spots : List Spot) : M Unit := update (aliasServed stores spots)

/-- A checked access's bytes read. -/
def readAt (n : Nat) (x : Spot) : M (List Byte) := do
  let bs ← readSpot n x
  aliasDone [] [x]
  pure bs

/-- A checked store's bytes written. -/
def writeAt (x : Spot) (bs : List Byte) : M Unit := do
  writeSpot x bs
  aliasDone [x] [x]

/-- A naturally aligned access of `n` bytes at one site, checked. -/
def checkSite (a : Acc) (n : Nat) (x : Site) : M Spot := do
  let l ← checkSites a n n [x]
  pure (l.headD (.loc 1 0))

/-- A meaning's traps caught: its effects stand, and the trap is answered. -/
def attemptM {α : Type} (m : M α) : M (Except Stop α) := fun s =>
  match m s with
  | .ok a s' => .ok (.ok a) s'
  | .error (.trap c v p k) s' => .ok (.error (.trap c v p k)) s'
  | .error e s' => .error e s'

/-- One of the accesses of an instruction that makes many: a checked spot's bytes read. -/
def readMore (n : Nat) (x : Spot) : M (List Byte) := do
  let bs ← readSpot n x
  aliasNote [] [x]
  pure bs

/-- One of the accesses of an instruction that makes many: bytes stored at a checked spot. -/
def writeMore (x : Spot) (bs : List Byte) : M Unit := do
  writeSpot x bs
  aliasNote [x] [x]

/-- A global load of `n` bytes by an instruction that makes many (R265, R269). -/
def loadNow (n : Nat) (addr : W64) : M W64 := do
  let p ← checkSite .load n (siteAt 0 addr)
  let bs ← readMore n p
  pure (wordOf bs)

/-- A load of `n` bytes. -/
def loadSite (n : Nat) (x : Site) : M (List Byte) := do
  let p ← checkSite .load n x
  readAt n p

/-- A store of bytes. -/
def storeSite (x : Site) (bs : List Byte) : M Unit := do
  let p ← checkSite .store bs.length x
  writeAt p bs

/-- A scalar load's result: sign- or zero-extended (R146). -/
def extend (signed : Bool) (n : Nat) (bs : List Byte) : W64 :=
  if signed then (BitVec.ofNat (8 * n) (natOf bs)).signExtend 64 else BitVec.ofNat 64 (natOf bs)

/-- The scalar load: base + offset, width, extension, destination (R144 to R148). -/
def loadTo (sp : BitVec 2) (n : Nat) (signed : Bool) (d a : BitVec 5) (off : W64) : M Unit := do
  let base ← rg a
  claim (.g d)
  let bs ← loadSite n (siteAt sp (base + off))
  wg d (extend signed n bs)

/-- The scalar store (R144 to R148). -/
def storeFrom (sp : BitVec 2) (n : Nat) (a b : BitVec 5) (off : W64) : M Unit := do
  let base ← rg a
  let x ← rg b
  storeSite (siteAt sp (base + off)) (toBytes n x.toNat)

/-! ## The prefix word (R88, R89) -/

/-- What a VPFX word gives the instruction that follows it: the mask register's number (0 for none), zeroing, the
rounding field and the fourth operand. -/
structure Prefix where
  mask : BitVec 3
  zero : Bool
  rm   : BitVec 3
  x4   : Option (BitVec 5)
  deriving DecidableEq, Repr

/-- No prefix: every lane active, rounding to nearest-even. -/
def Prefix.none : Prefix := ⟨0, false, 0, .none⟩

/-- The mask of an instruction under its prefix: mask field 0 means unmasked (R20). -/
def maskOf (p : Prefix) : M W64 := if p.mask = 0#3 then pure (BitVec.allOnes 64) else rk p.mask

end Sys2Proof.Machine
end

