-- ==== Sys2Proof/Machine/Integer.lean ====
section
/-! DEFINITION. The integer and logic instructions of MAJ 0x00 to 0x05, LUI, ADDPC and their short forms
(05_integer_control.md R124 to R136, R142; 02_assembly_and_formats.md R64). -/
namespace Sys2Proof.Machine
open Sys2Proof

/-! ## Values -/

/-- A register a short form names: g8 to g15 (R67, R82). -/
def hreg (r : BitVec 3) : BitVec 5 := 1#2 ++ r
/-- A short form's immediate (R142). -/
def sext5 (i : BitVec 5) : W64 := i.signExtend 64

/-- Shifts by the low six bits of the amount (R126, R127). -/
def shlW (a b : W64) : W64 := a <<< (b.toNat % 64)
def shrW (a b : W64) : W64 := a >>> (b.toNat % 64)
def shaW (a b : W64) : W64 := a.sshiftRight (b.toNat % 64)
/-- The high half of the signed product (R128). -/
def mulhW (a b : W64) : W64 := BitVec.ofInt 64 (a.toInt * b.toInt / 2 ^ 64)
/-- The high half of the unsigned product (R128). -/
def mulhnW (a b : W64) : W64 := BitVec.ofNat 64 (a.toNat * b.toNat / 2 ^ 64)
/-- Signed quotient and remainder (R129). -/
def divW (a b : W64) : W64 := if b = 0 then BitVec.allOnes 64 else BitVec.ofInt 64 (a.toInt.tdiv b.toInt)
def remW (a b : W64) : W64 := if b = 0 then a else BitVec.ofInt 64 (a.toInt.tmod b.toInt)
/-- Unsigned quotient and remainder (R129). -/
def divnW (a b : W64) : W64 := if b = 0 then BitVec.allOnes 64 else a / b
def remnW (a b : W64) : W64 := if b = 0 then a else a % b
/-- Extremes and comparisons (R130). -/
def minW (a b : W64) : W64 := if a.slt b then a else b
def maxW (a b : W64) : W64 := if a.slt b then b else a
def minnW (a b : W64) : W64 := if a.ult b then a else b
def maxnW (a b : W64) : W64 := if a.ult b then b else a
def sltW (a b : W64) : W64 := bool64 (a.slt b)
def sltnW (a b : W64) : W64 := bool64 (a.ult b)
/-- Counts of bits (R131). -/
def clzW (a : W64) : W64 := BitVec.ofNat 64 (64 - (if a = 0 then 0 else a.toNat.log2 + 1))
def ctzW (a : W64) : W64 := BitVec.ofNat 64 (((List.range 64).find? a.getLsbD).getD 64)
def popcW (a : W64) : W64 := BitVec.ofNat 64 ((List.range 64).filter a.getLsbD).length
/-- The three-input table applied to every bit position (R132). -/
def ternBits {w : Nat} (a b d : BitVec w) (t : BitVec 8) : BitVec w :=
  let row := fun (n : Nat) =>
    if t.getLsbD n then (if n / 4 % 2 = 1 then a else ~~~a) &&& (if n / 2 % 2 = 1 then b else ~~~b) &&&
      (if n % 2 = 1 then d else ~~~d) else 0
  row 0 ||| row 1 ||| row 2 ||| row 3 ||| row 4 ||| row 5 ||| row 6 ||| row 7
/-- Funnel shifts of a : b (R133). -/
def fshlW (a b : W64) (n : Nat) : W64 := ((a ++ b) <<< n).extractLsb' 64 64
def fshrW (a b : W64) (n : Nat) : W64 := ((a ++ b) >>> n).extractLsb' 0 64
/-- The mask of a field of `l` + 1 bits (R134). -/
def fieldMask (l : BitVec 6) : W64 := BitVec.allOnes 64 >>> (63 - l.toNat)
def bextW (a : W64) (p l : BitVec 6) : W64 := (a >>> p.toNat) &&& fieldMask l
def binsW (a d : W64) (p l : BitVec 6) : W64 :=
  (d &&& ~~~ (fieldMask l <<< p.toNat)) ||| ((a &&& fieldMask l) <<< p.toNat)

/-! ## The shared operations -/

/-- A result written to D, a dependent instruction issuing `n` cycles after this one (R125). -/
def result (d : BitVec 5) (n : Nat) (x : W64) : M Unit := do
  wg d x
  if n ≤ 1 || d = 0#5 then pure () else addLock (.g d) n

/-- D := f a b. -/
def binary (n : Nat) (f : W64 → W64 → W64) (d a b : BitVec 5) : M Unit := do
  let x ← rg a
  let y ← rg b
  result d n (f x y)

/-- D := f a. -/
def unary (n : Nat) (f : W64 → W64) (d a : BitVec 5) : M Unit := do
  let x ← rg a
  result d n (f x)

/-! ## The instructions -/

/-- ADD: wraps modulo 2^64 (R126). -/
def execAdd (d a b : BitVec 5) : State → Out := instrG 4 (binary 1 (· + ·) d a b)
/-- SUB: wraps modulo 2^64 (R126). -/
def execSub (d a b : BitVec 5) : State → Out := instrG 4 (binary 1 (· - ·) d a b)
/-- AND (R126). -/
def execAnd (d a b : BitVec 5) : State → Out := instrG 4 (binary 1 (· &&& ·) d a b)
/-- OR (R126). -/
def execOr (d a b : BitVec 5) : State → Out := instrG 4 (binary 1 (· ||| ·) d a b)
/-- XOR (R126). -/
def execXor (d a b : BitVec 5) : State → Out := instrG 4 (binary 1 (· ^^^ ·) d a b)
/-- SHL (R126, R127). -/
def execShl (d a b : BitVec 5) : State → Out := instrG 4 (binary 1 shlW d a b)
/-- SHR (R126, R127). -/
def execShr (d a b : BitVec 5) : State → Out := instrG 4 (binary 1 shrW d a b)
/-- SHA (R126, R127). -/
def execSha (d a b : BitVec 5) : State → Out := instrG 4 (binary 1 shaW d a b)
/-- MUL: the low half (R128). -/
def execMul (d a b : BitVec 5) : State → Out := instrG 4 (binary 4 (· * ·) d a b)
/-- MULH (R128). -/
def execMulh (d a b : BitVec 5) : State → Out := instrG 4 (binary 4 mulhW d a b)
/-- MULHN (R128). -/
def execMulhn (d a b : BitVec 5) : State → Out := instrG 4 (binary 4 mulhnW d a b)
/-- DIV (R129). -/
def execDiv (d a b : BitVec 5) : State → Out := instrG 4 (binary 34 divW d a b)
/-- DIVN (R129). -/
def execDivn (d a b : BitVec 5) : State → Out := instrG 4 (binary 34 divnW d a b)
/-- REM (R129). -/
def execRem (d a b : BitVec 5) : State → Out := instrG 4 (binary 34 remW d a b)
/-- REMN (R129). -/
def execRemn (d a b : BitVec 5) : State → Out := instrG 4 (binary 34 remnW d a b)
/-- MIN (R130). -/
def execMin (d a b : BitVec 5) : State → Out := instrG 4 (binary 1 minW d a b)
/-- MAX (R130). -/
def execMax (d a b : BitVec 5) : State → Out := instrG 4 (binary 1 maxW d a b)
/-- MINN (R130). -/
def execMinn (d a b : BitVec 5) : State → Out := instrG 4 (binary 1 minnW d a b)
/-- MAXN (R130). -/
def execMaxn (d a b : BitVec 5) : State → Out := instrG 4 (binary 1 maxnW d a b)
/-- SLT (R130). -/
def execSlt (d a b : BitVec 5) : State → Out := instrG 4 (binary 1 sltW d a b)
/-- SLTN (R130). -/
def execSltn (d a b : BitVec 5) : State → Out := instrG 4 (binary 1 sltnW d a b)
/-- CLZ (R131). -/
def execClz (d a : BitVec 5) : State → Out := instrG 4 (unary 1 clzW d a)
/-- CTZ (R131). -/
def execCtz (d a : BitVec 5) : State → Out := instrG 4 (unary 1 ctzW d a)
/-- POPC (R131). -/
def execPopc (d a : BitVec 5) : State → Out := instrG 4 (unary 1 popcW d a)
/-- ADDI: the immediate sign-extended (R126). -/
def execAddi (d a : BitVec 5) (i : BitVec 12) : State → Out := instrG 4 (unary 1 (· + sext12 i) d a)
/-- ANDI: the immediate sign-extended (R126). -/
def execAndi (d a : BitVec 5) (i : BitVec 12) : State → Out := instrG 4 (unary 1 (· &&& sext12 i) d a)
/-- ORI: the immediate sign-extended (R126). -/
def execOri (d a : BitVec 5) (i : BitVec 12) : State → Out := instrG 4 (unary 1 (· ||| sext12 i) d a)
/-- XORI: the immediate sign-extended (R126). -/
def execXori (d a : BitVec 5) (i : BitVec 12) : State → Out := instrG 4 (unary 1 (· ^^^ sext12 i) d a)
/-- SLTI: the immediate sign-extended (R126). -/
def execSlti (d a : BitVec 5) (i : BitVec 12) : State → Out := instrG 4 (unary 1 (sltW · (sext12 i)) d a)
/-- SHLI (R127). -/
def execShli (d a : BitVec 5) (n : BitVec 6) : State → Out := instrG 4 (unary 1 (shlW · (n.setWidth 64)) d a)
/-- SHRI (R127). -/
def execShri (d a : BitVec 5) (n : BitVec 6) : State → Out := instrG 4 (unary 1 (shrW · (n.setWidth 64)) d a)
/-- SHAI (R127). -/
def execShai (d a : BitVec 5) (n : BitVec 6) : State → Out := instrG 4 (unary 1 (shaW · (n.setWidth 64)) d a)
/-- TERN: D is the third input (R132). -/
def execTern (d a b : BitVec 5) (t : BitVec 8) : State → Out := instrG 4 do
  let x ← rg a
  let y ← rg b
  let z ← rg d
  result d 1 (ternBits x y z t)
/-- FSHL (R133). -/
def execFshl (d a b : BitVec 5) (n : BitVec 6) : State → Out := instrG 4 (binary 1 (fshlW · · n.toNat) d a b)
/-- FSHR (R133). -/
def execFshr (d a b : BitVec 5) (n : BitVec 6) : State → Out := instrG 4 (binary 1 (fshrW · · n.toNat) d a b)
/-- BEXT (R134). -/
def execBext (d a : BitVec 5) (p l : BitVec 6) : State → Out := instrG 4 (unary 1 (bextW · p l) d a)
/-- BINS: D is also read (R134). -/
def execBins (d a : BitVec 5) (p l : BitVec 6) : State → Out := instrG 4 do
  let x ← rg a
  let y ← rg d
  result d 1 (binsW x y p l)
/-- CSEL (R135). -/
def execCsel (d a b c : BitVec 5) : State → Out := instrG 4 do
  let x ← rg a
  let y ← rg b
  let z ← rg c
  result d 1 (if z ≠ 0#64 then x else y)
/-- LUI: the immediate shifted left by 12, sign-extended (R64, R136). -/
def execLui (d : BitVec 5) (i : BitVec 20) : State → Out := instrG 4 (result d 1 ((i ++ 0#12).signExtend 64))
/-- ADDPC: its own address plus the shifted immediate, sign-extended (R64, R136). -/
def execAddpc (d : BitVec 5) (i : BitVec 20) : State → Out := instrG 4 do
  let c ← cur
  result d 1 (c.pc.setWidth 64 + (i ++ 0#12).signExtend 64)

/-- ADD.H (R142). -/
def execAddH (d a b : BitVec 3) : State → Out := instrG 2 (binary 1 (· + ·) (hreg d) (hreg a) (hreg b))
/-- SUB.H (R142). -/
def execSubH (d a b : BitVec 3) : State → Out := instrG 2 (binary 1 (· - ·) (hreg d) (hreg a) (hreg b))
/-- AND.H (R142). -/
def execAndH (d a b : BitVec 3) : State → Out := instrG 2 (binary 1 (· &&& ·) (hreg d) (hreg a) (hreg b))
/-- OR.H (R142). -/
def execOrH (d a b : BitVec 3) : State → Out := instrG 2 (binary 1 (· ||| ·) (hreg d) (hreg a) (hreg b))
/-- XOR.H (R142). -/
def execXorH (d a b : BitVec 3) : State → Out := instrG 2 (binary 1 (· ^^^ ·) (hreg d) (hreg a) (hreg b))
/-- SHL.H (R142). -/
def execShlH (d a b : BitVec 3) : State → Out := instrG 2 (binary 1 shlW (hreg d) (hreg a) (hreg b))
/-- SHR.H (R142). -/
def execShrH (d a b : BitVec 3) : State → Out := instrG 2 (binary 1 shrW (hreg d) (hreg a) (hreg b))
/-- SHA.H (R142). -/
def execShaH (d a b : BitVec 3) : State → Out := instrG 2 (binary 1 shaW (hreg d) (hreg a) (hreg b))
/-- ADDI.H (R142). -/
def execAddiH (d a : BitVec 3) (i : BitVec 5) : State → Out := instrG 2 (unary 1 (· + sext5 i) (hreg d) (hreg a))
/-- SLTI.H (R142). -/
def execSltiH (d a : BitVec 3) (i : BitVec 5) : State → Out := instrG 2 (unary 1 (sltW · (sext5 i)) (hreg d) (hreg a))
/-- ANDI.H (R142). -/
def execAndiH (d a : BitVec 3) (i : BitVec 5) : State → Out := instrG 2 (unary 1 (· &&& sext5 i) (hreg d) (hreg a))

end Sys2Proof.Machine
end

