-- ==== Sys2Proof/Machine/Release.lean ====
section
/-! DEFINITION. What a context has still outstanding and the waits for it (01_state.md R23, 08_matrix.md R197), the releases
and acquires of 16_consistency.md R340, R341 (steps 1 to 3 of 12_sync_ring.md R286), the checks of a sync word (R280) and of
a join record (13_strand_system.md R314), and R476. -/
namespace Sys2Proof.Machine
open Sys2Proof

/-! ## A context's outstanding work -/

/-- Whether a piece of work belongs to the current context. -/
def isMine (s : State) (w : Who) : Bool :=
  decide (w.core.toNat = s.core) && decide (w.ctx.toNat = s.ctx) && decide (w.inst = (getCtx s s.core s.ctx).inst)

/-- The context that a piece of work on the agenda belongs to. -/
def argWho : EvArg → Option Who
  | .remote r _ => some r.who
  | .query r => some r.who
  | .sum r => some r.who
  | .amo r _ => some r.who
  | .who w _ _ => some w
  | .land w _ _ _ _ => some w
  | .msg m _ => some m.who
  | _ => none

/-- Whether an event of one of some kinds that belongs to the current context is on the agenda. -/
def flying (s : State) (evs : List Instr) : Bool :=
  s.agenda.any fun d => evs.contains d.ev && (argWho d.arg).any (isMine s)

/-- Whether a merged reduction holding one of the current context is on its way to its engine. -/
def reducing (s : State) : Bool :=
  s.agenda.any fun d => match d.arg with
    | .red r => r.whos.any (isMine s)
    | _ => false

/-- Whether a copy job has work left; an unfinished gather whose queued rows have landed has none (R238).
DEDUCED, log entry 26. -/
def jobLive (j : Job) : Bool := decide (j.state.toNat < 2) && !(j.issuing && j.todo.isEmpty && j.flying.isEmpty)

/-- Waits until every piece of work the current context has issued has completed (R23), its matrix instructions among
them (R197). DEDUCED, log entry 21. -/
def workDone : M Unit := do
  let s ← ask
  let c ← cur
  let cl ← curCluster
  waitUntil (!(flying s [.remoteAccessServe, .oneSidedReply, .queryResultLand, .scanSumLand, .amoApply, .amoReply,
    .alightWriteLand]))
  waitUntil (!(s.dies.any fun p => p.2.wellQ.any fun q => isMine s q.who))
  waitUntil (!(cl.jobs.any fun j => isMine s j.who && jobLive j))
  waitUntil (!(cl.ringQ.any fun r => isMine s r.who))
  waitUntil (!(cl.sfu.any fun e => isMine s e.who))
  waitUntil (!(cl.mtx.any fun m => isMine s m.who))
  waitUntil (!(c.locks.any (·.till.isNone)))

/-- Waits until the local-space and remote-port accesses of the context have been performed (R288, R340), and its returning
atomics, before which nothing later of it is performed (R341). Its local-space accesses are performed as they issue. -/
def portsDone : M Unit := do
  let s ← ask
  waitUntil (!flying s [.remoteAccessServe] && !atomicsOut s)

/-- Steps 2 and 3 of R286: the cluster's combining buffer is flushed, every reduction, atomic and global write of the
context has reached its engine or memory, and every copy job and one-sided access of the context is done (R356, R394); the
sums of its TQ.SCANs are not waited for (R358). -/
def writesDone : M Unit := do
  portsDone
  let s ← ask
  let cl ← curCluster
  if cl.comb.any (fun e => e.whos.any (isMine s)) then throw (.wait .flush)
  waitUntil (!(reducing s || flying s [.oneSidedReply, .amoApply, .alightWriteLand]))
  waitUntil (!(cl.jobs.any fun j => isMine s j.who && jobLive j))
  waitUntil (!(cl.ringQ.any fun r => isMine s r.who && r.kind = .alight))
  update fun s => flushComb s (clusterOf s.core) fun _ => true

/-- A release of die scope or wider: steps 1 to 3 of R286 for the whole cluster cache (R288, R340). -/
def releaseAll : M Unit := do
  writesDone
  update fun s => cleanLines s (clusterOf s.core) fun _ => true

/-- An acquire of die scope or wider: every clean line of a cluster's cache is discarded (R288, R341). -/
def acquireAll (s : State) (core : Nat) : State := dropLines s (clusterOf core) fun _ => true

/-! ## Sync words and join records -/

/-- Whether a physical address is the word of an object of some address space (R280, R284). -/
def isObject (s : State) (pa : Nat) : Bool :=
  s.binds.any fun b => match walk s b.asid (b.obj.setWidth 56) with
    | .leaf l => decide (leafPa l (b.obj.setWidth 56) = pa)
    | .fail _ => false

/-- The physical address of an engine operation's target, checked after its alignment: translation for a write (0x04,
R423), then first- or second-tier memory on a raw page that the engine's table admits (0x05, R280, R314, R428). -/
def engineTarget (a : W64) (p : Perm) : M Nat := do
  match siteAt 0 a with
  | .mem va => do
    let l ← leafFor va .store
    let pa := leafPa l va
    let s ← ask
    trapIf ((homeDie pa).isNone || leafFmt l.entry ≠ 0 || !admitOk s p (.phys va pa l)) 0x05 (va.setWidth 64)
    pure pa
  | x => do
    trapIf (!rangeOk x) 0x04 x.val
    trapM 0x05 x.val

/-- The sync word at an address, checked as R280 checks it. -/
def syncWord (a : W64) : M Nat := do
  trapIf (a.toNat % 8 ≠ 0) 0x03 (a &&& 0xFFFFFFFFFFFFFF)
  let pa ← engineTarget a .sync
  let s ← ask
  trapIf (isObject s pa) 0x12 (a &&& 0xFFFFFFFFFFFFFF)
  pure pa

/-- An operation that met an uncorrectable error in its word at its home engine (R476): the error is reported and the
context, resident or saved, killed with cause 0x0C. -/
def engineError (s : State) (w : Who) (pa : Nat) : State :=
  let s := report s 2 7 ((homeDie pa).getD 0) (pa / 64 * 64) 0 w.asid.toNat w.core.toNat
  killWho s w 0x0C

/-- The join record at an address (R310): its two lines' physical addresses, checked as R314 checks them after the
handler and the objects. DEDUCED, log entry 27. -/
def joinRecord (a : W64) : M (Nat × Nat) := do
  trapIf (a.toNat % 64 ≠ 0) 0x03 (a &&& 0xFFFFFFFFFFFFFF)
  let p ← engineTarget a .sync
  let q ← engineTarget (a + 64) .sync
  pure (p, q)

/-- The checks 1 and 2 of R314, which every instruction of SUB 0 makes first; `objects` says that it may not hold any
(R287). -/
def strandChecks (word : W64) (objects : Bool) : M Unit := do
  let h ← isHandler
  trapIf h 0x09 word
  let c ← cur
  if objects then
    match c.held with
    | o :: _ => trapM 0x12 o
    | [] => pure ()

end Sys2Proof.Machine
end

