-- ==== Sys2Proof/Machine/MemoryAccess.lean ====
section
/-! DEFINITION. Scalar loads and stores, the full-empty instructions, element accesses and prefetch
(06_memory_access.md R144 to R158). -/
namespace Sys2Proof.Machine
open Sys2Proof

/-! ## Scalar loads and stores (R146 to R149) -/

/-- LDB of global memory: 1 byte, sign-extended (R146). -/
def execLdb (d a : BitVec 5) (o : BitVec 12) : State → Out :=
  instrG 4 (loadTo 0 1 true d a (sext12 o))
/-- LDBN of global memory: 1 byte (R146). -/
def execLdbn (d a : BitVec 5) (o : BitVec 12) : State → Out :=
  instrG 4 (loadTo 0 1 false d a (sext12 o))
/-- LDH of global memory: 2 bytes, sign-extended (R146). -/
def execLdh (d a : BitVec 5) (o : BitVec 12) : State → Out :=
  instrG 4 (loadTo 0 2 true d a (sext12 o))
/-- LDHN of global memory: 2 bytes (R146). -/
def execLdhn (d a : BitVec 5) (o : BitVec 12) : State → Out :=
  instrG 4 (loadTo 0 2 false d a (sext12 o))
/-- LDW of global memory: 4 bytes, sign-extended (R146). -/
def execLdw (d a : BitVec 5) (o : BitVec 12) : State → Out :=
  instrG 4 (loadTo 0 4 true d a (sext12 o))
/-- LDWN of global memory: 4 bytes (R146). -/
def execLdwn (d a : BitVec 5) (o : BitVec 12) : State → Out :=
  instrG 4 (loadTo 0 4 false d a (sext12 o))
/-- LDD of global memory: 8 bytes (R146). -/
def execLdd (d a : BitVec 5) (o : BitVec 12) : State → Out :=
  instrG 4 (loadTo 0 8 false d a (sext12 o))
/-- STB of global memory: the low 1 byte of B (R146). -/
def execStb (a b : BitVec 5) (o : BitVec 12) : State → Out :=
  instrG 4 (storeFrom 0 1 a b (sext12 o))
/-- STH of global memory: the low 2 bytes of B (R146). -/
def execSth (a b : BitVec 5) (o : BitVec 12) : State → Out :=
  instrG 4 (storeFrom 0 2 a b (sext12 o))
/-- STW of global memory: the low 4 bytes of B (R146). -/
def execStw (a b : BitVec 5) (o : BitVec 12) : State → Out :=
  instrG 4 (storeFrom 0 4 a b (sext12 o))
/-- STD of global memory: the low 8 bytes of B (R146). -/
def execStd (a b : BitVec 5) (o : BitVec 12) : State → Out :=
  instrG 4 (storeFrom 0 8 a b (sext12 o))
/-- LDB of A: 1 byte, sign-extended (R146). -/
def execLdbA (d a : BitVec 5) (o : BitVec 12) : State → Out :=
  instrG 4 (loadTo 1 1 true d a (sext12 o))
/-- LDBN of A: 1 byte (R146). -/
def execLdbnA (d a : BitVec 5) (o : BitVec 12) : State → Out :=
  instrG 4 (loadTo 1 1 false d a (sext12 o))
/-- LDH of A: 2 bytes, sign-extended (R146). -/
def execLdhA (d a : BitVec 5) (o : BitVec 12) : State → Out :=
  instrG 4 (loadTo 1 2 true d a (sext12 o))
/-- LDHN of A: 2 bytes (R146). -/
def execLdhnA (d a : BitVec 5) (o : BitVec 12) : State → Out :=
  instrG 4 (loadTo 1 2 false d a (sext12 o))
/-- LDW of A: 4 bytes, sign-extended (R146). -/
def execLdwA (d a : BitVec 5) (o : BitVec 12) : State → Out :=
  instrG 4 (loadTo 1 4 true d a (sext12 o))
/-- LDWN of A: 4 bytes (R146). -/
def execLdwnA (d a : BitVec 5) (o : BitVec 12) : State → Out :=
  instrG 4 (loadTo 1 4 false d a (sext12 o))
/-- LDD of A: 8 bytes (R146). -/
def execLddA (d a : BitVec 5) (o : BitVec 12) : State → Out :=
  instrG 4 (loadTo 1 8 false d a (sext12 o))
/-- STB of A: the low 1 byte of B (R146). -/
def execStbA (a b : BitVec 5) (o : BitVec 12) : State → Out :=
  instrG 4 (storeFrom 1 1 a b (sext12 o))
/-- STH of A: the low 2 bytes of B (R146). -/
def execSthA (a b : BitVec 5) (o : BitVec 12) : State → Out :=
  instrG 4 (storeFrom 1 2 a b (sext12 o))
/-- STW of A: the low 4 bytes of B (R146). -/
def execStwA (a b : BitVec 5) (o : BitVec 12) : State → Out :=
  instrG 4 (storeFrom 1 4 a b (sext12 o))
/-- STD of A: the low 8 bytes of B (R146). -/
def execStdA (a b : BitVec 5) (o : BitVec 12) : State → Out :=
  instrG 4 (storeFrom 1 8 a b (sext12 o))
/-- LDB of S: 1 byte, sign-extended (R146). -/
def execLdbS (d a : BitVec 5) (o : BitVec 12) : State → Out :=
  instrG 4 (loadTo 3 1 true d a (sext12 o))
/-- LDBN of S: 1 byte (R146). -/
def execLdbnS (d a : BitVec 5) (o : BitVec 12) : State → Out :=
  instrG 4 (loadTo 3 1 false d a (sext12 o))
/-- LDH of S: 2 bytes, sign-extended (R146). -/
def execLdhS (d a : BitVec 5) (o : BitVec 12) : State → Out :=
  instrG 4 (loadTo 3 2 true d a (sext12 o))
/-- LDHN of S: 2 bytes (R146). -/
def execLdhnS (d a : BitVec 5) (o : BitVec 12) : State → Out :=
  instrG 4 (loadTo 3 2 false d a (sext12 o))
/-- LDW of S: 4 bytes, sign-extended (R146). -/
def execLdwS (d a : BitVec 5) (o : BitVec 12) : State → Out :=
  instrG 4 (loadTo 3 4 true d a (sext12 o))
/-- LDWN of S: 4 bytes (R146). -/
def execLdwnS (d a : BitVec 5) (o : BitVec 12) : State → Out :=
  instrG 4 (loadTo 3 4 false d a (sext12 o))
/-- LDD of S: 8 bytes (R146). -/
def execLddS (d a : BitVec 5) (o : BitVec 12) : State → Out :=
  instrG 4 (loadTo 3 8 false d a (sext12 o))
/-- STB of S: the low 1 byte of B (R146). -/
def execStbS (a b : BitVec 5) (o : BitVec 12) : State → Out :=
  instrG 4 (storeFrom 3 1 a b (sext12 o))
/-- STH of S: the low 2 bytes of B (R146). -/
def execSthS (a b : BitVec 5) (o : BitVec 12) : State → Out :=
  instrG 4 (storeFrom 3 2 a b (sext12 o))
/-- STW of S: the low 4 bytes of B (R146). -/
def execStwS (a b : BitVec 5) (o : BitVec 12) : State → Out :=
  instrG 4 (storeFrom 3 4 a b (sext12 o))
/-- STD of S: the low 8 bytes of B (R146). -/
def execStdS (a b : BitVec 5) (o : BitVec 12) : State → Out :=
  instrG 4 (storeFrom 3 8 a b (sext12 o))
/-- LDW.H: LDW of S (R82). -/
def execLdwH (d a : BitVec 3) (i : BitVec 5) : State → Out :=
  instrG 2 (loadTo 3 4 true (hreg d) (hreg a) (sext5 i))
/-- LDD.H: LDD of S (R82). -/
def execLddH (d a : BitVec 3) (i : BitVec 5) : State → Out :=
  instrG 2 (loadTo 3 8 false (hreg d) (hreg a) (sext5 i))
/-- STW.H: STW of S, its data in d′ (R82). -/
def execStwH (d a : BitVec 3) (i : BitVec 5) : State → Out :=
  instrG 2 (storeFrom 3 4 (hreg a) (hreg d) (sext5 i))
/-- STD.H: STD of S, its data in d′ (R82). -/
def execStdH (d a : BitVec 3) (i : BitVec 5) : State → Out :=
  instrG 2 (storeFrom 3 8 (hreg a) (hreg d) (sext5 i))

/-! ## Full-empty instructions (R152 to R156) -/

/-- STFL: the aligned word written and set full (R152), as a release: the context's remote-port accesses come before (R340). -/
def stfl (sp : BitVec 2) (a b : BitVec 5) (o : BitVec 12) : M Unit := do
  let base ← rg a
  let x ← rg b
  portsDone
  let p ← checkSite .store 4 (siteAt sp (base + sext12 o))
  writeSpot p (toBytes 4 x.toNat)
  modCurCore fun c => setFull c sp ((base + sext12 o).toNat % 65536)

/-- The word of a full-empty access met: the context's returning atomics come before (R341), and an error of the word covers its
bit (R459; DEDUCED, log entry 63). -/
def meetWord (sp : BitVec 2) (off : Nat) (p : Spot) : M Unit := do
  let s ← ask
  waitUntil (!atomicsOut s)
  checkLocal (getCore s s.core) s.core sp off 4 p.val

/-- CLRE: the aligned word set empty, its data unchanged (R153). -/
def clre (sp : BitVec 2) (a : BitVec 5) (o : BitVec 12) : M Unit := do
  let base ← rg a
  let off := (base + sext12 o).toNat % 65536
  let p ← checkSite .store 4 (siteAt sp (base + sext12 o))
  meetWord sp off p
  let s ← ask
  waitUntil (!matrixBefore s sp off 4)
  modCurCore fun c => usePort (setEmpty c sp off) sp (now s)

/-- STFL of A (R152). -/
def execStflA (a b : BitVec 5) (o : BitVec 12) : State → Out := instrG 4 (stfl 1 a b o)
/-- STFL of S (R152). -/
def execStflS (a b : BitVec 5) (o : BitVec 12) : State → Out := instrG 4 (stfl 3 a b o)
/-- CLRE of A (R153). -/
def execClreA (a : BitVec 5) (o : BitVec 12) : State → Out := instrG 4 (clre 1 a o)
/-- CLRE of S (R153). -/
def execClreS (a : BitVec 5) (o : BitVec 12) : State → Out := instrG 4 (clre 3 a o)

/-- The word of an instruction as TRAPVAL holds it (R78, R321). -/
def insnWord (i : Instr) : W64 := BitVec.ofNat 64 (natOf (encode i).bytes)

/-- The trap that the handler context takes on an instruction that it may not run (R21): cause 0x09, the instruction
word in TRAPVAL (R321). -/
def notInHandler (i : Instr) : M Unit := do
  let h ← isHandler
  trapIf h 0x09 (insnWord i)

/-- LDWT: waits until the word is full, then loads it as it stands in the cycle in which that is observed; it leaves the bit
full and never times out (R154). A waiting context observes the word as it becomes full (R156). -/
def execLdwt (d a b : BitVec 5) (sp : BitVec 2) : State → Out := instrG 4 do
  notInHandler (.ldwt d a b sp)
  let x ← rg a
  let y ← rg b
  let off := (x + y).toNat % 65536
  claim (.g d)
  let p ← checkSite .load 4 (siteAt sp (x + y))
  meetWord sp off p
  let k ← cur
  match k.await with
  | some (.word sp' off' (some w)) =>
    if sp' = sp && off' = off then wg d (w.signExtend 64) else throw (.wait (.full sp off))
  | _ => do
    let c ← curCore
    if !isFull c sp off then throw (.wait (.full sp off))
    let bs ← readSpot 4 p
    wg d (extend true 4 bs)

/-- TSTF: the full-empty state of the word; it reads no data and never waits for the bit, nor for an MDRAIN (R155).
DEDUCED, log entry 64. -/
def execTstf (d a b : BitVec 5) (sp : BitVec 2) : State → Out := instrG 4 do
  let x ← rg a
  let y ← rg b
  claim (.g d)
  let p ← checkSite .load 4 (siteAt sp (x + y))
  meetWord sp ((x + y).toNat % 65536) p
  let s ← ask
  modCurCore (usePort · sp (now s))
  wg d (bool64 (isFull (getCore s s.core) sp ((x + y).toNat % 65536)))

/-! ## Element accesses (R157, R161) -/

/-- The alignment that a page format asks of an array's start (R157). -/
def elemAlign (f : Nat) : Nat := if f = 0 then 4 else if f = 1 then 2 else if f = 4 then 64 else 1

/-- The address of an element of an array in a format (R157): of its bytes, or of its line for E2M1. -/
def elemAddr (f : Nat) (a : W64) (i : Nat) : W64 :=
  if f = 4 then a + BitVec.ofNat 64 (64 * (i / 96)) else a + BitVec.ofNat 64 (elemBytes f * i)

/-- How many bytes an element access reads at its address. -/
def elemSpan (f : Nat) : Nat := if f = 4 then 64 else elemBytes f

/-- The spots of elements of an array in global memory, checked in the order of R157: step 3 of R148 before step 2. The page
of the array's start is translated first, for its format alone; then each element's page, which must allow the access and
have the same format (R161); then the alignment of the array's start, then steps 4 and 5. The format comes with them. With
no element there is no check (R162). DEDUCED, log entry 65. -/
def globalElems (acc : Acc) (a : W64) (idx : List Nat) : M (Nat × List Spot) := do
  let start := siteAt 0 a
  if idx.isEmpty then pure (0, [])
  else do
    trapIf (!rangeOk start) 0x04 start.val
    match start with
    | .mem va => do
      let l ← leafFor va .load
      let f := leafFmt l.entry
      let spots ← gather (fun i => do
        let x := siteAt 0 (elemAddr f a i)
        trapIf (!rangeOk x) 0x04 x.val
        match x with
        | .mem va => do
          let l ← leafFor va acc
          trapIf (leafFmt l.entry ≠ f) 0x04 x.val
          pure (Spot.phys va (leafPa l va) l)
        | .window c o => pure (Spot.window c o)
        | .loc sp o => pure (Spot.loc sp o)) idx
      trapIf (va.toNat % elemAlign f ≠ 0) 0x03 start.val
      each (refused acc) spots
      each (fun x => match regionCause acc (elemSpan f) x with
        | some cause => trapM cause x.val
        | none => pure ()) spots
      pure (f, spots)
    | _ => do
      -- the S window is raw (DEDUCED, log entry 16)
      let spots ← checkSites acc 4 4 (idx.map fun i => siteAt 0 (elemAddr 0 a i))
      pure (0, spots)

/-- The element at a spot, decoded (R120): no flag. -/
def readElem (f : Nat) (i : Nat) (x : Spot) : M (BitVec 32) := do
  let bs ← readSpot (elemSpan f) x
  pure (if f = 4 then lineGet (vecOf bs) (i % 96) else elemGet f bs)

/-- FPSTAT flags set (R95). -/
def raise (f : FpFlags) : M Unit := modCur fun c => { c with fpstat := c.fpstat ||| f }

/-- Elements stored, each E2M1 block once with all its new elements in place (R109, R157, R161). -/
def writeElems (f : Nat) (els : List (Nat × Spot × BitVec 32)) : M Unit := do
  if f = 4 then
    let lines := (els.map (·.2.1)).eraseDups
    each (fun x => do
      let bs ← readSpot 64 x
      let new := (els.filter (fun e => e.2.1 = x)).map fun e => (e.1 % 96, e.2.2)
      let (l, fl) := linePut (vecOf bs) new
      raise fl
      writeSpot x (vecBytes l)) lines
  else
    each (fun e => do
      let (bs, fl) := elemPut f e.2.2
      raise fl
      writeSpot e.2.1 bs) els
  aliasDone (els.map (·.2.1)) (els.map (·.2.1))

/-- LDE: the element decoded to FP32 through its page's format (R157). -/
def execLde (d a b : BitVec 5) : State → Out := instrG 4 do
  let x ← rg a
  let y ← rg b
  claim (.g d)
  let (f, l) ← globalElems .load x [y.toNat]
  let v ← readElem f y.toNat (l.headD (.loc 1 0))
  aliasDone [] l
  wg d (v.setWidth 64)

/-- STE: an FP32 value encoded into the element through its page's format (R157). -/
def execSte (d a b : BitVec 5) : State → Out := instrG 4 do
  let x ← rg a
  let y ← rg b
  let z ← rg d
  let (f, l) ← globalElems .store x [y.toNat]
  writeElems f (l.map fun p => (y.toNat, p, z.setWidth 32))

/-- PF: the cluster cache is asked for a line; nothing else, and no trap (R158). A miss of the TLB goes to the walker
and the fill follows the walk. -/
def execPf (a b : BitVec 5) : State → Out := instrG 4 do
  let x ← rg a
  let y ← rg b
  let s ← ask
  let c ← cur
  match siteAt 0 (x + y) with
  | .mem va =>
    if (tlbHit (getCluster s (clusterOf s.core)) c.asid va).isSome then
      update fun s => sometime s .prefetchFill (.page (clusterOf s.core) c.asid va)
    else do
      waitUntil (!walkFull s (clusterOf s.core) c.asid va)
      update fun s => startWalk s (clusterOf s.core) c.asid va .fill
  | _ => pure ()

end Sys2Proof.Machine
end

