-- ==== Sys2Proof/Machine/Barriers.lean ====
section
/-! DEFINITION. Barriers, group contributions and their events (12_sync_ring.md R289 to R293, 10_engines.md R250 to R252,
18_strands_runtime.md R369 to R371). -/
namespace Sys2Proof.Machine
open Sys2Proof

/-! ## Barriers (R289 to R293) -/

/-- A barrier of a core's file. -/
def barAt (c : Core) (n : BitVec 9) : Barrier := tabGet Barrier.reset c.bars n.toNat
/-- A barrier changed. -/
def putBar (core : Nat) (n : BitVec 9) (b : Barrier) (s : State) : State :=
  modCore s core fun c => { c with bars := tabPut c.bars n.toNat b }
/-- The bit of a context. -/
def ctxBit (x : Nat) : BitVec 4 := BitVec.ofNat 4 (2 ^ x)
/-- The trap of barrier misuse (R290). -/
def misuse (cond : Bool) (n : BitVec 9) : M Unit := trapIf cond 0x07 (n.setWidth 64)
/-- A barrier of the current core. -/
def curBar (n : BitVec 9) : M Barrier := do
  let c ← curCore
  pure (barAt c n)

/-- BAR.INIT (R290). -/
def execBarInit (a : BitVec 5) (n : BitVec 9) : State → Out := instr 4 do
  notInHandler (.barInit a n)
  let x ← rg a
  let b ← curBar n
  misuse ((b.init && decide (b.pend ≠ 0)) || decide (x.setWidth 16 = 0#16) || decide (x.toNat / 65536 ≠ 0)) n
  update fun s => putBar s.core n { Barrier.reset with init := true, expect := x.setWidth 16 } s

/-- BAR.ENROL (R290). -/
def execBarEnrol (n : BitVec 9) : State → Out := instr 4 do
  notInHandler (.barEnrol n)
  let b ← curBar n
  misuse (!b.init) n
  update fun s => putBar s.core n { b with enrol := b.enrol ||| ctxBit s.ctx } s

/-- The checks of an arrival that BAR.ARR and BAR.GREL share (R290). DEDUCED, log entry 24. -/
def arrivalChecks (n : BitVec 9) (b : Barrier) (s : State) : M Unit :=
  misuse (!b.init || !b.enrol.getLsbD s.ctx || b.pend.getLsbD s.ctx) n

/-- BAR.ARR: a release (R340), then an arrival (R290). -/
def execBarArr (n : BitVec 9) : State → Out := instr 4 do
  notInHandler (.barArr n)
  let b ← curBar n
  let s ← ask
  arrivalChecks n b s
  misuse b.group.isSome n
  portsDone
  update fun s => putBar s.core n (phaseCheck { b with arrived := b.arrived + 1, pend := b.pend ||| ctxBit s.ctx }) s

/-- BAR.WAIT (R290): once it waits it only waits for its context's PEND bit, which is clear too when the barrier has become
uninitialised meanwhile (R291). -/
def execBarWait (n : BitVec 9) : State → Out := instr 4 do
  notInHandler (.barWait n)
  let b ← curBar n
  let s ← ask
  misuse (!b.init && decide ((getCtx s s.core s.ctx).await ≠ some (.bar n))) n
  if b.pend.getLsbD s.ctx then throw (.wait (.bar n)) else pure ()

/-- BAR.DROP (R290, R291). -/
def execBarDrop (n : BitVec 9) : State → Out := instr 4 do
  notInHandler (.barDrop n)
  let b ← curBar n
  let s ← ask
  misuse (!(b.init && b.enrol.getLsbD s.ctx)) n
  update fun s => settleBars (putBar s.core n (barDrop s.ctx b) s) s.core

/-- BAR.SIG: a release, then a signal on its way (R292). -/
def execBarSig (a : BitVec 5) (n : BitVec 9) : State → Out := instr 4 do
  notInHandler (.barSig a n)
  let x ← rg a
  misuse (decide (x &&& 0xFFFF0000FFF8C000 ≠ 0#64) || x.getLsbD 18) n
  portsDone
  let c ← cur
  update fun s => sometime s .barSignalArrive
    (.barSig ⟨c.dom, x.setWidth 14, x.extractLsb' 16 3, x.extractLsb' 32 16, n⟩)

/-- BAR.GREL: a release, then an arrival of a phase that a group's round releases (R293). -/
def execBarGrel (n : BitVec 9) (g : BitVec 6) : State → Out := instr 4 do
  notInHandler (.barGrel n g)
  let b ← curBar n
  let s ← ask
  let c ← cur
  arrivalChecks n b s
  misuse (match b.group with
    | some h => decide (h ≠ g)
    | none => decide (b.arrived ≠ 0)) n
  trapIf (groupWord s c.dom g).isNone 0x07 (g.setWidth 64)
  portsDone
  update fun s => settleBars
    (putBar s.core n { b with arrived := b.arrived + 1, pend := b.pend ||| ctxBit s.ctx, group := some g } s) s.core

/-- A stray signal counted at its target (R292, R49). -/
def stray (s : State) (core : Nat) : State :=
  modCore s core fun c => { c with straySig := if c.straySig = BitVec.allOnes 32 then c.straySig else c.straySig + 1 }

/-- A barrier of a domain at a core changed: in the image that holds the core's barriers of the domain (R371), else in the
core's file while the core is bound to the domain's launch; `miss` is what is left when there is no such barrier. -/
def onBarrier (s : State) (core : Nat) (dom : BitVec 12) (n : BitVec 9) (f : Barrier → Barrier) (miss : State → State) :
    State :=
  match (getDie s (dieOf core)).dir.find? fun o => decide (o.core = core) && decide (o.ctxt.dom = dom) && o.barm with
  | some o =>
    let b := tabGet Barrier.reset o.bars n.toNat
    if b.init then
      let o := { o with bars := tabPut o.bars n.toNat (f b) }
      settleMoved (putSaved s o) o
    else miss s
  | none =>
    let b := barAt (getCore s core) n
    if b.init && (coreLaunch s core).dom = dom then settleBars (putBar core n (f b) s) core else miss s

/-- BAR_SIGNAL_ARRIVE (R292, R371). -/
def execBarSignalArrive : State → Out := event .barSignalArrive do
  let s ← ask
  match s.arg with
  | .barSig g =>
    let core := g.core.toNat
    let c := getCtx s core g.ctx.toNat
    let w : Who := ⟨g.core, g.ctx, g.inst, 0, 0, 0⟩
    let hit := fun (b : Barrier) => phaseCheck { b with arrived := b.arrived + 1 }
    if c.bound && c.inst = g.inst then
      let b := barAt (getCore s core) g.bar
      if c.dom = g.dom && b.init then update fun s => settleBars (putBar core g.bar (hit b) s) core else update (stray · core)
    else match savedOf s w with
      | some e =>
        if e.ctxt.dom ≠ g.dom then update (stray · core)
        else update fun s => onBarrier s core g.dom g.bar hit (stray · core)
      | none => update (stray · core)
  | _ => pure ()

/-- GREL_RELEASE (R293, R371): the waiters of a barrier whose group's round is complete are released. Operands core, barrier
and domain. -/
def execGrelRelease : State → Out := event .grelRelease do
  let s ← ask
  match s.arg with
  | .num core n dom =>
    update fun s => onBarrier s core (BitVec.ofNat 12 dom) (BitVec.ofNat 9 n) (fun b => if b.gone then phaseEnd b else b) id
  | _ => pure ()

/-! ## Groups (R250 to R252) -/

/-- The checks that the group instructions share (R251, R253): the configuration word of the group's tree. -/
def groupTree (i : Instr) (n : BitVec 6) : M W64 := do
  notInHandler i
  let s ← ask
  let c ← cur
  match groupWord s c.dom n with
  | some w => pure w
  | none => trapM 0x07 (n.setWidth 64)

/-- CTRB: a release, then the core's contribution to the round (R252). -/
def execCtrb (a : BitVec 5) (n : BitVec 6) : State → Out := instr 4 do
  let _ ← groupTree (.ctrb a n) n
  let x ← rg a
  let s ← ask
  let c ← cur
  waitUntil ((groupRound s c.dom n).setting = 0 && !contributed s c.dom n s.core)
  portsDone
  let w ← whoNow
  update fun s => contribute s c.dom n s.core (some (x, w)) none
  modCur fun c => { c with grpWait := n :: c.grpWait }

/-- GRD: waits for the result of the context's contribution, then reads grpN (R252). -/
def execGrd (d : BitVec 5) (n : BitVec 6) : State → Out := instr 4 do
  let _ ← groupTree (.grd d n) n
  let c ← cur
  waitUntil (!c.grpWait.contains n)
  wg d (c.grp[n.toNat]'(n.isLt))

/-- GRPSET: waits until no round is in progress, then sends the word to the routers of the tree (R251). -/
def execGrpset (a : BitVec 5) (n : BitVec 6) : State → Out := instr 4 do
  let _ ← groupTree (.grpset a n) n
  let x ← rg a
  trapIf (decide (128 ≤ x.toNat) || decide (bits x 6 4 = 7)) 0x07 (n.setWidth 64 ||| 0x100)
  let s ← ask
  let c ← cur
  let r := groupRound s c.dom n
  waitUntil r.vals.isEmpty
  update fun s => laterAfter (putRound s { r with setting := r.setting + 1 }) .grpsetComplete
    (.word x 0 (c.dom.toNat * 64 + n.toNat)) (fun d => d.ev = .grpsetComplete)

/-- GRPSET_COMPLETE (R251): every router holds the new word. -/
def execGrpsetComplete : State → Out := event .grpsetComplete do
  let s ← ask
  match s.arg with
  | .word x _ k =>
    let dom := BitVec.ofNat 12 (k / 64)
    let r := groupRound s dom (BitVec.ofNat 6 k)
    update fun s => putRound { s with launches := s.launches.map fun l =>
      if l.dom = dom && l.phase ≠ .done then { l with groups := tabPut l.groups (k % 64) x } else l }
      { r with setting := r.setting - 1 }
  | _ => pure ()

/-- Two values combined by a group's operator (R251, R252). -/
def groupOp (op : Nat) (x y : W64) : W64 :=
  if op = 0 then x + y
  else if op = 1 then (add32 (x.setWidth 32) (y.setWidth 32)).1.setWidth 64
  else if op = 2 then (if y.slt x then y else x)
  else if op = 3 then (if x.slt y then y else x)
  else if op = 4 then x ||| y
  else if op = 5 then x &&& y
  else x ^^^ y

/-- Values combined in order; a contribution with no value is left out (R293). -/
def combineAll (op : Nat) : List (Option W64) → Option W64
  | [] => none
  | none :: rest => combineAll op rest
  | some x :: rest => some (rest.foldl (fun a v => match v with | some y => groupOp op a y | none => a) x)

/-- The root's result as it is sent: .f32 add returns it zero-extended, a NaN canonical, though one core alone had a value
(R94, R252). -/
def rootResult (op : Nat) (x : W64) : W64 := if op = 1 then groupOp 1 x 0x80000000 else x

/-- Whether an event is the arrival of a group's result at a context: results come in the order of their rounds. -/
def resultOf (w : Who) (n : Nat) (d : Due) : Bool :=
  match d.arg with
  | .who v m _ => d.ev = .groupResultArrive && decide (v = w) && decide (m = n)
  | _ => false

/-- The cluster router of a cluster (R4, R251): its clusters are four in a row of one die. -/
def routerOf (cl : Nat) : Nat := cl / 4

/-- The partial result of a node of a group's tree (R251, R252): the node's own cores in core order, then each child's
partial in increasing order. -/
def nodePartial (op : Nat) (nodes : List (List Nat)) (val : Nat → Option W64) : Nat → Nat → Option W64
  | 0, _ => none
  | f + 1, i =>
    let own := (nodes.getD i []).flatMap fun cl => (List.range 8).map fun j => val (cl * 8 + j)
    let kids := ((List.range 4).map (4 * i + 1 + ·)).filter (· < nodes.length)
    combineAll op (combineAll op own :: kids.map (nodePartial op nodes val f))

/-- The clusters of each node of a domain's tree, in node order (R251): the routers in order of their smallest rank. -/
def treeNodes (clusters : List Nat) : List (List Nat) :=
  (clusters.map routerOf).eraseDups.map fun r => (clusters.filter (routerOf · = r)).mergeSort (· ≤ ·)

/-- GROUP_ROUND_COMPLETE (R252, R293): the root's result goes to every contributing context, and the barriers of the round
are released at T + STEP × rank. Operands domain and group. -/
def execGroupRoundComplete : State → Out := event .groupRoundComplete do
  let s ← ask
  match s.arg with
  | .num d n _ =>
    let dom := BitVec.ofNat 12 d
    let grp := BitVec.ofNat 6 n
    let r := groupRound s dom grp
    match launchOf s dom with
    | none => pure ()
    | some l =>
      let w := tabGet 0 l.groups n
      let nodes := treeNodes l.clusters
      let val := fun core => ((r.vals.find? (·.1 = core)).bind (·.2))
      let res := rootResult (bits w 6 4) ((nodePartial (bits w 6 4) nodes val (nodes.length + 1) 0).getD 0)
      let s := r.whos.foldl (fun s q => laterAfter s .groupResultArrive (.who q n res) (resultOf q n)) s
      let s := r.greln.foldl (fun s q =>
        later s (bits w 3 0 * l.clusters.idxOf (clusterOf q.1)) .grelRelease (.num q.1 q.2 d)) s
      let s := putRound s { r with vals := [], whos := [], greln := [] }
      let s := (l.clusters.flatMap fun cl => (List.range 8).map (cl * 8 + ·)).foldl settleBars s
      update fun _ => (s.dies.flatMap (·.2.dir) |>.filter fun e => e.barm && e.ctxt.dom = dom).foldl settleMoved s
  | _ => pure ()

/-- GROUP_RESULT_ARRIVE (R252): operands the context, the group and the result. -/
def execGroupResultArrive : State → Out := event .groupResultArrive do
  let s ← ask
  match s.arg with
  | .who w n v => update fun s => deliver s w fun c => { c with
      grp := c.grp.setIfInBounds n v
      grpWait := c.grpWait.erase (BitVec.ofNat 6 n) }
  | _ => pure ()

end Sys2Proof.Machine
end

