-- ==== Sys2Proof/Machine/Handles.lean ====
section
/-! DEFINITION. Circular-buffer handles, completion counters, sleeps and the timeouts of their waits (10_engines.md R227 to
R232, R244, R245). -/
namespace Sys2Proof.Machine
open Sys2Proof

/-! ## The fields of a handle (R227, R228) -/

def Handle.prod (h : Handle) : Nat := bits h.cfg 51 48
def Handle.cnt (h : Handle) : Nat := bits h.cfg 39 32
/-- Slot size in bytes. -/
def Handle.slot (h : Handle) : Nat := bits h.cfg 31 20 * 32
/-- The space of a handle's ring: A or S. -/
def Handle.space (h : Handle) : BitVec 2 := if h.cfg.getLsbD 16 then spS else spA
def Handle.base (h : Handle) : Nat := bits h.cfg 15 0
def Handle.configured (h : Handle) : Bool := decide (h.cfg ≠ 0)
/-- The first byte of the slot `i` places after the consumer pointer. -/
def Handle.slotAt (h : Handle) (i : Nat) : Nat := h.base + (h.cptr.toNat + i) % max 1 h.cnt * h.slot
/-- Slots neither filled nor reserved. -/
def Handle.free (h : Handle) : Nat := h.cnt - h.filled.toNat - h.pend.toNat

/-- A configuration word that is malformed (R227). -/
def badConfig (w : W64) : Bool :=
  decide (bits w 51 48 > 2) || decide (bits w 39 32 = 0) || decide (bits w 31 20 = 0) ||
  decide (bits w 63 52 ≠ 0) || decide (bits w 47 40 ≠ 0) || decide (bits w 19 17 ≠ 0) || decide (bits w 15 0 % 32 ≠ 0) ||
  decide (bits w 15 0 + bits w 39 32 * bits w 31 20 * 32 > if w.getLsbD 16 then 0x6000 else 0x10000)

def handleOfCtx (c : Ctx) (n : BitVec 4) : Handle := c.h[n.toNat]'(n.isLt)
def setHandle (n : BitVec 4) (h : Handle) (c : Ctx) : Ctx := { c with h := c.h.set n.toNat h n.isLt }

/-- A handle of the current context, which must be configured (R36, R230). -/
def needHandle (n : BitVec 4) : M Handle := do
  let c ← cur
  let h := handleOfCtx c n
  trapIf (!h.configured) 0x11 (n.setWidth 64)
  pure h

/-- Slots consumed (R230). -/
def Handle.advance (h : Handle) (n : Nat) : Handle :=
  { h with filled := h.filled - BitVec.ofNat 8 n, cptr := BitVec.ofNat 8 ((h.cptr.toNat + n) % max 1 h.cnt) }
/-- Slots reserved by a producer (R231). -/
def Handle.reserve (h : Handle) (n : Nat) : Handle := { h with pend := h.pend + BitVec.ofNat 8 n }
/-- Reserved slots published (R231). -/
def Handle.publish (h : Handle) (n : Nat) : Handle :=
  { h with pend := h.pend - BitVec.ofNat 8 n, filled := h.filled + BitVec.ofNat 8 n }

/-- The TRAPVAL of a handle trap. -/
def handleVal (n : BitVec 4) (code : Nat) : W64 := n.setWidth 64 ||| BitVec.ofNat 64 code

/-- Whether a copy job of the current context has still to read bytes of the next `k` slots a producer of a handle would take
(R329): its source in A or S lies over one of them. Cores' reads are made as they issue. -/
def slotsRead (s : State) (h : Handle) (k : Nat) : Bool :=
  (getCluster s (clusterOf s.core)).jobs.any fun j =>
    isMine s j.who && jobLive j && (j.kind = .put || j.kind = .scat) &&
    (match j.loc with | .bufA => h.space = spA | .bufS => h.space = spS | _ => false) &&
    (List.range k).any fun i =>
      let a := h.slotAt (h.filled.toNat + h.pend.toNat + i)
      decide (j.lbase < a + h.slot) && decide (a < j.lbase + (j.rows - 1) * j.pitch + j.rowLen)

/-- The wait for filled slots; it times out while nothing is reserved (R232). -/
def waitFilled (n : BitVec 4) (h : Handle) (w : Nat) : M Unit :=
  if w ≤ h.filled.toNat then pure () else throw (.wait (.handle (handleVal n 0x200) (h.pend = 0#8)))
/-- The wait for free slots (R232), from which every earlier read of the context has been made (R329). -/
def waitFree (n : BitVec 4) (h : Handle) (k : Nat) : M Unit := do
  let s ← ask
  if k ≤ h.free && !slotsRead s h k then pure () else throw (.wait (.handle (handleVal n 0x300) true))

/-! ## Handle instructions (R229, R230) -/

/-- HSET (R230): a word of zero returns the handle to the unconfigured state (R227). -/
def execHset (n : BitVec 4) (a : BitVec 5) : State → Out := instr 4 do
  notInHandler (.hset n a)
  let w ← rg a
  let c ← cur
  trapIf (w ≠ 0#64 && badConfig w) 0x11 (handleVal n 0x500)
  waitUntil ((handleOfCtx c n).pend = 0#8)
  modCur (setHandle n ⟨w, 0, 0, 0⟩)

/-- HWAIT (R230). -/
def execHwait (n : BitVec 4) (w : BitVec 4) : State → Out := instr 4 do
  notInHandler (.hwait n w)
  let h ← needHandle n
  waitFilled n h w.toNat

/-- HADV (R230). -/
def execHadv (n : BitVec 4) (k : BitVec 5) : State → Out := instr 4 do
  notInHandler (.hadv n k)
  let h ← needHandle n
  trapIf (h.filled.toNat < k.toNat) 0x11 (handleVal n 0x400)
  modCur (setHandle n (h.advance k.toNat))

/-- HPUB: a release (R230, R340). -/
def execHpub (n : BitVec 4) (k : BitVec 5) : State → Out := instr 4 do
  notInHandler (.hpub n k)
  let h ← needHandle n
  trapIf (h.prod ≠ 0) 0x11 (handleVal n 0x100)
  waitFree n h k.toNat
  portsDone
  modCur (setHandle n { h with filled := h.filled + k.setWidth 8 })

/-- HSTAT, and its configuration form (R230). -/
def execHstat (d : BitVec 5) (n : BitVec 4) (f : BitVec 1) : State → Out := instr 4 do
  notInHandler (.hstat d n f)
  let c ← cur
  let h := handleOfCtx c n
  wg d (if f = 1#1 then h.cfg else handleState h)

/-! ## Completion counters (R245) -/

def counterOf (c : Ctx) (n : BitVec 4) : Counter := c.cc[n.toNat]'(n.isLt)

/-- CC.SET (R245). -/
def execCcSet (n : BitVec 4) (a : BitVec 5) : State → Out := instr 4 do
  notInHandler (.ccSet n a)
  let w ← rg a
  modCur fun c => { c with cc := c.cc.set n.toNat ⟨w.extractLsb' 32 32, w.extractLsb' 0 32⟩ n.isLt }

/-- Whether a request in a well's queue posts to a counter (R216, R219). -/
def wellPosts (n : BitVec 4) : WellOp → Bool
  | .q _ _ toA cc _ => toA.isSome && cc = n
  | .scan _ _ _ _ _ _ _ _ _ _ cc _ => cc = n
  | _ => false

/-- Whether work of the current context that posts to a counter is in flight (R245). -/
def posting (s : State) (n : BitVec 4) : Bool :=
  (getCluster s (clusterOf s.core)).jobs.any (fun j => isMine s j.who && jobLive j && j.ox2.extractLsb' 0 4 = n) ||
  s.dies.any (fun p => p.2.wellQ.any fun q => isMine s q.who && wellPosts n q.op) ||
  s.agenda.any fun d => match d.arg with
    | .remote r _ => isMine s r.who && decide (r.cc = n)
    | .query r => isMine s r.who && r.toA.isSome && decide (r.cc = n)
    | .sum r => isMine s r.who && decide (r.cc = n)
    | _ => false

/-- CC.WAIT (R245): it times out while nothing that posts to the counter is in flight. -/
def execCcWait (d : BitVec 5) (n : BitVec 4) : State → Out := instr 4 do
  notInHandler (.ccWait d n)
  claim (.g d)
  let c ← cur
  let k := counterOf c n
  let s ← ask
  if k.done = k.expect then wg d (counterWord k)
  else throw (.wait (.counter (0x1000 ||| n.setWidth 64) (!posting s n)))

/-! ## Sleeps (R244) -/

/-- Whether a promise is kept: its job is complete, or its id no longer holds that promise (R244). -/
def kept (c : Cluster) (v : W64) : Bool :=
  !(c.jobs.any fun j => j.id = v.extractLsb' 0 8 && j.promise = v.extractLsb' 8 56 && decide (j.state.toNat < 2))

/-- SLEEP.P (R244). In the cycle of the promise itself it goes on only after what lands in that cycle (R325). -/
def execSleepP (a : BitVec 5) : State → Out := instrRaw do
  notInHandler (.sleepP a)
  let v ← rg a
  let s ← ask
  let cl ← curCluster
  let w ← whoNow
  if bits v 63 8 < now s then do
    trapIf (!kept cl v) 0x06 v
    advance 4
  else do
    modCur fun c => { c with run := .held (.sleep v) }
    update fun s => later s (bits v 63 8 - now s) .sleepWake (.who w 1 v)

/-- SLEEP.C (R244). -/
def execSleepC (a : BitVec 5) : State → Out := instrRaw do
  notInHandler (.sleepC a)
  let v ← rg a
  let s ← ask
  let w ← whoNow
  if v.toNat ≤ now s then advance 4
  else do
    modCur fun c => { c with run := .held (.sleep v) }
    update fun s => later s (v.toNat - now s) .sleepWake (.who w 0 v)

/-- SLEEP_WAKE (R244): operands the context, 1 for SLEEP.P, and the register's value. A promise not kept traps with cause
0x06 at the SLEEP.P. -/
def execSleepWake : State → Out := event .sleepWake do
  let s ← ask
  match s.arg with
  | .who w p v =>
    let core := w.core.toNat
    let x := w.ctx.toNat
    if resident s w && (getCtx s core x).run = .held (.sleep v) then
      if p = 1 && !kept (getCluster s (clusterOf core)) v then update fun s => takeTrap s core x 0x06 v false
      else update fun s =>
        modCtx s core x fun c => { c.goOn (c.pc + 4) (after s core 1) with run := .running }
    else pure ()
  | _ => pure ()

/-! ## Timeouts (R232, R245) -/

/-- A wait that has lasted since a cycle times out: the context, still waiting since then, takes cause 0x11; a matrix
instruction that waited at its acceptance is given up; a restartable instruction part way has PROG set (R86). -/
def timeOut (s : State) (w : Who) (since : Nat) (val : W64) : State :=
  let core := w.core.toNat
  let x := w.ctx.toNat
  if resident s w && (getCtx s core x).waitSince = some since then
    let s := match (getCtx s core x).run with
      | .held (.accept n) => modCluster s (clusterOf core) fun c => { c with mtx := c.mtx.filter (·.id ≠ n) }
      | _ => s
    takeTrap s core x 0x11 val false
  else s

/-- HANDLE_WAIT_TIMEOUT (R232). -/
def execHandleWaitTimeout : State → Out := event .handleWaitTimeout do
  let s ← ask
  match s.arg with
  | .who w since val => update fun s => timeOut s w since val
  | _ => pure ()

/-- CC_WAIT_TIMEOUT (R245). -/
def execCcWaitTimeout : State → Out := event .ccWaitTimeout do
  let s ← ask
  match s.arg with
  | .who w since val => update fun s => timeOut s w since val
  | _ => pure ()

end Sys2Proof.Machine
end

