-- ==== Sys2Proof/Machine/Matrix.lean ====
section
/-! DEFINITION. Matrix instructions and the weight macros (08_matrix.md R190 to R208, R475, 04_number_formats.md R110 to R118):
the arithmetic, the instructions to their issue, and the events of acceptance and completion. -/
namespace Sys2Proof.Machine
open Sys2Proof

/-! ## Operands (R110, R192) -/

/-- Bytes of a row of 64 elements (R110), by weight format code (R192). -/
def rowBytes (f : BitVec 3) : Nat := if f = 0 then 42 else if f = 1 then 32 else if f = 4 then 128 else 64
/-- Bytes of a 16-row A tile (R110). -/
def tileBytes (f : BitVec 3) : Nat := 16 * rowBytes f
/-- Bytes of a row of 32 elements of a row-major image (R200). -/
def mtrRow (f : BitVec 3) : Nat := if f = 1 then 16 else if f = 4 then 64 else 32
/-- Bytes of a weight image (R200). -/
def imageBytes (f : BitVec 3) (rowMajor : Bool) : Nat := if rowMajor then 64 * mtrRow f else 32 * rowBytes f

/-- The byte at a place of a list. -/
def byteAt (bs : List Byte) (i : Nat) : Nat := (bs.getD i 0).toNat

/-- The code of element `i` of a row (R110). -/
def rowCode (f : BitVec 3) (row : List Byte) (i : Nat) : Nat :=
  if f = 0 || f = 1 then byteAt row (i / 2) / (if i % 2 = 0 then 1 else 16) % 16
  else if f = 4 then byteAt row (2 * i) + 256 * byteAt row (2 * i + 1)
  else byteAt row i

/-- A signed reading of `w` bits. -/
def signedOf (w x : Nat) : Int := if 2 ^ (w - 1) ≤ x then (x : Int) - 2 ^ w else x

/-- The signed doubled code of an E2M1 element (R101). -/
def doubledInt (c : Nat) : Int := if 8 ≤ c % 16 then -(doubled c : Int) else doubled c

/-- Exponent, fraction and sign of an E4M3 or BF16 code. -/
def fieldsOf (f : BitVec 3) (x : Nat) : Nat × Nat × Bool :=
  if f = 2 then (x / 8 % 16, x % 8, decide (128 ≤ x)) else (x / 128 % 256, x % 128, decide (32768 ≤ x))

/-- A group of E4M3 or BF16 elements aligned to fixed point: the aligned values and G (R115); 0xFF when it holds a NaN or
an infinity (R116, R192). -/
def alignGroup (f : BitVec 3) (xs : List Nat) : List Int × Nat :=
  let w := if f = 2 then 3 else 7
  let fs := xs.map (fieldsOf f)
  let bad := fs.any fun p => if f = 2 then decide (p.1 = 15) && decide (p.2.1 = 7) else decide (p.1 = 255)
  let g := fs.foldl (fun m p => max m (max p.1 1)) 1
  (fs.map fun p =>
    let q := if p.1 = 0 then p.2.1 else 2 ^ w + p.2.1
    let a : Int := ((q <<< w) >>> (g - max p.1 1) : Nat)
    if p.2.2 then -a else a, if bad then 0xFF else g)

/-- An operand's row or column: its 64 values, its eight per-group bytes and its band scale. -/
structure Operand where
  vals : List Int
  grp  : List Nat
  band : BitVec 16
  deriving DecidableEq, Repr

/-- An operand from its 64 codes, its block scales and band (R110, R115, R192). -/
def operandOf (f : BitVec 3) (codes : List Nat) (scales : List Nat) (band : BitVec 16) : Operand :=
  if f = 0 then ⟨codes.map doubledInt, scales, band⟩
  else if f = 1 then ⟨codes.map (signedOf 4), [], 0⟩
  else if f = 3 then ⟨codes.map (signedOf 8), [], 0⟩
  else
    let gs := (chunks 8 8 codes).map (alignGroup f)
    ⟨gs.flatMap (·.1), gs.map (·.2), 0⟩

/-- An operand from a row in the A-tile layout (R110). -/
def rowOperand (f : BitVec 3) (row : List Byte) : Operand :=
  operandOf f ((List.range 64).map (rowCode f row)) ((List.range 8).map fun g => byteAt row (32 + g))
    (BitVec.ofNat 16 (byteAt row 40 + 256 * byteAt row 41))

/-- The columns of a weight image (R200). -/
def imageColumns (f : BitVec 3) (rowMajor : Bool) (img : List Byte) : List Operand :=
  if rowMajor then
    let rows := chunks (mtrRow f) 64 img
    (List.range 32).map fun j => operandOf f (rows.map fun r => rowCode f r j) [] 0
  else (chunks (rowBytes f) 32 img).map (rowOperand f)

/-- A slot's columns as it holds them (R192). -/
def slotColumns (w : WSlot) : List Operand :=
  ((chunks 64 32 w.cells).zip ((chunks 8 32 w.grp).zip (w.band.map fun b => b))).map fun p =>
    ⟨p.1.map (·.toInt), p.2.1.map (·.toNat), p.2.2⟩

/-! ## Weight slots (R190, R191, R200, R201) -/

/-- The key of a slot of a cluster: macro × 32 + slot. -/
def slotKey (sel : BitVec 8) : Nat := bits (sel.setWidth 64) 7 5 * 32 + bits (sel.setWidth 64) 4 0
def slotAt (c : Cluster) (k : Nat) : WSlot := tabGet WSlot.reset c.slots k
def putSlot (k : Nat) (w : WSlot) (c : Cluster) : Cluster := { c with slots := tabPut c.slots k w }

/-- The status word of a loaded slot (R191). -/
def slotStatus (w : Who) (f : BitVec 3) (pairHi : Bool) : BitVec 32 :=
  w.inst ++ (w.core.setWidth 3) ++ w.ctx ++ 0#3 ++ 0#2 ++ (if pairHi then 1#1 else 0#1) ++ 1#1 ++ f

/-- Bits of a slot's status. -/
def WSlot.valid (w : WSlot) : Bool := w.status.getLsbD 3
def WSlot.pairHi (w : WSlot) : Bool := w.status.getLsbD 4
def WSlot.loading (w : WSlot) : Bool := w.status.getLsbD 5
def WSlot.corrupt (w : WSlot) : Bool := w.status.getLsbD 6
def WSlot.fmt (w : WSlot) : BitVec 3 := w.status.extractLsb' 0 3

/-- The slots that a load of a format writes: a pair for BF16 (R201). -/
def slotSpan (k : Nat) (f : BitVec 3) : List Nat := if f = 4#3 then [k, k + 1] else [k]

/-- The other half of the BF16 pair that a slot belongs to. -/
def mateOf (c : Cluster) (k : Nat) : Option Nat :=
  let lower := slotAt c (k / 2 * 2)
  if lower.valid && lower.fmt = 4#3 && (slotAt c (k / 2 * 2 + 1)).pairHi then some (if k % 2 = 0 then k + 1 else k - 1) else none

/-- A pair that a load of another format into one half breaks: the other half becomes empty (R201). -/
def breakPair (k : Nat) (f : BitVec 3) (c : Cluster) : Cluster :=
  match (if f = 4#3 then none else mateOf c k) with
  | some mate => putSlot mate WSlot.reset c
  | none => c

/-- The slots whose state a load of a format changes: those it writes, and the other half of a pair it breaks (R201). -/
def slotsLoaded (c : Cluster) (k : Nat) (f : BitVec 3) : List Nat :=
  if f = 4#3 then slotSpan k f else k :: (mateOf c k).toList

/-- A slot as a load leaves it (R200, R201). -/
def installSlot (k : Nat) (f : BitVec 3) (cols : List Operand) (w : Who) (c : Cluster) : Cluster :=
  let c := breakPair k f c
  let c := putSlot k ⟨slotStatus w f false, cols.flatMap fun o => o.vals.map (BitVec.ofInt 16),
    cols.flatMap fun o => (o.grp ++ List.replicate (8 - o.grp.length) 0).map (BitVec.ofNat 8), cols.map (·.band), false⟩ c
  if f = 4#3 then putSlot (k + 1) { WSlot.reset with status := slotStatus w f true } c else c

/-! ## Tiles of C (R110, R204, R334) -/

/-- Words from bytes. -/
def words32 (bs : List Byte) : List (BitVec 32) := (chunks 4 (bs.length / 4) bs).map fun w => BitVec.ofNat 32 (natOf w)
/-- Bytes from words. -/
def bytes32 (ws : List (BitVec 32)) : List Byte := ws.flatMap fun w => toBytes 4 w.toNat

/-- The 512 words of a C tile as the matrix engine reads them: words that hold an uncorrectable error read zero, as the
copy unit's do (R240; DEDUCED, log entry 22). -/
def tileWords (c : Core) (t : BitVec 4) : List (BitVec 32) :=
  (words32 (spaceRead c spC (2048 * t.toNat) 2048)).zipIdx.map fun w =>
    if spaceFails c spC (2048 * t.toNat + 4 * w.2) 4 then 0 else w.1

/-- A C tile written by the matrix engine; a withheld column sets SPV (R334). -/
def putTile (s : State) (core : Nat) (t : BitVec 4) (ws : List (BitVec 32)) : State :=
  modCore s core fun c => spaceWrite (noteSpv c spC (2048 * t.toNat) 2048) spC (2048 * t.toNat) (bytes32 ws)

/-! ## Multiplying (R114 to R118, R203) -/

/-- The product of two groups, before scales (R114, R115). -/
def dot (xs ys : List Int) : Int := (xs.zip ys).foldl (fun a p => a + p.1 * p.2) 0

/-- A group's V (R114 to R116): none when it is NaN. -/
def groupValue (f : BitVec 3) (xs ys : List Int) (ga gb : Nat) : Option (FpNum × MxFlags) :=
  if ga = 0xFF || gb = 0xFF then none
  else
    let p := intNum (dot xs ys)
    let scaled := fun (x y : FpNum) (e : Int) => (mulNum (mulNum (mulNum p x).1 y).1 (.fin false 1 e)).1
    if f = 0 then some (scaled (scaleNum ga) (scaleNum gb) (-2), 0)
    else
      let v := scaled (.fin false 1 ga) (.fin false 1 gb) (if f = 2 then -26 else -282)
      if f = 2 then some (v, 0) else some (let (r, fl) := rtz32 v; (num32 r, fl))

/-- The running sum S over the eight groups (R114). -/
def groupSum (f : BitVec 3) (a b : Operand) : BitVec 32 × MxFlags :=
  (List.range 8).foldl (fun (p : BitVec 32 × MxFlags) g =>
    match groupValue f ((a.vals.drop (8 * g)).take 8) ((b.vals.drop (8 * g)).take 8) (a.grp.getD g 0) (b.grp.getD g 0) with
    | none => (0x7FC00000, p.2 ||| mNAN)
    | some (v, fl) =>
      let (r, fl') := rtz32 (addNum .rtz (num32 p.1) v).1
      (r, p.2 ||| fl ||| fl')) (0, 0)

/-- The new element of C for a row of A and a column of B (R203). -/
def mmaElement (f : BitVec 3) (a b : Operand) (c : BitVec 32) : BitVec 32 × MxFlags :=
  if f = 1 || f = 3 then
    let x := c.toInt + dot a.vals b.vals
    let (y, fl) := clampInt (-(2 ^ 31)) (2 ^ 31 - 1) x
    (BitVec.ofInt 32 y, if fl ≠ 0 then mISAT else 0)
  else
    let (s, f1) := groupSum f a b
    let (t, f2) :=
      if f = 0 then
        match decodeNum bf16 a.band.toNat, decodeNum bf16 b.band.toNat with
        | .fin na ma ea, .fin nb mb eb =>
          let (r, fl) := rtz32 (mulNum (mulNum (num32 s) (.fin na ma ea)).1 (.fin nb mb eb)).1
          (r, fl)
        | _, _ => (0x7FC00000#32, mNAN)
      else (s, 0)
    let (r, f3) := addRtz c t
    (r, f1 ||| f2 ||| f3)

/-- A C tile after an MMA (R203). -/
def mmaTile (f : BitVec 3) (tile : List Byte) (w : WSlot) (c : List (BitVec 32)) : List (BitVec 32) × MxFlags :=
  let rows := (chunks (rowBytes f) 16 tile).map (rowOperand f)
  let cols := slotColumns w
  let out := rows.zipIdx.flatMap fun r => cols.zipIdx.map fun k =>
    mmaElement f r.1 k.1 (c.getD (32 * r.2 + k.2) 0)
  (out.map (·.1), out.foldl (fun a p => a ||| p.2) 0)

/-! ## Draining and scaling (R204, R205) -/

/-- Bytes of A from an address on, cut where the addresses wrap at the end of A (R144). -/
def wrapped (a : Nat) (bs : List Byte) : List (Nat × List Byte) :=
  let k := 65536 - a % 65536
  if bs.length ≤ k then [(a % 65536, bs)] else [(a % 65536, bs.take k), (0, bs.drop k)]

/-- The pieces of A that a drain to BF16 writes, and its flags (R112, R204). Its addresses wrap at the end of A (R144).
DEDUCED, log entry 68. -/
def drainBf16 (half : Bool) (addr : Nat) (c : List (BitVec 32)) : List (Nat × List Byte) × MxFlags :=
  let out := c.map fun x => if (num32 x).isNan then (0x7FC0, 0) else packNum bf16 .rtz (num32 x)
  let rows := chunks 32 16 (out.map (·.1))
  (rows.zipIdx.flatMap fun r => wrapped (addr + 128 * r.2 + (if half then 64 else 0)) (r.1.flatMap fun x => toBytes 2 x),
   out.foldl (fun a p => if p.2 &&& fOF ≠ 0 then a ||| mOF else a) 0)

/-- Eight codes as four bytes, the even element in the low nibble (R110). -/
def nibbles (cs : List Nat) : List Byte :=
  (chunks 2 (cs.length / 2) cs).map fun p => BitVec.ofNat 8 (p.getD 0 0 + 16 * p.getD 1 0)

/-- The pieces of A that a drain to E2M1 writes, and its flags (R112, R204). -/
def drainE2m1 (half : Bool) (band : BitVec 16) (addr : Nat) (c : List (BitVec 32)) : List (Nat × List Byte) × MxFlags :=
  let h := if half then 1 else 0
  let rows := (chunks 32 16 c).map fun r => (chunks 8 4 r).map fun b => encodeBlock true (b.map num32) band
  (rows.zipIdx.flatMap fun r =>
     [(addr + 42 * r.2 + 16 * h, r.1.flatMap fun b => nibbles b.codes),
      (addr + 42 * r.2 + 32 + 4 * h, r.1.map fun b => BitVec.ofNat 8 b.scale),
      (addr + 42 * r.2 + 40, toBytes 2 band.toNat)],
   rows.flatten.foldl (fun a b =>
     a ||| (if b.flags &&& fNV ≠ 0 then mNAN else 0) ||| (if b.ended then mOF else 0)) 0)

/-- The bytes of A that a drain writes: a half of 16 rows (R204). -/
def drainSpan (e2m1 half : Bool) (addr : Nat) : List (Nat × Nat) :=
  let h := if half then 1 else 0
  (List.range 16).flatMap fun i =>
    if e2m1 then [(addr + 42 * i + 16 * h, 16), (addr + 42 * i + 32 + 4 * h, 4), (addr + 42 * i + 40, 2)]
    else (wrapped (addr + 128 * i + 64 * h) (List.replicate 64 0)).map fun r => (r.1, r.2.length)

/-- An element of C scaled (R205); an exact zero counts an integer as positive. -/
def scaleElement (i32 : Bool) (x s : BitVec 32) : BitVec 32 × MxFlags :=
  match (mulNum (if i32 then intNum x.toInt else num32 x) (num32 s)).1 with
  | .nan _ => (0x7FC00000, mNAN)
  | .fin n 0 e => rtz32 (.fin (if i32 then s.getLsbD 31 else n) 0 e)
  | v => rtz32 v

/-! ## Instructions to their issue (R193, R198, R475) -/

/-- A matrix instruction taken by its cluster: its context issues nothing until it is accepted (R193). The context's atomics
come before it (R341). -/
def issueMatrix (k : MtxKind) (t : BitVec 4) (sel : BitVec 8) (hd : Option (BitVec 4)) (addr : Nat) (adv : Bool)
    (w : BitVec 4) : M Unit := do
  let s ← ask
  waitUntil (!atomicsOut s)
  let me ← whoNow
  let n ← fresh
  modCurCluster fun c => { c with mtx := c.mtx ++ [⟨n, me, k, t, sel, hd, addr, [], adv, w, false, false, [], WSlot.reset, 0⟩] }
  modCur fun c => { c with run := .held (.accept n) }
  update fun s => later s 0 .matrixAccept (.num (clusterOf s.core) n 0)

/-- Check 1 of R475 on the handle in A, and its number; none for an address. -/
def sourceHandle (a : BitVec 5) (h : BitVec 1) : M (Option (BitVec 4)) :=
  if h = 1#1 then do
    let n : BitVec 4 := a.setWidth 4
    let _ ← needHandle n
    pure (some n)
  else pure none

/-- The address of a source or destination given by register, modulo 2^16 (R199). -/
def sourceAddr (a : BitVec 5) (h : BitVec 1) : M Nat :=
  if h = 1#1 then pure 0 else do
    let x ← rg a
    pure (x.toNat % 65536)

/-- MZERO (R202). -/
def execMzero (t : BitVec 4) : State → Out := instrRaw do
  notInHandler (.mzero t)
  issueMatrix .mzero t 0 none 0 false 0

/-- MLDB and MTR to their issue: checks 1 and 2 of R475 (R200, R201). -/
def loadMatrix (word : W64) (i : Instr) (mtr : Bool) (d a : BitVec 5) (f : BitVec 3) (h v : BitVec 1) (w : BitVec 4) :
    M Unit := do
  notInHandler i
  let hd ← sourceHandle a h
  let sel ← rg d
  trapIf (decide (4 < f.toNat) || (mtr && f = 0#3)) 0x02 word
  trapIf (f = 4#3 && sel.getLsbD 0) 0x0B (at64 1 8 ||| (sel &&& 0xFF))
  let addr ← sourceAddr a h
  issueMatrix (.load f mtr) 0 (sel.setWidth 8) hd addr (v = 1#1) w

/-- MLDB (R200). -/
def execMldb (d a : BitVec 5) (f : BitVec 3) (h v : BitVec 1) (w : BitVec 4) : State → Out :=
  instrRaw (loadMatrix (insnWord (.mldb d a f h v w)) (.mldb d a f h v w) false d a f h v w)
/-- MTR (R200). -/
def execMtr (d a : BitVec 5) (f : BitVec 3) (h v : BitVec 1) (w : BitVec 4) : State → Out :=
  instrRaw (loadMatrix (insnWord (.mtr d a f h v w)) (.mtr d a f h v w) true d a f h v w)

/-- MMA (R203). DEDUCED, log entry 22. -/
def execMma (t : BitVec 4) (a b : BitVec 5) (h v : BitVec 1) (w : BitVec 4) : State → Out := instrRaw do
  notInHandler (.mma t a b h v w)
  let hd ← sourceHandle a h
  let sel ← rg b
  let addr ← sourceAddr a h
  issueMatrix .mma t (sel.setWidth 8) hd addr (v = 1#1) w

/-- MDRAIN (R204). -/
def execMdrain (t : BitVec 4) (x : BitVec 1) (a b : BitVec 5) (h f c : BitVec 1) : State → Out := instrRaw do
  notInHandler (.mdrain t x a b h f c)
  let hd ← sourceHandle a h
  let band ← rg b
  let addr ← sourceAddr a h
  issueMatrix (.drain (f = 1#1) (x = 1#1) (c = 1#1) (if f = 1#1 then band.setWidth 16 else 0)) t 0 hd addr false 0

/-- MSCALE (R205): the scales of the 32 columns, as FP32. -/
def execMscale (t : BitVec 4) (b : BitVec 5) (v i : BitVec 1) : State → Out := instrRaw do
  notInHandler (.mscale t b v i)
  let s ← (if v = 1#1 then do
      let x ← rv b
      pure ((List.range 32).map fun j => widen16 (lane x 16 j))
    else do
      let x ← rg b
      pure (List.replicate 32 (x.setWidth 32)))
  issueMatrix (.scale (i = 1#1) s) t 0 none 0 false 0

/-- The slots whose state a matrix instruction changes (R200, R201). -/
def loadsSlot (c : Cluster) (m : MtxOp) : List Nat :=
  match m.kind with
  | .load f _ => slotsLoaded c (slotKey m.sel) f
  | _ => []

/-- MSTAT (R206). Its slot form names a slot: it waits for a load of the slot that has been accepted, and for a copy job that
writes it (R196). -/
def execMstat (d a : BitVec 5) (sl : BitVec 1) : State → Out := instr 4 do
  notInHandler (.mstat d a sl)
  let x ← rg a
  claim (.g d)
  let s ← ask
  let cl ← curCluster
  waitUntil (!(cl.mtx.any fun m => isMine s m.who))
  let k := slotKey (x.setWidth 8)
  waitUntil (!(sl = 1#1 && ((slotAt cl k).loading || cl.mtx.any fun m => m.accepted && (loadsSlot cl m).contains k)))
  let c ← cur
  wg d (if sl = 1#1 then (slotAt cl k).status.setWidth 64 else c.mxstat.setWidth 64)

/-! ## Acceptance (R194 to R196, R199, R475) -/

/-- Whether a matrix instruction uses the C tile it names. -/
def usesTile : MtxKind → Bool
  | .load _ _ => false
  | _ => true

/-- The slots a matrix instruction uses: those it loads, or the one it multiplies by, with its upper half (R30, R192). -/
def slotsOf (c : Cluster) (m : MtxOp) : List Nat :=
  let w := slotAt c (slotKey m.sel)
  if m.kind ≠ .mma then loadsSlot c m
  else if w.pairHi then [slotKey m.sel] else slotSpan (slotKey m.sel) w.fmt

/-- Whether a kind loads a slot. -/
def loads : MtxKind → Bool
  | .load _ _ => true
  | _ => false

/-- The size of an instruction's source or destination in A: a tile, an image or a drain's destination (R110, R200, R204). -/
def spanOf (c : Cluster) (m : MtxOp) : Nat :=
  match m.kind with
  | .load f mtr => imageBytes f mtr
  | .mma => tileBytes (slotAt c (slotKey m.sel)).fmt
  | .drain e2m1 _ _ _ => if e2m1 then 672 else 1024
  | _ => 0

/-- Whether an instruction at its acceptance still waits for earlier work on its tile or its slots (R195, R196). -/
def mustWait (c : Cluster) (m : MtxOp) : Bool :=
  let before := c.mtx.filter fun o => o.accepted && o.id ≠ m.id
  before.any (fun o => o.who = m.who && usesTile m.kind && usesTile o.kind && o.tile = m.tile) ||
  before.any (fun o => (loads m.kind || loads o.kind) && (slotsOf c o).any (slotsOf c m).contains) ||
  (slotsOf c m).any fun k => (slotAt c k).loading

/-- The A address of an instruction: its register's, or its handle's consumer or producer slot (R199). -/
def addrOf (k : Ctx) (m : MtxOp) : Nat :=
  match m.handle with
  | some n =>
    let h := handleOfCtx k n
    match m.kind with
    | .drain _ _ _ _ => h.slotAt (h.filled.toNat + h.pend.toNat)
    | _ => h.slotAt 0
  | none => m.addr

/-- Whether an A span waits for the bytes of an earlier drain of the context (R195). -/
def waitsDrain (c : Cluster) (m : MtxOp) (addr n : Nat) : Bool :=
  c.mtx.any fun o => o.accepted && o.who = m.who && o.span.any fun r => decide (addr < r.1 + r.2) && decide (r.1 < addr + n)

/-- Check 4 of R475 (R199): the cause and TRAPVAL of a bad source or destination of `n` bytes. -/
def sourceFault (k : Ctx) (m : MtxOp) (n : Nat) : Option (BitVec 8 × W64) :=
  let dest := match m.kind with | .drain _ _ _ _ => true | _ => false
  match m.handle with
  | some i =>
    let h := handleOfCtx k i
    if h.space ≠ spA || h.slot < n || (dest && h.prod ≠ 2) then some (0x11, handleVal i 0x100) else none
  | none =>
    if m.addr % 32 ≠ 0 then some (0x03, BitVec.ofNat 64 m.addr)
    else if 65536 < m.addr + n then some (0x04, BitVec.ofNat 64 m.addr)
    else none

/-- The macro an instruction names: MMA, MLDB and MTR name one (R196). -/
def macroOf (m : MtxOp) : Option Nat :=
  match m.kind with
  | .mma => some (slotKey m.sel / 32)
  | .load _ _ => some (slotKey m.sel / 32)
  | _ => none

/-- Whether an instruction waits for earlier work on its tile, its slots or its bytes of A (R195, R196). -/
def blocked (s : State) (cl : Nat) (m : MtxOp) : Bool :=
  let c := getCluster s cl
  let addr := addrOf (getCtx s m.who.core.toNat m.who.ctx.toNat) m
  mustWait c m || (match m.kind with
    | .drain e2m1 hi _ _ => (drainSpan e2m1 hi addr).any fun r => waitsDrain c m r.1 r.2
    | _ => waitsDrain c m addr (spanOf c m))

/-- Whether the parity of a slot fails, or has failed (R208). -/
def WSlot.spoilt (w : WSlot) : Bool := w.corrupt || w.bad

/-- Check 3 of R475 on the slot that an MMA names (R203, R207): the reason. Each slot that holds its cells is checked (R208). -/
def slotReason (c : Cluster) (m : MtxOp) : Option Nat :=
  let w := slotAt c (slotKey m.sel)
  if !w.valid then some 2 else if w.pairHi then some 1
  else if (slotsOf c m).any fun k => (slotAt c k).spoilt then some 0 else none

/-- The owner of a slot takes cause 0x0B at its next instruction boundary, when it still exists and is not the context
that meets the error itself (R208). -/
def tellOwner (s : State) (cl k : Nat) (but : Option Who) : State :=
  let w := slotAt (getCluster s cl) k
  let o : Who := ⟨BitVec.ofNat 14 (cl * 8 + bits (w.status.setWidth 64) 15 13), w.status.extractLsb' 10 3,
    w.status.extractLsb' 16 16, 0, 0, 0⟩
  let same := but.any fun b => decide (b.core = o.core) && decide (b.ctx = o.ctx) && decide (b.inst = o.inst)
  let val := at64 (k % 32) 0 ||| at64 (k / 32) 5
  if same || !w.valid then s
  else deliver s o fun c => if c.pending.contains (0x0B, val) then c else { c with pending := c.pending ++ [(0x0B, val)] }

/-- A failed parity check (R208, R462): the slot is CORRUPT, the failure is reported, and a macro whose third slot fails
within 2^32 cycles has its cluster fenced. -/
def parityFails (s : State) (cl k : Nat) (but : Option Who) : State :=
  let s := modCluster s cl fun c =>
    let c := putSlot k { slotAt c k with status := (slotAt c k).status ||| 0x40, bad := true } c
    { c with parity := (c.parity.filter fun p => decide (now s < p.2 + 2 ^ 32)) ++ [(k / 32, now s)] }
  let s := tellOwner (report s 2 0 cl 0 0 0 (cl * 8 + k / 32)) cl k but
  if 3 ≤ ((getCluster s cl).parity.filter (·.1 = k / 32)).length then later s 0 .functionFence (.func .cluster cl) else s

/-- A matrix instruction given up before its acceptance: its context traps (R193). -/
def refuseMatrix (s : State) (cl : Nat) (m : MtxOp) (cause : BitVec 8) (val : W64) : State :=
  let s := modCluster s cl fun c => { c with mtx := c.mtx.filter (·.id ≠ m.id) }
  takeTrap s m.who.core.toNat m.who.ctx.toNat cause val false

/-- A matrix instruction of a cluster's list changed. -/
def putOp (s : State) (cl : Nat) (m : MtxOp) : State :=
  modCluster s cl fun c => { c with mtx := c.mtx.map fun o => if o.id = m.id then m else o }

/-- The cycles of CYC from now to the next cycle of a cluster's own clock (R8). -/
def nextEdge (s : State) (cl : Nat) : Nat := afterFrom s cl (now s) 1 - now s

/-- The instruction tried again in the next cycle. -/
def retryAccept (s : State) (cl : Nat) (m : MtxOp) : State :=
  later (putOp s cl { m with capture := false }) (nextEdge s cl) .matrixAccept (.num cl m.id 0)

/-- The instruction that a macro takes next among those of `ready`: in round-robin order of cores from the one after the
core it accepted last (R196). -/
def nextOf (last : Nat) (ready : List MtxOp) : Option MtxOp :=
  ((List.range 8).map fun i => (last + 1 + i) % 8).findSome? fun j => ready.find? fun o => o.who.core.toNat % 8 = j

/-- The cycles an instruction takes from issue to acceptance when nothing stalls it (R194), in cluster cycles. -/
def acceptCycles (c : Cluster) (m : MtxOp) : Nat :=
  match macroOf m with
  | some _ => ceilDiv (spanOf c m) 128
  | none => 1

/-- The wait of an instruction for its handle: filled slots of a source; a free slot of a destination, of which the context's
earlier reads have been made (R199, R204, R232, R329): the TRAPVAL and condition of its timer while it waits. -/
def handleWait (s : State) (m : MtxOp) : Option (W64 × Bool) :=
  let core := m.who.core.toNat
  let x := m.who.ctx.toNat
  match m.handle with
  | none => none
  | some n =>
    let h := handleOfCtx (getCtx s core x) n
    match m.kind with
    | .drain _ _ _ _ =>
      if 1 ≤ h.free && !slotsRead { s with core := core, ctx := x } h 1 then none else some (handleVal n 0x300, true)
    | _ => if m.wait.toNat ≤ h.filled.toNat then none else some (handleVal n 0x200, h.pend = 0#8)

/-- Whether a macro has a row buffer for an instruction: it has two, each in use until its instruction completes (R194). -/
def buffersFree (c : Cluster) (m : MtxOp) (q : Nat) : Bool :=
  decide ((c.mtx.filter fun o => (o.accepted || o.capture) && o.id ≠ m.id && decide (macroOf o = some q)).length < 2)

/-- Whether the macro that an instruction names takes it now: it captures no other, has a row buffer for it, and of the
instructions that wait for nothing else this is the next (R196). -/
def macroTakes (s : State) (cl : Nat) (m : MtxOp) : Bool :=
  let c := getCluster s cl
  match macroOf m with
  | none => true
  | some q =>
    let ready := fun (o : MtxOp) =>
      !o.accepted && !o.capture && decide (macroOf o = some q) && !blocked s cl o && (handleWait s o).isNone
    !(c.mtx.any fun o => o.capture && !o.accepted && decide (macroOf o = some q)) && buffersFree c m q &&
      decide (nextOf (c.mtxLast[q]?.getD 7) (c.mtx.filter ready) = some m)

/-- The cycles from acceptance to completion (R194), in cluster cycles. -/
def runCycles (m : MtxOp) : Nat :=
  match m.kind with
  | .mzero => 8
  | .scale _ _ => 8
  | .drain _ _ _ _ => 16
  | .load f _ => if f = 4#3 then 128 else 64
  | .mma => if m.slot.fmt = 4#3 then 256 else if m.slot.fmt = 0#3 || m.slot.fmt = 1#3 then 64 else 128

/-- The last cycles of its run in which an instruction uses the ports of its core: C for the 256 bytes a cycle of its tile, and
both C and A for a drain's 16 rows (R26, R29). DESIGN CHOICE, log entry 28. -/
def portCycles : MtxKind → Nat
  | .load _ _ => 0
  | .drain _ _ _ _ => 16
  | _ => 8

/-- The run of an accepted instruction from the cycle `t` on: its first port cycle, or its completion, due. -/
def startRun (s : State) (cl : Nat) (m : MtxOp) (t : Nat) : State :=
  let n := portCycles m.kind
  let fin := afterFrom s cl t (runCycles m)
  let s := putOp s cl { m with finish := fin }
  if n = 0 then later s (fin - 1 - now s) .matrixComplete (.num cl m.id 0)
  else later s (afterFrom s cl t (runCycles m - n) - now s) .matrixComplete (.num cl m.id 1)

/-- The acceptance itself: the checks of R475 from the third on, the capture of the source, the advance of its handle,
the completion due (R193, R194, R199). An MMA's run waits for that of the one before it on its macro (R194). -/
def acceptMatrix (s : State) (cl : Nat) (m : MtxOp) : State :=
  let c := getCluster s cl
  let core := m.who.core.toNat
  let x := m.who.ctx.toNat
  let k := getCtx s core x
  if blocked s cl m then retryAccept s cl m
  else match handleWait s m with
  | some (val, run) => waitTimer (retryAccept s cl m) core x .handleWaitTimeout val run
  | none =>
  match (if m.kind = .mma then slotReason c m else none) with
  | some r =>
    let failed := (slotsOf c m).filter fun k => (slotAt c k).bad && !(slotAt c k).corrupt
    let s := if r = 0 then failed.foldl (fun s k => parityFails s cl k (some m.who)) s else s
    refuseMatrix s cl m 0x0B ((m.sel.setWidth 64) ||| at64 r 8)
  | none =>
    let n := spanOf c m
    match (if n = 0 then none else sourceFault k m n) with
    | some (cause, val) => refuseMatrix s cl m cause val
    | none =>
      let addr := addrOf k m
      let span := match m.kind with | .drain e2m1 hi _ _ => drainSpan e2m1 hi addr | _ => []
      let dest := !span.isEmpty
      let bad := (getCore s core).badA.filter fun w => decide (w * 4 < addr + n) && decide (addr < w * 4 + 4)
      match (if dest then none else bad.min?) with
      | some w => refuseMatrix (report s 2 0 cl 0 0 m.who.asid.toNat core) cl m 0x0C (BitVec.ofNat 64 (w * 4))
      | none =>
        let behind := m.kind = .mma && c.mtx.any fun o => o.accepted && o.kind = .mma && decide (macroOf o = macroOf m)
        let m := { m with
          accepted := true, capture := false, addr := addr, span := span, slot := slotAt c (slotKey m.sel)
          data := if dest then [] else spaceRead (getCore s core) spA addr n }
        let s := match macroOf m with
          | some q => modCluster s cl fun c => { c with mtxLast := c.mtxLast.setIfInBounds q (core % 8) }
          | none => s
        let s := modCtx (putOp s cl m) core x fun k =>
          let k := match m.handle with
            | some i => if dest then setHandle i ((handleOfCtx k i).reserve 1) k
              else if m.adv then setHandle i ((handleOfCtx k i).advance 1) k else k
            | none => k
          { k.goOn (k.pc + 4) (now s + 1) with run := .running }
        if behind then s else startRun s cl m (now s + 1)

/-- The acceptance as the last cycle of the way to it ends (R194). -/
def acceptAtEnd (s : State) (cl : Nat) (m : MtxOp) : State :=
  if nextEdge s cl ≤ 1 then acceptMatrix s cl m
  else later (putOp s cl m) (nextEdge s cl - 1) .matrixAccept (.num cl m.id 1)

/-- A cycle in which an instruction's source is taken through the A port of its core, 128 bytes (R26, R194); one that finds the
port used waits for the next (R29). -/
def captureStep (s : State) (cl : Nat) (m : MtxOp) : State :=
  let core := m.who.core.toNat
  let next := later (putOp s cl m) (nextEdge s cl) .matrixAccept (.num cl m.id 2)
  if portBusy (getCore s core) spA (now s) then
    later (putOp s cl { m with finish := afterFrom s cl m.finish 1 }) (nextEdge s cl) .matrixAccept (.num cl m.id 2)
  else
    let take := fun (s : State) => modCore s core (usePort · spA (now s))
    if m.finish ≤ now s + nextEdge s cl then acceptAtEnd (take s) cl m else take next

/-- An instruction at the start of its capture: it waits (R195, R196, R199), or its macro takes its source for the cycles of
R194. -/
def startAccept (s : State) (cl : Nat) (m : MtxOp) : State :=
  let core := m.who.core.toNat
  let x := m.who.ctx.toNat
  if blocked s cl m then retryAccept s cl m
  else match handleWait s m with
    | some (val, run) => waitTimer (retryAccept s cl m) core x .handleWaitTimeout val run
    | none =>
      let s := waitTimer s core x .handleWaitTimeout 0 false
      if !macroTakes s cl m then retryAccept s cl m
      else
        let m := { m with capture := true, finish := afterFrom s cl (now s) (acceptCycles (getCluster s cl) m) }
        if (macroOf m).isNone then acceptAtEnd (putOp s cl m) cl m else captureStep (putOp s cl m) cl m

/-- MATRIX_ACCEPT (R193, R196, R475): operands the cluster, the instruction, and 2 in a cycle of its capture, 1 at its
acceptance. -/
def execMatrixAccept : State → Out := event .matrixAccept do
  let s ← ask
  match s.arg with
  | .num cl n p =>
    match (getCluster s cl).mtx.find? (fun m => m.id = n && !m.accepted) with
    | none => pure ()
    | some m =>
      if (getCtx s m.who.core.toNat m.who.ctx.toNat).run ≠ .held (.accept n) || !resident s m.who then
        update fun s => modCluster s cl fun c => { c with mtx := c.mtx.filter (·.id ≠ n) }
      else if p = 0 then update fun s => startAccept s cl m
      else if p = 1 then update fun s => acceptMatrix s cl m
      else update fun s => captureStep s cl m
  | _ => pure ()

/-! ## Completion (R193, R200 to R205) -/

/-- The flags of a completed instruction set in its context's MXSTAT. -/
def giveFlags (s : State) (w : Who) (f : MxFlags) : State :=
  if f = 0 then s else deliver s w fun c => { c with mxstat := c.mxstat ||| f }

/-- A drain's bytes in A: every word whose last byte is written is full (R34, R204). -/
def writePieces (s : State) (core : Nat) (ps : List (Nat × List Byte)) : State :=
  ps.foldl (fun s p => modCore s core fun c => engineWrite c spA p.1 p.2) s

/-- What an accepted instruction writes when it completes. -/
def completeMatrix (s : State) (cl : Nat) (m : MtxOp) : State :=
  let core := m.who.core.toNat
  let c := tileWords (getCore s core) m.tile
  match m.kind with
  | .mzero => putTile s core m.tile (List.replicate 512 0)
  | .load f mtr => modCluster s cl (installSlot (slotKey m.sel) f (imageColumns f mtr m.data) m.who)
  | .mma =>
    let (t, fl) := mmaTile m.slot.fmt m.data m.slot c
    giveFlags (putTile s core m.tile t) m.who fl
  | .drain e2m1 hi clr band =>
    let (ps, fl) := if e2m1 then drainE2m1 hi band m.addr c else drainBf16 hi m.addr c
    let s := writePieces (modCore s core fun k => noteSpv k spC (2048 * m.tile.toNat) 2048) core ps
    let s := if clr then putTile s core m.tile (List.replicate 512 0) else s
    let s := match m.handle with
      | some i => deliver s m.who fun k => setHandle i ((handleOfCtx k i).publish 1) k
      | none => s
    giveFlags s m.who fl
  | .scale i32 ss =>
    let out := c.zipIdx.map fun x => scaleElement i32 x.1 (ss.getD (x.2 % 32) 0)
    giveFlags (putTile s core m.tile (out.map (·.1))) m.who (out.foldl (fun a p => a ||| p.2) 0)

/-- The ports of its core that an accepted instruction uses, by space (R26, R29). -/
def portsOf (m : MtxOp) : List (BitVec 2) :=
  (if usesTile m.kind then [spC] else []) ++ (if m.span.isEmpty then [] else [spA])

/-- An instruction completed: errors in the C words it reads are reported, it leaves its cluster's queue, and the MMA that its
macro has accepted after it runs (R193, R194). -/
def endMatrix (s : State) (cl : Nat) (m : MtxOp) : State :=
  let core := m.who.core.toNat
  let s := if usesTile m.kind && m.kind ≠ .mzero && spaceFails (getCore s core) spC (2048 * m.tile.toNat) 2048 then
      report s 2 0 cl 0 0 m.who.asid.toNat core
    else s
  let s := modCluster (completeMatrix s cl m) cl fun c => { c with mtx := c.mtx.filter (·.id ≠ m.id) }
  if m.kind = .mma then
    match (getCluster s cl).mtx.find? fun o => o.accepted && o.kind = .mma && decide (macroOf o = macroOf m) with
    | some o => startRun s cl o (now s + 1)
    | none => s
  else s

/-- A cycle in which a running instruction uses its core's ports; one that finds a port used waits for the next (R29). Its
completion comes as the last of them ends (R194). -/
def portStep (s : State) (cl : Nat) (m : MtxOp) : State :=
  let core := m.who.core.toNat
  if (portsOf m).any fun sp => portBusy (getCore s core) sp (now s) then
    later (putOp s cl { m with finish := afterFrom s cl m.finish 1 }) (nextEdge s cl) .matrixComplete (.num cl m.id 1)
  else
    let s := modCore s core fun c => (portsOf m).foldl (fun c sp => usePort c sp (now s)) c
    if now s + nextEdge s cl < m.finish then later s (nextEdge s cl) .matrixComplete (.num cl m.id 1)
    else if nextEdge s cl ≤ 1 then endMatrix s cl m
    else later s (nextEdge s cl - 1) .matrixComplete (.num cl m.id 0)

/-- MATRIX_COMPLETE (R193): operands the cluster, the instruction, and 1 in a cycle in which it uses its core's ports. -/
def execMatrixComplete : State → Out := event .matrixComplete do
  let s ← ask
  match s.arg with
  | .num cl n p =>
    match (getCluster s cl).mtx.find? (fun m => m.id = n && m.accepted) with
    | none => pure ()
    | some m => if p = 1 then update fun s => portStep s cl m else update fun s => endMatrix s cl m
  | _ => pure ()

/-- SLOT_PARITY_CHECK (R208): operands the cluster, the slot (macro × 32 + slot) and whether its parity fails. -/
def execSlotParityCheck : State → Out := event .slotParityCheck do
  let s ← ask
  match s.arg with
  | .flag cl k bad =>
    if 2048 ≤ cl || 256 ≤ k then throw (.fault .noSuchPart)
    else if (bad || (slotAt (getCluster s cl) k).bad) && !(slotAt (getCluster s cl) k).corrupt then
      update fun s => parityFails s cl k none
    else pure ()
  | _ => pure ()

end Sys2Proof.Machine
end

