-- ==== Sys2Proof/Machine/Copy.lean ====
section
/-! DEFINITION. The copy unit (10_engines.md R233 to R244, 14_kernel_memory.md R322 to R329, 15_program_row_gather.md R335,
R336, 28_host_network.md R449, R452, R454, R457): the copy instructions, the translation of a job's pages and the landing of
its pieces. -/
namespace Sys2Proof.Machine
open Sys2Proof

/-! ## Jobs of a cluster -/

/-- A copy job changed. -/
def modJob (s : State) (cl seq : Nat) (f : Job → Job) : State :=
  modCluster s cl fun c => { c with jobs := c.jobs.map fun j => if j.seq = seq then f j else j }
def jobOf (s : State) (cl seq : Nat) : Option Job := (getCluster s cl).jobs.find? (·.seq = seq)

/-- Whether a job holds one of the 32 queue entries (R243). -/
def Job.live (j : Job) : Bool := decide (j.state.toNat < 2)
def Job.cc (j : Job) : BitVec 4 := j.ox2.extractLsb' 0 4
def Job.swz (j : Job) : Bool := j.ox2.getLsbD 4
def Job.rtype (j : Job) : Nat := bits j.ox2 10 9
def Job.rop (j : Job) : Nat := bits j.ox2 12 11
/-- The element size of a CP.RED, 0 of another job (R239). -/
def Job.redSize (j : Job) : Nat := if j.kind = .red then (if j.rtype = 1 then 2 else 4) else 0
/-- Whether a job's bytes go to the local side. -/
def Job.inward (j : Job) : Bool := j.kind = .get || j.kind = .gath || j.kind = .red
/-- The handle of a job, as its configuration gives its ring. -/
def Job.ring (j : Job) : Handle := ⟨j.hcfg, 0, 0, 0⟩
/-- The local space of a job. -/
def Job.space (j : Job) : BitVec 2 :=
  match j.loc with
  | .bufA => spA
  | .bufS => spS
  | .handle _ => j.ring.space
  | .weight _ => 0

/-- The status word of a job (R243). -/
def Job.word (j : Job) : W64 :=
  at64 j.oor.toNat 48 ||| at64 j.flags.toNat 40 ||| at64 j.id.toNat 16 ||| at64 j.err.toNat 8 ||| at64 j.state.toNat 0

/-- The job that the status table holds under an id (R243). -/
def jobById (c : Cluster) (id : BitVec 8) : Option Job := c.jobs.find? fun j => j.id = id && !j.retired

/-! ## The local image (R234, R236) -/

/-- Where a local byte of a job lies in its image, after the swizzle (R236). -/
def Job.image (j : Job) (pos : Nat) : Nat :=
  let r := pos / max 1 j.rowLen
  let o := pos % max 1 j.rowLen
  r * j.pitch + (if j.swz then ((o / 16) ^^^ (r % 16)) * 16 + o % 16 else o)

/-- The local address of an image byte: from the local base, or through the handle's ring (R236). -/
def Job.place (j : Job) (x : Nat) : Nat :=
  match j.loc with
  | .handle _ =>
    let h := j.ring
    h.base + (j.hFirst + x / max 1 h.slot) % max 1 h.cnt * h.slot + x % max 1 h.slot
  | _ => j.lbase + x

/-- The length of a job's local image (R235). -/
def Job.extent (j : Job) : Nat := (j.rows - 1) * j.pitch + j.rowLen

/-- Whether the job writes an image byte at all: rows may lie apart. -/
def Job.writes (j : Job) (x : Nat) : Bool :=
  (List.range j.rows).any fun r => decide (r * j.pitch ≤ x) && decide (x < r * j.pitch + j.rowLen)

/-- The image bytes of a piece. -/
def Job.span (j : Job) (p : Piece) : List Nat := (List.range p.bytes).map fun i => j.image (p.pos + i)

/-- The bytes of each handle slot that a job lands. -/
def slotNeeds (rows rowLen pitch slot count : Nat) : List Nat :=
  (List.range count).map fun i => (List.range rows).foldl (fun n r =>
    n + (min (r * pitch + rowLen) ((i + 1) * slot) - max (r * pitch) (i * slot))) 0

/-! ## The pieces of a box (R234, R322) -/

/-- A piece not translated yet. -/
def Piece.of (pos bytes : Nat) (va : VA) (elem : Nat) (err : BitVec 8) : Piece :=
  ⟨pos, bytes, va, elem, 0, 0, ⟨0, 0⟩, ⟨0, 0⟩, false, false, err⟩

/-- The pieces of a row, at most 64 local bytes each: `es` is the element size of a reduction, whose pieces hold whole elements
(R239), `al` where the row starts in its port block, `f` its page format. A piece may cross into the next page. -/
def cutRow (f es al : Nat) (va : Nat) (pos : Nat) (err : BitVec 8) : Nat → Nat → Nat → List Piece
  | 0, _, _ => []
  | fuel + 1, o, left =>
    if left = 0 then []
    else if f = 0 then
      let block := 64 - (al + o) % 64
      let n := min left (if es = 0 then block else max es (block / es * es))
      Piece.of (pos + o) n (BitVec.ofNat 56 (va + o)) o err :: cutRow f es al va pos err fuel (o + n) (left - n)
    else
      let e := o / 4
      let g := if f = 4 then va + 64 * (e / 96) else va + elemBytes f * e
      let n := 4 * max 1 (min (left / 4) (16 - e % 16))
      let err := if f = 1 && g % 2 ≠ 0 then 6 else err
      Piece.of (pos + o) n (BitVec.ofNat 56 g) e err :: cutRow f es al va pos err fuel (o + n) (left - n)

/-- The pieces of local row `r`, from a global address, or without a source or target (R238). -/
def rowPieces (j : Job) (err : BitVec 8) (r : Nat) (va : Option VA) : List Piece :=
  let al := match j.loc with
    | .bufA => if j.swz then 0 else j.lbase + r * j.pitch
    | .bufS => if j.swz then 0 else j.lbase + r * j.pitch
    | .handle _ => if j.swz then 0 else j.place (r * j.pitch)
    | .weight _ => 0
  match va with
  | some a =>
    cutRow j.fmt j.redSize al a.toNat (r * j.rowLen) err j.rowLen 0 j.rowLen
  | none => (cutRow 0 0 al 0 (r * j.rowLen) 0 j.rowLen 0 j.rowLen).map fun p => { p with fill := true }

/-- The pieces of a peer job: its packets, in order (R448, R452). -/
def peerPieces (total : Nat) (va : VA) : List Piece :=
  (List.range (ceilDiv total 4096)).map fun k =>
    Piece.of (4096 * k) (min 4096 (total - 4096 * k)) (va + BitVec.ofNat 56 (4096 * k)) (4096 * k) 0

/-! ## Peer entries (R450, R452) -/

/-- A peer entry's word. -/
def entryWord (e : BitVec 256) (i : Nat) : W64 := e.extractLsb' (64 * i) 64
/-- The peer entry of a die's endpoint. -/
def peerEntry (s : State) (die n : Nat) : BitVec 256 := tabGet 0 (getDie s die).peers n
/-- The chunk size of a peer entry or a receive region. -/
def chunkSize (e : BitVec 256) : Nat := 2 ^ bits (entryWord e 0) 60 56
/-- Whether a peer entry is valid and well formed (R450). -/
def goodPeer (e : BitVec 256) : Bool :=
  let w := entryWord e 0
  let kind := bits w 62 61
  w.getLsbD 63 && decide (kind < 2) && decide (12 ≤ bits w 60 56) && decide (bits w 60 56 ≤ 20) &&
  (kind = 0 || (decide (2 ≤ bits w 48 42) && decide (bits w 48 42 ≤ 64) && decide (bits w 55 49 < bits w 48 42)))
/-- Whether a peer entry names a reduction group (R450). -/
def isGroupPeer (e : BitVec 256) : Bool := bits (entryWord e 0) 62 61 = 1

/-- A peer job that is malformed (R452). -/
def badPeerJob (kind : CpKind) (pitch : Int) (len total off : Nat) (ox4 : W64) (e : BitVec 256) : Bool :=
  kind = .gath || kind = .scat || decide (pitch ≠ len) || decide (off % chunkSize e ≠ 0) ||
  decide (total % chunkSize e ≠ 0) || decide (bits ox4 63 24 ≠ 0) || decide (bits ox4 23 20 > 8) || !goodPeer e

/-- The entropy value of the packet at an offset of a peer job (R452). -/
def entropyOf (ox4 : W64) (chunk pos : Nat) : BitVec 16 :=
  BitVec.ofNat 16 (bits ox4 15 0 + ((pos / chunk) <<< bits ox4 19 16) + (pos % chunk / 4096) % 2 ^ bits ox4 23 20)

/-! ## The end of a job (R231, R240, R243) -/

/-- The context a piece of work belongs to, where it stands now: in its core or in the directory (R435, R436). -/
def ctxOf (s : State) (w : Who) : Option Ctx :=
  if resident s w then some (getCtx s w.core.toNat w.ctx.toNat) else (savedOf s w).map (·.ctxt)

/-- The reserved slots of a handle published in ring order as far as their bytes have landed (R231). -/
def publishSlots (cl : Nat) (w : Who) (n : BitVec 4) : Nat → State → State
  | 0, s => s
  | fuel + 1, s =>
    match ctxOf s w with
    | none => s
    | some k =>
      let h := handleOfCtx k n
      let next := (h.cptr.toNat + h.filled.toNat) % max 1 h.cnt
      match (getCluster s cl).jobs.find? fun j => j.who = w && j.loc = .handle n && j.hLeft.head? = some 0 &&
          (j.hFirst + j.hDone) % max 1 h.cnt = next with
      | some j =>
        if h.pend = 0#8 then s
        else
          let s := modJob s cl j.seq fun j => { j with hDone := j.hDone + 1, hLeft := j.hLeft.tail }
          publishSlots cl w n fuel (deliver s w fun k => setHandle n ((handleOfCtx k n).publish 1) k)
      | none => s

/-- A job's handle publishes what has landed. -/
def publishJob (s : State) (cl : Nat) (j : Job) : State :=
  match j.loc with
  | .handle n => publishSlots cl j.who n 256 s
  | _ => s

/-- A slot named by a stopped job is empty (R236). -/
def emptySlots (k : Nat) (f : BitVec 3) (c : Cluster) : Cluster :=
  (slotSpan k f).foldl (fun c k => putSlot k WSlot.reset c) (breakPair k f c)

/-- A job that has nothing left to do completes: a stopped one counts its bytes as landed, publishes its slots and empties
its weight slot (R236, R240); the others leave what they landed. -/
def finishJob (s : State) (cl seq : Nat) : State :=
  match jobOf s cl seq with
  | none => s
  | some j =>
    if !j.live || j.issuing || !j.flying.isEmpty || !(j.stopping || (j.todo.isEmpty && j.chunks.isEmpty)) then s
    else
      let s := match j.loc with
        | .weight sel =>
          let k := slotKey sel
          let f := j.ox2.extractLsb' 13 3
          modCluster s cl fun c => if j.stopping then emptySlots k f c
            else installSlot k f (imageColumns f false (bytesGet j.wimage 0 (imageBytes f false))) j.who c
        | _ => s
      let s := if j.stopping then deliver s j.who (countDone j.left j.cc) else s
      let s := modJob s cl seq fun j => { j with
        state := if j.err = 0#8 then 2 else 3
        todo := []
        left := 0
        hLeft := j.hLeft.map fun _ => 0 }
      publishJob s cl j

/-- A job stopped with an error at an address: what is flying lands first (R240). -/
def stopJob (s : State) (cl seq : Nat) (err : BitVec 8) (va : VA) : State :=
  finishJob (modJob s cl seq fun j => { j with stopping := true, err := err, fault := va }) cl seq

/-! ## Translating a page of the box (R237, R240) -/

/-- The class of memory of an address, by the table of R242. -/
def memClass (cl pa : Nat) : Nat :=
  match placeOf pa with
  | .first d _ => if d = dieOfCluster cl then 640 else 1280
  | .second _ _ => 1600
  | .host _ => 4800
  | .peer _ _ => 24000
  | .nowhere => 640

/-- The peer entry that a physical address in the peer window names (R449); that of the job's first byte for others. -/
def peerOf (j : Job) (pa : Nat) : Nat :=
  match placeOf pa with
  | .peer n _ => n
  | _ => j.peer.getD 0

/-- Whether a page of a peer job names an entry that the job may go on with: that of its first byte, or another memory peer when
that is one (R449, R452, R457; DEDUCED, log entry 29). -/
def peerFits (s : State) (die : Nat) (j : Job) (pa : Nat) : Bool :=
  let e := peerEntry s die (peerOf j pa)
  decide (j.peer = some (peerOf j pa)) ||
    (goodPeer e && !isGroupPeer e && j.peer.any fun n => !isGroupPeer (peerEntry s die n))

/-- The page of 64 KiB that a piece starts in. -/
def Piece.page (p : Piece) : Nat := p.va.toNat / 65536
/-- How many bytes of memory a piece touches: those of a whole line on an E2M1 page. -/
def Piece.len (j : Job) (p : Piece) : Nat :=
  if j.fmt = 0 then p.bytes else if j.fmt = 4 then 64 else p.bytes / 4 * elemBytes j.fmt
/-- Whether a piece crosses into the next page; packets and lines do not. -/
def Piece.crosses (j : Job) (p : Piece) : Bool :=
  !p.fill && j.peer.isNone && decide (j.fmt ≠ 4) && decide (65536 < p.va.toNat % 65536 + p.len j)
/-- The first address of the next page. -/
def Piece.nextPage (p : Piece) : VA := BitVec.ofNat 56 ((p.page + 1) * 65536)

/-- A piece cut where its page ends, an element of CP.RED kept whole; none when no element of it lies before the end. -/
def cutPiece (j : Job) (p : Piece) : Option (Piece × Piece) :=
  let unit := if j.fmt = 0 then max 1 j.redSize else elemBytes j.fmt
  let n := (65536 - p.va.toNat % 65536) / unit
  let k := if j.fmt = 0 then n * unit else 4 * n
  if n = 0 then none
  else some ({ p with bytes := k, ready := true },
    { p with pos := p.pos + k, bytes := p.bytes - k, va := p.va + BitVec.ofNat 56 (n * unit), pa := p.pa + n * unit
             elem := p.elem + (if j.fmt = 0 then k else n) })

/-- The physical address of a page of a job's box with what it keeps of the leaf, or the error it stops with (R237, R240, R429,
R445, R449); nothing while the page's walk is awaited (R424). -/
def translatePage (s : State) (cl : Nat) (j : Job) (va : VA) : Option (Except (BitVec 8) (Nat × LeafTag)) × State :=
  let acc : Acc := if j.inward then .load else .store
  match windowOf va with
  | some _ => (some (.error 1), s)
  | none =>
    match engineLeaf s cl (.job j.seq) j.who.asid va with
    | (none, s) => (none, s)
    | (some none, s) => (some (.error 1), s)
    | (some (some l), s) =>
      let pa := leafPa l va
      if !leafAllows l acc then (some (.error 1), s)
      else if !admits s 1 j.who.asid.toNat (permOf acc) pa (dieOfCluster cl) then
        (some (.error 2), portRefusal s pa 1 j.who.asid.toNat j.who.core.toNat)
      else if inPeer pa != j.peer.isSome || (inPeer pa && !peerFits s (dieOfCluster cl) j pa) then (some (.error 2), s)
      else if leafFmt l.entry ≠ j.fmt then (some (.error 6), s)
      else if j.fmt ≠ 0 && j.peer.isSome then (some (.error 6), s)
      else (some (.ok (pa, tagOf l)), s)

/-- A job that waits for a page: its miss goes to the walker, or comes again in the next cycle when its cluster has all the
misses it may (R424). It is not unloaded any more (R324). -/
def missPage (s : State) (cl : Nat) (j : Job) (va : VA) : State :=
  let s := modJob s cl j.seq fun j => { j with loaded := true }
  if walkFull s cl j.who.asid va then later s 1 .copyPageTranslate (.num cl j.seq 0)
  else startWalk s cl j.who.asid va (.engine (.job j.seq))

/-- Whether an agent other than a job has used, since the job's issue, what its box lies behind (R324): the channel of a piece
requested, the endpoint of its die, or, for a box behind die links, these or a channel of the same die. -/
def othersUse (s : State) (j : Job) (pa : Nat) : Bool :=
  let die := dieOf j.who.core.toNat
  let key := if j.peer.isSome then some (endpointKey die) else channelKey s pa
  match key with
  | none => false
  | some k => s.uses.any fun u =>
      (u.1 = k || (behindLinks die pa && (u.1 = linksKey || u.1 / 64 = k / 64))) &&
      decide (j.issued < (if u.2.user = j.seq + 1 then u.2.other else u.2.last))

/-- The cycle in which a piece of an unloaded job lands (R324). A packet goes out the L of R242 before that, so that its answer
may come in time. -/
def landAt (j : Job) (p : Piece) : Nat :=
  let e := p.pos + p.bytes
  let rows := ceilDiv e (max 1 j.rowLen)
  let t := j.issued + j.lat + 4 * rows + ceilDiv (rows * j.rowLen) 64 - ceilDiv (rows * j.rowLen - e) 64
  if j.peer.isSome then t - j.lat - ceilDiv p.bytes 64 + 1 else t

/-- Pieces requested: each lands in its cycle when the job is unloaded, else after a free time (R322, R324). -/
def requestPieces (s : State) (cl seq : Nat) (ps : List Piece) : State :=
  let s := modJob s cl seq fun j => { j with state := 1, todo := j.todo.drop ps.length, flying := j.flying ++ ps }
  match jobOf s cl seq with
  | none => s
  | some j => ps.foldl (fun s p =>
      if j.loaded then sometime s .copyPieceLand (.piece cl seq p)
      else later s (landAt j p - now s) .copyPieceLand (.piece cl seq p)) s

/-- Whether a job's local side lies in a region refused to it (R28). -/
def regionRefused (j : Job) : Bool :=
  match j.loc with
  | .bufS => (List.range j.rows).any fun r => decide (0x6000 < j.lbase + r * j.pitch + j.rowLen)
  | _ => false

/-- The error that a page of the box stops its job with, though it translates: a piece of it has the format or the alignment of
another (R237). No byte of such a page moves (R240). -/
def errorOf (j : Job) (page : Nat) : Option (BitVec 8) :=
  (j.todo.find? fun q => !q.fill && q.page = page && q.err ≠ 0#8).map (·.err)
/-- That of the page in which a piece starts. -/
def pageError (j : Job) (p : Piece) : Option (BitVec 8) := if p.fill then none else errorOf j p.page

/-- The first piece of a job, which crosses into a page that stops the job, cut where its page ends: what lies before is written
still (R240). -/
def cutFirst (s : State) (cl : Nat) (j : Job) (p : Piece) (e : BitVec 8) : State :=
  match cutPiece j p with
  | none => stopJob s cl j.seq e p.nextPage
  | some (a, b) =>
    later (modJob s cl j.seq fun j => { j with todo := a :: b :: j.todo.drop 1 }) 0 .copyPageTranslate (.num cl j.seq 0)

/-- The pieces at the head of a job that start in a page, translated to a physical address of its first: those that cross into
the next page wait for it. -/
def placePage (j : Job) (p : Piece) (pa : Nat) (tag : LeafTag) : Job :=
  let mine := j.todo.takeWhile fun q => !q.fill && q.page = p.page
  { j with todo := (mine.map fun q =>
      { q with pa := pa - p.va.toNat % 65536 + q.va.toNat % 65536, leaf := tag, ready := !q.crosses j }) ++ j.todo.drop mine.length }

/-- What a job does next (R236, R240): it waits for its weight slot, stops, requests the pieces of its next page, or
completes. DEDUCED, log entry 29. -/
def advanceJob (s : State) (cl : Nat) (j : Job) : State :=
  let again := fun (s : State) => later s 0 .copyPageTranslate (.num cl j.seq 0)
  let c := getCluster s cl
  let slots := match j.loc with | .weight sel => slotsLoaded c (slotKey sel) (j.ox2.extractLsb' 13 3) | _ => []
  if !slots.isEmpty && !j.wbegun then
    if slots.any (fun k => (slotAt c k).loading) || c.mtx.any (fun m => m.accepted && (slotsOf c m).any slots.contains) then
      later s 1 .copyPageTranslate (.num cl j.seq 0)
    else
      let s := modCluster s cl fun c => slots.foldl (fun c k =>
        putSlot k { slotAt c k with status := (slotAt c k).status ||| 0x20 } c) c
      again (modJob s cl j.seq fun j => { j with wbegun := true })
  else if j.stopping then finishJob s cl j.seq
  else if regionRefused j then stopJob s cl j.seq 3 0
  else
    match j.todo with
    | [] => finishJob s cl j.seq
    | p :: _ =>
      if p.fill || p.ready then
        match pageError j p with
        | some e => stopJob s cl j.seq e p.va
        | none => again (requestPieces s cl j.seq (j.todo.takeWhile fun p => (p.fill || p.ready) && (pageError j p).isNone))
      else if p.crosses j && p.pa ≠ 0 then
        match translatePage s cl j p.nextPage with
        | (none, s) => missPage s cl j p.nextPage
        | (some (.error e), s) => cutFirst s cl j p e
        | (some (.ok (pb, tag)), s) =>
          match errorOf j (p.page + 1) with
          | some e => cutFirst s cl j p e
          | none => again (modJob s cl j.seq fun j => { j with
              todo := { p with pb := pb, leafB := tag, ready := true } :: j.todo.drop 1
              loaded := j.loaded || decide (memClass cl pb ≠ j.lat) })
      else
        match translatePage s cl j p.va with
        | (none, s) => missPage s cl j p.va
        | (some (.error e), s) => stopJob s cl j.seq e p.va
        | (some (.ok (pa, tag)), s) =>
          again (modJob s cl j.seq fun j => { placePage j p pa tag with loaded := j.loaded || decide (memClass cl pa ≠ j.lat) })

/-- COPY_PAGE_TRANSLATE (R240): operands the cluster and the job's number. -/
def execCopyPageTranslate : State → Out := event .copyPageTranslate do
  let s ← ask
  match s.arg with
  | .num cl seq _ =>
    match jobOf s cl seq with
    | some j => if j.live then update fun s => advanceJob s cl j else pure ()
    | none => pure ()
  | _ => pure ()

/-! ## Landing a piece (R34, R237 to R241) -/

/-- The physical address of a piece's byte `i`. -/
def Piece.at (p : Piece) (i : Nat) : Nat :=
  if 65536 ≤ p.va.toNat % 65536 + i then p.pb + (p.va.toNat % 65536 + i - 65536) else p.pa + i

/-- The lines of memory that a piece touches. -/
def Piece.lines (j : Job) (p : Piece) : List Nat := ((List.range (p.len j)).map fun i => lineOf (p.at i)).eraseDups

/-- The addresses at which a piece reaches memory: its first, and its next page's when it crosses into that. -/
def Piece.starts (j : Job) (p : Piece) : List Nat := p.pa :: if p.crosses j then [p.pb] else []

/-- A piece's bytes put in memory, page by page. -/
def Piece.put (s : State) (p : Piece) (bs : List Byte) : State :=
  let k := 65536 - p.va.toNat % 65536
  if bs.length ≤ k then memPut s p.pa bs else memPut (memPut s p.pa (bs.take k)) p.pb (bs.drop k)

/-- A piece's global bytes as local ones: decoded on a formatted page (R120, R121); what bad data gives reads zero. -/
def globalData (s : State) (j : Job) (p : Piece) : List Byte :=
  let byte := fun (a : Nat) => if badAt s a then 0 else byteGet s.mem a
  if j.fmt = 0 then (List.range p.bytes).map fun i => byte (p.at i)
  else if j.fmt = 4 then
    let l := vecOf ((List.range 64).map fun i => byte (p.pa + i))
    (List.range (p.bytes / 4)).flatMap fun k =>
      if badAt s p.pa then List.replicate 4 0 else toBytes 4 (lineGet l ((p.elem + k) % 96)).toNat
  else
    let n := elemBytes j.fmt
    (List.range (p.bytes / 4)).flatMap fun k =>
      if (List.range n).any (fun i => badAt s (p.at (n * k + i))) then List.replicate 4 0
      else toBytes 4 (elemGet j.fmt ((List.range n).map fun i => byte (p.at (n * k + i)))).toNat

/-- A piece's local bytes, a bad word read as zero. -/
def localData (s : State) (j : Job) (p : Piece) : List Byte :=
  let c := getCore s j.who.core.toNat
  (j.span p).map fun x => if spaceFails c j.space (j.place x) 1 then 0 else byteGet (spaceBytes c j.space) (j.place x)

/-- Whether a piece's local bytes hold a bad word. -/
def localBad (s : State) (j : Job) (p : Piece) : Bool :=
  (j.span p).any fun x => spaceFails (getCore s j.who.core.toNat) j.space (j.place x) 1

/-- A 32-bit word from an element of CP.RED and back. -/
def redElement (j : Job) (a b : Nat) : Nat × FpFlags :=
  if j.rtype = 2 then
    let x := (BitVec.ofNat 32 a).toInt
    let y := (BitVec.ofNat 32 b).toInt
    ((BitVec.ofInt 32 (if j.rop = 0 then x + y else if j.rop = 1 then min x y else max x y)).toNat, 0)
  else
    let f := if j.rtype = 1 then bf16 else f32
    if j.rop = 0 then
      let (v, g) := addNum .rne (decodeNum f a) (decodeNum f b)
      let (c, h) := packNum f .rne v
      (c, g ||| h)
    else (minMaxNum f (j.rop = 2) a b, 0)

/-- Local bytes after an arriving piece is combined with them, and the flags (R119, R239). -/
def redCombine (j : Job) (mine arriving : List Byte) : List Byte × FpFlags :=
  let es := if j.rtype = 1 then 2 else 4
  let n := mine.length / es
  let out := ((chunks es n mine).zip (chunks es n arriving)).map fun p => redElement j (natOf p.1) (natOf p.2)
  (out.flatMap fun r => toBytes es r.1, out.foldl (fun f r => f ||| r.2) 0)

/-- Whether a word of the image is full once a piece has landed: the piece writes all of it; or its last byte is one the job
writes, and no piece still to land, or row still to be queued, touches it (R34, R238, R241). -/
def wordFull (j : Job) (p : Piece) (w : Nat) : Bool :=
  let mine := j.span p
  let al := j.place 0 % 4
  let inWord := fun (x : Nat) => decide ((al + x) / 4 = w)
  let later := fun (r : Nat) => decide (r * j.pitch < 4 * w + 4 - al) && decide (4 * w < al + r * j.pitch + j.rowLen)
  (mine.filter inWord).length = 4 ||
    (j.writes (4 * w + 3 - al) && !((List.range (j.rows - j.queued)).any fun r => later (j.queued + r)) &&
      !((j.todo ++ j.flying).any fun q => q ≠ p && (j.span q).any inWord))

/-- A piece's bytes written at its core: words become full by R34; banks without power take nothing. -/
def landLocal (s : State) (j : Job) (p : Piece) (data : List Byte) : State :=
  let core := j.who.core.toNat
  if !(getCore s core).powered then s
  else modCore s core fun c =>
    let c := ((j.span p).zip data).foldl (fun c b => spaceWrite c j.space (j.place b.1) [b.2]) c
    let al := j.place 0 % 4
    let words := ((j.span p).map fun x => (al + x) / 4).eraseDups
    words.foldl (fun c w => if wordFull j p w then setFull c j.space (j.place (4 * w + 3 - al)) else c) c

/-- A piece's bytes written to memory: encoded on a formatted page (R109, R121), with the flags. -/
def landGlobal (s : State) (j : Job) (p : Piece) (data : List Byte) : State × FpFlags :=
  let els := (chunks 4 (p.bytes / 4) data).map fun w => BitVec.ofNat 32 (natOf w)
  if j.fmt = 0 then (p.put s data, 0)
  else if j.fmt = 4 then
    let old := if badAt s p.pa then 0 else vecOf (memRead s p.pa 64)
    let (l, fl) := linePut old (els.zipIdx.map fun e => ((p.elem + e.2) % 96, e.1))
    (memPut s p.pa (vecBytes l), fl)
  else
    let out := els.map (elemPut j.fmt)
    (p.put s (out.flatMap (·.1)), out.foldl (fun f r => f ||| r.2) 0)

/-- The bytes of a piece counted as landed: its counter, its handle's slots, and the end of its job (R35, R231, R243). -/
def countPiece (s : State) (cl seq : Nat) (p : Piece) : State :=
  match jobOf s cl seq with
  | none => s
  | some j =>
    let slot := max 1 j.ring.slot
    let mine := (j.span p).map (· / slot)
    let s := modJob s cl seq fun j => { j with
      flying := j.flying.erase p
      worked := j.worked.erase p.pos
      left := j.left - p.bytes
      hLeft := j.hLeft.zipIdx.map fun n => n.1 - (mine.filter (· = j.hDone + n.2)).length }
    let s := deliver s j.who (countDone p.bytes j.cc)
    finishJob (publishJob s cl j) cl seq

/-- An uncorrectable error a piece met: the job goes on with ERR 4 (R240). -/
def pieceError (s : State) (cl : Nat) (j : Job) (va : VA) : State :=
  modJob s cl j.seq fun j => if j.err = 0#8 then { j with err := 4, fault := va } else j

/-- The errors of memory that a piece's read meets, each line reported. -/
def readErrors (s : State) (cl : Nat) (j : Job) (p : Piece) : State :=
  let bad := (p.lines j).filter s.badLines.contains
  if bad.isEmpty then s
  else
    let s := bad.foldl (fun s l =>
      report s 2 1 (channelUnit s (l * 64)) (l * 64) 1 j.who.asid.toNat j.who.core.toNat) s
    pieceError s cl j p.va

/-- The errors of local words that a piece's read meets. -/
def localErrors (s : State) (cl : Nat) (j : Job) (p : Piece) : State :=
  if localBad s j p then
    pieceError (report s 2 0 cl 0 1 j.who.asid.toNat j.who.core.toNat) cl j 0
  else s

/-- Encoding and reduction flags go to the job's status (R45, R237, R239). -/
def jobFlags (s : State) (cl : Nat) (j : Job) (f : FpFlags) : State :=
  if f = 0 then s else modJob s cl j.seq fun j => { j with flags := j.flags ||| f }

/-- An inward piece landed, given its bytes: written, combined (R239), or kept for a weight slot (R236). -/
def landInward (s : State) (cl : Nat) (j : Job) (p : Piece) (data : List Byte) : State :=
  match j.loc with
  | .weight _ => modJob s cl j.seq fun j => { j with wimage := bytesSet j.wimage p.pos data }
  | _ =>
    if j.kind = .red then
      let (out, fl) := redCombine j (localData s j p) data
      jobFlags (landLocal (localErrors s cl j p) j p out) cl j fl
    else landLocal s j p data

/-- Whether an endpoint takes and sends packets: not fenced, its die neither (R462), which runs outside recovery mode (R469). -/
def endpointUp (s : State) (ep : Nat) : Bool := !s.recovery && !(getDie s ep).epFenced && !(getDie s ep).fenced

/-- A packet given up stops its job with ERR 7 (R454): nothing of the job is answered any more. -/
def transportLost (s : State) (cl seq : Nat) (va : VA) : State :=
  stopJob (modJob s cl seq fun j => { j with flying := [] }) cl seq 7 va

/-- A packet of a peer job sent to the entry that its page names (R449): a write or a contribution with its bytes, or a read
(R452, R453, R457). It bears a number of its own (R448). -/
def sendPiece (s : State) (cl : Nat) (j : Job) (p : Piece) : State :=
  let die := dieOfCluster cl
  let e := peerEntry s die (peerOf j p.pa)
  let kind : PacketKind := if j.inward then .read else if isGroupPeer e then .reduce else .write
  let s := useKey (if j.inward then s else localErrors s cl j p) (endpointKey die) (j.seq + 1)
  { s with
    nextId := s.nextId + 1
    sent := s.sent ++ [⟨die, peerOf j p.pa, kind, (entryWord e 0).extractLsb' 0 24, (entryWord e 3).extractLsb' 0 8,
      p.pa % 0x1000000000, if j.inward then [] else localData s j p, p.bytes, entropyOf j.ox4 (chunkSize e) p.pos, cl,
      j.seq, p.pos, j.who.asid, j.ox2.extractLsb' 11 2, j.ox2.extractLsb' 9 2, now s, s.nextId⟩] }

/-- A piece that meets a channel in self-refresh wakes it and waits 1,200 cycles; its job is no longer unloaded (R465). -/
def landLater (s : State) (cl : Nat) (j : Job) (p : Piece) : State :=
  later (modJob ((p.starts j).foldl wake s) cl j.seq fun j => { j with loaded := true }) 1200 .copyPieceLand
    (.piece cl j.seq p)

/-- A piece landed (R322). -/
def landPiece (s : State) (cl : Nat) (j : Job) (p : Piece) : State :=
  if p.fill then
    let s := if j.inward then landInward s cl j p (List.replicate p.bytes j.fill) else s
    countPiece s cl j.seq p
  else if j.inward then
    countPiece (landInward (readErrors s cl j p) cl j p (globalData s j p)) cl j.seq p
  else
    let s := localErrors s cl j p
    let s := if j.fmt = 4 then readErrors s cl j p else s
    let (s, fl) := landGlobal s j p (localData s j p)
    countPiece (jobFlags s cl j fl) cl j.seq p

/-- A piece that another agent's use of its channel may delay lands after a free time (R324). -/
def landDelayed (s : State) (cl seq : Nat) (p : Piece) : State :=
  let s := modJob s cl seq fun j => { j with loaded := true }
  later { s with tick := s.tick + 1 } (Config.latency s.tick) .copyPieceLand (.piece cl seq p)

/-- Whether a piece is moved through a port of its job's core: it is read or written in A or S. -/
def usesPort (j : Job) (p : Piece) : Bool := decide (j.space ≠ 0#2) && !(p.fill && !j.inward)

/-- A cycle in which the copy unit moves up to 64 bytes of a job (R322): it moves no others, and the local port serves it
(R29). -/
def moveCycle (s : State) (cl : Nat) (j : Job) (p : Piece) : State :=
  let s := modCluster s cl fun c => { c with cpLand := now s + 1 }
  if usesPort j p && (getCore s j.who.core.toNat).powered then modCore s j.who.core.toNat (usePort · j.space (now s)) else s

/-- A piece moved in this cycle: what it lies behind is used for the job (R324). -/
def movePiece (s : State) (cl : Nat) (j : Job) (p : Piece) : State :=
  let t := { landPiece (moveCycle s cl j p) cl j p with uses := s.uses }
  if p.fill then t
  else
    let t := (p.starts j).foldl (fun t a => touch t a (j.seq + 1)) t
    if behindLinks (dieOfCluster cl) p.pa then useKey t linksKey (j.seq + 1) else t

/-- Whether the copy unit and the port cannot move a job's piece in this cycle (R8, R29, R322). -/
def unitBusy (s : State) (cl : Nat) (j : Job) (p : Piece) : Bool :=
  decide (now s < (getCluster s cl).cpLand) || !onEdge s (8 * cl) ||
    (usesPort j p && portBusy (getCore s j.who.core.toNat) j.space (now s))

/-- How many rows of its job a piece begins. -/
def rowsBegun (j : Job) (p : Piece) : Nat := ceilDiv (p.pos + p.bytes) (max 1 j.rowLen) - ceilDiv p.pos (max 1 j.rowLen)

/-- Whether the copy unit has still to do its own work on the rows that a piece begins: 4 cycles each (R322). The cycles in which
the pieces of an unloaded job land hold that work already (R324). -/
def rowWork (j : Job) (p : Piece) : Bool := j.loaded && decide (0 < rowsBegun j p) && !j.worked.contains p.pos

/-- That work done, the unit moving nothing else; the piece comes again when it is. -/
def workRows (s : State) (cl : Nat) (j : Job) (p : Piece) : State :=
  let t := afterFrom s cl (now s) (4 * rowsBegun j p)
  let s := modJob s cl j.seq fun j => { j with worked := p.pos :: j.worked }
  later (modCluster s cl fun c => { c with cpLand := t }) (t - now s) .copyPieceLand (.piece cl j.seq p)

/-- A packet of a peer job on its way out, its local bytes read 64 a cycle: `p` holds those still to be read of the packet `q`. A
read takes none. -/
def outPacket (s : State) (cl : Nat) (j : Job) (p q : Piece) : State :=
  if !endpointUp s (dieOfCluster cl) then transportLost s cl j.seq q.va
  else if j.inward then sendPiece s cl j q
  else if p.bytes ≤ 64 then sendPiece (moveCycle s cl j q) cl j q
  else later (moveCycle s cl j q) 1 .copyPieceLand (.piece cl j.seq { p with bytes := p.bytes - 64 })

/-- The packets that have been sent of the piece of a job in which a packet's bytes lie. -/
def sentFor (s : State) (p : Packet) : List Packet :=
  s.sent.filter fun q => decide (q.cluster = p.cluster) && decide (q.jobId = p.jobId) &&
    decide (q.piece ≤ p.piece) && decide (p.piece < q.piece + max 1 q.count)

/-- The piece of a peer job that a packet carries, or answers, once it has been sent. -/
def pieceOf (s : State) (j : Job) (p : Packet) : Option Piece :=
  if (sentFor s p).isEmpty then none else j.flying.find? (·.pos = p.piece)

/-- The first 64 bytes, at most, of a read's answer landed, the rest to follow in the next cycle (R322, R453). -/
def landAnswer (s : State) (cl : Nat) (j : Job) (p : Packet) (q : Piece) : State :=
  if unitBusy s cl j q then later s 1 .copyPieceLand (.packet p false)
  else
    let n := min 64 q.bytes
    let a := { q with bytes := n }
    let rest := { q with pos := q.pos + n, bytes := q.bytes - n, va := q.va + BitVec.ofNat 56 n, pa := q.pa + n }
    let j := { j with flying := a :: (if rest.bytes = 0 then [] else [rest]) ++ j.flying.erase q }
    let s := modJob (moveCycle s cl j q) cl j.seq fun o => { o with flying := j.flying }
    let s := countPiece (landInward s cl j a (p.data.take n)) cl j.seq a
    if rest.bytes = 0 then s
    else later s 1 .copyPieceLand (.packet { p with piece := rest.pos, data := p.data.drop n } false)

/-- A piece in the cycle in which it may land (R322, R324, R465). -/
def landTurn (s : State) (cl : Nat) (j : Job) (p : Piece) : State :=
  match (if j.flying.contains p then some p else j.flying.find? (·.pos = p.pos)) with
  | none => s
  | some q =>
    let again := later s 1 .copyPieceLand (.piece cl j.seq p)
    if j.peer.isNone && !p.fill && (p.starts j).any (fun a => (asleep s a).isSome) then landLater s cl j p
    else if !(j.peer.isSome && j.inward) && unitBusy s cl j p then again
    else if !(j.peer.isSome && j.inward) && rowWork j p then workRows s cl j p
    else if !j.loaded && !p.fill && (p.starts j).any (othersUse s j) then landDelayed s cl j.seq p
    else if j.peer.isSome then outPacket s cl j p q
    else movePiece s cl j q

/-- COPY_PIECE_LAND (R322, R452): operands the cluster, the job's number and the piece; or a packet that answers a read. The copy
unit moves one piece in each of its cluster's cycles; one that loses its port waits for the next cycle; one that meets a
channel in self-refresh waits 1,200 cycles, and its job is no longer unloaded (R465); a piece of a peer job is sent, unless
its endpoint is fenced (R462). -/
def execCopyPieceLand : State → Out := event .copyPieceLand do
  let s ← ask
  match s.arg with
  | .piece cl seq p =>
    match jobOf s cl seq with
    | some j => if j.live then update fun s => landTurn s cl j p else pure ()
    | none => pure ()
  | .packet p _ =>
    match jobOf s p.cluster p.jobId with
    | some j =>
      match pieceOf s j p with
      | some q => if j.live then update fun s => landAnswer s p.cluster j p q else pure ()
      | none => pure ()
    | none => pure ()
  | _ => pure ()

/-! ## Issuing a request (R233 to R238, R242, R243, R323) -/

/-- The next id of a cluster that holds no incomplete job (R242). -/
def freeId (c : Cluster) : Nat → BitVec 8 → BitVec 8
  | 0, i => i
  | f + 1, i => if c.jobs.any (fun j => j.id = i && j.live) then freeId c f (i + 1) else i

/-- The largest promise of the incomplete jobs among some. -/
def topPromise (t : Nat) (js : List Job) : Nat := (js.filter (·.live)).foldl (fun m j => max m j.promise.toNat) t

/-- A job's value written to its register, or its id to ox6 while its gather is unfinished (R238, R242). -/
def giveValue (j : Job) (k : Ctx) : Ctx :=
  if j.issuing then
    if oxOf k 7 = 0#64 then k else oxSet k 6 (putBits (oxOf k 6) 15 8 j.id.toNat)
  else gSet k j.d (at64 j.promise.toNat 8 ||| at64 j.id.toNat 0)

/-- The requests that a cluster has taken in one cycle put in their order (R243): round robin from the core after the one
taken last, ids and promises in that order. -/
def takeInOrder (s : State) (cl : Nat) (core : Nat) : State :=
  let c := getCluster s cl
  let t := now s
  let last := if c.cpCycle = t then c.cpPrev else c.cpLast
  let mine := c.jobs.filter (·.issued = t)
  let ids := mine.map (·.id)
  let sorted := (List.range 8).flatMap fun i => mine.filter fun j => j.who.core.toNat % 8 = (last + 1 + i) % 8
  let start := topPromise t (c.jobs.filter fun j => j.issued ≠ t)
  let (done, _) := (sorted.zip ids).foldl (fun (acc : List Job × Nat) p =>
    let j := { p.1 with id := p.2, promise := BitVec.ofNat 56 (acc.2 + p.1.cost) }
    (acc.1 ++ [j], if j.live then max acc.2 (acc.2 + j.cost) else acc.2)) ([], start)
  let s := setCluster s cl { c with
    jobs := (c.jobs.filter fun j => j.issued ≠ t) ++ done
    cpPrev := last
    cpCycle := t
    cpLast := (done.getLast?.map fun j => j.who.core.toNat % 8).getD (core % 8) }
  done.foldl (fun s j => deliver s j.who (giveValue j)) s

/-- A job whose id is given to another: it goes, or stays until its handle has published the slots it has landed (R231). -/
def retire (s : State) (j : Job) : Option Job :=
  let owes := match j.loc with
    | .handle n => !j.hLeft.isEmpty && (ctxOf s j.who).any fun k => decide ((handleOfCtx k n).pend ≠ 0)
    | _ => false
  if owes then some { j with retired := true } else none

/-- A job entered in the queue and the status table (R243); while other jobs are in flight none is unloaded (R324). -/
def enqueueJob (s : State) (cl : Nat) (j : Job) : State :=
  let c := getCluster s cl
  let id := freeId c 256 c.nextJob
  let busy := c.jobs.any (·.live)
  let rest := c.jobs.filterMap fun o => if o.id = id then retire s o else some (if o.live then { o with loaded := true } else o)
  let s := setCluster s cl { c with
    nextJob := id + 1
    jobs := rest ++ [{ j with id := id, loaded := j.loaded || busy }] }
  let s := takeInOrder s cl j.who.core.toNat
  if j.live then later s 0 .copyPageTranslate (.num cl j.seq 0) else s

/-- The wait for an entry of the queue (R243). When there are fewer than the cluster has cores, a request waits for the others
of its cycle, and those of the cores after the one last taken come first. -/
def takeEntry : M Unit := do
  let s ← ask
  let c ← curCluster
  let free := 32 - (c.jobs.filter (·.live)).length
  if 8 ≤ free then pure ()
  else if free ≠ 0 && s.scan ≠ scanEnd then throw (.wait .bid)
  else
    let last := if c.cpCycle = now s then c.cpPrev else c.cpLast
    let place := fun (core : Nat) => (core + 7 - last) % 8
    let taken := fun (core : Nat) => c.jobs.any fun j => j.issued = now s && j.who.core.toNat % 8 = core
    let ahead := c.bids.filter fun b => b.1 = now s && decide (place b.2 < place (s.core % 8)) && !taken b.2
    waitUntil (decide (ahead.length < free))

/-- A request that R235 calls malformed, but for the rules of a peer job. -/
def badRequest (kind : CpKind) (loc : CpLoc) (lbase rows rowLen pitch len : Nat) (ox2 ox3 : W64) : Bool :=
  let indexed := kind = .gath || kind = .scat
  let extent := (rows - 1) * pitch + rowLen
  let wfmt : BitVec 3 := ox2.extractLsb' 13 3
  decide (bits ox2 63 32 ≠ 0) || decide (bits ox2 8 5 ≠ 0) || decide (bits ox2 12 11 = 3) || decide (bits ox2 10 9 = 3) ||
  (indexed && (decide (bits ox3 63 21 ≠ 0) || decide (bits ox3 15 8 ≠ 0) || decide (rows = 0) || decide (16 < rows))) ||
  (match loc with | .weight _ => false | _ => ox2.getLsbD 4 &&
    (decide (rowLen % 256 ≠ 0) || decide (pitch % 256 ≠ 0) || decide (lbase % 16 ≠ 0))) ||
  (match loc with | .bufA => decide (0x10000 < lbase + extent) | .bufS => decide (0x8000 < lbase + extent) | _ => false) ||
  (kind = .red && decide (len % (if bits ox2 10 9 = 1 then 2 else 4) ≠ 0)) ||
  (match loc with
   | .weight sel => decide (5 ≤ wfmt.toNat) || (wfmt = 4#3 && sel.getLsbD 0) ||
       decide (rows * len ≠ imageBytes wfmt false)
   | _ => false)

/-- The leaf of a page as the page tables give it at an instant, and whether the cluster's TLB holds it. -/
def peekLeaf (s : State) (cl : Nat) (asid : BitVec 16) (va : VA) : Option Leaf × Bool :=
  match tlbHit (getCluster s cl) asid va with
  | some l => (some l, true)
  | none => match walk s asid va with
    | .leaf l => (some l, false)
    | .fail _ => (none, false)

/-- The first page of a box, as the issue sees it: its physical address and format, when it translates (R234, R242), and
whether the TLB holds it. DEDUCED, log entry 72. -/
def firstPage (kind : CpKind) (base : VA) : M (Option (Nat × Nat) × Bool) := fun s =>
  let acc : Acc := if kind = .put || kind = .scat then .store else .load
  if (windowOf base).isSome then .ok (none, true) s
  else
    match peekLeaf s (clusterOf s.core) (getCtx s s.core s.ctx).asid base with
    | (some l, hit) => .ok (if leafAllows l acc then some (leafPa l base, leafFmt l.entry) else none, hit) s
    | (none, hit) => .ok (none, hit) s

/-- A page of a gather's row translated at its issue: precise causes 0x04 and 0x05; whether it has the job's format (R237,
R238). -/
def gatherPage (j : Job) (va : VA) : M (Nat × LeafTag × Bool) := do
  match windowOf va with
  | some _ => trapM 0x04 (va.setWidth 64)
  | none => pure ()
  let l ← leafFor va .load
  let pa := leafPa l va
  let s ← ask
  if !admits s 1 j.who.asid.toNat .read pa (dieOf s.core) || inPeer pa then do
    update fun s => portRefusal s pa 1 j.who.asid.toNat s.core
    trapM 0x05 (va.setWidth 64)
  else pure ()
  pure (pa, tagOf l, decide (leafFmt l.entry = j.fmt))

/-- The pieces of a gather's row with their pages translated; a page of another format stops the job later (R237, R238). -/
def gatherRow (j : Job) (err : BitVec 8) (r : Nat) (va : VA) : M (List Piece) := do
  let ps ← gather (fun (p : Piece) => do
    let (pa, tag, ok) ← gatherPage j p.va
    let p := { p with pa := pa, leaf := tag, ready := true, err := if ok then p.err else 6 }
    if p.crosses j then do
      let (pb, next, fits) ← gatherPage j p.nextPage
      let p := { p with pb := pb, leafB := next }
      pure (match (if fits then none else cutPiece j p) with
        | some (a, b) => [a, { b with pa := pb, err := 6 }]
        | none => [p])
    else pure [p]) (rowPieces j err r (some va))
  pure ps.flatten

/-- Handle slots that hold the first `n` local rows of a job (R238). -/
def slotsFor (j : Job) (n : Nat) : Nat :=
  if n = 0 || j.hcfg = 0#64 then 0 else ceilDiv ((n - 1) * j.pitch + j.rowLen) (max 1 j.ring.slot)

/-- The address of row `x` of a table (R236, R238). -/
def rowAt (base : VA) (pitch : Int) (x : Nat) : VA := base + BitVec.ofInt 56 (pitch * x)

/-- An address in each page of a row of `len` bytes or elements of a format. -/
def rowPages (len fmt : Nat) (a : VA) : List VA :=
  let n := if fmt = 0 then len else if fmt = 4 then 64 * ceilDiv len 96 else len * elemBytes fmt
  a :: (List.range (n / 65536 + 1)).filterMap fun i =>
    let o := 65536 * (i + 1) - a.toNat % 65536
    if o < n then some (a + BitVec.ofNat 56 o) else none

/-- Row `n` of a gather (R238): its pages are translated, its handle slots reserved, its bytes posted, and it is queued; `most`
is ROWSM1. -/
def gatherUnit (j : Job) (hd : Option (BitVec 4)) (err : BitVec 8) (base : VA) (pitch : Int) (idx : List Nat) (most n : Nat) :
    M Unit := do
  let x := idx.getD n 0
  let ps ← (if most < x then pure (rowPieces j err n none) else gatherRow j err n (rowAt base pitch x))
  match hd with
  | some h => do
    let c ← cur
    let k := slotsFor j (n + 1) - slotsFor j n
    waitFree h (handleOfCtx c h) k
    modCur (setHandle h ((handleOfCtx c h).reserve k))
  | none => pure ()
  post j.rowLen j.cc
  update fun s =>
    let cl := clusterOf s.core
    later (modJob s cl j.seq fun j => { j with
      todo := j.todo ++ ps
      left := j.left + j.rowLen
      queued := n + 1
      loaded := j.loaded || ps.any fun p => !p.fill && decide (memClass cl p.pa ≠ j.lat)
      oor := if most < x && j.oor ≠ 0xFFFF#16 then j.oor + 1 else j.oor }) 0 .copyPageTranslate (.num cl j.seq 0)

/-- What a gather's issue does once row `n` is queued (R238): the progress pair, or D when every row is. -/
def gatherNext (seq rows n : Nat) : M Bool := do
  let s ← ask
  let cl := clusterOf s.core
  let id : BitVec 8 := ((jobOf s cl seq).map (·.id)).getD 0
  if n + 1 < rows then do
    wox 6 (at64 id.toNat 8 ||| at64 (n + 1) 0)
    wox 7 (at64 0x2F 58 ||| at64 2 55 ||| 1)
    pure false
  else do
    wox 6 0
    wox 7 0
    update fun s =>
      let s := modJob s cl seq fun j => { j with issuing := false }
      match jobOf s cl seq with
      | some j => later (deliver s j.who (giveValue j)) 0 .copyPageTranslate (.num cl seq 0)
      | none => s
    pure true

/-- Whether a matrix instruction of the current context that has not completed holds bytes of A that a request names as its local
side: the request stalls (R195). -/
def localHeld (s : State) (loc : CpLoc) (h : Handle) (lbase rows rowLen pitch slots : Nat) : Bool :=
  match loc with
  | .bufA => (List.range rows).any fun r => matrixBefore s spA (lbase + r * pitch) rowLen
  | .handle _ => h.space = spA &&
      (List.range slots).any fun i => matrixBefore s spA (h.slotAt (h.filled.toNat + h.pend.toNat + i)) h.slot
  | _ => false

/-- A fresh copy request (R233 to R243), or, of a gather, its first row: whether it is issued then. `idx` is empty but for
CP.GATH and CP.SCAT. -/
def freshRequest (kind : CpKind) (d : BitVec 5) (loc : CpLoc) (hd : Option (BitVec 4 × Handle)) (lbase : Nat)
    (idx : List Nat) : M Bool := do
  let ox0 ← rox 0
  let ox1 ← rox 1
  let ox2 ← rox 2
  let ox3 ← rox 3
  let ox4 ← rox 4
  let me ← whoNow
  let base : VA := ox0.setWidth 56
  let pitch : Int := (ox1.extractLsb' 32 32).toInt
  let most := bits ox1 31 16
  let len := bits ox1 15 0 + 1
  let (first, hit) ← firstPage kind base
  let s ← ask
  let cl := clusterOf s.core
  let die := dieOf s.core
  let fmt := (first.map (·.2)).getD 0
  let pa := (first.map (·.1)).getD 0
  let lat := (first.map fun p => memClass cl p.1).getD 640
  let peer := match placeOf pa with | .peer n _ => some n | _ => none
  let indexed := kind = .gath || kind = .scat
  let rows := if indexed then bits ox3 20 16 else most + 1
  let weight := match loc with | .weight _ => true | _ => false
  let rowLen := if fmt = 0 then len else 4 * len
  let dp := bits ox2 31 16
  let lp := if weight || dp = 0 then rowLen else dp
  let entry := peerEntry s die (peer.getD 0)
  let bad := badRequest kind loc lbase rows rowLen lp len ox2 ox3 ||
    (peer.isSome && badPeerJob kind pitch len (rows * rowLen) (pa % 0x1000000000) ox4 entry)
  let h := (hd.map (·.2)).getD Handle.reset
  let extent := (rows - 1) * lp + rowLen
  let slots := if hd.isSome && !bad then ceilDiv extent (max 1 h.slot) else 0
  match hd with
  | some (n, h) => do
    trapIf (!bad && (extent % max 1 h.slot ≠ 0 || decide (h.cnt < slots))) 0x11 (handleVal n 0x100)
    waitFree n h slots
  | none => pure ()
  let total := if bad then 0 else rows * rowLen
  waitUntil (bad || !localHeld s loc h lbase rows rowLen lp slots)
  waitUntil (!atomicsOut s)
  let seq ← fresh
  let nosrc := idx.take rows |>.filter fun x => decide (most < x)
  let j : Job := {
    id := 0, seq := seq, who := me, kind := kind, loc := loc, d := d, lbase := lbase, rowLen := rowLen, pitch := lp,
    rows := rows, ox2 := if weight then ox2 &&& ~~~0x10#64 else ox2, ox4 := ox4, fill := ox3.extractLsb' 0 8, fmt := fmt,
    lat := lat, cost := lat + ceilDiv total 64 + 4 * rows,
    state := if bad then 3 else 0, err := if bad then 5 else 0, flags := 0,
    oor := if kind = .scat && !bad then BitVec.ofNat 16 nosrc.length else 0,
    fault := 0, promise := 0, issued := now s,
    loaded := decide ((getDie s die).clock < 2400) || !hit ||
      (kind = .gath && (idx.take rows).any fun x => x ≤ most &&
        (rowPages len fmt (rowAt base pitch x)).any fun va => (tlbHit (getCluster s cl) me.asid va).isNone),
    issuing := kind = .gath && !bad, queued := if kind = .gath then 0 else rows, retired := false, stopping := false,
    todo := [], flying := [], left := 0, hcfg := if bad then 0 else h.cfg,
    hFirst := (h.cptr.toNat + h.filled.toNat + h.pend.toNat) % max 1 h.cnt, hDone := 0,
    hLeft := if hd.isSome then slotNeeds rows rowLen lp h.slot slots else [],
    wimage := [], wbegun := false, peer := if bad then none else peer,
    chunks := if !bad && peer.isSome && kind = .put && isGroupPeer entry then
        (List.range (total / chunkSize entry)).map (· + pa % 0x1000000000 / chunkSize entry) else [], worked := [] }
  let err : BitVec 8 := if fmt ≠ 0 && (kind = .red || weight ||
      (fmt = 4 && (base.toNat % 64 ≠ 0 || pitch % 64 ≠ 0 || len % 8 ≠ 0))) then 6 else 0
  if bad then do
    takeEntry
    update fun s => enqueueJob s cl j
    if kind = .gath then do
      wox 6 0
      wox 7 0
    else pure ()
    pure true
  else if kind = .gath then do
    takeEntry
    update fun s => enqueueJob s cl j
    gatherUnit j (hd.map (·.1)) err base pitch idx most 0
    gatherNext seq rows 0
  else do
    post total j.cc
    match hd with
    | some (n, h) => modCur (setHandle n (h.reserve slots))
    | none => pure ()
    let todo := if peer.isSome then peerPieces total base
      else if kind = .scat then (List.range rows).flatMap fun r =>
        rowPieces j err r (if most < idx.getD r 0 then none else some (rowAt base pitch (idx.getD r 0)))
      else (List.range rows).flatMap fun r => rowPieces j err r (some (rowAt base pitch r))
    takeEntry
    update fun s => enqueueJob s cl { j with todo := todo, left := total }
    pure true

/-- A handle named as a destination: configured, with producer kind 1 (R230, R233). -/
def destHandle (a : BitVec 5) : M (BitVec 4 × Handle) := do
  let n : BitVec 4 := a.setWidth 4
  let h ← needHandle n
  trapIf (h.prod ≠ 1) 0x11 (handleVal n 0x100)
  pure (n, h)

/-- The local side of a request: space code p of R233 and register A. -/
def localSide (p : BitVec 2) (a : BitVec 5) : M (CpLoc × Nat × Option (BitVec 4 × Handle)) := do
  if p = 2#2 then do
    let h ← destHandle a
    pure (.handle h.1, 0, some h)
  else do
    let x ← rg a
    pure (if p = 0#2 then .bufA else if p = 1#2 then .bufS else .weight (x.setWidth 8), x.toNat % 65536, none)

/-- A copy request that starts from the beginning. -/
def request (i : Instr) (kind : CpKind) (d a : BitVec 5) (p : BitVec 2) (idx : M (List Nat)) : M Bool := do
  notInHandler i
  claim (.g d)
  let ids ← idx
  let (loc, lbase, hd) ← localSide p a
  freshRequest kind d loc hd (if p = 3#2 then 0 else lbase) ids

/-- The indices of CP.GATH and CP.SCAT: 16 unsigned lanes (R238). -/
def indexLanes (b : BitVec 5) : M (List Nat) := do
  let v ← rv b
  pure ((List.range 16).map fun i => (lane v 32 i).toNat)

/-- CP.GET (R233). -/
def execCpGet (d a : BitVec 5) (p : BitVec 2) : State → Out :=
  instr 4 (discard (request (.cpGet d a p) .get d a p (pure [])))
/-- CP.PUT (R233). -/
def execCpPut (d a : BitVec 5) (p : BitVec 1) : State → Out :=
  instr 4 (discard (request (.cpPut d a p) .put d a (p.setWidth 2) (pure [])))
/-- CP.SCAT (R238). -/
def execCpScat (d a b : BitVec 5) (p : BitVec 1) : State → Out :=
  instr 4 (discard (request (.cpScat d a b p) .scat d a (p.setWidth 2) (indexLanes b)))
/-- CP.RED (R239). -/
def execCpRed (d a : BitVec 5) (p : BitVec 1) : State → Out :=
  instr 4 (discard (request (.cpRed d a p) .red d a (p.setWidth 2) (pure [])))

/-- The next row of a gather whose issue is not complete (R238): ox6 names its job and the row. -/
def resumeGather (d : BitVec 5) (idx : List Nat) : M Bool := do
  let p6 ← rox 6
  let s ← ask
  let cl := clusterOf s.core
  match jobById (getCluster s cl) (p6.extractLsb' 8 8) with
  | none => trapM 0x02 p6
  | some j => do
    trapIf (!(j.issuing && isMine s j.who)) 0x02 p6
    let ox0 ← rox 0
    let ox1 ← rox 1
    let base : VA := ox0.setWidth 56
    let pitch : Int := (ox1.extractLsb' 32 32).toInt
    let n := bits p6 4 0
    let hd : Option (BitVec 4) := match j.loc with | .handle h => some h | _ => none
    update fun s => modJob s cl j.seq fun j => { j with d := d }
    let err : BitVec 8 := if j.fmt = 4 && (base.toNat % 64 ≠ 0 || pitch % 64 ≠ 0 || (bits ox1 15 0 + 1) % 8 ≠ 0) then 6 else 0
    if n < j.rows then gatherUnit j hd err base pitch idx (bits ox1 31 16) n else pure ()
    gatherNext j.seq j.rows n

/-- CP.GATH: its issue is restartable (R86, R238). -/
def execCpGath (d a b : BitVec 5) (p : BitVec 2) : State → Out := restartable 4 do
  notInHandler (.cpGath d a b p)
  claim (.g d)
  let ox7 ← rox 7
  if ox7 = 0#64 then request (.cpGath d a b p) .gath d a p (indexLanes b)
  else do
    trapIf (decide (bits ox7 63 58 ≠ 0x2F) || decide (bits ox7 57 55 ≠ 2)) 0x02 ox7
    let idx ← indexLanes b
    resumeGather d idx

/-! ## Status (R244) -/

/-- CP.STAT and its forms .addr and .one (R244): a job that the status table does not hold reads zero. -/
def execCpStat (d a : BitVec 5) (p : BitVec 2) : State → Out := instr 4 do
  notInHandler (.cpStat d a p)
  let x ← rg a
  claim (.g d)
  let cl ← curCluster
  let c ← cur
  let j := jobById cl (x.extractLsb' 0 8)
  if p = 2#2 then do
    modCur fun c => { c with oneSided := 0 }
    wg d c.oneSided
  else wg d ((j.map fun j => if p = 1#2 then j.fault.setWidth 64 else j.word).getD 0)

/-- CP.WAIT (R244). An id that the status table does not hold gives 0 at once (DESIGN CHOICE, log entry 29). -/
def execCpWait (d a : BitVec 5) : State → Out := instr 4 do
  notInHandler (.cpWait d a)
  let x ← rg a
  claim (.g d)
  let cl ← curCluster
  match jobById cl (x.extractLsb' 0 8) with
  | some j => do
    waitUntil (!j.live)
    wg d j.word
  | none => wg d 0

end Sys2Proof.Machine
end

