-- ==== Sys2Proof/Machine/Queue.lean ====
section
/-! DEFINITION. The queue engine of a core: its deque in two parts (18_strands_runtime.md R360 to R363), dispatch and pickup
(R364, 01_state.md R22), the steal sequence (R365 to R368), powering the banks down (01_state.md R31), and the events by
which they come about. -/
namespace Sys2Proof.Machine
open Sys2Proof

/-! ## Where records stand (R360, R405) -/

/-- Where entry `i` of a core's overflow area lies in virtual memory; entry OVN is the reserved one (R405). -/
def ovflAddr (s : State) (core i : Nat) : VA :=
  let c := getCore s core
  let q := 8 * (coreLaunch s core).rank.toNat + core % 8
  BitVec.ofNat 56 (c.ovfl.toNat + q * 64 * (c.ovn.toNat + 1) + 64 * i)

/-- Whom a queue engine works for: an instruction that runs, whose bytes stand as its operand, or itself. -/
def queueFor (s : State) : Nat := match s.arg with | .word _ _ _ => queueUser s.core s.ctx | _ => 0

/-- The physical address of an overflow entry, reached as a class-1 access of the launch's address space (R428); none
when it lies in the S-alias window, does not translate or is refused (R419), which the CXL port has logged (R445). -/
def ovflPa (core i : Nat) (p : Perm) : M (Option Nat) := do
  let s ← ask
  let asid := (coreLaunch s core).asid
  let va := ovflAddr s core i
  if (windowOf va).isSome then pure none
  else match ← engineWait (clusterOf core) (.queue core (queueFor s)) asid va with
    | none => pure none
    | some l => do
      let s ← ask
      let pa := leafPa l va
      if !leafAllows l (if p = .read then .load else .store) then pure none
      else if admits s 1 asid.toNat p pa (dieOf core) then pure (some pa)
      else do
        update fun s => portRefusal s pa 1 asid.toNat core
        pure none

/-- Where resident record `i`, counted from the oldest, lies in S (R27, R360). -/
def residentAt (d : Deque) (i : Nat) : Nat := 0x7000 + 64 * ((d.rFirst + i) % 64)

/-- A record written at a place in S, through its port (R29). -/
def putResident (s : State) (core off : Nat) (r : V512) : State :=
  modCore (powerUp s core) core fun c => usePort (spaceWrite c 3 off (vecBytes r)) spS (now s)

/-- A record read at a place in S, through its port (R29). -/
def getResident (core off : Nat) : M V512 := fun s =>
  .ok (vecOf (spaceRead (getCore s core) 3 off 64)) (modCore s core (usePort · spS (now s)))

/-- Whether the S port of a core has served an access in this cycle: its queue engine's comes in the next one (R29). -/
def portTaken (s : State) (core : Nat) : Bool := portBusy (getCore s core) spS (now s)

/-- What an operation of a queue engine has tried is undone: only its reports and the results of walks that it has taken
stay. -/
def undo (core : Nat) (s : State) : M Unit := update fun t =>
  modCluster (keepReports s t) (clusterOf core) fun c => { c with misses := (getCluster t (clusterOf core)).misses }

/-- The entry of the ring that record `i`, counted from the oldest, takes. -/
def ringEntry (c : Core) (d : Deque) (i : Nat) : Nat := (d.oFirst + i) % max 1 c.ovn.toNat

/-- A record written to memory by a queue engine, past the cluster cache, whose copy of the line goes (R312, R360). -/
def writeRecordAt (s : State) (core pa : Nat) (r : V512) : State :=
  memWrite (modCluster s (clusterOf core) fun c => { c with cache := c.cache.filter (fun l => l.line ≠ lineOf pa) }) pa (vecBytes r)

/-- A record written to an overflow entry; false when the engine cannot reach it. DEDUCED, log entry 23. -/
def putOverflow (core i : Nat) (r : V512) : M Bool := do
  match ← ovflPa core i .write with
  | some pa => do
    update fun s => writeRecordAt s core pa r
    pure true
  | none => pure false

/-- A record read from an overflow entry; the zero record when the engine cannot reach it. The flag says that it met an
uncorrectable error. -/
def getOverflow (core i : Nat) : M (V512 × Bool) := do
  match ← ovflPa core i .read with
  | some pa => do
    let s ← ask
    if badAt s pa then do
      update fun s => report s 2 1 (channelUnit s pa) pa 1 (coreLaunch s core).asid.toNat core
      pure (vecOf (memRead s pa 64), true)
    else do
      update (wake · pa)
      pure (vecOf (memRead s pa 64), false)
  | none => pure (0, false)

/-- The deque of a core changed. -/
def modDeque (s : State) (core : Nat) (f : Deque → Deque) : State := modCore s core fun c => { c with deque := f c.deque }

/-- A core, and its deque changed, in a meaning. -/
def coreOf (core : Nat) : M Core := fun s => .ok (getCore s core) s
def onDeque (core : Nat) (f : Deque → Deque) : M Unit := update fun s => modDeque s core f

/-- A record made the newest of the resident part. -/
def pushResident (s : State) (core : Nat) (r : V512) : State :=
  let d := (getCore s core).deque
  modDeque (putResident s core (residentAt d d.rCount) r) core fun d => { d with rCount := d.rCount + 1 }

/-- A record made the newest of the overflow ring, when an entry is free and can be reached. -/
def pushRing (core : Nat) (r : V512) : M Bool := do
  let c ← coreOf core
  if c.deque.oCount < c.ovn.toNat then do
    let ok ← putOverflow core (ringEntry c c.deque c.deque.oCount) r
    if ok then onDeque core fun d => { d with oCount := d.oCount + 1 } else pure ()
    pure ok
  else pure false

/-- The oldest record of the overflow part taken out: from the ring, else from the reserved entry. -/
def takeOldestOverflow (core : Nat) : M (Option (V512 × Bool)) := do
  let c ← coreOf core
  if 0 < c.deque.oCount then do
    let r ← getOverflow core (ringEntry c c.deque 0)
    onDeque core fun d => { d with oFirst := (d.oFirst + 1) % max 1 c.ovn.toNat, oCount := d.oCount - 1 }
    pure (some r)
  else if c.deque.resv then do
    let r ← getOverflow core c.ovn.toNat
    onDeque core fun d => { d with resv := false }
    pure (some r)
  else pure none

/-! ## Pushes (R362) -/

/-- A push at the head as FORK makes it: status 0 resident, 1 overflow, none when there is no place (status 2). It is made when
the S port is free (R29). -/
def pushHead (core : Nat) (r : V512) : M (Option Nat) := do
  let s ← ask
  waitUntil (!portTaken s core)
  let d := (getCore s core).deque
  if d.resv then pure none
  else if d.oCount = 0 && d.rCount < 64 then do
    update fun s => pushResident s core r
    pure (some 0)
  else if ← pushRing core r then pure (some 1)
  else if d.rCount < 64 && 0 < d.oCount then
    match ← takeOldestOverflow core with
    | some (o, _) => do
      update fun s => pushResident s core o
      if ← pushRing core r then pure (some 1)
      else do
        undo core s
        pure none
    | none => pure none
  else pure none

/-- A record put into the reserved entry, when it is free and can be reached. -/
def pushReserved (core : Nat) (r : V512) : M Bool := do
  let c ← coreOf core
  if c.deque.resv then pure false
  else do
    let ok ← putOverflow core c.ovn.toNat r
    if ok then onDeque core fun d => { d with resv := true } else pure ()
    pure ok

/-- A push that may use the reserved entry: an unparked parent's or a carried reply's. False: it has to wait. -/
def tryPush (core : Nat) (r : V512) : M Bool := do
  match ← pushHead core r with
  | some _ => pure true
  | none => pushReserved core r

/-- The moves and waiting pushes that come before any other (R361, R362): the reserved record into a free ring entry, a
carried reply, then the waiting pushes in order; the pushes wait for the S port (R29). -/
def settleQueue : Nat → Nat → M Unit
  | 0, _ => pure ()
  | f + 1, core => do
    let s ← ask
    let c := getCore s core
    let d := c.deque
    let back : M Unit := undo core s
    if d.resv && d.oCount < c.ovn.toNat then do
      let r ← getOverflow core c.ovn.toNat
      onDeque core fun d => { d with resv := false }
      if ← pushRing core r.1 then settleQueue f core else back
    else if d.resv || portTaken s core then pure ()
    else match d.carry, d.waits with
      | some r, _ => do
        onDeque core fun d => { d with carry := none }
        if ← tryPush core r then settleQueue f core else back
      | none, r :: rest => do
        onDeque core fun d => { d with waits := rest }
        if ← tryPush core r then settleQueue f core else back
      | none, [] => pure ()

/-- Whether the queue engine has a move between the parts to make (R361). -/
def canMigrate (d : Deque) : Bool := decide (d.rCount < 64) && (decide (0 < d.oCount) || d.resv)

/-- Whether it has a move or a waiting push to make that may find its place now (R361, R362). -/
def canSettle (c : Core) (t : Nat) : Bool :=
  canMigrate c.deque || (portBusy c spS t && !c.deque.resv && (c.deque.carry.isSome || !c.deque.waits.isEmpty))

/-- The next move of R361 asked for, one in each cycle in which the engine performs no operation of R363. -/
def askMigrate (s : State) (core : Nat) : State :=
  if canSettle (getCore s core) (now s) && !(s.agenda.any fun e => e.ev = .dequeMigrate && e.arg = .num core 0 0)
  then later s 1 .dequeMigrate (.num core 0 0) else s

/-- After an operation on a deque: what comes before any other, the cycle in which the engine was busy, the next move of
R361, the steal sequence of a core that has a record ended (R365), and its dispatch asked to look. -/
def queueDone (core : Nat) : M Unit := do
  settleQueue 16 core
  update fun s =>
    let s := askMigrate (modDeque s core fun d => { d with busy := now s + 1 }) core
    let d := (getCore s core).deque
    if 0 < d.rCount + d.oCount || d.resv then dispatch (modCore s core fun c => { c with steal := none }) core else s

/-- An unparked parent pushed onto a core's deque (R313, R362). -/
def pushParent (core : Nat) (r : V512) : M Unit := do
  let c ← coreOf core
  let s ← ask
  let ok ← (if c.deque.waits.isEmpty && c.deque.carry.isNone && !portTaken s core then tryPush core r else pure false)
  if ok then pure () else onDeque core fun d => { d with waits := d.waits ++ [r] }
  queueDone core

/-- Whether a push of a HALTJ would be the ninth to wait (R362): eight wait and it would find no place. -/
def waitsFull (core : Nat) : M Bool := do
  let s ← ask
  let d := (getCore s core).deque
  if d.waits.length < 8 then pure false
  else if d.carry.isSome || d.resv then pure true
  else do
    let ok ← tryPush core 0
    if ok then update fun _ => s else undo core s
    pure (!ok)

/-- A steal reply carried to a core with no free context (R367). -/
def pushCarried (core : Nat) (r : V512) : M Unit := do
  let s ← ask
  let ok ← (if portTaken s core then pure false else tryPush core r)
  if ok then pure () else onDeque core fun d => { d with carry := some r }
  queueDone core

/-- A push at the tail, by YIELD (R362); false when the deque is full. -/
def pushTail (core : Nat) (r : V512) : M Bool := do
  let s ← ask
  waitUntil (!portTaken s core)
  let c ← coreOf core
  let d := c.deque
  let first := (d.rFirst + 63) % 64
  if d.rCount < 64 then do
    update fun s => modDeque (putResident s core (0x7000 + 64 * first) r) core fun d =>
      { d with rFirst := first, rCount := d.rCount + 1 }
    pure true
  else if d.oCount < c.ovn.toNat then do
    let o := vecOf (spaceRead c 3 (residentAt d 63) 64)
    let of := (d.oFirst + c.ovn.toNat - 1) % c.ovn.toNat
    let ok ← putOverflow core of o
    if ok then update fun s => modDeque (putResident s core (0x7000 + 64 * first) r) core fun d =>
        { d with rFirst := first, oFirst := of, oCount := d.oCount + 1 }
    else pure ()
    pure ok
  else pure false

/-! ## Pops and steals (R363, R367) -/

/-- A record popped from the head: it, the overflow entry it comes from if it comes from one, and whether it met an
uncorrectable error. -/
def popHead (core : Nat) : M (Option (V512 × Option Nat × Bool)) := do
  let c ← coreOf core
  let d := c.deque
  if d.resv then do
    let r ← getOverflow core c.ovn.toNat
    onDeque core fun d => { d with resv := false }
    queueDone core
    pure (some (r.1, some c.ovn.toNat, r.2))
  else if 0 < d.oCount then do
    let r ← getOverflow core (ringEntry c d (d.oCount - 1))
    onDeque core fun d => { d with oCount := d.oCount - 1 }
    queueDone core
    pure (some (r.1, some (ringEntry c d (d.oCount - 1)), r.2))
  else if 0 < d.rCount then do
    let r ← getResident core (residentAt d (d.rCount - 1))
    onDeque core fun d => { d with rCount := d.rCount - 1 }
    queueDone core
    pure (some (r, none, false))
  else pure none

/-- Whether the record that a pop takes is a resident one, in S. -/
def popsResident (d : Deque) : Bool := !d.resv && decide (d.oCount = 0) && decide (0 < d.rCount)

/-- A record taken from the tail for a thief (R367). -/
def stealTail (core : Nat) : M (Option V512) := do
  let c ← coreOf core
  let d := c.deque
  if 0 < d.rCount then do
    let r ← getResident core (residentAt d 0)
    onDeque core fun d => { d with rFirst := (d.rFirst + 1) % 64, rCount := d.rCount - 1 }
    queueDone core
    pure (some r)
  else match ← takeOldestOverflow core with
    | some r => do
      queueDone core
      pure (some r.1)
    | none => pure none

/-! ## Pickup (R22, R341, R364) -/

/-- Word `w` of a record. -/
def recWord (r : V512) (w : Nat) : W64 := lane r 64 w

/-- The record of a strand as a context picks it up (R22), its first instruction `n` cycles from now: an acquire of
package scope (R341), its banks powered. An odd PC traps with cause 0x03, which kills. -/
def pickup (s : State) (core x : Nat) (r : V512) (prio : BitVec 2) (n : Nat) : State :=
  let s := acquireAll (powerUp s core) core
  let s := modCtx s core x fun c =>
    let c := gSet (gSet (gSet (clearStrand c) 1 (recWord r 1)) 2 (recWord r 2)) 3 (recWord r 3)
    let c := gSet (gSet (gSet c 4 (recWord r 4)) 5 (recWord r 5)) 6 (recWord r 6)
    { c with run := .running, pc := (recWord r 0).setWidth 56, prio := prio, joinPtr := recWord r 6, nextIssue := after s core n }
  if (recWord r 0).getLsbD 0 then takeTrap s core x 0x03 ((recWord r 0).setWidth 56 |>.setWidth 64) false else s

/-- The priority that a popped or stolen record carries (R309, R364). -/
def recPrio (r : V512) : BitVec 2 := BitVec.ofNat 2 (bits (recWord r 7) 35 34)

/-- Word 7 and the flags of a record as a core's context writes it, reserved bits zero (R309, R311), PC and words 1 to 6
given. -/
def stampRecord (s : State) (core x : Nat) (susp : Bool) (r : V512) : V512 :=
  let c := getCtx s core x
  let w0 := putBits (recWord r 0) 63 56 (if susp then 1 else 0)
  let w7 := at64 c.dom.toNat 36 ||| at64 c.prio.toNat 34 ||| at64 x 14 ||| at64 core 0
  setLane (setLane r 64 0 w0) 64 7 w7

/-- The record that a suspending context writes (R312): the address of its next instruction and g1 to g6. -/
def suspendRecord (s : State) (core x : Nat) (pc : VA) : V512 :=
  let c := getCtx s core x
  stampRecord s core x true (ofLanes 64 8 fun i =>
    if i = 0 then pc.setWidth 64 else if i = 7 then 0 else gOf c (BitVec.ofNat 5 i))

/-! ## Dispatch and the steal sequence (R364 to R366) -/

/-- One step of the LFSR (R366). -/
def lfsrStep (x : BitVec 16) : BitVec 16 := if x.getLsbD 0 then (x >>> 1) ^^^ 0xB400 else x >>> 1

/-- What the LFSR of a core is seeded with at a bind (R366). -/
def lfsrSeed (core : Nat) : BitVec 16 := 0x8000#16 ||| BitVec.ofNat 16 core

/-- The bind record of a context (R410). -/
def bindAt (s : State) (core x : Nat) : BindRec := tabGet BindRec.reset s.slotTab (4 * core + x)
/-- The place of a context's bind record in its die's dispatch SRAM (R410). -/
def recIndex (core x : Nat) : Nat := 4 * (core % 2048) + x
/-- A bind record written, which ends its error (R459). -/
def setBind (s : State) (core x : Nat) (b : BindRec) : State :=
  let s := { s with slotTab := tabPut s.slotTab (4 * core + x) b }
  if (getDie s (dieOf core)).dispBad.contains (recIndex core x) then
    modDie s (dieOf core) fun d => { d with dispBad := d.dispBad.filter (· ≠ recIndex core x) }
  else s

/-- An access to some words of a die's dispatch SRAM, the slot table among them: an uncorrectable error there is reported and
has the die fenced (R459, R462). -/
def dispatchMeets (s : State) (die : Nat) (words : List Nat) : State :=
  if (getDie s die).dispBad.any words.contains then report s 2 5 die 0 2 die 0 else s

/-- The hardware contexts of a core that are free to take work: bound, their record asking for nothing else (R411). -/
def freeCtxs (s : State) (core : Nat) : List Nat :=
  (List.range 4).filter fun x => let c := getCtx s core x
    decide (c.run = .free) && c.bound && (bindAt s core x).v && decide ((bindAt s core x).act = 0)

/-- The cycles of a steal try's round trip (R368). -/
def stealTime (a b : Nat) : Nat := if clusterOf a = clusterOf b then 12 else if dieOf a = dieOf b then 40 else 160

/-- The cluster of a rank of a domain (R209). -/
def clusterOfRank (s : State) (dom : BitVec 12) (r : Nat) : Nat :=
  match launchOf s dom with
  | some l => l.clusters.getD r 0
  | none => 0

/-- Whether a try of a core's steal sequence is under way: it has at most one (R365). -/
def tryOut (s : State) (core : Nat) : Bool :=
  s.agenda.any fun d => match d.arg with
    | .num _ b _ => d.ev = .stealRequestArrive && decide (b = core)
    | .record n _ => d.ev = .stealReplyArrive && decide (n = core)
    | _ => false

/-- The next try of a core's steal sequence, or the wait after a round that failed (R365). A try that names the thief
itself fails at once. -/
def stealNext : Nat → State → Nat → State
  | 0, s, _ => s
  | f + 1, s, core =>
    let c := getCore s core
    match c.steal with
    | none => s
    | some st =>
      if 3 ≤ st.tries then
        later (modCore s core fun c => { c with steal := some { st with round := st.round + 1, tries := 0 } })
          (64 * 2 ^ min st.round 6) .stealBackoffExpire (.num core st.seq (st.round + 1))
      else
        let s1 := lfsrStep c.lfsr
        let s2 := lfsrStep s1
        let k := coreLaunch s core
        let (victim, l) :=
          if st.tries < 2 then (clusterOf core * 8 + s1.toNat % 8, s1)
          else (clusterOfRank s k.dom ((s1.toNat * k.clcount.toNat) >>> 16) * 8 + s2.toNat % 8, s2)
        let s := modCore s core fun c => { c with lfsr := l, steal := some { st with tries := st.tries + 1 } }
        if victim = core then stealNext f s core
        else later (linkUse s (dieOf core) (dieOf victim)) (stealTime core victim / 2) .stealRequestArrive (.num victim core 0)

/-- Whether a core's A, C and S may power down (R31, R372, R376): every context free, no handler running or pending, no
record in its deque, no retain bit, no banks kept for the launch it is bound to (R412), and no registers parked in C (R37). -/
def mayPowerDown (s : State) (core : Nat) : Bool :=
  let c := getCore s core
  (List.range 5).all (fun x => decide ((getCtx s core x).run = .free)) && c.mail.isEmpty && c.inbox.isEmpty && c.retain.isNone &&
  !c.keeps && c.parked.all (·.cols.isNone) &&
  decide (c.deque.rCount + c.deque.oCount = 0) && !c.deque.resv && c.deque.hold.isNone && c.deque.carry.isNone &&
  c.deque.waits.isEmpty

/-- The banks of a core that holds no work are asked to power down (R31). -/
def idleBanks (s : State) (core : Nat) : State :=
  if (getCore s core).powered && mayPowerDown s core &&
     !(s.agenda.any fun d => d.ev = .bankPowerDown && d.arg = .num core 0 0)
  then later s 1 .bankPowerDown (.num core 0 0) else s

/-- What a core's dispatch does for its free contexts, the lowest first (R364): a held record, the head of its own
deque, or a steal sequence; with no free context the sequence ends (R365). -/
def dispatchAll : Nat → Nat → M Unit
  | 0, _ => pure ()
  | f + 1, core => do
    let s ← ask
    match freeCtxs s core with
    | [] => update fun s => modCore s core fun c => { c with steal := none }
    | x :: _ =>
      match (getCore s core).deque.hold with
      | some r => do
        let n := 4 + ((getCore (powerUp s core) core).upAt - now s)
        update fun s => pickup (modDeque s core fun d => { d with hold := none }) core x r (recPrio r) n
        dispatchAll f core
      | none =>
        if portTaken s core && popsResident (getCore s core).deque then
          update fun s => later s 1 .contextDispatch (.num core 0 0)
        else match ← popHead core with
        | some (r, ended, bad) => do
          update fun s =>
            let n := if ended.isSome then 6 + Config.latency s.tick else 6
            let s := pickup { s with tick := s.tick + 1 } core x r (recPrio r) n
            if bad then takeTrap s core x 0x0C ((ovflAddr s core (ended.getD 0)).setWidth 64) false else s
          dispatchAll f core
        | none =>
          if (getCore s core).steal.isSome || tryOut s core then pure ()
          else update fun s =>
            stealNext 8 { modCore s core fun c => { c with steal := some ⟨s.nextId, 0, 0⟩ } with nextId := s.nextId + 1 } core

/-- Contexts whose slot is asked to be cleared are (R411). -/
def unbindFree (s : State) (core : Nat) : State :=
  (List.range 4).foldl (fun s x =>
    if (getCtx s core x).run = .free && (bindAt s core x).v && (bindAt s core x).act = 2
    then later s 0 .unbindValidClear (.num core x 0) else s) s

/-! ## The events -/

/-- CONTEXT_DISPATCH (R364): operands core. -/
def execContextDispatch : State → Out := event .contextDispatch do
  let s ← ask
  match s.arg with
  | .num core _ _ => do
    update fun s => dispatchMeets s (dieOf core) (8192 :: (List.range 4).map (recIndex core))
    dispatchAll 8 core
    update fun s => idleBanks (unbindFree s core) core
  | _ => pure ()

/-- STEAL_BACKOFF_EXPIRE (R365): operands core, sequence, round. -/
def execStealBackoffExpire : State → Out := event .stealBackoffExpire do
  let s ← ask
  match s.arg with
  | .num core seq round =>
    if (getCore s core).steal = some ⟨seq, round, 0⟩ then update fun s => stealNext 8 (endSteals s core) core else pure ()
  | _ => pure ()

/-- STEAL_REQUEST_ARRIVE (R367): operands victim, thief and the cycles that the request has waited for the victim's S port
(R29), which its reply makes up for (R368). The victim sends no record outside its domain. -/
def execStealRequestArrive : State → Out := event .stealRequestArrive do
  let s ← ask
  match s.arg with
  | .num victim thief waited =>
    let reply := fun (s : State) (r : Option V512) =>
      later s (stealTime thief victim / 2 - waited) .stealReplyArrive (.record thief r)
    if inDomain s victim (coreLaunch s thief).dom then
      if portTaken s victim && decide (0 < (getCore s victim).deque.rCount) then
        update fun s => later s 1 .stealRequestArrive (.num victim thief (waited + 1))
      else do
        let r ← stealTail victim
        update fun s => reply s r
    else update fun s => reply s none
  | _ => pure ()

/-- STEAL_REPLY_ARRIVE (R367, R368): operands the thief and what the reply carries. -/
def execStealReplyArrive : State → Out := event .stealReplyArrive do
  let s ← ask
  match s.arg with
  | .record core (some r) => do
    update fun s => modCore s core fun c => { c with steal := none }
    if (freeCtxs s core).isEmpty then pushCarried core r
    else do
      onDeque core fun d => { d with hold := some r }
      dispatchAll 8 core
  | .record core none => do
    update fun s => endSteals s core
    let s ← ask
    if (getCore s core).steal.isSome then update fun s => stealNext 8 s core else dispatchAll 8 core
  | _ => pure ()

/-- DEQUE_MIGRATE (R361, R362, R363): operands core. A waiting push that can be performed is; else the oldest overflow record
becomes the newest resident one. In a cycle in which the engine has performed another operation, or its core's S port has
served an access (R29), this waits for the next. -/
def execDequeMigrate : State → Out := event .dequeMigrate do
  let s ← ask
  match s.arg with
  | .num core _ _ =>
    if (getCore s core).deque.busy = now s + 1 || portTaken s core then update fun s => later s 1 .dequeMigrate (.num core 0 0)
    else do
      settleQueue 16 core
      let s ← ask
      if canMigrate (getCore s core).deque && !portTaken s core then
        match ← takeOldestOverflow core with
        | some (r, _) => do
          update fun s => pushResident s core r
          queueDone core
        | none => queueDone core
      else do
        update fun s => forgetEngines s fun e => decide (e = .queue core 0)
        queueDone core
  | _ => pure ()

/-- BANK_POWER_DOWN (R31): operands core. -/
def execBankPowerDown : State → Out := event .bankPowerDown do
  let s ← ask
  match s.arg with
  | .num core _ _ =>
    if mayPowerDown s core then update fun s => modCore s core fun c =>
      { c with powered := false, a := [], c := [], s := [], emptyA := [], emptyS := [], badA := [], badC := [], badS := [] }
    else pure ()
  | _ => pure ()

end Sys2Proof.Machine
end

