-- ==== Sys2Proof/Machine/Messages.lean ====
section
/-! DEFINITION. Active messages: sending, the mailbox, the handler context and their events (12_sync_ring.md R294 to R298,
01_state.md R25, 04_number_formats.md R122, R123, 19_program_hash_insert.md R376). -/
namespace Sys2Proof.Machine
open Sys2Proof

/-! ## Payloads (R122) -/

/-- An FP32 word narrowed for transport, with its flags (R122). -/
def narrow (fmt : BitVec 2) (x : BitVec 32) : List Byte × FpFlags := elemPut fmt.toNat x

/-- A payload as the sender's interface puts it on the wire (R122). -/
def wirePayload (fmt : BitVec 2) (bs : List Byte) : List Byte × FpFlags :=
  if fmt = 0#2 then (bs, 0)
  else (chunks 4 (bs.length / 4) bs).foldl (fun a w =>
    let (o, f) := narrow fmt (BitVec.ofNat 32 (natOf w))
    (a.1 ++ o, a.2 ||| f)) ([], 0)

/-- A payload as the receiver's interface widens it (R122). -/
def rowPayload (fmt : BitVec 2) (bs : List Byte) : List Byte :=
  if fmt = 0#2 then bs
  else (chunks (elemBytes fmt.toNat) (bs.length / elemBytes fmt.toNat) bs).flatMap fun e =>
    toBytes 4 (elemGet fmt.toNat e).toNat

/-! ## Sending (R295, R296) -/

/-- The checks of a header word (R295). -/
def headerOk (x : W64) : Bool :=
  decide (x &&& 0xFFFFFE0000F8C000 = 0#64) && decide (bits x 40 34 ≤ 64) &&
  (decide (bits x 33 32 = 0) || decide (bits x 40 34 % 4 = 0))

/-- The message of a header and a payload register. -/
def message (w : Who) (x : W64) (v : V512) (sid : Option (BitVec 3)) : Msg :=
  let fmt := x.extractLsb' 32 2
  let (p, f) := wirePayload fmt ((vecBytes v).take (bits x 40 34))
  ⟨w, x.setWidth 14, x.extractLsb' 16 3, x.extractLsb' 24 8, fmt, x.extractLsb' 34 7, p, f, sid⟩

/-- A message sent: it arrives after those its sender has sent to the same target in the same class (R296). -/
def sendMsg (s : State) (m : Msg) : State :=
  let s := linkUse s (dieOf m.who.core.toNat) (dieOf m.target.toNat)
  laterAfter s .messageArrive (.msg m 0) fun d => match d.arg with
    | .msg n _ => d.ev = .messageArrive && decide (n.who.core = m.who.core) && decide (n.who.ctx = m.who.ctx) &&
        decide (n.target = m.target) && decide (n.cls = m.cls)
    | _ => false

/-- The send id that MSG.SEND takes (R296): the lowest free, else the one resolved longest ago. -/
def pickId (sends : List SendId) : Option Nat :=
  match sends.findIdx? (· = .free) with
  | some i => some i
  | none =>
    (sends.zipIdx.foldl (fun b p => match p.1, b with
      | .resolved _ a, none => some (a, p.2)
      | .resolved _ a, some (m, j) => some (if a < m then (a, p.2) else (m, j))
      | _, b => b) none).map (·.2)

/-- MSG.SEND (R295, R296): a release (R340). -/
def execMsgSend (d a b : BitVec 5) : State → Out := instr 4 do
  let x ← rg a
  let v ← rv b
  claim (.g d)
  trapIf (!headerOk x) 0x0E x
  let c ← cur
  let h ← isHandler
  match pickId c.sends.toList with
  | none =>
    if h then trapM 0x09 (insnWord (.msgSend d a b)) else waitM
  | some i => do
    portsDone
    let w ← whoNow
    modCur fun c => { c with sends := c.sends.setIfInBounds i .flying }
    update fun s => sendMsg s (message w x v (some (BitVec.ofNat 3 i)))
    wg d (BitVec.ofNat 64 i)

/-- MSG.SENDW (R295, R296): the context waits for the outcome. -/
def execMsgSendw (d a b : BitVec 5) : State → Out := instrRaw do
  let h ← isHandler
  trapIf h 0x09 (insnWord (.msgSendw d a b))
  let x ← rg a
  let v ← rv b
  claim (.g d)
  trapIf (!headerOk x) 0x0E x
  portsDone
  let w ← whoNow
  modCur fun c => { c with run := .held (.sendw d) }
  update fun s => sendMsg s (message w x v none)

/-- MSG.STAT (R296). -/
def execMsgStat (d a : BitVec 5) : State → Out := instr 4 do
  let x ← rg a
  let c ← cur
  wg d ((sendStatus (c.sends[(x.extractLsb' 0 3).toNat]'((x.extractLsb' 0 3).isLt))).setWidth 64)

/-! ## The mailbox (R297, R298) -/

/-- The mailbox rows of a route class: the first and how many (R297). -/
def classRows (mbcap : W64) (cls : Nat) : Nat × Nat :=
  ((List.range cls).foldl (fun n c => n + bits mbcap (8 * c + 7) (8 * c)) 0, bits mbcap (8 * cls + 7) (8 * cls))

/-- The lowest free row of a class (R297). -/
def freeRow (c : Core) (cls : Nat) : Option Nat :=
  let (first, n) := classRows c.mbcap cls
  ((List.range n).map (first + ·)).find? fun r => !(c.mail.any (·.row = r))

/-- A core asked to start a handler. -/
def askHandler (s : State) (core : Nat) : State := later s 0 .handlerStart (.num core 0 0)

/-- MSG.MASK (R298). -/
def execMsgMask (a : BitVec 5) : State → Out := instr 4 do
  let x ← rg a
  modCurCore fun c => { c with classMask := c.classMask ||| x.setWidth 8 }
/-- MSG.UNMASK (R298). -/
def execMsgUnmask (a : BitVec 5) : State → Out := instr 4 do
  let x ← rg a
  modCurCore fun c => { c with classMask := c.classMask &&& ~~~ x.setWidth 8 }
  update fun s => askHandler s s.core

/-- MSG.RET (R298): the handler's row is free and its context idle; it waits for replies still to come to its registers
(DEDUCED, log entry 21). -/
def execMsgRet : State → Out := instrRaw do
  let h ← isHandler
  trapIf (!h) 0x0E (insnWord .msgRet)
  let c ← cur
  let s ← ask
  let cl ← curCluster
  waitUntil (!(c.locks.any (·.till.isNone)) && !(cl.sfu.any fun e => isMine s e.who))
  modCurCore fun k => { k with mail := k.mail.filter (·.row ≠ c.mailRow) }
  modCur fun c => { c with run := .free, trapMode := false, locks := [], waitSince := none }
  update fun s => dispatch (askHandler s s.core) s.core

/-- The handler's PC for a message, read by the target as a class-1 access of the launch's address space (R298): none while
the page's walk is awaited; no PC when the entry is zero, or its read faults, is refused or meets an error, which is
reported. -/
def handlerEntry (s : State) (m : Msg) : Option (Option VA) × State :=
  let core := m.target.toNat
  let c := getCore s core
  let asid := (coreLaunch s core).asid
  let va : VA := BitVec.ofNat 56 (c.htab.toNat + 8 * (256 * m.cls.toNat + m.hidx.toNat))
  let failed := fun (s : State) => (some none, report s 3 7 (clusterOf core) va.toNat 1 asid.toNat core)
  if c.htab = 0#64 then (some none, s)
  else if (windowOf va).isSome then failed s
  else match engineLeaf s (clusterOf core) (.port core) asid va with
    | (none, s) => (none,
        if walkFull s (clusterOf core) asid va then later s 1 .messageArrive (.num core 0 0)
        else startWalk s (clusterOf core) asid va (.engine (.port core)))
    | (some none, s) => failed s
    | (some (some l), s) =>
      let pa := leafPa l va
      if !admits s 1 asid.toNat .read pa (dieOf core) then failed s
      else if badAt s pa then (some none, report s 2 1 (channelUnit s pa) pa 1 asid.toNat core)
      else
        let w := memWord s pa
        (some (if w = 0#64 then none else some (w.setWidth 56)), wake s pa)

/-- A row's bytes written, its words full, with a trace entry (R297, R50). -/
def writeRow (s : State) (core : Nat) (r : MailRow) : State :=
  let s := modCore s core fun c => engineWrite { c with
    mail := c.mail.map fun q => if q.row = r.row then { q with written := true } else q } 3 (0x6000 + 64 * r.row) r.bytes
  askHandler (trace s core r.src.toNat true (0x6000 + 64 * r.row)) core

/-- A message's outcome on its way back to its sender (R296). -/
def returnStatus (s : State) (m : Msg) (st : BitVec 3) : State := sometime s .messageStatusReturn (.msg m st)

/-- A message that has arrived in the cycle `came` accepted into a row (R297), which is written as a remote access at the
target's S port (R29), 64 cycles after the arrival when the banks were down or powering up then (R376). -/
def acceptMsg (s : State) (m : Msg) (came r : Nat) (pc : VA) : State :=
  let core := m.target.toNat
  let p := rowPayload m.fmt m.payload
  let row : MailRow := ⟨r, m.cls, m.hidx, pc, m.who.core, m.flags, p ++ List.replicate (64 - p.length) 0, false⟩
  let s := modCore (powerUp s core) core fun c => { c with mail := c.mail ++ [row] }
  let s := if came < (getCore s core).upAt && decide (now s < came + 64) then
      later s (came + 64 - now s) .mailboxRowWrite (.num core r 0)
    else if portBusy (getCore s core) 3 (now s) then later s 1 .mailboxRowWrite (.num core r 0)
    else modCore (writeRow s core row) core fun c => usePort c 3 (now s)
  returnStatus s m 1

/-- A message at its target: accepted into a row, or refused with the first reason that applies (R296, R297); none while it
waits for its handler's entry. -/
def arrive (s : State) (m : Msg) (came : Nat) : Bool × State :=
  if !inDomain s m.target.toNat m.who.dom then (true, returnStatus s m 4)
  else match handlerEntry s m with
    | (none, s) => (false, s)
    | (some none, s) => (true, returnStatus s m 3)
    | (some (some pc), s) =>
      match freeRow (getCore s m.target.toNat) m.cls.toNat with
      | none => (true, returnStatus s m 2)
      | some r => (true, acceptMsg s m came r pc)

/-- The messages that have arrived at a core, each with the cycle of its arrival, decided on in their order, as far as their
handlers' entries are there (R297). For one that waits the banks power up (R376); R31 applies again when none does. -/
def decideAll : List (Msg × Nat) → State → Nat → State
  | [], s, core => idleBanks (modCore s core fun c => { c with inbox := [] }) core
  | m :: ms, s, core =>
    match arrive s m.1 m.2 with
    | (true, s) => decideAll ms s core
    | (false, s) => modCore (powerUp s core) core fun c => { c with inbox := m :: ms }

/-- MESSAGE_ARRIVE (R297): an arrival at the target's port, decided on after those before it; as a number, the core whose
port's walk has ended. -/
def execMessageArrive : State → Out := event .messageArrive do
  let s ← ask
  match s.arg with
  | .msg m _ => update fun s => decideAll ((getCore s m.target.toNat).inbox ++ [(m, now s)]) s m.target.toNat
  | .num core _ _ => update fun s => decideAll (getCore s core).inbox s core
  | _ => pure ()

/-- MAILBOX_ROW_WRITE (R376): operands core and row; it waits for the S port (R29). -/
def execMailboxRowWrite : State → Out := event .mailboxRowWrite do
  let s ← ask
  match s.arg with
  | .num core r _ =>
    if portBusy (getCore s core) 3 (now s) then update fun s => later s 1 .mailboxRowWrite (.num core r 0)
    else match (getCore s core).mail.find? (fun q => q.row = r && !q.written) with
    | some q => update fun s => modCore (writeRow s core q) core fun c => usePort c 3 (now s)
    | none => pure ()
  | _ => pure ()

/-- MESSAGE_STATUS_RETURN (R296). -/
def execMessageStatusReturn : State → Out := event .messageStatusReturn do
  let s ← ask
  match s.arg with
  | .msg m st =>
    update fun s =>
      let t := after s m.who.core.toNat 1
      let s := { s with nextId := s.nextId + 1 }
      deliver s m.who fun c => match m.sid with
        | some i => { c with sends := c.sends.setIfInBounds i.toNat (.resolved st (s.nextId - 1)) }
        | none => match c.run with
          | .held (.sendw d) => { (gSet c d (st.setWidth 64)).goOn (c.pc + 4) t with run := .running }
          | _ => c
  | _ => pure ()

/-- The handler context as a handler starts (R25): its registers, its flags; TRAPVEC stays. -/
def handlerCtx (c : Ctx) (r : MailRow) (t : Nat) : Ctx :=
  let k := { Ctx.reset with
    inst := c.inst, dom := c.dom, clcount := c.clcount, rank := c.rank, ltag := c.ltag, asid := c.asid, prio := c.prio,
    lpb := c.lpb, wmap := c.wmap, trapVec := c.trapVec, sends := c.sends, run := .running, pc := r.pc, fpstat := r.flags,
    nextIssue := t, mailRow := r.row }
  gSet (gSet (gSet k 1 (BitVec.ofNat 64 (0x6000 + 64 * r.row))) 2 (r.src.setWidth 64)) 3
    (at64 r.hidx.toNat 8 ||| at64 r.cls.toNat 0)

/-- HANDLER_START (R298): the idle handler context takes the oldest accepted row whose class is not masked, once it is
written; not while the core's context follows a gang (R373). A PC that is odd traps as at a pickup (R22). -/
def execHandlerStart : State → Out := event .handlerStart do
  let s ← ask
  match s.arg with
  | .num core _ _ =>
    let c := getCore s core
    let follows := (List.range 4).any fun x => decide ((getCtx s core x).run = .follower)
    if (getCtx s core 4).run ≠ .free || follows then pure ()
    else match c.mail.find? (fun r => !c.classMask.getLsbD r.cls.toNat) with
      | none => pure ()
      | some r => if !r.written then pure () else do
        update fun s => modCtx s core 4 fun k => handlerCtx k r (after s core 1)
        if r.pc.getLsbD 0 then update fun s => takeTrap s core 4 0x03 (r.pc.setWidth 64) false else pure ()
  | _ => pure ()

end Sys2Proof.Machine
end

