-- ==== Sys2Proof/Machine/Sched.lean ====
section
/-! DEFINITION. What a step chooses: the fetch of a context's next instruction (02_assembly_and_formats.md R52, R53, R474;
03_opcode_map.md R77), the context a core issues in a cycle (25_launch_scheduling.md R415, 07_vector.md R185), the event that
comes next within a cycle (01_state.md R29), and the re-injection of special-function work (09_wells_sfu.md R226). -/
namespace Sys2Proof.Machine
open Sys2Proof

/-! ## Fetch -/

/-- A halfword fetched at a virtual address (R53, R474): an executable raw page, admitted for reading, through the
cluster data cache. An address in the S window has no page to be raw (DEDUCED, log entry 14). -/
def fetchHalf (va : VA) : M (BitVec 16) := do
  trapIf (windowOf va).isSome 0x04 (va.setWidth 64)
  let l ← leafFor va .fetch
  let pa := leafPa l va
  refused .load (.phys va pa l)
  let bs ← readPlain 2 (.phys va pa l)
  pure (BitVec.ofNat 16 (natOf bs))

/-- The bytes of the instruction at an address: one halfword or two (R52). -/
def fetchOne (va : VA) : M (List Byte) := do
  let h ← fetchHalf va
  if h.getLsbD 0 then do
    let k ← fetchHalf (va + 2)
    pure (toBytes 2 h.toNat ++ toBytes 2 k.toNat)
  else pure (toBytes 2 h.toNat)

/-- The bytes at the PC of the current context: its instruction, and after a VPFX word the instruction that follows
it (R69, R77). -/
def fetchAll : M (List Byte) := do
  let c ← cur
  let bs ← fetchOne c.pc
  if bs.length = 4 && natOf bs / 2 % 64 = 0x3F then do
    let more ← fetchOne (c.pc + 4)
    pure (bs ++ more)
  else pure bs

/-! ## What a context runs next -/

/-- The special-function work of a context that a trap or a descheduling took out of its cluster's queue goes back in
order before its next instruction issues; the context waits while the queue is full (R226). -/
def reinject (s : State) : Option State :=
  let c := getCtx s s.core s.ctx
  if c.replay.isEmpty then some s
  else if sfuFull s (clusterOf s.core) c.replay.length then none
  else some (c.replay.foldl pushSfu (modCtx s s.core s.ctx fun c => { c with replay := [] }))

/-- A former gang follower freed as at HALT, once its work has completed (R23, R186, R197). -/
def leave : M Unit := do
  workDone
  update fun s => freeCtx (dropAll s s.core s.ctx) s.core s.ctx

/-- The next thing the current context does, given how bytes run and how an event's instruction runs: a former gang
follower's end (R186), an asynchronous trap that is due (R319), the instruction at its PC, fetched as it issues (R474;
DESIGN CHOICE, log entry 66), a fetch fault (R53), or nothing while the fetch waits. -/
def contextStep (runBytes : List Byte → State → Out) (runEvent : Instr → State → Out) (s : State) : Out :=
  let c := getCtx s s.core s.ctx
  if c.leaving then runOne leave s
  else if !c.pending.isEmpty && !c.trapMode then runEvent .asyncTrap s
  else match reinject s with
    | none => .next (noteStall .plain s)
    | some s => match fetchAll s with
      | .ok bs s => runBytes bs s
      | .error (.trap cause val _ _) s' =>
        runEvent .fetchFault { keepReports s s' with arg := .word (cause.setWidth 64) val 0 }
      | .error (.wait w) _ => .next (noteStall w s)
      | .error (.fault f) _ => .fault f

/-! ## The issue of a core (R415, R185) -/

/-- Whether a context's bind record asks for it to be pre-empted: it stops at its instruction boundary (R434). -/
def stopAsked (s : State) (core x : Nat) : Bool :=
  let b := tabGet BindRec.reset s.slotTab (4 * core + x)
  decide (x < 4) && b.v && decide (b.act = 3)

/-- Whether a context has an instruction to issue in this cycle: its core issues in the cycles of its own clock (R8). -/
def issuable (s : State) (core x : Nat) : Bool :=
  let c := getCtx s core x
  c.run = .running && decide (c.nextIssue ≤ now s) && onEdge s core && (c.leaving || !stopAsked s core x)

/-- Whether the instruction of a context would go on in this cycle (none: it stalls; else whether that is known only once the
ports or the copy unit have served the others of the cycle), and the state with what its stall leaves behind. -/
def tryCtx (att : State → Out) (s : State) (core x : Nat) : Option Bool × State :=
  if !issuable s core x then (none, s)
  else match att { s with core := core, ctx := x } with
    | .next t =>
      if t.stalled then (none, { t with stalled := false, core := s.core, ctx := s.ctx })
      else (some (decide (s.late.length < t.late.length)), s)
    | _ => (some false, s)

/-- The contexts of a core that are ready, as `tryCtx` finds them, and the state with what the stalls of the others leave
behind. -/
def readyOf (att : State → Out) (core : Nat) : List Nat → State → List (Nat × Bool) × State
  | [], s => ([], s)
  | x :: xs, s =>
    let (r, s) := tryCtx att s core x
    let (rs, s) := readyOf att core xs s
    ((r.map fun l => (x, l)).toList ++ rs, s)

/-- The selection of R415 among the ready contexts of a core. -/
def select (s : State) (core : Nat) (ready : List Nat) : Option Nat :=
  let c := getCore s core
  let hw := ready.filter (· < 4)
  if ready.contains 4 && (hw.isEmpty || decide (c.hrun.toNat < 3)) then some 4
  else
    let top := hw.foldl (fun p x => max p (getCtx s core x).prio.toNat) 0
    ((List.range 4).map fun i => (c.last.toNat + 1 + i) % 4).find? fun x =>
      hw.contains x && decide ((getCtx s core x).prio.toNat = top)

/-- What a selection leaves: last, hrun (R415). -/
def noteIssue (core x : Nat) (hwReady : Bool) (s : State) : State :=
  modCore s core fun c =>
    if x = 4 then { c with hrun := if hwReady then c.hrun + 1 else 0 }
    else { c with last := BitVec.ofNat 2 x, hrun := 0 }

/-- Whether every follower of a gang's leader would be selected on its own core, its context being ready (R185). -/
def gangReady (att : State → Out) (s : State) (core x : Nat) : Bool :=
  (followers s core x).all fun p =>
    let others := (readyOf att p.1 ((List.range 5).filter (· ≠ p.2)) s).1.map (·.1)
    decide (select s p.1 (p.2 :: others) = some p.2)

/-- What a core does in a cycle: the context it issues, if any, and the state with what stalls leave behind. One whose
instruction has still to wait for the ports of the cycle has not issued yet (R415). -/
def pick (att : State → Out) (core : Nat) (s : State) : Option Nat × State :=
  let (found, s) := readyOf att core [0, 1, 2, 3, 4] s
  let ready := (found.map (·.1)).filter fun x => gangReady att s core x
  match select s core ready with
  | none => (none, s)
  | some x =>
    if found.contains (x, true) then (some x, s)
    else
      let s := noteIssue core x (ready.any (· < 4)) s
      (some x, (followers s core x).foldl (fun s p => noteIssue p.1 p.2 true s) s)

/-- The first core, from those listed, that issues in this cycle: the core, its context and the state it issues in. -/
def firstIssue (att : State → Out) : List Nat → State → Option (Nat × Nat) × State
  | [], s => (none, s)
  | core :: rest, s =>
    match pick att core s with
    | (some x, s) => (some (core, x), s)
    | (none, s) => firstIssue att rest s

/-- The cores still to be asked in this cycle, in increasing order. -/
def coresLeft (s : State) : List Nat := (s.cores.map (·.1)).filter fun n => s.scan ≤ n

/-! ## The agenda (R29) -/

/-- The order of events that fall in one cycle (R29): a slot's passage of the origin (R379), the matrix engine, with parking
as one of its accesses (R333), the copy unit, table-query results, the queue engine, remote accesses, then the rest; a
sleep's end comes last. -/
def rank : Instr → Nat
  | .ringOrigin => 0
  | .matrixAccept => 0
  | .matrixComplete => 1
  | .preemptSave => 1
  | .preemptRestore => 1
  | .copyPieceLand => 2
  | .queryResultLand => 3
  | .contextDispatch => 4
  | .stealReplyArrive => 4
  | .stealRequestArrive => 4
  | .dequeMigrate => 4
  | .remoteAccessServe => 5
  | .messageArrive => 5
  | .mailboxRowWrite => 5
  | .sleepWake => 7
  | _ => 6

/-- The order of events of one rank: remote accesses and messages by their arrival, those of one cycle by their source core
(R29); at a queue engine the owner's operations, carried replies, then steal requests by their source core, then the moves
(R363). A reply of a one-sided access writes the issuer's port after the remote accesses of its cycle (DESIGN CHOICE, log
entry 67). -/
def subRank (d : Due) : Nat :=
  match d.arg with
  | .remote r _ => if d.ev = .remoteAccessServe && !r.here then r.who.core.toNat + 1 else 0
  | .msg m _ => if rank d.ev = 5 then m.who.core.toNat + 1 else 0
  | .num _ b _ => if d.ev = .stealRequestArrive then 2 + b else if d.ev = .dequeMigrate then 32768 else 0
  | .record _ _ => if d.ev = .stealReplyArrive then 1 else 0
  | _ => 0

/-- The keys of events of one rank. -/
def keyStep : Nat := 65536
/-- The key an event comes in order of, within a cycle. -/
def dueKey (d : Due) : Nat := rank d.ev * keyStep + subRank d

/-- The next event that is due, with the agenda without it: the lowest key, the earliest put there first.
DEDUCED, log entry 7. -/
def takeDue (t : Nat) : List Due → Option (Due × List Due)
  | [] => none
  | d :: ds =>
    match takeDue t ds with
    | none => if d.at_ ≤ t then some (d, ds) else none
    | some (e, es) => if d.at_ ≤ t && decide (dueKey d ≤ dueKey e) then some (d, ds) else some (e, d :: es)

/-- Everything past a core that has issued, and past its gang's cores. -/
def scanPast (s : State) (core x : Nat) : Nat := core + 1 + (followers s core x).length

/-- The lowest core among those that have to choose once the ports have served the others, with the rest (R29). -/
def takeLate : List (Nat × Nat) → Option ((Nat × Nat) × List (Nat × Nat))
  | [] => none
  | p :: ps =>
    match takeLate ps with
    | none => some (p, ps)
    | some (q, qs) => if p.1 ≤ q.1 then some (p, ps) else some (q, p :: qs)

/-- What a core issues when the S-alias accesses of the cycle are served (R29, R32): it chooses anew, the context whose port or
queue has no room for it not being ready (R415). The cores of a gang that issues choose no more. DEDUCED, log entry 9. -/
def serveLate (att : State → Out) (s : State) (p : Nat × Nat) : Out :=
  match pick att p.1 s with
  | (none, s) => .next s
  | (some x, s) =>
    let others := (followers s p.1 x).map (·.1)
    match att { s with core := p.1, ctx := x, late := s.late.filter fun q => !others.contains q.1 } with
    | .next u => .next { u with stalled := false }
    | r => r

/-- One step, given how a context's next thing and how an event run: the next core that issues in this cycle; when none
does, the next event due in it, S-alias accesses among the remote accesses; when none is, the next cycle. A package held
without power only waits for the event that resets it (R473). -/
def stepWith (att : State → Out) (runEvent : Instr → State → Out) (s : State) : Out :=
  if s.poweredOff then
    match s.agenda.find? (fun d => d.ev = .packageReset) with
    | some d => runEvent .packageReset { s with agenda := s.agenda.erase d, arg := d.arg }
    | none => .next s
  else
    match firstIssue att (coresLeft s) s with
    | (some (core, x), t) =>
      match att { t with core := core, ctx := x, scan := scanPast t core x } with
      | .next u => .next { u with stalled := false }
      | r => r
    | (none, t) =>
      match takeDue (now t) t.agenda, takeLate t.late with
      | some (d, rest), none => runEvent d.ev { t with agenda := rest, arg := d.arg, scan := scanEnd }
      | some (d, rest), some (p, ps) =>
        if dueKey d ≤ 5 * keyStep + p.1 + 1 then runEvent d.ev { t with agenda := rest, arg := d.arg, scan := scanEnd }
        else serveLate att { t with late := ps, scan := scanEnd } p
      | none, some (p, ps) => serveLate att { t with late := ps, scan := scanEnd } p
      | none, none => .next { t with cyc := t.cyc + 1, scan := 0 }

end Sys2Proof.Machine
end

