-- ==== Sys2Proof/Machine/Vector.lean ====
section
/-! DEFINITION. Vector and mask instructions, vector loads and stores, gangs and the prefix word (07_vector.md R165 to R189,
06_memory_access.md R159 to R164, 03_opcode_map.md R88, R89). Each shared operation takes the prefix; an instruction without
one runs under `Prefix.none`. -/
namespace Sys2Proof.Machine
open Sys2Proof

/-! ## Lanes (R165) -/

/-- Lane width of an element type. -/
def etWidth (e : BitVec 3) : Nat := if e = 0 || e = 2 || e = 3 then 32 else if e = 6 || e = 7 then 8 else 16
/-- Lanes of an element type. -/
def etLanes (e : BitVec 3) : Nat := 512 / etWidth e
/-- Whether an element type is a floating-point one, and whether an integer one is signed. -/
def isFloat (e : BitVec 3) : Bool := e = 0 || e = 1
def isSigned (e : BitVec 3) : Bool := e = 2 || e = 4 || e = 6
/-- The number format of a floating-point element type. -/
def etFmt (e : BitVec 3) : Fmt := if e = 0 then f32 else bf16

/-- Lane `i` of `w` bits as a number. -/
def laneNat (v : V512) (w i : Nat) : Nat := v.toNat / 2 ^ (w * i) % 2 ^ w
/-- A lane's number read as a signed or an unsigned integer. -/
def asInt (w : Nat) (signed : Bool) (x : Nat) : Int := if signed && 2 ^ (w - 1) ≤ x then (x : Int) - 2 ^ w else x
/-- An integer wrapped to a lane. -/
def wrap (w : Nat) (x : Int) : Nat := (x % 2 ^ w).toNat

/-- The old value of a destination, where the prefix has it read: a merge under a mask (R167). -/
def oldLanes (p : Prefix) (d : BitVec 5) : M V512 :=
  if p.mask = 0#3 || p.zero then do
    claim (.v d)
    pure 0
  else rv d
/-- Waits until such a destination may be written. -/
def claimLanes (p : Prefix) (d : BitVec 5) : M Unit := do
  let _ ← oldLanes p d
  pure ()

/-- The destination register written lane by lane under the prefix (R167): an inactive lane keeps its old value or
becomes zero, and sets no flag. Bits above the `n` lanes are written zero. A dependent instruction issues `lat` cycles
after this one (R166). -/
def writeLanes (p : Prefix) (w n : Nat) (d : BitVec 5) (lat : Nat) (f : Nat → Nat × FpFlags) : M Unit := do
  let m ← maskOf p
  let old ← oldLanes p d
  let rs := (List.range n).map fun i => if m.getLsbD i then f i else (if p.zero then 0 else laneNat old w i, 0)
  wv d (ofLanes w n fun i => BitVec.ofNat w (nth (0, 0) rs i).1)
  raise (rs.foldl (fun acc r => acc ||| r.2) 0)
  addLock (.v d) lat

/-! ## Lane arithmetic (R169 to R173) -/

/-- A value rounded to a lane: a NaN becomes the canonical NaN, whatever its sign (R170). -/
def packLane (f : Fmt) (mode : Rounding) (v : FpNum) (fl : FpFlags) : Nat × FpFlags :=
  match v with
  | .nan _ => (nanCode f false, fl)
  | v => let (c, g) := packNum f mode v; (c, fl ||| g)

/-- The two-operand forms of MAJ 0x18 (R169). -/
inductive VOp where
  | add
  | sub
  | mul
  | min
  | max
  deriving DecidableEq, Repr

/-- One floating-point lane of a two-operand form. -/
def floatOp (f : Fmt) (mode : Rounding) (op : VOp) (x y : Nat) : Nat × FpFlags :=
  let a := decodeNum f x
  let b := decodeNum f y
  match op with
  | .add => let (v, g) := addNum mode a b; packLane f mode v g
  | .sub => let (v, g) := addNum mode a (negNum b); packLane f mode v g
  | .mul => let (v, g) := mulNum a b; packLane f mode v g
  | .min => (minMaxNum f false x y, 0)
  | .max => (minMaxNum f true x y, 0)

/-- One integer lane of a two-operand form. -/
def intOp (w : Nat) (signed : Bool) (op : VOp) (x y : Nat) : Nat :=
  match op with
  | .add => wrap w ((x : Int) + y)
  | .sub => wrap w ((x : Int) - y)
  | .mul => wrap w ((x : Int) * y)
  | .min => if asInt w signed x ≤ asInt w signed y then x else y
  | .max => if asInt w signed x ≤ asInt w signed y then y else x

/-- One lane of a two-operand form. -/
def laneOp (e : BitVec 3) (mode : Rounding) (op : VOp) (x y : Nat) : Nat × FpFlags :=
  if isFloat e then floatOp (etFmt e) mode op x y else (intOp (etWidth e) (isSigned e) op x y, 0)

/-- The cycles of an integer or floating-point form (R166). -/
def etLat (e : BitVec 3) : Nat := if isFloat e then 4 else 2

/-- VADD, VSUB, VMUL, VMIN, VMAX (R169, R170). -/
def vbinary (op : VOp) (d a b : BitVec 5) (e : BitVec 3) (p : Prefix) : M Unit := do
  let x ← rv a
  let y ← rv b
  let w := etWidth e
  writeLanes p w (etLanes e) d (etLat e) fun i => laneOp e (roundOf p.rm) op (laneNat x w i) (laneNat y w i)

/-- VABS (R169, R170). -/
def vabsOp (d a : BitVec 5) (e : BitVec 3) (p : Prefix) : M Unit := do
  let x ← rv a
  let w := etWidth e
  writeLanes p w (etLanes e) d (etLat e) fun i =>
    let v := laneNat x w i
    if isFloat e then
      (if (decodeNum (etFmt e) v).isNan then nanCode (etFmt e) false else v % (etFmt e).signBit, 0)
    else (wrap w (asInt w (isSigned e) v).natAbs, 0)

/-- VFMA, VFMS: one rounding of a × b ± c; c is V4's lane or the old D's (R169). -/
def vfused (minus : Bool) (d a b : BitVec 5) (e : BitVec 3) (p : Prefix) : M Unit := do
  let x ← rv a
  let y ← rv b
  let z ← rv (p.x4.getD d)
  let w := etWidth e
  let f := etFmt e
  let mode := roundOf p.rm
  writeLanes p w (etLanes e) d (etLat e) fun i =>
    let (u, v, c) := (laneNat x w i, laneNat y w i, laneNat z w i)
    if isFloat e then
      let (q, g) := mulNum (decodeNum f u) (decodeNum f v)
      let (r, h) := addNum mode q (if minus then negNum (decodeNum f c) else decodeNum f c)
      packLane f mode r (g ||| h)
    else (wrap w ((u : Int) * v + (if minus then -(c : Int) else c)), 0)

/-- The two-operand logic and shift forms of MAJ 0x19 (R171). -/
def vlogic (f : Nat → Nat → Nat → Nat) (d a b : BitVec 5) (e : BitVec 3) (p : Prefix) : M Unit := do
  let x ← rv a
  let y ← rv b
  let w := etWidth e
  writeLanes p w (etLanes e) d 2 fun i => (f w (laneNat x w i) (laneNat y w i) % 2 ^ w, 0)

def shlLane (w x y : Nat) : Nat := x * 2 ^ (y % w)
def shrLane (w x y : Nat) : Nat := x / 2 ^ (y % w)
def shaLane (w x y : Nat) : Nat := wrap w (asInt w true x / 2 ^ (y % w))

/-- VFSHL, VFSHR with the shift amounts of V4 (R171). -/
def vfunnel (left : Bool) (d a b v : BitVec 5) (e : BitVec 3) (p : Prefix) : M Unit := do
  let x ← rv a
  let y ← rv b
  let z ← rv v
  let w := etWidth e
  writeLanes p w (etLanes e) d 2 fun i =>
    let both := laneNat x w i * 2 ^ w + laneNat y w i
    let c := laneNat z w i % w
    (if left then both * 2 ^ c / 2 ^ w % 2 ^ w else both / 2 ^ c % 2 ^ w, 0)

/-- VTERN (R172). -/
def vternOp (d a b : BitVec 5) (t : BitVec 8) : M Unit := do
  let x ← rv a
  let y ← rv b
  let z ← rv d
  wv d (ternBits x y z t)
  addLock (.v d) 2

/-! ## Compare and select (R173, R174) -/

/-- Whether a comparison holds, and its flags. -/
def holds (cond : BitVec 4) (o : Option Ordering) : Bool × FpFlags :=
  match o with
  | none =>
    if cond = 1 || cond = 6 then (true, 0)
    else if cond = 0 || cond = 7 then (false, 0) else (false, fNV)
  | some r =>
    (match cond.toNat with
      | 0 => decide (r = .eq)
      | 1 => decide (r ≠ .eq)
      | 2 => decide (r = .lt)
      | 3 => decide (r ≠ .gt)
      | 4 => decide (r = .gt)
      | 5 => decide (r ≠ .lt)
      | 6 => false
      | _ => true, 0)

/-- VCMP (R173): the mask register written, bits at or above n zero. -/
def vcmpOp (k : BitVec 3) (a b : BitVec 5) (e : BitVec 3) (cond : BitVec 4) (p : Prefix) : M Unit := do
  let x ← rv a
  let y ← rv b
  let m ← maskOf p
  let old ← rk k
  let w := etWidth e
  let n := etLanes e
  let rs := (List.range n).map fun i =>
    if m.getLsbD i then
      holds cond (if isFloat e then cmpNum (decodeNum (etFmt e) (laneNat x w i)) (decodeNum (etFmt e) (laneNat y w i))
        else some (compare (asInt w (isSigned e) (laneNat x w i)) (asInt w (isSigned e) (laneNat y w i))))
    else (!p.zero && old.getLsbD i, 0)
  wk k (BitVec.ofNat 64 ((rs.zipIdx).foldl (fun acc r => if r.1.1 then acc + 2 ^ r.2 else acc) 0))
  raise (rs.foldl (fun acc r => acc ||| r.2) 0)
  if k = 0 then pure () else addLock (.k k) 2

/-- VSEL (R174). -/
def vselOp (d a b : BitVec 5) (e : BitVec 3) (k : BitVec 3) (p : Prefix) : M Unit := do
  let x ← rv a
  let y ← rv b
  let c ← rk k
  let w := etWidth e
  writeLanes p w (etLanes e) d 2 fun i => (if c.getLsbD i then laneNat x w i else laneNat y w i, 0)

/-! ## Conversion (R175 to R179) -/

/-- Width of a VCVT type code. -/
def cvWidth (t : BitVec 4) : Nat :=
  match t.toNat with
  | 0 => 32
  | 1 => 16
  | 2 => 32
  | 3 => 32
  | 4 => 16
  | 5 => 16
  | _ => 8

/-- The number format of a floating-point VCVT code. -/
def cvFmt (t : BitVec 4) : Option Fmt :=
  match t.toNat with
  | 0 => some f32
  | 1 => some bf16
  | 8 => some e4m3
  | 9 => some e5m2
  | _ => none

/-- Whether an integer VCVT code is signed. -/
def cvSigned (t : BitVec 4) : Bool := t = 2 || t = 4 || t = 6

/-- The range of an integer of a width. -/
def intLo (w : Nat) (signed : Bool) : Int := if signed then -(2 ^ (w - 1)) else 0
def intHi (w : Nat) (signed : Bool) : Int := if signed then 2 ^ (w - 1) - 1 else 2 ^ w - 1

/-- One element converted (R176). Between an 8-bit floating-point type and BF16 a NaN keeps its sign (R176 says nothing of it;
DESIGN CHOICE, log entry 89). -/
def cvOne (mode : Rounding) (t s : BitVec 4) (x : Nat) : Nat × FpFlags :=
  let wd := cvWidth t
  match cvFmt s, cvFmt t with
  | some fs, some fd => packNum fd mode (decodeNum fs x)
  | some fs, none =>
    let (v, fl) := toIntNum mode (intLo wd (cvSigned t)) (intHi wd (cvSigned t)) (decodeNum fs x)
    (wrap wd v, fl)
  | none, some fd => packNum fd mode (intNum (asInt (cvWidth s) (cvSigned s) x))
  | none, none =>
    let (v, fl) := clampInt (intLo wd (cvSigned t)) (intHi wd (cvSigned t)) (asInt (cvWidth s) (cvSigned s) x)
    (wrap wd v, fl)

/-- VCVT but for E2M1 (R176). -/
def vcvtPlain (d a : BitVec 5) (t s : BitVec 4) (p : Prefix) : M Unit := do
  let x ← rv a
  writeLanes p (cvWidth t) (512 / max (cvWidth s) (cvWidth t)) d 4 fun i =>
    cvOne (roundOf p.rm) t s (laneNat x (cvWidth s) i)

/-- VCVT.e2m1.f32 (R177). -/
def vcvtToE2m1 (d a b : BitVec 5) : M Unit := do
  let x ← rv a
  let y ← rv b
  let band : BitVec 16 := y.extractLsb' 0 16
  let blk := fun (k : Nat) => encodeBlock false ((List.range 8).map fun i => num32 (lane x 32 (8 * k + i))) band
  let (b0, b1) := (blk 0, blk 1)
  let codes := (b0.codes ++ b1.codes).zipIdx.foldl (fun acc c => acc + c.1 * 2 ^ (4 * c.2)) 0
  wv d (BitVec.ofNat 512 (codes + b0.scale * 2 ^ 64 + b1.scale * 2 ^ 72 + band.toNat * 2 ^ 80))
  raise (b0.flags ||| b1.flags)
  addLock (.v d) 4

/-- VCVT.f32.e2m1 (R177). -/
def vcvtFromE2m1 (d a : BitVec 5) : M Unit := do
  let x ← rv a
  writeLanes .none 32 16 d 4 fun i =>
    let (c, f) := to32 .rne (e2m1Num (laneNat x 4 i) (laneNat x 8 (8 + i / 8)) (x.extractLsb' 80 16))
    (c.toNat, f)

/-- VCVT (R175 to R177). -/
def vcvtOp (d a b : BitVec 5) (t s : BitVec 4) (p : Prefix) : M Unit :=
  if t = 10#4 then vcvtToE2m1 d a b else if s = 10#4 then vcvtFromE2m1 d a else vcvtPlain d a t s p

/-- Whether VCVT accepts a rounding field (R176, R177). -/
def cvtRounds (t s : BitVec 4) : Bool :=
  match cvFmt s, cvFmt t with
  | some _, some _ =>
    decide (t.toNat ∈ [1, 8, 9]) && (s = 0 || (s = 1 && t ≠ 0) || (s = 8 && t = 9) || (s = 9 && t = 8))
  | none, some _ => true
  | some _, none => true
  | none, none => decide (cvWidth t < cvWidth s)

/-- VPACK (R178). -/
def vpackOp (d a b : BitVec 5) (e : BitVec 3) (p : Prefix) : M Unit := do
  let x ← rv a
  let y ← rv b
  let w := etWidth e
  let half := etLanes e / 2
  writeLanes p w (etLanes e) d 4 fun i =>
    let v := laneNat (if i < half then x else y) (2 * w) (i % half)
    if e = 1 then packNum bf16 (roundOf p.rm) (decodeNum f32 v)
    else
      let (r, fl) := clampInt (intLo w (isSigned e)) (intHi w (isSigned e)) (asInt (2 * w) true v)
      (wrap w r, fl)

/-- VUNPK (R179). -/
def vunpkOp (d a : BitVec 5) (e : BitVec 3) (h : BitVec 1) (p : Prefix) : M Unit := do
  let x ← rv a
  let w := etWidth e
  let half := etLanes e / 2
  writeLanes p (2 * w) half d 4 fun i =>
    let v := laneNat x w (i + (if h = 1 then half else 0))
    if e = 1 then ((to32 .rne (decodeNum bf16 v)).1.toNat, 0) else (wrap (2 * w) (asInt w (isSigned e) v), 0)

/-! ## Reductions and scans (R119, R180, R181) -/

/-- One step of a reduction on lanes of an integer type or of the FP32 tree. -/
def combine (e : BitVec 3) (mode : Rounding) (o : BitVec 4) (x y : Nat) : Nat × FpFlags :=
  match o.toNat with
  | 0 => laneOp e mode .add x y
  | 1 => laneOp e mode .min x y
  | 2 => laneOp e mode .max x y
  | 3 => (x &&& y, 0)
  | 4 => (x ||| y, 0)
  | _ => (x ^^^ y, 0)

/-- One level of the pairwise tree (R119): a lane left out passes its partner up. -/
def treeLevel (f : Nat → Nat → Nat × FpFlags) : List (Option Nat) → List (Option Nat) × FpFlags
  | x :: y :: rest =>
    let (r, fl) := treeLevel f rest
    match x, y with
    | some u, some v => let (c, g) := f u v; (some c :: r, fl ||| g)
    | some u, none => (some u :: r, fl)
    | none, v => (v :: r, fl)
  | l => (l, 0)

/-- The pairwise tree, with its flags, over at most 2^k lanes. -/
def tree (f : Nat → Nat → Nat × FpFlags) : Nat → List (Option Nat) → Option Nat × FpFlags
  | 0, l => (l.headD none, 0)
  | k + 1, l =>
    let (l, g) := treeLevel f l
    let (r, h) := tree f k l
    (r, g ||| h)

/-- A NaN lane made canonical (R94, R170). -/
def canonLane (e : BitVec 3) (x : Nat) : Nat :=
  if isFloat e && (decodeNum (etFmt e) x).isNan then nanCode (etFmt e) false else x

/-- VRED (R180): BF16 lanes are widened, the tree runs in FP32, and its root is rounded once more. -/
def vredOp (d a : BitVec 5) (e : BitVec 3) (o : BitVec 4) (p : Prefix) : M Unit := do
  let x ← rv a
  let m ← maskOf p
  let w := etWidth e
  let mode := roundOf p.rm
  let e' : BitVec 3 := if e = 1 then 0 else e
  let lanes := (List.range (etLanes e)).map fun i =>
    if m.getLsbD i then
      some (if e = 1 then (widen16 (BitVec.ofNat 16 (laneNat x w i))).toNat else laneNat x w i)
    else none
  let (r, fl) := tree (combine e' mode o) 6 lanes
  let (c, g) : Nat × FpFlags := match r with
    | none => (0, 0)
    | some v => if e = 1 then packNum bf16 mode (decodeNum f32 v) else (canonLane e v, 0)
  wv d (BitVec.ofNat 512 c)
  raise (fl ||| g)
  addLock (.v d) 10

/-- The running combination of the active lanes, in lane order (R119). -/
def scanLanes (f : Nat → Nat → Nat × FpFlags) : Option Nat → List (Option Nat) → List (Nat × FpFlags)
  | _, [] => []
  | acc, none :: rest => (0, 0) :: scanLanes f acc rest
  | none, some x :: rest => (x, 0) :: scanLanes f (some x) rest
  | some y, some x :: rest => let r := f y x; r :: scanLanes f (some r.1) rest

/-- VSCAN (R181). -/
def vscanOp (d a : BitVec 5) (e : BitVec 3) (o : BitVec 4) (p : Prefix) : M Unit := do
  let x ← rv a
  let m ← maskOf p
  let w := etWidth e
  let lanes := (List.range (etLanes e)).map fun i =>
    if m.getLsbD i then some (canonLane e (laneNat x w i)) else none
  let rs := scanLanes (combine e (roundOf p.rm) o) none lanes
  writeLanes p w (etLanes e) d 18 fun i => nth (0, 0) rs i

/-! ## Permutation, lane access, counts and masks (R182, R183) -/

/-- VPERM, with a second table under X4 (R182). -/
def vpermOp (d a b : BitVec 5) (e : BitVec 3) (p : Prefix) : M Unit := do
  let x ← rv a
  let y ← rv b
  let t ← rv (p.x4.getD a)
  let w := etWidth e
  let n := etLanes e
  writeLanes p w n d 3 fun i =>
    let j := laneNat y w i
    match p.x4 with
    | none => (laneNat x w (j % n), 0)
    | some _ => (if j % (2 * n) < n then laneNat x w (j % (2 * n)) else laneNat t w (j % (2 * n) - n), 0)

/-- VBCAST (R182). -/
def vbcastOp (d a : BitVec 5) (e : BitVec 3) (p : Prefix) : M Unit := do
  let x ← rg a
  let w := etWidth e
  writeLanes p w (etLanes e) d 3 fun _ => (x.toNat % 2 ^ w, 0)

/-- VEXT (R182). -/
def vextOp (d a b : BitVec 5) (e : BitVec 3) : M Unit := do
  let x ← rv a
  let y ← rg b
  let w := etWidth e
  result d 3 (BitVec.ofInt 64 (asInt w (isSigned e) (laneNat x w (y.toNat % etLanes e))))

/-- VINS (R182). -/
def vinsOp (d a b : BitVec 5) (e : BitVec 3) : M Unit := do
  let x ← rg a
  let y ← rg b
  let old ← rv d
  let w := etWidth e
  wv d (setLane old w (y.toNat % etLanes e) (x.setWidth w))
  addLock (.v d) 3

/-- VPOPC (R182). -/
def vpopcOp (d a : BitVec 5) (e : BitVec 3) (p : Prefix) : M Unit := do
  let x ← rv a
  let w := etWidth e
  writeLanes p w (etLanes e) d 3 fun i =>
    (((List.range w).filter fun j => laneNat x w i / 2 ^ j % 2 = 1).length, 0)

/-- A mask register written by a mask instruction (R183). -/
def maskResult (d : BitVec 3) (x : W64) : M Unit := do
  wk d x
  if d = 0 then pure () else addLock (.k d) 2

def kandOp (d a b : BitVec 3) : M Unit := do
  let x ← rk a
  let y ← rk b
  maskResult d (x &&& y)
def korOp (d a b : BitVec 3) : M Unit := do
  let x ← rk a
  let y ← rk b
  maskResult d (x ||| y)
def knotOp (d a : BitVec 3) : M Unit := do
  let x ← rk a
  maskResult d (~~~x)
def kmovOp (d a : BitVec 3) : M Unit := do
  let x ← rk a
  maskResult d x
def kmovKgOp (d : BitVec 3) (a : BitVec 5) : M Unit := do
  let x ← rg a
  maskResult d x
def kmovGkOp (d : BitVec 5) (a : BitVec 3) : M Unit := do
  let x ← rk a
  result d 2 x

/-! ## Vector loads and stores (R159 to R164) -/

/-- The indices of the active lanes of `n`. -/
def activeLanes (m : W64) (n : Nat) : List Nat := (List.range n).filter fun i => m.getLsbD i

/-- The lanes loaded written to the destination under the prefix. -/
def loadLanes (p : Prefix) (w n : Nat) (d : BitVec 5) (lanes : List (Nat × Nat)) : M Unit := do
  let old ← oldLanes p d
  wv d (ofLanes w n fun i => BitVec.ofNat w (match lanes.find? (·.1 = i) with
    | some l => l.2
    | none => if p.zero then 0 else laneNat old w i))

/-- The active lanes' sites checked and paired with their spots. -/
def laneSpots (acc : Acc) (bytes : Nat) (sites : List (Nat × Site)) : M (List (Nat × Spot)) := do
  let spots ← checkSites acc bytes bytes (sites.map (·.2))
  pure ((sites.map (·.1)).zip spots)

/-- VLD and VST's lanes: 16 words from a + b, whose 64-byte alignment is checked whatever the mask (R147, R162). -/
def vldSites (acc : Acc) (sp : BitVec 2) (base : W64) (lanes : List Nat) : M (List (Nat × Spot)) := do
  let x := siteAt sp base
  each (fun i => trapIf (!rangeOk (siteAt sp (base + BitVec.ofNat 64 (4 * i)))) 0x04
    (siteAt sp (base + BitVec.ofNat 64 (4 * i))).val) lanes
  trapIf (!alignedTo 64 x) 0x03 x.val
  laneSpots acc 4 (lanes.map fun i => (i, siteAt sp (base + BitVec.ofNat 64 (4 * i))))

/-- The active lanes read. -/
def readLanes (bytes : Nat) (l : List (Nat × Spot)) : M (List (Nat × Nat)) :=
  gather (fun x => do
    let bs ← readSpot bytes x.2
    pure (x.1, natOf bs)) l

/-- VLD (R159, R162, R164). -/
def vldOp (d a b : BitVec 5) (sp : BitVec 2) (p : Prefix) : M Unit := do
  let x ← rg a
  let y ← rg b
  let m ← maskOf p
  claimLanes p d
  let l ← vldSites .load sp (x + y) (activeLanes m 16)
  let ls ← readLanes 4 l
  aliasDone [] (l.map (·.2))
  loadLanes p 32 16 d ls

/-- VST: one store, which the trace ring of an S-alias target holds once, at its first byte written (R50, R150). -/
def vstOp (d a b : BitVec 5) (sp : BitVec 2) (p : Prefix) : M Unit := do
  let x ← rg a
  let y ← rg b
  let v ← rv d
  let m ← maskOf p
  let l ← vldSites .store sp (x + y) (activeLanes m 16)
  each (fun i => writeSpot i.2 (toBytes 4 (laneNat v 32 i.1))) l
  aliasDone ((l.map (·.2)).take 1) (l.map (·.2))

/-- Bytes of a lane of the ".w" and ".d" forms. -/
def wdBytes (wd : BitVec 1) : Nat := if wd = 1 then 8 else 4

/-- VLDS: lanes at a signed stride (R159). -/
def vldsOp (d a b : BitVec 5) (wd : BitVec 1) (sp : BitVec 2) (p : Prefix) : M Unit := do
  let x ← rg a
  let y ← rg b
  let m ← maskOf p
  claimLanes p d
  let n := wdBytes wd
  let l ← laneSpots .load n ((activeLanes m (64 / n)).map fun i => (i, siteAt sp (x + BitVec.ofNat 64 i * y)))
  let ls ← readLanes n l
  aliasDone [] (l.map (·.2))
  loadLanes p (8 * n) (64 / n) d ls

/-- A gather or scatter lane's address: a + sext(index) × width (R159). -/
def indexSite (sp : BitVec 2) (base : W64) (v : V512) (n i : Nat) : Site :=
  siteAt sp (base + BitVec.ofInt 64 (asInt (8 * n) true (laneNat v (8 * n) i) * n))

/-- VLDX. -/
def vldxOp (d a b : BitVec 5) (wd : BitVec 1) (sp : BitVec 2) (p : Prefix) : M Unit := do
  let x ← rg a
  let y ← rv b
  let m ← maskOf p
  claimLanes p d
  let n := wdBytes wd
  let l ← laneSpots .load n ((activeLanes m (64 / n)).map fun i => (i, indexSite sp x y n i))
  let ls ← readLanes n l
  aliasDone [] (l.map (·.2))
  loadLanes p (8 * n) (64 / n) d ls

/-- VSTX: in lane order, so that the higher lane's bytes remain (R160). -/
def vstxOp (d a b : BitVec 5) (wd : BitVec 1) (sp : BitVec 2) (p : Prefix) : M Unit := do
  let x ← rg a
  let y ← rv b
  let v ← rv d
  let m ← maskOf p
  let n := wdBytes wd
  let l ← laneSpots .store n ((activeLanes m (64 / n)).map fun i => (i, indexSite sp x y n i))
  each (fun i => writeSpot i.2 (toBytes n (laneNat v (8 * n) i.1))) l
  aliasDone (l.map (·.2)) (l.map (·.2))

/-- The format and spots of the active elements of VLDE and VSTE (R161): in global space the page's format, in A and S
the instruction's, after the range of every element and the alignment of the array's start (DEDUCED, log entry 65). -/
def elemSpots (acc : Acc) (sp : BitVec 2) (f : BitVec 3) (base : W64) (idx : List Nat) : M (Nat × List Spot) :=
  if sp = 0#2 then globalElems acc base idx
  else do
    let n := f.toNat
    let sites := idx.map fun i => siteAt sp (elemAddr n base i)
    each (fun x => trapIf (!rangeOk x) 0x04 x.val) sites
    trapIf (!sites.isEmpty && !alignedTo (elemAlign n) (siteAt sp base)) 0x03 (siteAt sp base).val
    let l ← checkSites acc (elemSpan n) 1 sites
    pure (n, l)

/-- VLDE (R161): no flag. -/
def vldeOp (d a b : BitVec 5) (f : BitVec 3) (sp : BitVec 2) (p : Prefix) : M Unit := do
  let x ← rg a
  let y ← rg b
  let m ← maskOf p
  claimLanes p d
  let act := activeLanes m 16
  let (n, l) ← elemSpots .load sp f x (act.map (y.toNat + ·))
  let ls ← gather (fun (i : Nat × Spot) => do
    let v ← readElem n (y.toNat + i.1) i.2
    pure (i.1, v.toNat)) (act.zip l)
  aliasDone [] l
  loadLanes p 32 16 d ls

/-- VSTE (R161). -/
def vsteOp (d a b : BitVec 5) (f : BitVec 3) (sp : BitVec 2) (p : Prefix) : M Unit := do
  let x ← rg a
  let y ← rg b
  let v ← rv d
  let m ← maskOf p
  let act := activeLanes m 16
  let (n, l) ← elemSpots .store sp f x (act.map (y.toNat + ·))
  writeElems n ((act.zip l).map fun i => (y.toNat + i.1, i.2, lane v 32 i.1))

/-! ## Gangs (R184 to R187) -/

/-- The lowest free context of a core that a gang may take (R184, R373). -/
def freeFollower (s : State) (core : Nat) : Option Nat :=
  (List.range 4).find? fun x => let c := getCtx s core x; c.run = .free && c.bound

/-- The slots that a halted context has boarded kept as its own as its instance tag moves on (R382: a HALT does not destroy the
boarding context, nor does GANG's taking it). -/
def renewBoarder (s : State) (core x : Nat) (old new : BitVec 16) : State :=
  { s with ring := s.ring.map fun r => (r.1, { r.2 with who := r.2.who.map fun w =>
      if w.core.toNat = core && w.ctx.toNat = x && w.inst = old then { w with inst := new } else w }) }

/-- A follower's context as the gang forms: the leader's files copied, its own handles, counters, results, enrolment
and status cleared, its instance tag moved on (R184); a steal sequence that serves no free context any more ends (R365). -/
def joinGang (s : State) (n : Nat) (j core x : Nat) : State :=
  let l := getCtx s s.core s.ctx
  let inst := nextInst s core x (getCtx s core x).inst
  let s := renewBoarder (powerUp (dropAll s core x) core) core x (getCtx s core x).inst inst
  endSteals (modCtx s core x fun c => { Ctx.reset with
    run := .follower, bound := c.bound, inst := inst, g := l.g, v := l.v, k := l.k, ox := l.ox, pc := l.pc,
    prio := l.prio, trapVec := l.trapVec, asid := l.asid, ltag := l.ltag, dom := l.dom, clcount := l.clcount,
    rank := l.rank, lpb := l.lpb, wmap := l.wmap, sends := c.sends, nextIssue := l.nextIssue,
    gangSize := BitVec.ofNat 3 n, gangIdx := BitVec.ofNat 3 j, gangLead := BitVec.ofNat 3 s.ctx }) core

/-- GANG (R184): a status in D, and the gang formed when it can be; it waits for nothing but the registers that it copies, as
every instruction does that reads a register still to be written (R125). -/
def gangOp (len : Nat) (word : W64) (d : BitVec 5) (n : BitVec 2) : M Unit := do
  let h ← isHandler
  trapIf h 0x09 word
  claim (.g d)
  let s ← ask
  let c ← cur
  let size := 2 ^ n.toNat
  if s.core % 8 % size ≠ 0 then do
    result d 2 1
    advance len
  else
    let fs := (List.range (size - 1)).map fun j => (j + 1, s.core + j + 1, freeFollower s (s.core + j + 1))
    if fs.any (fun f => f.2.2.isNone) then do
      result d 2 2
      advance len
    else do
      waitUntil (c.locks.all fun l => match l.till with | none => false | some u => decide (u ≤ now s))
      result d 48 0
      advance len
      update fun s => fs.foldl (fun s f => joinGang s n.toNat f.1 f.2.1 (f.2.2.getD 0)) s
      each (fun f => update fun s => modCtx s f.2.1 (f.2.2.getD 0) fun c => { c with
        locks := if d = 0#5 then [] else [⟨.g d, some (now s + 48)⟩] }) fs
      modCur fun c => { c with gangSize := n.setWidth 3, gangIdx := 0 }

/-- DISBAND (R187): the gang ends once every member's earlier instructions have retired, and its followers are freed as at
HALT; outside one it does nothing. Its latency is 2 (R166). -/
def disbandOp (len : Nat) : M Unit := do
  let s ← ask
  if leads s then do
    waitUntil ((members s).all fun p =>
      ((getCtx s p.1 p.2).locks.all fun l => match l.till with | none => false | some u => decide (u ≤ now s)) &&
      !matrixPending s p.1 p.2)
    update fun s => (followers s s.core s.ctx).foldl (fun s p => freeCtx (dropAll s p.1 p.2) p.1 p.2) s
    modCur fun c => { c with gangSize := 0, gangIdx := 0 }
  else pure ()
  update fun s => modCtx s s.core s.ctx fun c => c.goOn (c.pc + BitVec.ofNat 56 len) (after s s.core 2)

/-! ## The instructions -/

/-- VADD (R169, R170). -/
def execVadd (d a b : BitVec 5) (e : BitVec 3) : State → Out := instrG 4 (vbinary .add d a b e .none)
/-- VSUB (R169, R170). -/
def execVsub (d a b : BitVec 5) (e : BitVec 3) : State → Out := instrG 4 (vbinary .sub d a b e .none)
/-- VMUL (R169, R170). -/
def execVmul (d a b : BitVec 5) (e : BitVec 3) : State → Out := instrG 4 (vbinary .mul d a b e .none)
/-- VMIN (R169, R170). -/
def execVmin (d a b : BitVec 5) (e : BitVec 3) : State → Out := instrG 4 (vbinary .min d a b e .none)
/-- VMAX (R169, R170). -/
def execVmax (d a b : BitVec 5) (e : BitVec 3) : State → Out := instrG 4 (vbinary .max d a b e .none)
/-- VABS (R169, R170). -/
def execVabs (d a : BitVec 5) (e : BitVec 3) : State → Out := instrG 4 (vabsOp d a e .none)
/-- VFMA (R169). -/
def execVfma (d a b : BitVec 5) (e : BitVec 3) : State → Out := instrG 4 (vfused false d a b e .none)
/-- VFMS (R169). -/
def execVfms (d a b : BitVec 5) (e : BitVec 3) : State → Out := instrG 4 (vfused true d a b e .none)
/-- VAND (R171). -/
def execVand (d a b : BitVec 5) (e : BitVec 3) : State → Out := instrG 4 (vlogic (fun _ x y => x &&& y) d a b e .none)
/-- VOR (R171). -/
def execVor (d a b : BitVec 5) (e : BitVec 3) : State → Out := instrG 4 (vlogic (fun _ x y => x ||| y) d a b e .none)
/-- VXOR (R171). -/
def execVxor (d a b : BitVec 5) (e : BitVec 3) : State → Out := instrG 4 (vlogic (fun _ x y => x ^^^ y) d a b e .none)
/-- VSHL (R171). -/
def execVshl (d a b : BitVec 5) (e : BitVec 3) : State → Out := instrG 4 (vlogic shlLane d a b e .none)
/-- VSHR (R171). -/
def execVshr (d a b : BitVec 5) (e : BitVec 3) : State → Out := instrG 4 (vlogic shrLane d a b e .none)
/-- VSHA (R171). -/
def execVsha (d a b : BitVec 5) (e : BitVec 3) : State → Out := instrG 4 (vlogic shaLane d a b e .none)
/-- VTERN (R172). -/
def execVtern (d a b : BitVec 5) (t : BitVec 8) : State → Out := instrG 4 (vternOp d a b t)
/-- VCMP (R173). -/
def execVcmp (k : BitVec 3) (a b : BitVec 5) (e : BitVec 3) (c : BitVec 4) : State → Out := instrG 4 (vcmpOp k a b e c .none)
/-- VSEL (R174). -/
def execVsel (d a b : BitVec 5) (e k : BitVec 3) : State → Out := instrG 4 (vselOp d a b e k .none)
/-- VCVT (R175 to R177). -/
def execVcvt (d a b : BitVec 5) (t s : BitVec 4) : State → Out := instrG 4 (vcvtOp d a b t s .none)
/-- VRED (R180). -/
def execVred (d a : BitVec 5) (e : BitVec 3) (o : BitVec 4) : State → Out := instrG 4 (vredOp d a e o .none)
/-- VSCAN (R181). -/
def execVscan (d a : BitVec 5) (e : BitVec 3) (o : BitVec 4) : State → Out := instrG 4 (vscanOp d a e o .none)
/-- VPERM (R182). -/
def execVperm (d a b : BitVec 5) (e : BitVec 3) : State → Out := instrG 4 (vpermOp d a b e .none)
/-- VBCAST (R182). -/
def execVbcast (d a : BitVec 5) (e : BitVec 3) : State → Out := instrG 4 (vbcastOp d a e .none)
/-- VEXT (R182). -/
def execVext (d a b : BitVec 5) (e : BitVec 3) : State → Out := instrG 4 (vextOp d a b e)
/-- VINS (R182). -/
def execVins (d a b : BitVec 5) (e : BitVec 3) : State → Out := instrG 4 (vinsOp d a b e)
/-- VPACK (R178). -/
def execVpack (d a b : BitVec 5) (e : BitVec 3) : State → Out := instrG 4 (vpackOp d a b e .none)
/-- VUNPK (R179). -/
def execVunpk (d a : BitVec 5) (e : BitVec 3) (h : BitVec 1) : State → Out := instrG 4 (vunpkOp d a e h .none)
/-- VPOPC (R182). -/
def execVpopc (d a : BitVec 5) (e : BitVec 3) : State → Out := instrG 4 (vpopcOp d a e .none)
/-- KAND (R183). -/
def execKand (d a b : BitVec 3) : State → Out := instrG 4 (kandOp d a b)
/-- KOR (R183). -/
def execKor (d a b : BitVec 3) : State → Out := instrG 4 (korOp d a b)
/-- KNOT (R183). -/
def execKnot (d a : BitVec 3) : State → Out := instrG 4 (knotOp d a)
/-- KMOV (R183). -/
def execKmov (d a : BitVec 3) : State → Out := instrG 4 (kmovOp d a)
/-- KMOVKG (R183). -/
def execKmovKg (d : BitVec 3) (a : BitVec 5) : State → Out := instrG 4 (kmovKgOp d a)
/-- KMOVGK (R183). -/
def execKmovGk (d : BitVec 5) (a : BitVec 3) : State → Out := instrG 4 (kmovGkOp d a)
/-- VLD (R159, R162). -/
def execVld (d a b : BitVec 5) (s : BitVec 2) : State → Out := instrG 4 (vldOp d a b s .none)
/-- VST (R159, R162). -/
def execVst (d a b : BitVec 5) (s : BitVec 2) : State → Out := instrG 4 (vstOp d a b s .none)
/-- VLDS (R159). -/
def execVlds (d a b : BitVec 5) (w : BitVec 1) (s : BitVec 2) : State → Out := instrG 4 (vldsOp d a b w s .none)
/-- VLDX (R159). -/
def execVldx (d a b : BitVec 5) (w : BitVec 1) (s : BitVec 2) : State → Out := instrG 4 (vldxOp d a b w s .none)
/-- VSTX (R159, R160). -/
def execVstx (d a b : BitVec 5) (w : BitVec 1) (s : BitVec 2) : State → Out := instrG 4 (vstxOp d a b w s .none)
/-- VLDE (R161). -/
def execVlde (d a b : BitVec 5) (f : BitVec 3) (s : BitVec 2) : State → Out := instrG 4 (vldeOp d a b f s .none)
/-- VSTE (R161). -/
def execVste (d a b : BitVec 5) (f : BitVec 3) (s : BitVec 2) : State → Out := instrG 4 (vsteOp d a b f s .none)
/-- VFSHL without a prefix that names the shift amounts is illegal (R171). -/
def execVfshl (d a b : BitVec 5) (e : BitVec 3) : State → Out := instrG 4 (trapM 0x02 (insnWord (.vfshl d a b e)))
/-- VFSHR without a prefix that names the shift amounts is illegal (R171). -/
def execVfshr (d a b : BitVec 5) (e : BitVec 3) : State → Out := instrG 4 (trapM 0x02 (insnWord (.vfshr d a b e)))
/-- GANG (R184). -/
def execGang (d : BitVec 5) (n : BitVec 2) : State → Out := instrRaw (gangOp 4 (insnWord (.gang d n)) d n)
/-- DISBAND (R187): in a gang it is the leader that ends it. -/
def execDisband : State → Out := runOne (disbandOp 4)

/-! ## The prefix word (R88, R89, R168) -/

/-- A prefixed operation, when the instruction accepts every non-zero field of the prefix (R89). -/
def allow (p : Prefix) (mask zero rm x4 : Bool) (m : M Unit) : Option (M Unit) :=
  if (p.mask = 0 || mask) && (!p.zero || zero) && (p.rm = 0 || rm) && (p.x4.isNone || x4) then some m else none

/-- What an instruction does under a prefix that it accepts (R162, R168, R176, R177). VPACK accepts a rounding field for every
element type (DESIGN CHOICE, log entry 88). -/
def prefixed (p : Prefix) : Instr → Option (M Unit)
  | .vadd d a b e => allow p true true (isFloat e) false (vbinary .add d a b e p)
  | .vsub d a b e => allow p true true (isFloat e) false (vbinary .sub d a b e p)
  | .vmul d a b e => allow p true true (isFloat e) false (vbinary .mul d a b e p)
  | .vmin d a b e => allow p true true false false (vbinary .min d a b e p)
  | .vmax d a b e => allow p true true false false (vbinary .max d a b e p)
  | .vabs d a e => allow p true true false false (vabsOp d a e p)
  | .vfma d a b e => allow p true true (isFloat e) true (vfused false d a b e p)
  | .vfms d a b e => allow p true true (isFloat e) true (vfused true d a b e p)
  | .vand d a b e => allow p true true false false (vlogic (fun _ x y => x &&& y) d a b e p)
  | .vor d a b e => allow p true true false false (vlogic (fun _ x y => x ||| y) d a b e p)
  | .vxor d a b e => allow p true true false false (vlogic (fun _ x y => x ^^^ y) d a b e p)
  | .vshl d a b e => allow p true true false false (vlogic shlLane d a b e p)
  | .vshr d a b e => allow p true true false false (vlogic shrLane d a b e p)
  | .vsha d a b e => allow p true true false false (vlogic shaLane d a b e p)
  | .vtern d a b t => allow p false false false false (vternOp d a b t)
  | .vcmp k a b e c => allow p true true false false (vcmpOp k a b e c p)
  | .vsel d a b e k => allow p true true false false (vselOp d a b e k p)
  | .vcvt d a b t s =>
    if t = 10#4 || s = 10#4 then allow p false false (p.rm = 1) false (vcvtOp d a b t s p)
    else allow p true true (cvtRounds t s) false (vcvtOp d a b t s p)
  | .vred d a e o => allow p true false (isFloat e && o = 0) false (vredOp d a e o p)
  | .vscan d a e o => allow p true true (isFloat e && o = 0) false (vscanOp d a e o p)
  | .vperm d a b e => allow p true true false true (vpermOp d a b e p)
  | .vbcast d a e => allow p true true false false (vbcastOp d a e p)
  | .vext d a b e => allow p false false false false (vextOp d a b e)
  | .vins d a b e => allow p false false false false (vinsOp d a b e)
  | .vpack d a b e => allow p true true true false (vpackOp d a b e p)
  | .vunpk d a e h => allow p true true false false (vunpkOp d a e h p)
  | .vpopc d a e => allow p true true false false (vpopcOp d a e p)
  | .kand d a b => allow p false false false false (kandOp d a b)
  | .kor d a b => allow p false false false false (korOp d a b)
  | .knot d a => allow p false false false false (knotOp d a)
  | .kmov d a => allow p false false false false (kmovOp d a)
  | .kmovKg d a => allow p false false false false (kmovKgOp d a)
  | .kmovGk d a => allow p false false false false (kmovGkOp d a)
  | .vld d a b s => allow p true true false false (vldOp d a b s p)
  | .vst d a b s => allow p true false false false (vstOp d a b s p)
  | .vlds d a b w s => allow p true true false false (vldsOp d a b w s p)
  | .vldx d a b w s => allow p true true false false (vldxOp d a b w s p)
  | .vstx d a b w s => allow p true false false false (vstxOp d a b w s p)
  | .vlde d a b f s => allow p true true false false (vldeOp d a b f s p)
  | .vste d a b f s => allow p true false false false (vsteOp d a b f s p)
  | .vfshl d a b e => match p.x4 with
    | some v => allow p true true false true (vfunnel true d a b v e p)
    | none => none
  | .vfshr d a b e => match p.x4 with
    | some v => allow p true true false true (vfunnel false d a b v e p)
    | none => none
  | _ => none

/-- The instruction that follows a VPFX word, as fetched bytes (R69, R77). -/
def unitBytes : M (List Byte) := do
  let c ← cur
  fetchOne (c.pc + 4)

/-- The instruction those bytes are, when they are a 32-bit one. -/
def unitInstr (bs : List Byte) : Option Instr :=
  if bs.length = 4 then
    match decode32 (BitVec.ofNat 32 (natOf bs)) with
    | .ok i => some i
    | .error _ => none
  else none

/-- VPFX (R69, R88, R89): the unit of the prefix and the instruction that follows it, 8 bytes, one instruction to every
trap; illegal before any instruction that does not accept its non-zero fields. -/
def execVpfx (m : BitVec 3) (z : BitVec 1) (r : BitVec 3) (x : BitVec 1) (v : BitVec 5) (s : State) : Out :=
  let p : Prefix := ⟨m, z = 1, r, if x = 1 then some v else none⟩
  let word := insnWord (.vpfx m z r x v)
  let whole := fun (bs : List Byte) => word ||| (wordOf bs <<< 32)
  let next := match unitBytes s with
    | .ok bs _ => (unitInstr bs, whole bs)
    | .error _ _ => (none, word)
  match next with
  | (some (.gang d n), w) => if p = .none then instrRaw (gangOp 8 w d n) s else instrG 8 (trapM 0x02 w) s
  | (some .disband, w) => if p = .none then runOne (disbandOp 8) s else instrG 8 (trapM 0x02 w) s
  | (next, w) => instrG 8 (do
      let _ ← unitBytes
      match next.bind (prefixed p) with
      | some op => op
      | none => trapM 0x02 w) s

end Sys2Proof.Machine
end

