-- ==== Sys2Proof/Machine/Ring.lean ====
section
/-! DEFINITION. The swift ring (12_sync_ring.md R299 to R306, 20_swift_ring.md R379 to R386, R387, R388): its instructions,
the passages of its slots, the origin, the windows of boards and the landing of alighted payloads. -/
namespace Sys2Proof.Machine
open Sys2Proof

/-! ## Names, positions and passages (R300, R301) -/

/-- The slots of a lane. -/
def laneSlots : Nat := 2176
/-- The position of a station (R301). -/
def stationPos (st : Nat) : Nat := st + 16 * (st / 256)
/-- The index of the slot that passes a position at a cycle (R301). -/
def slotPassing (p t : Nat) : Nat := (p + (laneSlots - t % laneSlots)) % laneSlots
/-- The first cycle from `t` on at which a slot passes a position (R301). -/
def passageFrom (p i t : Nat) : Nat := t + (p + 2 * laneSlots - i % laneSlots - t % laneSlots) % laneSlots
/-- The revolutions a slot has made since reset, its REV (R300, R379). -/
def slotRev (i t : Nat) : Nat := (i + t) / laneSlots
/-- The name of a slot (R300). -/
def slotName (ln : BitVec 2) (i : Nat) : Nat := ln.toNat * 4096 + i

def ringSlot (s : State) (name : Nat) : RingSlot := tabGet RingSlot.reset s.ring name
def laneOff (s : State) (ln : BitVec 2) : Bool := s.lanesOff.getLsbD ln.toNat

/-- The slots that a station holds, for every launch (R384). -/
def stationHolds (s : State) (st : Nat) : Nat :=
  (s.ring.filter fun r => decide (r.2.tag ≠ 0) && decide (r.2.owner.toNat = st)).length

/-- Bits of RSTAT (R305). -/
abbrev rsTag : BitVec 3 := 1
abbrev rsNotOwn : BitVec 3 := 2
abbrev rsFenced : BitVec 3 := 4

/-! ## The effects on a payload (R302) -/

/-- A payload combined with an operand: 16 lanes of FP32 rounded to nearest-even, or 8 of 64 bits wrapping (R302). -/
def ringAdd (i64 : Bool) (x y : V512) : V512 :=
  if i64 then ofLanes 64 8 fun i => lane x 64 i + lane y 64 i
  else ofLanes 32 16 fun i => (add32 (lane x 32 i) (lane y 32 i)).1
/-- The larger of each lane: FP32 under R170, or signed (R302). -/
def ringMax (i64 : Bool) (x y : V512) : V512 :=
  if i64 then ofLanes 64 8 fun i => if (lane x 64 i).slt (lane y 64 i) then lane y 64 i else lane x 64 i
  else ofLanes 32 16 fun i => BitVec.ofNat 32 (minMaxNum f32 true (lane x 32 i).toNat (lane y 32 i).toNat)

/-- The payload that a capture leaves (R302). -/
def ringNew (o : RingOp) (old : V512) : V512 :=
  match o.kind with
  | .add i64 => ringAdd i64 old o.b
  | .max i64 => ringMax i64 old o.b
  | .swap => o.b
  | .cas => if old = o.cmp then o.b else old
  | _ => old

/-! ## Issue (R299 to R303) -/

/-- An operation accepted into its station's queue of 64 entries (R301, R380), and the event of its passage. A board
for any free slot is offered the slot that passes in each cycle of its window (R383). -/
def ringAccept (kind : RingKind) (w : W64) (b cmp : V512) (d : BitVec 5) (addr : Nat) (va : VA) (leaf : LeafTag) :
    M Unit := do
  let cl ← curCluster
  waitUntil (decide (cl.ringQ.length < 64))
  let who ← whoNow
  let id ← fresh
  let s ← ask
  let st := clusterOf s.core
  let ln : BitVec 2 := w.extractLsb' 12 2
  let i := bits w 11 0
  let board := decide (kind = .board)
  let anyFree := board && w.getLsbD 15
  let tag : BitVec 16 := w.extractLsb' 32 16
  let fail : BitVec 3 :=
    if !board then 0
    else if tag = 0#16 then 5
    else if laneOff s ln && (anyFree || decide (laneSlots ≤ i)) then 4
    else if !anyFree && decide (laneSlots ≤ i) then 1
    else 0
  let o : RingOp := ⟨id, who, kind, ln, i, anyFree, tag, b, cmp, d, addr, va, leaf, now s, false, false, false, fail⟩
  update fun s => modCluster s st fun c => { c with ringQ := c.ringQ ++ [o] }
  if fail ≠ 0#3 || (!anyFree && decide (laneSlots ≤ i)) then
    update fun s => later s 4 .ringPassage (.num st (slotName ln i) 0)
  else if anyFree then do
    update fun s => later s 4 .ringPassage (.num st (slotName ln (slotPassing (stationPos st) (now s + 4))) (id + 1))
    update fun s => later s 2180 .boardWindowExpire (.num st id 0)
  else update fun s =>
    later s (passageFrom (stationPos st) i (now s + 4) - now s) .ringPassage (.num st (slotName ln i) 0)

/-- Waits until a register that a ring operation is to write is free of every result but those of earlier ring operations,
which do not hold it back (R387). -/
def ringDest (r : RegId) : M Unit := do
  let s ← ask
  let cl ← curCluster
  if cl.ringQ.any (fun o => isMine s o.who && decide (o.dest = some r)) then pure () else free r

/-- A capture (R299, R302): D is interlocked until it is applied. -/
def capture (i : Instr) (kind : RingKind) (d a : BitVec 5) (b : Option (BitVec 5)) : M Unit := do
  notInHandler i
  let w ← rg a
  let y ← (match b with
    | some r => rv r
    | none => pure 0)
  let cmp ← (if kind = .cas then rv d else do
    ringDest (.v d)
    pure 0)
  ringAccept kind w y cmp d 0 0 ⟨0, 0⟩
  addLock (.v d) 0

/-- SW.RD (R302). -/
def execSwRd (d a : BitVec 5) : State → Out := instr 4 (capture (.swRd d a) .rd d a none)
/-- SW.ADD (R302). -/
def execSwAdd (d a b : BitVec 5) (t : BitVec 1) : State → Out :=
  instr 4 (capture (.swAdd d a b t) (.add (t = 1#1)) d a (some b))
/-- SW.MAX (R302). -/
def execSwMax (d a b : BitVec 5) (t : BitVec 1) : State → Out :=
  instr 4 (capture (.swMax d a b t) (.max (t = 1#1)) d a (some b))
/-- SW.SWAP (R302). -/
def execSwSwap (d a b : BitVec 5) : State → Out := instr 4 (capture (.swSwap d a b) .swap d a (some b))
/-- SW.CAS: D is the comparand (R299, R302). -/
def execSwCas (d a b : BitVec 5) : State → Out := instr 4 (capture (.swCas d a b) .cas d a (some b))

/-- The alighting address of SW.BOARD, checked at issue (R303): a 64-byte-aligned address of a raw page that the station
may write (R428); the peer window only copy jobs reach (R449). -/
def alightAddr (ox0 : W64) : M (VA × Nat × LeafTag) := do
  let va : VA := ox0.setWidth 56
  trapIf (va.toNat % 64 ≠ 0) 0x03 (va.setWidth 64)
  trapIf (windowOf va).isSome 0x05 ox0
  let l ← leafFor va .store
  let pa := leafPa l va
  let s ← ask
  let c ← cur
  trapIf (leafFmt l.entry ≠ 0) 0x05 (va.setWidth 64)
  if admits s 1 c.asid.toNat .write pa (dieOf s.core) && !inPeer pa then pure (va, pa, tagOf l)
  else do
    update fun s => portRefusal s pa 1 c.asid.toNat s.core
    trapM 0x05 (va.setWidth 64)

/-- SW.BOARD (R303): D is interlocked until the board is decided (R387). -/
def execSwBoard (d a b : BitVec 5) : State → Out := instr 4 do
  notInHandler (.swBoard d a b)
  let w ← rg a
  let y ← rv b
  let x ← rox 0
  ringDest (.g d)
  let (va, pa, leaf) ← alightAddr x
  ringAccept .board w y 0 d pa va leaf
  if d = 0#5 then pure () else addLock (.g d) 0

/-- SW.ALIGHT (R304). -/
def execSwAlight (a : BitVec 5) : State → Out := instr 4 do
  notInHandler (.swAlight a)
  let w ← rg a
  ringAccept .alight w 0 0 0 0 0 ⟨0, 0⟩

/-- SW.WAIT (R305): every ring operation of the context applied and every alighting write landed. -/
def execSwWait (d : BitVec 5) : State → Out := instr 4 do
  notInHandler (.swWait d)
  claim (.g d)
  let s ← ask
  let cl ← curCluster
  waitUntil (!(cl.ringQ.any fun r => isMine s r.who) && !flying s [.alightWriteLand])
  let c ← cur
  wg d (c.rstat.setWidth 64)
  modCur fun c => { c with rstat := 0 }

/-! ## Passages (R302 to R304, R379 to R386) -/

/-- Whether a slot's tag matches an operation's (R302, R381). -/
def tagMatches (r : RingSlot) (o : RingOp) : Bool :=
  decide (r.tag ≠ 0) && decide (r.tag = o.tag) && r.who.any fun w => decide (w.asid = o.who.asid)

/-- An operation that leaves its station's queue with bits of RSTAT, FENCED among them when its lane is fenced (R305, R385).
`put` writes its destination, unless a later operation has written it already; the destination is free once no operation is
to write it (R125, R387; DEDUCED, log entry 75). -/
def ringDone (s : State) (st : Nat) (o : RingOp) (rs : BitVec 3) (put : Ctx → Ctx) : State :=
  let same := fun (p : RingOp) => decide (p.who = o.who) && decide (p.dest = o.dest) && p.dest.isSome
  let s := modCluster s st fun c =>
    { c with ringQ := (c.ringQ.filter (·.id ≠ o.id)).map fun p => { p with outdone := p.outdone || (same p && decide (p.id < o.id)) } }
  let more := (getCluster s st).ringQ.any same
  deliver s o.who fun c =>
    let c := { c with rstat := c.rstat ||| rs ||| (if laneOff s o.lane then rsFenced else 0) }
    let c := if o.outdone then c else put c
    match o.dest with
    | some r => if more then c else unlock c r
    | none => c

/-- A capture's or an alight's end: a capture's D takes the payload. -/
def captureDone (s : State) (st : Nat) (o : RingOp) (rs : BitVec 3) (old : V512) : State :=
  ringDone s st o rs fun c => if o.kind = .alight then c else vSet c o.d old

/-- A board's end: D takes the slot name, or bit 63 and the reason (R303). -/
def boardDone (s : State) (st : Nat) (o : RingOp) (reason name : Nat) : State :=
  ringDone s st o 0 fun c =>
    gSet c o.d (if reason = 0 then BitVec.ofNat 64 name else at64 1 63 ||| BitVec.ofNat 64 reason)

/-- A capture or an alight applied at the passage of its slot (R302, R304, R382). -/
def applyCapture (s : State) (st : Nat) (o : RingOp) (name : Nat) : State :=
  let r := ringSlot s name
  if laneOff s o.lane then captureDone s st o 0 0
  else if !tagMatches r o then captureDone s st o rsTag 0
  else if o.kind = .alight then
    if r.owner.toNat = st && r.who.any (fun w => decide (w.ltag = o.who.ltag)) then
      let s := sometime (freeSlot s name) .alightWriteLand (.land o.who r.leaf r.va r.addr r.payload)
      captureDone s st o 0 0
    else captureDone s st o rsNotOwn 0
  else
    captureDone { s with ring := tabPut s.ring name { r with payload := ringNew o r.payload } } st o 0 r.payload

/-- Whether a context named by an operation is still there, resident or saved. -/
def stillThere (s : State) (w : Who) : Bool := resident s w || (savedOf s w).isSome

/-- A slot claimed by a board (R303); when the boarding context is no more, the management core alights it (R306). From
now on the slot's passages of the origin are followed. -/
def claimSlot (s : State) (st : Nat) (o : RingOp) (name : Nat) : State :=
  let s := { s with ring := tabPut s.ring name ⟨o.b, o.tag, BitVec.ofNat 11 st, some o.who, o.addr, o.va, o.leaf, true⟩ }
  let s := later s (passageFrom 0 (name % 4096) (now s + 1) - now s) .ringOrigin (.num name 0 0)
  let s := boardDone s st o 0 name
  if stillThere s o.who then s else alightSlot s (dieOfCluster st) name

/-- A board met by a slot: one for a named slot is decided; one for any free slot claims it, passes it over for the limit
of R384, or goes on (R303, R383). -/
def applyBoard (s : State) (st : Nat) (o : RingOp) (name : Nat) : State :=
  let r := ringSlot s name
  let can := decide (r.tag = 0) && r.passed
  let full := decide (32 ≤ stationHolds s st)
  if laneOff s o.lane then if o.anyFree then s else boardDone s st o 4 name
  else if !can then if o.anyFree then s else boardDone s st o 1 name
  else if full then
    if o.anyFree then modCluster s st fun c => { c with
      ringQ := c.ringQ.map fun q => if q.id = o.id then { q with limited := true } else q }
    else boardDone s st o 2 name
  else claimSlot s st o name

/-- An operation of a station as a slot's passage finds it (R301 to R303). -/
def applyRingOp (st name : Nat) (passing : Bool) (s : State) (o : RingOp) : State :=
  let i := name % 4096
  let here := decide (slotName o.lane o.idx = name) && !o.anyFree
  if now s < o.issued + 4 then s
  else if o.fail ≠ 0#3 then
    if slotName o.lane o.idx = name then boardDone s st o o.fail.toNat 0 else s
  else if here && decide (laneSlots ≤ i) then captureDone s st o rsTag 0
  else if !passing then s
  else if o.kind = .board then
    if here || (o.anyFree && decide (o.lane.toNat = name / 4096) && decide (now s < o.issued + 2180)) then
      applyBoard s st o name
    else s
  else if here then applyCapture s st o name
  else s

/-- The contexts with an operation pending on a slot. -/
def pendingOn (s : State) (name : Nat) : List Who :=
  s.clusters.flatMap fun c => (c.2.ringQ.filter fun o =>
    !o.anyFree && o.fail = 0#3 && decide (slotName o.lane o.idx = name)).map (·.who)

/-- Cause 0x0A falls due for the owner of a slot and for every context with an operation pending on it (R306, R385). -/
def slotTrap (s : State) (name : Nat) (val : W64) : State :=
  let ws := (ringSlot s name).who.toList ++ pendingOn s name
  ws.foldl (fun s w => deliver s w fun c =>
    if c.pending.contains (0x0A, val) then c else { c with pending := c.pending ++ [(0x0A, val)] }) s

/-- An uncorrectable error strikes a slot: it becomes free (R306) and the error counts toward its lane's fence (R462). -/
def slotError (s : State) (name : Nat) : State :=
  let s := slotTrap s name (BitVec.ofNat 64 name)
  let s := report s 2 3 (name / 4096) 0 0 0 0
  if (ringSlot s name).tag = 0#16 then s else freeSlot s name

/-- RING_PASSAGE (R301, R302): operands the station and the slot, with the board that looks for any slot (by its number
plus one); or, as a flag, the slot met by an uncorrectable error. -/
def execRingPassage : State → Out := event .ringPassage do
  let s ← ask
  match s.arg with
  | .num st name k => do
    if st < 2048 && name < 16384 then pure () else throw (.fault .noSuchPart)
    let passing := decide (name % 4096 < laneSlots) && decide (slotPassing (stationPos st) (now s) = name % 4096) &&
      !(getDie s (dieOfCluster st)).bypassed
    update fun s => (getCluster s st).ringQ.foldl (applyRingOp st name passing) s
    update fun s =>
      if (getCluster s st).ringQ.any (fun o => o.id + 1 = k && decide (now s + 1 < o.issued + 2180)) then
        later s 1 .ringPassage (.num st (name / 4096 * 4096 + slotPassing (stationPos st) (now s + 1)) k)
      else s
  | .flag st name true => do
    if st < 2048 && name < 16384 && name % 4096 < laneSlots then pure () else throw (.fault .noSuchPart)
    update fun s => slotError s name
  | _ => pure ()

/-- BOARD_WINDOW_EXPIRE (R383): operands the station and the board's number. -/
def execBoardWindowExpire : State → Out := event .boardWindowExpire do
  let s ← ask
  match s.arg with
  | .num st id _ =>
    match (getCluster s st).ringQ.find? (·.id = id) with
    | some o => update fun s => boardDone s st o (if laneOff s o.lane then 4 else if o.limited then 2 else 3) 0
    | none => pure ()
  | _ => pure ()

/-- A boarded slot alighted at the origin, by die 0's management core, for a fence of its lane or of its owner's die (R385, R386):
its payload written, unless its address lies in fenced memory; the contexts trap. -/
def fenceSlot (s : State) (name : Nat) : State :=
  let r := ringSlot s name
  let s := slotTrap s name
    (BitVec.ofNat 64 name ||| at64 1 63 ||| (if served s r.addr then at64 1 62 else 0))
  alightSlot s 0 name

/-- RING_ORIGIN (R379, R385, R386): operand the slot. A lane fence that is due takes effect when slot 0 passes; a slot
freed before becomes boardable (R303); a boarded slot's next passage follows in a revolution. -/
def execRingOrigin : State → Out := event .ringOrigin do
  let s ← ask
  match s.arg with
  | .num name _ _ => do
    if name < 16384 && name % 4096 < laneSlots then pure () else throw (.fault .noSuchPart)
    let bit : BitVec 4 := BitVec.ofNat 4 (2 ^ (name / 4096))
    if decide (name % 4096 = 0) && decide (s.laneDue &&& bit ≠ 0#4) then
      update fun s => { s with lanesOff := s.lanesOff ||| bit, laneDue := s.laneDue &&& ~~~ bit }
    else pure ()
    let s ← ask
    let r := ringSlot s name
    if r.tag = 0#16 then
      update fun s => if r.passed then s else { s with ring := tabDel s.ring name }
    else if decide (s.lanesOff &&& bit ≠ 0#4) || (getDie s (dieOfCluster r.owner.toNat)).bypassed then
      update fun s => later (fenceSlot s name) laneSlots .ringOrigin (.num name 0 0)
    else update fun s => later s laneSlots .ringOrigin (.num name 0 0)
  | _ => pure ()

/-- ALIGHT_WRITE_LAND (R304, R388): operands the context, the address and the payload, written as one line; a refused
write is dropped and reported (R429). -/
def execAlightWriteLand : State → Out := event .alightWriteLand do
  let s ← ask
  match s.arg with
  | .land w _ _ pa x =>
    update fun s =>
      if served s pa && admits s 1 w.asid.toNat .write pa (dieOf w.core.toNat) then memPut s pa (vecBytes x)
      else report s 3 0 (clusterOf w.core.toNat) pa 1 w.asid.toNat w.core.toNat
  | _ => pure ()

end Sys2Proof.Machine
end

