-- ==== Sys2Proof/Machine/System.lean ====
section
/-! DEFINITION. Strand, operand-extension, system-register and trap instructions, and the events that deliver traps
(13_strand_system.md R308 to R320, 01_state.md R38 to R50). -/
namespace Sys2Proof.Machine
open Sys2Proof

/-! ## Strands (R311 to R314) -/

/-- The operation at a join record's home engine, which its read's channel is awake for (R465), when its word can be read; else
R476. -/
def atEngine (pa : Nat) (m : M Unit) : M Unit := do
  let s ← ask
  if badAt s pa then do
    let w ← whoNow
    update fun s => engineError s w pa
  else do
    update (wake · pa)
    m

/-- FORK: the child record is pushed at the head of the core's deque as a release (R311, R340), COUNT of the join record,
if one is named, raised before any context can take it. -/
def execFork (d a b : BitVec 5) : State → Out := instr 4 do
  strandChecks (insnWord (.fork d a b)) false
  let base ← rg a
  let r ← rv b
  claim (.g d)
  let pa ← (if a = 0#5 then pure none else do let p ← joinRecord base; pure (some p.1))
  releaseAll
  let push : M Unit := do
    let s ← ask
    match ← pushHead s.core (stampRecord s s.core s.ctx false r) with
    | none => wg d 2
    | some status => do
      match pa with
      | some p => update fun s => memWrite s p (toBytes 8 ((memWord s p).toNat + 1))
      | none => pure ()
      queueDone s.core
      wg d (BitVec.ofNat 64 status)
  match pa with
  | some p => atEngine p push
  | none => push

/-- The context freed by a suspension: its enrolments stand (R369). -/
def freeSuspended : M Unit := update fun s => freeCtx s s.core s.ctx

/-- A suspension's record written to memory, past the cluster cache, whose copy of the line goes (R312). -/
def writeRecord (pa : Nat) (r : V512) : M Unit :=
  update fun s => writeRecordAt s s.core pa r

/-- JOIN: goes on, as an acquire, when COUNT is 0; else parks the strand in the join record and frees the context
(R312, R341). -/
def execJoin (a : BitVec 5) : State → Out := instrRaw do
  strandChecks (insnWord (.join a)) true
  let base ← rg a
  let (p, q) ← joinRecord base
  workDone
  atEngine p do
    let s ← ask
    let c ← cur
    if memWord s p = 0#64 then do
      update fun s => acquireAll s s.core
      advance 4
    else do
      trapIf ((memWord s (p + 8)).getLsbD 0) 0x12 (base &&& 0xFFFFFFFFFFFFFF)
      releaseAll
      writeRecord q (suspendRecord s s.core s.ctx (c.pc + 4))
      update fun s => memWrite s (p + 8) (toBytes 8 ((memWord s (p + 8)).toNat ||| 1))
      freeSuspended

/-- What HALT and HALTJ do to their context and core (R31, R313, R370): its enrolments end, it is free, the retain bit
is set or cleared. -/
def haltCtx (retain : Option (BitVec 32)) : M Unit := update fun s =>
  freeCtx (dropAll (modCore s s.core fun c => { c with retain := retain, keeps := false }) s.core s.ctx) s.core s.ctx

/-- HALT (R313): `retain` says whether the core's retain bit is set, `a` names the successor tag. -/
def haltM (word : W64) (retain : Bool) (a : BitVec 5) : M Unit := do
  strandChecks word true
  let tag ← rg a
  workDone
  haltCtx (if retain then some (tag.setWidth 32) else none)

/-- HALT, and HALT.RET with its successor tag (R313). -/
def execHalt (r : BitVec 1) (a : BitVec 5) : State → Out :=
  instrRaw (haltM (insnWord (.halt r a)) (r = 1#1) a)
/-- HALT.H: HALT without retain (R308). -/
def execHaltH : State → Out := instrRaw (haltM (insnWord .haltH) false 0)

/-- HALTJ: COUNT of the join record is lowered; the last child pushes the parked parent onto its core's deque. Then the
context is freed (R313). -/
def execHaltj (a : BitVec 5) : State → Out := instrRaw do
  strandChecks (insnWord (.haltj a)) true
  let base ← rg a
  let (p, q) ← joinRecord base
  workDone
  releaseAll
  atEngine p do
    let s ← ask
    let n := memWord s p
    trapIf (n = 0#64) 0x12 (base &&& 0xFFFFFFFFFFFFFF)
    if n = 1#64 && (memWord s (p + 8)).getLsbD 0 then
      atEngine q do
        let full ← waitsFull s.core
        waitUntil (!full)
        update fun s => memWrite s p (toBytes 8 0)
        update fun s => memWrite s (p + 8) (toBytes 8 ((memWord s (p + 8)).toNat / 2 * 2))
        let r := vecOf (memRead s q 64)
        haltCtx none
        pushParent s.core r
    else do
      update fun s => memWrite s p (toBytes 8 (n - 1).toNat)
      haltCtx none

/-- YIELD: the strand goes to the tail of its core's deque and the context is freed; when the deque is full it completes
as a NOP (R312, R362). -/
def execYield : State → Out := instrRaw do
  strandChecks (insnWord .yield) true
  workDone
  let s ← ask
  let c ← cur
  let r := suspendRecord s s.core s.ctx (c.pc + 4)
  let fits ← pushTail s.core r
  if fits then do
    update fun _ => s
    releaseAll
    let _ ← pushTail s.core r
    freeSuspended
    queueDone s.core
  else do
    undo s.core s
    advance 4

/-- SUSPEND: the strand's record is written at an address and the context freed (R312). -/
def execSuspend (a : BitVec 5) : State → Out := instrRaw do
  strandChecks (insnWord (.suspend a)) true
  let base ← rg a
  trapIf (base.toNat % 64 ≠ 0) 0x03 (base &&& 0xFFFFFFFFFFFFFF)
  let pa ← engineTarget base .write
  workDone
  releaseAll
  let s ← ask
  let c ← cur
  writeRecord pa (suspendRecord s s.core s.ctx (c.pc + 4))
  freeSuspended

/-! ## Operand-extension registers (R315, R316) -/

/-- OXL: 16 bits of an ox register (R315). -/
def execOxl (n : BitVec 3) (c : BitVec 2) (i : BitVec 16) : State → Out := instrG 4 do
  let x ← rox n
  wox n (putBits x (16 * c.toNat + 15) (16 * c.toNat) i.toNat)
/-- OXM from a general register (R315). -/
def execOxm (n : BitVec 3) (a : BitVec 5) : State → Out := instrG 4 do
  let x ← rg a
  wox n x
/-- OXM to a general register (R315). -/
def execOxmToG (d : BitVec 5) (n : BitVec 3) : State → Out := instrG 4 do
  let x ← rox n
  wg d x
/-- OXLD: a doubleword of global memory (R316). -/
def execOxld (n : BitVec 3) (a : BitVec 5) (o : BitVec 12) : State → Out := instrG 4 do
  let base ← rg a
  let bs ← loadSite 8 (siteAt 0 (base + sext12 o))
  wox n (wordOf bs)
/-- OXST: an ox register to global memory (R316). -/
def execOxst (a : BitVec 5) (n : BitVec 3) (o : BitVec 12) : State → Out := instrG 4 do
  let base ← rg a
  let x ← rox n
  storeSite (siteAt 0 (base + sext12 o)) (toBytes 8 x.toNat)

/-! ## System registers (R39 to R50, R317) -/

/-- SPILLMAP.PARKED (R48). -/
def parkedBits (c : Core) : Nat :=
  (List.range 5).foldl (fun n x => if c.parked.any (·.ctx = x) then n + 2 ^ x else n) 0

/-- The value of a system register for the current context; none when the number names none (R39, R40). -/
def sysGet (s : State) (n : Nat) : Option W64 :=
  let c := getCtx s s.core s.ctx
  let k := getCore s s.core
  if n = 0x000 then some s.cyc
  else if n = 0x001 then some (at64 s.core 0)
  else if n = 0x002 then some (at64 c.inst.toNat 16 ||| at64 s.ctx 0)
  else if n = 0x003 then some (at64 c.gangSize.toNat 4 ||| at64 c.gangIdx.toNat 0)
  else if n = 0x004 then some (at64 c.dom.toNat 16 ||| at64 c.clcount.toNat 0)
  else if n = 0x005 then some (c.ltag.setWidth 64)
  else if n = 0x006 then some (c.asid.setWidth 64)
  else if n = 0x007 then some (c.prio.setWidth 64)
  else if n = 0x010 then some (c.fpstat.setWidth 64)
  else if n = 0x011 then some (c.mxstat.setWidth 64)
  else if n = 0x020 then some (c.trapCause.setWidth 64)
  else if n = 0x021 then some (c.trapPc.setWidth 64)
  else if n = 0x022 then some c.trapVal
  else if n = 0x023 then some ((c.trapVec ++ 0#1).setWidth 64)
  else if n = 0x030 then some ((if k.spv then at64 1 40 else 0) ||| at64 (parkedBits k) 32 ||| at64 k.cfree.toNat 0)
  else if n = 0x040 then some (k.straySig.setWidth 64)
  else if n = 0x041 then some (k.lfsr.setWidth 64)
  else if n = 0x042 then some (k.trcIdx.setWidth 64)
  else if 0x100 ≤ n ∧ n < 0x200 then some (tabGet 0 k.trc (n - 0x100))
  else none

/-- SYSRD (R317). -/
def execSysrd (d : BitVec 5) (i : BitVec 12) : State → Out := instrG 4 do
  let s ← ask
  match sysGet s i.toNat with
  | some v => wg d v
  | none => trapM 0x02 (insnWord (.sysrd d i))

/-- The registers of a parked context moved to its save image (R38): PARK is cleared in the header. -/
def unpark (s : State) (core : Nat) (p : Parked) : State :=
  let s := modCore s core fun c => { c with parked := c.parked.filter (fun q => q ≠ p) }
  match (getDie s (dieOf core)).dir.find? (fun e => e.core = core && e.ctx = p.ctx && e.inst = p.inst) with
  | some e =>
    let e := { e with parked := false }
    putHeader (putSaved s e) e
  | none => s

/-- A SYSWR to SPILLMAP (R38, R48): parked registers leave the columns that are given back, which then read zero; SPV is
cleared by writing 1. -/
def spillmap (s : State) (core : Nat) (v : W64) : State :=
  let old := (getCore s core).cfree
  let freed := fun (i : Nat) => old.getLsbD i && !v.getLsbD i
  let s := ((getCore s core).parked.filter fun p => (p.cols.getD []).any freed).foldl (unpark · core) s
  modCore s core fun c => { c with
    cfree := v.setWidth 32
    spv := c.spv && !v.getLsbD 40
    c := c.c.filter fun p => !freed (p.1 / 1024)
    badC := c.badC.filter fun w => !freed (w * 4 / 1024) }

/-- A system register written (R39, R40); none when it is read-only or no register. -/
def sysSet (s : State) (n : Nat) (v : W64) : Option State :=
  let mine := fun (f : Ctx → Ctx) => some (modCtx s s.core s.ctx f)
  if n = 0x010 then mine fun c => { c with fpstat := c.fpstat &&& ~~~ v.setWidth 6 }
  else if n = 0x011 then mine fun c => { c with mxstat := c.mxstat &&& ~~~ v.setWidth 3 }
  else if n = 0x020 then mine fun c => { c with trapCause := v.setWidth 9 }
  else if n = 0x021 then mine fun c => { c with trapPc := v.setWidth 56 }
  else if n = 0x022 then mine fun c => { c with trapVal := v }
  else if n = 0x023 then mine fun c => { c with trapVec := v.extractLsb' 1 55 }
  else if n = 0x030 then some (spillmap s s.core v)
  else if n = 0x040 then some (modCore s s.core fun c => { c with straySig := v.setWidth 32 })
  else none

/-- SYSWR (R39, R317). DEDUCED, log entry 32. -/
def execSyswr (a : BitVec 5) (i : BitVec 12) : State → Out := instr 4 do
  let v ← rg a
  let s ← ask
  match sysSet s i.toNat v with
  | some t => do
    waitUntil (!(i.toNat = 0x030 && (getCluster s (clusterOf s.core)).mtx.any fun m => m.who.core.toNat = s.core))
    update fun _ => t
  | none => trapM 0x02 (insnWord (.syswr a i))

/-- SPILLMAP_WRITE (R38): operands the value and the core. -/
def execSpillmapWrite : State → Out := event .spillmapWrite do
  let s ← ask
  match s.arg with
  | .word v _ core => update fun s => spillmap s core v
  | _ => pure ()

/-! ## Raising and leaving traps (R318 to R320) -/

/-- A trap whose TRAPPC is the address after an instruction of `len` bytes (R318). -/
def trapAfter (len : Nat) (cause : BitVec 8) (val : W64) : M Unit := do
  modCur fun c => { c with pc := c.pc + BitVec.ofNat 56 len }
  throw (.trap cause val false true)

/-- TRAP (R318). -/
def execTrap (a b : BitVec 5) : State → Out := instrG 4 do
  let x ← rg a
  let y ← rg b
  trapIf (x = 0#64 || x = 0x0F || decide (0x12 < x.toNat)) 0x02 (insnWord (.trap a b))
  trapAfter 4 (x.setWidth 8) y

/-- The breakpoint trap (R318). -/
def breakpoint (len : Nat) : M Unit := do
  let c ← cur
  trapAfter len 0x01 (c.pc.setWidth 64)

/-- BRK (R318). -/
def execBrk : State → Out := instrG 4 (breakpoint 4)
/-- BRK.H (R308). -/
def execBrkH : State → Out := instrG 2 (breakpoint 2)

/-- ERET (R320). -/
def execEret : State → Out := instrRaw do
  leaveTrap (insnWord .eret)
  advance 0

/-- NOP (R318). -/
def execNop : State → Out := instrG 4 (pure ())
/-- NOP.H (R308). -/
def execNopH : State → Out := instrG 2 (pure ())

/-- The first of the pending asynchronous traps to be taken: the lowest cause (R319). -/
def firstPending (l : List (BitVec 8 × W64)) : Option (BitVec 8 × W64) :=
  l.foldl (fun b p => match b with
    | none => some p
    | some q => if p.1.toNat < q.1.toNat then some p else b) none

/-- ASYNC_TRAP (R319): the current context takes the lowest pending cause at its instruction boundary; in trap mode it
stays pending. A restartable instruction that it finds part way has PROG set (R86). A gang that its leader leads ends, as for
any trap of its leader (R186). -/
def execAsyncTrap : State → Out := fun s =>
  let c := getCtx s s.core s.ctx
  match firstPending c.pending with
  | none => .next s
  | some (cause, val) =>
    if c.trapMode then .next s
    else
      let s := modCtx s s.core s.ctx fun c => { c with pending := c.pending.erase (cause, val) }
      if leads s then gangTrap s cause val else .next (takeTrap s s.core s.ctx cause val false)

/-- ILLEGAL_INSTRUCTION (R77, R78): cause 0x02 with the instruction's word, taken by the current context. -/
def execIllegalInstruction : State → Out := instrG 0 do
  let s ← ask
  match s.arg with
  | .word v _ _ => trapM 0x02 v
  | _ => trapM 0x02 0

/-- FETCH_FAULT (R53): the cause and the address of the halfword that could not be fetched. -/
def execFetchFault : State → Out := fun s =>
  match s.arg with
  | .word cause val _ => fetchTrap (cause.setWidth 8) val s
  | _ => .next s
where
  /-- The trap of a fetch: a gang's leader alone fetches, and takes its own cause (R185, R186). -/
  fetchTrap (cause : BitVec 8) (val : W64) (s : State) : Out :=
    if leads s then gangTrap s cause val else .next (takeTrap s s.core s.ctx cause val false)

end Sys2Proof.Machine
end

