-- ==== Sys2Proof/Machine/Translation.lean ====
section
/-! DEFINITION. Walks, prefetches and evictions as they come about, the writing of access tables, and the mailbox commands that
change translations (06_memory_access.md R158, 16_consistency.md R330, 24_program_triangles.md R400, R401,
26_translation_protection.md R420 to R430, 28_host_network.md R446). -/
namespace Sys2Proof.Machine
open Sys2Proof

/-! ## Walks, fills and evictions -/

/-- An engine asked to go on with what a walk has kept it from (R424); a queue engine asks by itself. -/
def wakeEngine (s : State) (p : Nat × Engine) : State :=
  match p.2 with
  | .job seq => later s 0 .copyPageTranslate (.num p.1 seq 0)
  | .port core => later s 0 .messageArrive (.num core 0 0)
  | .queue _ _ => s

/-- A walk's leaf given to a context that waits for it (R424). -/
def giveLeaf (e : TlbEntry) (c : Ctx) : Ctx :=
  match c.await with
  | some (.pages l) => { c with await := some (.pages (e :: l)) }
  | _ => c

/-- The result of a walk kept for an engine of a cluster until it takes it (R424). -/
def missDone (s : State) (cl : Nat) (e : Engine) (asid : BitVec 16) (page : Nat) (r : Option TlbEntry) : State :=
  modCluster s cl fun c => { c with misses :=
    (c.misses.filter fun m => !(decide (m.1 = e) && decide (m.2.1 = asid) && decide (m.2.2.1 = page))) ++ [(e, asid, page, r)] }

/-- A walk's end (R400, R424, R425): a valid leaf is installed for every cluster that missed and taken by every access and
engine that waits; a failure likewise. Its reads have woken the channels they arrived at (R465). The misses of a walk that an
invalidation found running are taken up again (R426). -/
def walkDone (s : State) (die : Nat) (w : Walk) : State :=
  let s := modDie s die fun d => { d with walks := d.walks.filter (·.id ≠ w.id) }
  let s := w.engines.foldl wakeEngine (walkWakes s w.asid w.va)
  let page := w.va.toNat / 65536
  if w.stale then
    w.prefetch.foldl (fun s p => startWalk s p.1 w.asid p.2 .fill) s
  else match walk s w.asid w.va with
    | .leaf l =>
      let s := w.engines.foldl (fun s p => missDone s p.1 p.2 w.asid page (some (tlbEntry w.asid w.va l))) s
      let s := w.clusters.foldl (fun s cl => tlbInstall s cl w.asid w.va l) s
      let s := w.waiters.foldl (fun s p => modCtx s p.1 p.2 (giveLeaf (tlbEntry w.asid w.va l))) s
      w.prefetch.foldl (fun s p => sometime s .prefetchFill (.page p.1 w.asid p.2)) s
    | .fail bad =>
      let s := w.waiters.foldl (fun s p => modCtx s p.1 p.2 fun c => { c with walkFail := some page }) (reportWalk s bad)
      w.engines.foldl (fun s p => missDone s p.1 p.2 w.asid page none) s

/-- TLB_WALK_COMPLETE (R425): operands the die and the walk, which ends once it runs. -/
def execTlbWalkComplete : State → Out := event .tlbWalkComplete do
  let s ← ask
  match s.arg with
  | .num die id _ =>
    match (getDie s die).walks.find? (·.id = id) with
    | some w => do
      waitUntil ((getDie s die).walkRuns w)
      update fun s => walkDone s die w
    | none => pure ()
  | _ => pure ()

/-- The line of a PF filled, as a load miss would fill it, one that holds only stored bytes completed; a fault or a refusal is
dropped, an error reported (R158). -/
def prefetch (s : State) (cl : Nat) (asid : BitVec 16) (va : VA) : State :=
  match tlbHit (getCluster s cl) asid va with
  | none => startWalk s cl asid va .fill
  | some l =>
    let pa := leafPa l va
    let bad := fun (func unit : Nat) => report s 2 func unit (lineOf pa * 64) 0 asid.toNat (cl * 8)
    if !served s pa || !admits s 0 asid.toNat .read pa (dieOfCluster cl) then portRefusal s pa 0 asid.toNat (cl * 8)
    else match (getCluster s cl).cache.find? (·.line = lineOf pa) with
      | some l =>
        if l.failed then bad 6 cl
        else if l.known = BitVec.allOnes 64 then s
        else if badAt s pa then bad 1 (channelUnit s pa)
        else cacheInsert (wakeFrom s (dieOfCluster cl) pa) cl (completeLine s l)
      | none =>
        if badAt s pa then bad 1 (channelUnit s pa) else cacheInsert (wakeFrom s (dieOfCluster cl) pa) cl (fillLine s pa)

/-- PREFETCH_FILL (R158): operands the cluster, the ASID and the address. -/
def execPrefetchFill : State → Out := event .prefetchFill do
  let s ← ask
  match s.arg with
  | .page cl asid va => update fun s => prefetch s cl asid va
  | _ => pure ()

/-- CACHE_EVICT (R330): operands the cluster and the line, its dirty bytes written back; or, as a flag, the line met by an
uncorrectable error, which marks it failed (R460). -/
def execCacheEvict : State → Out := event .cacheEvict do
  let s ← ask
  match s.arg with
  | .num cl line _ => do
    if cl < 2048 then pure () else throw (.fault .noSuchPart)
    update fun s => evict s cl line
  | .flag cl line true => do
    if cl < 2048 then pure () else throw (.fault .noSuchPart)
    update fun s => modCluster s cl fun c => { c with
      cache := c.cache.map fun l => if l.line = line then { l with failed := true, dirty := 0 } else l }
  | _ => pure ()

/-! ## Access tables (R427, R430) -/

/-- Whether a target exists: seven on each of the eight dies (R427). -/
def isTarget (tgt : Nat) : Bool := decide (tgt < 64) && decide (tgt % 8 < 7)

/-- A row as it is stored: its reserved bits read zero (R427). -/
def rowKept (r : BitVec 128) : BitVec 128 := r >>> 24 <<< 24

/-- The rate limit of a target set, kept within its bound (R471): the outbound CXL limit in MB/s at the CXL port of die 0, the
transmit limit in Mb/s at an endpoint. It locks with the target's table; a write to a locked one is logged with KIND 7. -/
def setLimit (s : State) (tgt rate : Nat) : State :=
  if s.locked.contains tgt then report s 7 5 (tgt / 8) 0 2 (tgt / 8) 0
  else if tgt % 8 = 5 then modDie s (tgt / 8) fun d => { d with epLimit := min rate 800000 }
  else if tgt = 4 then { s with cxlLimit := min rate 128000 }
  else s

/-- ACCESS_TABLE_WRITE (R427, R430, R471): operands the target, the row's number and the row; discarded and reported once the
table is locked. As numbers, the target and its rate limit (DESIGN CHOICE, log entry 77). -/
def execAccessTableWrite : State → Out := event .accessTableWrite do
  let s ← ask
  match s.arg with
  | .row tgt row _ r => do
    if isTarget tgt && decide (row < 256) then pure () else throw (.fault .noSuchPart)
    update fun s =>
      if s.locked.contains tgt then report s 3 5 (tgt / 8) 0 2 (tgt / 8) 0
      else { s with access := tabPut s.access (tgt * 256 + row) (rowKept (r.setWidth 128)) }
  | .num tgt rate _ => do
    if isTarget tgt then pure () else throw (.fault .noSuchPart)
    update fun s => setLimit s tgt rate
  | _ => pure ()

/-- ACCESS_TABLE_LOCK (R430): operand the target. -/
def execAccessTableLock : State → Out := event .accessTableLock do
  let s ← ask
  match s.arg with
  | .num tgt _ _ => do
    if isTarget tgt then pure () else throw (.fault .noSuchPart)
    update fun s => if s.locked.contains tgt then s else { s with locked := s.locked ++ [tgt] }
  | _ => pure ()

/-! ## The mailbox (R446) -/

/-- A command answered; the next one posted begins. -/
def reply (s : State) (op status value : Nat) : State :=
  let s := { s with mailbox := s.mailbox ++ [(⟨op, status, value⟩ : CmdReply)], cmd := none }
  match s.cmds with
  | [] => s
  | d :: _ => later { s with cmdGo := true } 0 d.ev d.arg

/-- A mailbox command: while the link is down none arrives; it waits for those posted before it; in recovery mode only 0xC0F0
is served. DEDUCED, log entry 44. -/
def command (ev : Instr) (op : Nat) (m : M Unit) : State → Out := event ev do
  let s ← ask
  let me : Due := ⟨0, ev, s.arg⟩
  if s.link = 0 then pure ()
  else if s.cmd.isSome || (!s.cmds.isEmpty && !(s.cmdGo && decide (s.cmds.head? = some me))) then
    update fun s => { s with cmds := s.cmds ++ [me] }
  else do
    if s.cmdGo then update fun s => { s with cmds := s.cmds.drop 1, cmdGo := false } else pure ()
    if s.recovery && op ≠ 0xC0F0 then update fun s => reply s op 4 0 else m

/-- ASROOT (R420, R446): operands the ASID and the level-1 table's address, or 0. -/
def execAsroot : State → Out := command .asroot 0xC010 do
  let s ← ask
  match s.arg with
  | .num asid table _ =>
    let inTier := match placeOf table with
      | .first _ _ => true
      | .second _ _ => true
      | _ => false
    if 0xFFFF ≤ asid || table % 65536 ≠ 0 || !inTier then update fun s => reply s 0xC010 1 0
    else update fun s =>
      reply { s with root := tabPut s.root asid (if table = 0 then 0 else at64 1 63 ||| at64 table 0) } 0xC010 0 0
  | _ => update fun s => reply s 0xC010 1 0

/-- Whether some bytes meet an invalidation's range of pages: all pages when the count is 0. -/
def rangeMeets (first count base len : Nat) : Bool :=
  decide (count = 0) || (decide (first * 65536 < base + len) && decide (base < (first + count) * 65536))
/-- Whether a leaf of an ASID is one that an invalidation names: of its ASID, or global (R426). -/
def invalNames (asid leaf : BitVec 16) : Bool := decide (asid = 0xFFFF#16) || decide (leaf = asid) || decide (leaf = 0xFFFF#16)
/-- Whether the leaf that has translated an address is one that an invalidation removes: its whole page is looked at. -/
def invalMeets (asid : BitVec 16) (first count : Nat) (leaf : LeafTag) (va : VA) : Bool :=
  invalNames asid leaf.asid && rangeMeets first count (va.toNat / 2 ^ leaf.bits * 2 ^ leaf.bits) (2 ^ leaf.bits)

/-- Whether a TLB entry matches an invalidation: the global leaves of its range too (R426). DEDUCED, log entry 45. -/
def entryMatches (asid : BitVec 16) (first count : Nat) (e : TlbEntry) : Bool :=
  (decide (asid = 0xFFFF#16) || (match e.asid with | none => true | some a => decide (a = asid))) &&
  rangeMeets first count e.base (2 ^ e.bits)

/-- The leaves that a context's instruction has been given, without those of an invalidation. -/
def loseLeaves (asid : BitVec 16) (first count : Nat) (c : Ctx) : Ctx :=
  match c.await with
  | some (.pages l) => { c with await := some (.pages (l.filter fun e => !entryMatches asid first count e)) }
  | _ => c

/-- The matching leaves removed from every TLB, and from the contexts that wait for more. -/
def dropLeaves (s : State) (asid : BitVec 16) (first count : Nat) : State :=
  { s with
    clusters := s.clusters.map fun c => (c.1, { c.2 with tlb := c.2.tlb.filter fun e => !entryMatches asid first count e })
    cores := s.cores.map fun c => (c.1, { c.2 with ctxs := c.2.ctxs.map (loseLeaves asid first count) }) }

/-- The walks that run given up, as an invalidation begins (R426). -/
def giveUpWalks (d : Die) : Die := { d with walks := d.walks.map fun w => { w with stale := w.stale || d.walkRuns w } }

/-- INVAL (R426, R446): operands the first page, the count (0 for all) and the ASID, 0xFFFF for every one. Pages are of
64 KiB. The matching leaves go, the walks that run are given up, and the command is done when it is complete. -/
def execInval : State → Out := command .inval 0xC011 do
  let s ← ask
  match s.arg with
  | .word first count asid =>
    if 65536 ≤ asid || 2 ^ 40 < first.toNat + count.toNat then update fun s => reply s 0xC011 1 0
    else update fun s =>
      let s := dropLeaves s (BitVec.ofNat 16 asid) first.toNat count.toNat
      let s := { s with
        dies := s.dies.map fun d => (d.1, giveUpWalks d.2)
        cmd := some (.inval (BitVec.ofNat 16 asid) first.toNat count.toNat) }
      sometime s .invalidationComplete .none
  | _ => update fun s => reply s 0xC011 1 0

/-- Whether an access translated in the range of an invalidation is not performed yet (R426): pages that copy jobs have
translated, rows of CP.GATH, chunks of TQ.SCAN and their sums, alighting addresses, atomics, reductions, requests and releases
of objects, whose pages are taken for the largest, and fills. -/
def translatedLeft (s : State) (asid : BitVec 16) (first count : Nat) : Bool :=
  let meets := fun (leaf : LeafTag) (va : VA) => invalMeets asid first count leaf va
  s.clusters.any (fun c =>
    c.2.jobs.any (fun j => (j.flying ++ j.todo).any fun p =>
      ((p.ready || decide (p.pa ≠ 0)) && meets p.leaf p.va) ||
      (p.ready && meets p.leafB (p.va + BitVec.ofNat 56 p.bytes))) ||
    c.2.ringQ.any (fun o => o.kind = .board && meets o.leaf o.va) ||
    c.2.comb.any (fun e => e.vas.any fun v => meets v.1 v.2)) ||
  s.ring.any (fun r => decide (r.2.tag ≠ 0) && meets r.2.leaf r.2.va) ||
  s.dies.any (fun d => d.2.wellQ.any fun q => match q.op with
    | .scan _ _ _ iva sva ileaf sleaf _ _ _ _ _ => meets ileaf iva || meets sleaf sva
    | _ => false) ||
  s.acqs.any (fun a => meets a.leaf (a.obj.setWidth 56)) ||
  s.agenda.any fun d => match d.arg with
    | .sum r => invalNames asid r.leaf.asid
    | .amo r _ => d.ev = .amoApply && invalNames asid r.leaf.asid
    | .red r => r.vas.any fun v => meets v.1 v.2
    | .land _ leaf va _ _ => meets leaf va
    | .page _ a va => meets ⟨a, 16⟩ va
    | .who _ _ obj => d.ev = .objectRelease && rangeMeets first count ((obj.setWidth 56).toNat / 2 ^ 30 * 2 ^ 30) (2 ^ 30)
    | _ => false

/-- INVALIDATION_COMPLETE (R426): no TLB holds a matching leaf, the walks that ran have ended, and every access translated
before has been performed. -/
def execInvalidationComplete : State → Out := event .invalidationComplete do
  let s ← ask
  match s.cmd with
  | some (.inval asid first count) => do
    waitUntil (!(s.dies.any fun d => d.2.walks.any (·.stale)))
    waitUntil (!translatedLeft s asid first count)
    update fun s => reply (dropLeaves s asid first count) 0xC011 0 0
  | _ => pure ()

end Sys2Proof.Machine
end

