-- ==== Sys2Proof/Machine/Launches.lean ====
section
/-! DEFINITION. Launch boards, launch records, binding, the slot table and completion (25_launch_scheduling.md R403 to R414,
28_host_network.md R446), as Scerix and dispatch bring them about. -/
namespace Sys2Proof.Machine
open Sys2Proof

/-! ## Launch records (R404, R405) -/

def Launch.word (l : Launch) (i : Nat) : W64 := l.words.getD i 0
def Launch.seq (l : Launch) : Nat := (l.word 0).toNat
def Launch.succ (l : Launch) : BitVec 32 := (l.word 1).extractLsb' 32 32
def Launch.ltag (l : Launch) : BitVec 32 := (l.word 1).setWidth 32
def Launch.after (l : Launch) : Bool := (l.word 2).getLsbD 30
def Launch.prio (l : Launch) : BitVec 2 := (l.word 2).extractLsb' 28 2
def Launch.firstCl (l : Launch) : Nat := bits (l.word 2) 26 16
def Launch.place (l : Launch) : Nat := bits (l.word 2) 15 14
def Launch.clcount (l : Launch) : Nat := bits (l.word 2) 11 0
def Launch.geover (l : Launch) : BitVec 32 := (l.word 3).extractLsb' 32 32
def Launch.nwell (l : Launch) : Nat := bits (l.word 3) 30 16
def Launch.crec (l : Launch) : W64 := l.word 4
/-- The cores of a launch's domain, in rank order (R209). -/
def Launch.cores (l : Launch) : List Nat := l.clusters.flatMap fun cl => (List.range 8).map (cl * 8 + ·)
/-- Whether a launch holds its clusters and wells: from its binding until every bind record is clear, but not while it is
pre-empted (R209, R413, R447). -/
def Launch.holds (l : Launch) : Bool := decide (l.phase ≠ .waiting) && decide (l.phase ≠ .preempted)

/-- The launch that a domain number names, bound, running or pre-empted. -/
def modLaunch (s : State) (dom : BitVec 12) (f : Launch → Launch) : State :=
  { s with launches := s.launches.map fun l => if l.dom = dom && l.phase ≠ .waiting then f l else l }

/-- Scerix asked to bind what it can. -/
def askBind (s : State) : State :=
  if s.agenda.any (fun d => d.ev = .launchBind && d.arg = .num 0 0 0) then s else sometime s .launchBind (.num 0 0 0)

/-- The unfenced clusters, in order. -/
def goodClusters (s : State) : List Nat := (List.range 2048).filter fun cl => !clusterFenced s cl

/-! ## The checks of a record (R406) -/

/-- Whether a field of a record is out of range or a reserved bit set (R405). -/
def badRecord (l : Launch) : Bool :=
  let w := l.word
  decide (l.ltag = 0) || decide (bits (w 2) 63 31 ≠ 0) || (w 2).getLsbD 27 || decide (bits (w 2) 13 12 ≠ 0) ||
  decide (l.place = 3) || decide (l.clcount = 0) || decide (2048 < l.clcount) || (w 3).getLsbD 31 ||
  decide (16384 < l.nwell) || decide (bits (w 3) 15 0 ≠ 0) || decide (bits (w 5) 63 16 ≠ 0) ||
  decide (bits (w 5) 14 11 ≠ 0) || decide ((w 6).toNat % 64 ≠ 0) || (w 8).getLsbD 0 ||
  decide (((List.range 8).map fun c => bits (w 7) (8 * c + 7) (8 * c)).sum > 64) ||
  decide ((w 16).toNat % 64 ≠ 0) || decide (bits (w 17) 63 16 ≠ 0) || (l.words.drop 19).any (· ≠ 0)

/-- The physical address of a launch's completion record, when CREC fits R405. -/
def crecAddr (s : State) (l : Launch) : Option Nat × State :=
  let va : VA := l.crec.setWidth 56
  if l.crec = 0 || l.crec.toNat % 64 ≠ 0 || bits l.crec 63 56 ≠ 0 || (windowOf va).isSome then (none, s)
  else match walk s l.asid va with
    | .fail bad => (none, reportWalk (walkWakes s l.asid va) bad)
    | .leaf lf =>
      let pa := leafPa lf va
      let s := walkWakes s l.asid va
      (if leafW lf.entry && leafFmt lf.entry = 0 && served s pa && admits s 2 0 .write pa 0 then some pa else none, s)

/-- Whether the placement can never be met (R406). -/
def badPlace (s : State) (l : Launch) : Bool :=
  let good := goodClusters s
  if l.place = 2 then
    decide (2048 < l.firstCl + l.clcount) || (List.range l.clcount).any fun i => clusterFenced s (l.firstCl + i)
  else if l.place = 1 then
    !(List.range 8).any fun d => decide (l.clcount ≤ (good.filter fun cl => dieOfCluster cl = d).length)
  else decide (good.length < l.clcount)

/-- The status of a record's refusal, 0 when it is accepted; the lowest that applies (R406). -/
def recordStatus (s : State) (l : Launch) (crecOk : Bool) : Nat :=
  if badRecord l || !crecOk then 2
  else if l.geover ≠ s.geo then 3
  else if ((List.range 16384).filter fun w => !wellFenced s w).length < l.nwell then 4
  else if badPlace s l then 5
  else 0

/-! ## Completion records (R406, R413, R414) -/

/-- The words of a completion record (R414). -/
def completionWords (s : State) (l : Launch) (status : Nat) : List W64 :=
  let k := l.kill.getD (0, 0, 0, 0)
  [at64 l.ltag.toNat 32 ||| at64 status 0, l.word 0, at64 l.start 0, s.cyc,
   at64 k.1.toNat 24 ||| at64 k.2.2.1 16 ||| at64 k.2.1 0, k.2.2.2, 0, 0]

/-- A completion record written by the leading management core and, once it is in memory, its MSI-X vector sent; when it
cannot be received, a vendor event of KIND 7 instead (R406, R413). -/
def writeCompletion (s : State) (l : Launch) (status : Nat) : State :=
  match crecAddr s l with
  | (some pa, s) =>
    let s := memPut s pa (wordBytes (completionWords s l status))
    if (l.word 5).getLsbD 15 then later s 1 .msixSend (.num (bits (l.word 5) 10 0) 0 0) else s
  | (none, s) => report s 7 0 l.board l.crec.toNat 0 0 0

/-- MSIX_SEND (R413): operand the vector. -/
def execMsixSend : State → Out := event .msixSend do
  let s ← ask
  match s.arg with
  | .num v _ _ => update fun s => { s with msix := s.msix ++ [BitVec.ofNat 11 v] }
  | _ => pure ()

/-! ## Launch boards (R403, R404, R446) -/

/-- Scerix's next look at a board, within 24,000 cycles (R404). -/
def nextLook (s : State) (n : Nat) : State :=
  later { s with tick := s.tick + 1 } (1 + Config.latency s.tick % 24000) .launchRecordTake (.num n 0 0)

/-- A board registered under a number (R403). DEDUCED, log entry 39. -/
def addBoard (s : State) (n pa : Nat) (w : W64) : State :=
  let s := memPut { s with boards := s.boards ++ [⟨n, pa, w.extractLsb' 32 16, bits w 15 0, 0, false⟩] } (pa + 8) (toBytes 8 0)
  reply (nextLook s n) 0xC001 0 n

/-- BOARD.REG (R403, R446): operand the board's address; its header gives the ASID and the slots, and TAKEN starts at 0. -/
def execBoardReg : State → Out := command .boardReg 0xC001 do
  let s ← ask
  match s.arg with
  | .num pa _ _ =>
    let w := memWord s pa
    let nslot := bits w 15 0
    let bad := decide (pa % 256 ≠ 0) || decide (0x8000000000 < pa + 256 * nslot + 256) || !served s (pa + 256 * nslot + 255) ||
      !served s pa || !admits s 2 0 .read pa 0 || !admits s 2 0 .write pa 0 || badAt s pa ||
      decide (bits w 63 48 ≠ 0) || decide (bits w 31 16 ≠ 0) || decide (nslot < 4) || decide (4096 < nslot) ||
      decide (2 ^ nslot.log2 ≠ nslot) || decide (bits w 47 32 = 0xFFFF)
    if bad then update fun s => reply s 0xC001 1 0
    else match (List.range 64).find? fun n => !(s.boards.any fun b => b.num = n) with
      | none => update fun s => reply s 0xC001 2 0
      | some n => update fun s => addBoard s n pa w
  | _ => update fun s => reply s 0xC001 1 0

/-- A board asked to leave (R446). -/
def leaveBoard (s : State) (n : Nat) : State :=
  reply (later { s with boards := s.boards.map fun b => if b.num = n then { b with leaving := true } else b } 1
    .boardRemove (.num n 0 0)) 0xC002 0 0

/-- BOARD.UNREG (R446): operand the board's number; it takes no more records, and is removed once its last launch is
complete. -/
def execBoardUnreg : State → Out := command .boardUnreg 0xC002 do
  let s ← ask
  match s.arg with
  | .num n _ _ =>
    if s.boards.any (fun b => b.num = n && !b.leaving) then update fun s => leaveBoard s n
    else update fun s => reply s 0xC002 1 0
  | _ => update fun s => reply s 0xC002 1 0

/-- BOARD_REMOVE (R446): operand the board's number. -/
def execBoardRemove : State → Out := event .boardRemove do
  let s ← ask
  match s.arg with
  | .num n _ _ => do
    waitUntil (!(s.launches.any fun l => l.board = n && l.phase ≠ .done))
    update fun s => { s with boards := s.boards.filter fun b => !(b.num = n && b.leaving) }
  | _ => pure ()

/-- The slot of a board's next record. -/
def nextSlot (b : Board) : Nat := b.addr + 256 * (1 + (b.taken + 1) % b.nslot)

/-- Whether Scerix may take a board's next record: every access table is locked (R430), and the management core may read the slot
and write TAKEN (R404, R427). -/
def mayTake (s : State) (b : Board) : Bool :=
  let pa := nextSlot b
  (List.range 64).all (fun t => !isTarget t || s.locked.contains t) && !b.leaving && !s.recovery &&
  served s pa && admits s 2 0 .read pa 0 && admits s 2 0 .write (b.addr + 8) 0

/-- A line of memory that the leading management core reads: its channel wakes (R465), and an uncorrectable error is reported
(R460); such a line is none. -/
def leadRead (s : State) (pa : Nat) : Option (List Byte) × State :=
  let s := wakeFrom s 0 pa
  if badAt s pa then (none, report s 2 1 (channelUnit s pa) (pa / 64 * 64) 2 0 0) else (some (memRead s (pa / 64 * 64) 64), s)

/-- A record present on a board taken (R404), its first line given: the others read, TAKEN raised, checked, and refused or kept
waiting. A line of it that holds an uncorrectable error reads as zeros (DEDUCED, log entry 41). DESIGN CHOICE, log entry 33. -/
def takeRecord (s : State) (b : Board) (first : List Byte) : State :=
  let seq := b.taken + 1
  let pa := nextSlot b
  let (bytes, s) := [1, 2, 3].foldl (fun p i =>
    let (l, s) := leadRead p.2 (pa + 64 * i)
    (p.1 ++ l.getD (List.replicate 64 0), s)) (first, s)
  let words := (chunks 8 32 bytes).map wordOf
  let l : Launch := ⟨b.num, b.asid, words, .waiting, [], [], 0, Config.freeWord s.tick, Config.freeWord (s.tick + 1), 0, none, [], []⟩
  let s := memPut { s with
    tick := s.tick + 2
    boards := s.boards.map fun c => if c.num = b.num then { c with taken := seq } else c } (b.addr + 8) (toBytes 8 seq)
  let (crec, s) := crecAddr s l
  match recordStatus s l crec.isSome with
  | 0 => askBind { s with launches := s.launches ++ [l] }
  | st => writeCompletion s l st

/-- The records present on a board taken, up to `n` of them. A record is present when word 0 of the next slot holds the next
sequence number (R404). -/
def takeRecords (num : Nat) : Nat → State → State
  | 0, s => s
  | n + 1, s =>
    match s.boards.find? (·.num = num) with
    | some b =>
      if !mayTake s b then s
      else match leadRead s (nextSlot b) with
        | (some l, s) => if wordOf (l.take 8) = BitVec.ofNat 64 (b.taken + 1) then takeRecords num n (takeRecord s b l) else s
        | (none, s) => s
    | none => s

/-- LAUNCH_RECORD_TAKE (R404): operand the board. Scerix looks at least every 24,000 cycles and takes every record that it
finds. -/
def execLaunchRecordTake : State → Out := event .launchRecordTake do
  let s ← ask
  match s.arg with
  | .num n _ _ =>
    match s.boards.find? (·.num = n) with
    | none => pure ()
    | some b => do
      update (takeRecords n b.nslot)
      update fun s => if b.leaving then s else nextLook s n
  | _ => pure ()

/-! ## Placing and binding (R407 to R409) -/

/-- The clusters that no launch holds and that are not fenced. -/
def freeClusters (s : State) : List Nat :=
  (goodClusters s).filter fun cl => !(s.launches.any fun l => l.holds && l.clusters.contains cl)

/-- Whether some core of a cluster retains for a tag (R408). -/
def retainsFor (s : State) (succ : BitVec 32) (cl : Nat) : Bool :=
  decide (succ ≠ 0) && (List.range 8).any fun j => decide ((getCore s (cl * 8 + j)).retain = some succ)

/-- Clusters taken as PLACE 0 takes them: the retaining ones first. -/
def takeClusters (s : State) (l : Launch) (cls : List Nat) : Option (List Nat) :=
  if cls.length < l.clcount then none
  else
    let keep := cls.filter (retainsFor s l.succ)
    some (((keep ++ cls.filter fun c => !keep.contains c).take l.clcount).mergeSort (· ≤ ·))

/-- The domain of a launch, in cluster-id order, when its clusters are free (R408). -/
def placement (s : State) (l : Launch) : Option (List Nat) :=
  let cls := freeClusters s
  if l.place = 2 then
    let want := (List.range l.clcount).map (l.firstCl + ·)
    if want.all cls.contains then some want else none
  else if l.place = 1 then
    (List.range 8).findSome? fun d => takeClusters s l (cls.filter fun cl => dieOfCluster cl = d)
  else takeClusters s l cls

/-- The nearest of some wells to a core, the lowest of equals (R209). DESIGN CHOICE, log entry 37. -/
def nearest (core : Nat) : List Nat → Option Nat
  | [] => none
  | w :: ws => match nearest core ws with
    | none => some w
    | some v => if Config.wellDistance core (w % 2048) ≤ Config.wellDistance core (v % 2048) then some w else some v

/-- The default binding of a launch's logical wells, in increasing number (R209); none when wells run out. -/
def bindWells (cores : List Nat) : Nat → Nat → List Nat → Option (List Nat)
  | 0, _, _ => some []
  | n + 1, i, avail =>
    let core := cores.getD (i % max 1 cores.length) 0
    let own := avail.filter fun w => w / 2048 = dieOf core
    let pool := if own.isEmpty then avail.filter fun w => w / 2048 = avail.headD 0 / 2048 else own
    match nearest core pool with
    | none => none
    | some w => (bindWells cores n (i + 1) (avail.filter (· ≠ w))).map (w :: ·)

/-- The wells that no launch holds and that are not fenced, in increasing number. -/
def freeWells (s : State) : List Nat :=
  (List.range 16384).filter fun w => !wellFenced s w && !(s.launches.any fun l => l.holds && l.wells.contains w)

/-- The first waiting launch of a board (R407). -/
def boardHead (s : State) (n : Nat) : Option Launch := s.launches.find? fun l => l.board = n && l.phase = .waiting

/-- Whether the record before a launch on its board has been completed (R407). -/
def previousDone (s : State) (l : Launch) : Bool :=
  !(s.launches.any fun p => p.board = l.board && p.seq + 1 = l.seq && p.phase ≠ .done)

/-- The domain and the wells that a head may bind to now. -/
def canBind (s : State) (l : Launch) : Option (List Nat × List Nat) :=
  if l.after && !previousDone s l then none
  else
    (placement s l).bind fun cls =>
      (bindWells (cls.flatMap fun cl => (List.range 8).map (cl * 8 + ·)) l.nwell 0 (freeWells s)).map fun ws => (cls, ws)

/-- The head to bind next: the highest priority, and round robin over the boards after the one last bound (R407). -/
def nextHead (s : State) : Option (Launch × List Nat × List Nat) :=
  let heads := ((List.range 64).map fun i => (s.lastBoard + 1 + i) % 64).filterMap fun n =>
    (boardHead s n).bind fun l => (canBind s l).map fun p => (l, p.1, p.2)
  heads.foldl (fun best h => match best with
    | none => some h
    | some b => if b.1.prio.toNat < h.1.prio.toNat then some h else some b) none

/-- A domain number that no launch has, the first from a free value on (DESIGN CHOICE, log entry 42). -/
def freshDom (s : State) : BitVec 12 :=
  let start := (Config.freeWord s.tick).toNat % 4096
  let used := fun (d : Nat) => s.launches.any fun l => l.phase ≠ .waiting && l.dom.toNat = d
  BitVec.ofNat 12 (((List.range 4096).map fun i => (start + i) % 4096).find? (fun d => !used d) |>.getD start)

/-- The heads of the boards that ask for more than a fence or a retirement has left refused at bind (R18, R406). -/
def refuseHeads (s : State) : State :=
  (List.range 64).foldl (fun s n =>
    match boardHead s n with
    | none => s
    | some l =>
      let (crec, s) := crecAddr s l
      match recordStatus s l crec.isSome with
      | 0 => s
      | st => askBind (writeCompletion { s with launches := s.launches.filter (· ≠ l) } l st)) s

/-- Whether a core's mailbox is idle (R439): no handler, no row, no message to be decided on. -/
def mailIdle (s : State) (core : Nat) : Bool :=
  decide ((getCtx s core 4).run = .free) && (getCore s core).mail.isEmpty && (getCore s core).inbox.isEmpty

/-- Every class of some cores masked (R439). -/
def maskClasses (s : State) (cores : List Nat) : State :=
  cores.foldl (fun s core => modCore s core fun c => { c with classMask := 0xFF }) s

/-- The masks of cores whose mailboxes are not idle lifted again, so that their rows are handled (R298); `kept` gives a
launch's own masks. DESIGN CHOICE, log entry 74. -/
def liftMasks (s : State) (kept : Tab Kept) (cores : List Nat) : State :=
  (cores.filter fun core => !mailIdle s core).foldl (fun s core => askHandler
    (modCore s core fun c => { c with classMask := ((kept.find? (·.1 = core)).map (·.2.mask)).getD 0 }) core) s

/-- A write of a bind record by the leading management core, which the slot table's access table admits or refuses (R410,
R427). -/
def writeBind (s : State) (core x : Nat) (b : BindRec) : State :=
  let tgt := dieOf core * 8 + 6
  if tableAdmits s tgt (32 * (4 * (core % 2048) + x)) 2 0 .write then setBind s core x b
  else report s 3 5 (dieOf core) 0 2 0 core

/-- The bind record of a launch's context (R410). -/
def bindRec (l : Launch) (cl : Nat) (act : BitVec 2) : BindRec :=
  ⟨true, act, l.prio, l.dom, l.asid, l.ltag, BitVec.ofNat 11 (l.clusters.idxOf cl), BitVec.ofNat 12 l.clcount, l.lpb, l.wmap⟩

/-- Steps 1 to 3 of R409, once the cores' mailboxes are idle (R439): every class masked, the well map, a bind record with ACT
0 for every hardware context, the spanning trees; then Scerix waits for the cores. -/
def bindLaunch (s : State) (l : Launch) (cls ws : List Nat) : State :=
  let dom := freshDom s
  let groups : Tab W64 := (List.range 64).filterMap fun n => if (l.word 18).getLsbD n then some (n, 0) else none
  let m := { l with phase := .bound, clusters := cls, wells := ws, dom := dom, groups := groups }
  let s := { s with
    tick := s.tick + 1
    lastBoard := l.board
    launches := s.launches.map fun k => if k = l then m else k }
  let s := maskClasses s m.cores
  let s := m.cores.foldl (fun s core => (List.range 4).foldl (fun s x =>
    sometime (writeBind s core x (bindRec m (clusterOf core) 0)) .bindRecordRebind (.num core x 0)) s) s
  askBind (sometime s .launchBind (.num (dom.toNat + 1) 0 0))

/-- A launch killed before its entry strand started goes on to its completion (R446). -/
def startEnded (s : State) (l : Launch) : State :=
  sometime (modLaunch s l.dom fun m => { m with phase := .running }) .launchComplete (.num l.dom.toNat 0 0)

/-- LAUNCH_BIND (R407, R409): the next head is bound; or, with a domain number plus one, steps 4 and 5 of R409: once every
core has acted on its records, the entry context's record is rewritten with ACT 1. No launch is bound while a fenced channel
waits for retirement (R464), nor while the clusters of a completed one are not free yet (R412's example). -/
def execLaunchBind : State → Out := event .launchBind do
  let s ← ask
  match s.arg with
  | .num 0 _ _ =>
    if s.recovery || s.dies.any (fun d => d.2.fencedCh ≠ 0#32) then pure ()
    else do
      waitUntil (!(s.launches.any fun l => l.phase = .done))
      update refuseHeads
      let s ← ask
      match nextHead s with
      | some (l, cls, ws) =>
        let cores := cls.flatMap fun cl => (List.range 8).map (cl * 8 + ·)
        update fun s =>
          let s := maskClasses s cores
          if cores.all (mailIdle s) then bindLaunch s l cls ws
          else askBind (cores.foldl (fun s core => liftMasks s (((launchOf s (coreLaunch s core).dom).map (·.kept)).getD []) [core]) s)
      | none => pure ()
  | .num k _ _ =>
    match launchOf s (BitVec.ofNat 12 (k - 1)) with
    | some l =>
      if l.phase = .bound && l.kill.isNone then do
        waitUntil (l.cores.all fun core => (List.range 4).all fun x =>
          let c := getCtx s core x
          (c.bound && decide (c.dom = l.dom)) || clusterFenced s (clusterOf core))
        let core := l.clusters.headD 0 * 8
        update fun s => sometime (writeBind s core 0 (bindRec l (clusterOf core) 1)) .bindRecordEntry (.num core 0 0)
      else if l.phase = .bound then update fun s => startEnded s l
      else pure ()
    | none => pure ()
  | _ => pure ()

/-! ## What dispatch does with a bind record (R411, R412) -/

/-- The launch of a bind record. -/
def launchOfBind (s : State) (b : BindRec) : Option Launch := launchOf s b.dom

/-- The barriers of a core that a departing launch leaves behind moved to the image of its lowest pre-empted context (R371,
R431). DEDUCED, log entry 56. -/
def moveBarriers (s : State) (core : Nat) : State :=
  let old := (coreLaunch s core).dom
  let mine := (getDie s (dieOf core)).dir.filter fun e => e.core = core && e.ctxt.dom = old
  let s := match mine.foldl (fun (b : Option Saved) e => match b with
      | none => some e
      | some f => if e.ctx < f.ctx then some e else b) none with
    | some e => putBarm s { e with barm := true, bars := (getCore s core).bars.filter (·.2.init) }
    | none => s
  modCore s core fun c => { c with bars := [] }

/-- A core rebound to another launch (R366, R371, R411, R412): the other launch's parked registers and barriers leave, the
retained banks are kept or cleared, the LFSR is seeded, and the launch's values are latched. The handler context keeps its INST
(DESIGN CHOICE, log entry 73). -/
def newLaunch (s : State) (core : Nat) (b : BindRec) (l : Launch) : State :=
  let s := (getCore s core).parked.foldl (unpark · core) s
  let s := moveBarriers s core
  let keep := (getCore s core).retain.any fun t => decide (t = l.succ) && decide (t ≠ 0)
  let s := modCore s core fun c => { c with
    retain := none
    keeps := keep
    lfsr := lfsrSeed core
    mbcap := l.word 7
    htab := l.word 6
    ovfl := l.word 16
    ovn := (l.word 17).setWidth 16
    ltag := b.ltag
    deque := Deque.reset
    classMask := 0
    steal := none }
  let s := if keep then s else modCore s core fun c =>
    { c with a := [], c := [], s := [], emptyA := [], emptyS := [], badA := [], badC := [], badS := [] }
  modCtx s core 4 fun h => { h with
    dom := b.dom, clcount := b.clcount, rank := b.rank, ltag := b.ltag, asid := b.asid, prio := b.prio, lpb := b.lpb,
    wmap := b.wmap }

/-- Whether a core bound to no context of a launch is still the launch's own: it was the last one bound here, and contexts of
it are saved (R371). -/
def stillBound (s : State) (core : Nat) (dom : BitVec 12) : Bool :=
  decide ((coreLaunch s core).dom = dom) && (getDie s (dieOf core)).dir.any fun e => e.core = core && e.ctxt.dom = dom

/-- The bytes of the deque region of S. -/
def dequeBytes : Nat := 0x1000

/-- What a core keeps of its deque for a launch that is pre-empted. -/
def keepDeque (c : Core) (k : Kept) : Kept :=
  { k with
    deque := c.deque
    ring := spaceRead c 3 0x7000 dequeBytes
    bad := c.badS.filter fun w => decide (0x7000 ≤ 4 * w) }

/-- A core given back what it kept for a launch (R439, log entry 40). -/
def giveKept (s : State) (core : Nat) (k : Kept) : State :=
  let s := if k.deque.rCount = 0 then s
    else modCore (powerUp s core) core fun c =>
      let c := spaceWrite c 3 0x7000 k.ring
      { c with badS := c.badS ++ k.bad }
  askHandler (modCore s core fun c => { c with deque := k.deque, classMask := k.mask }) core

/-- What a core kept for a launch that RESUME binds again (R447). -/
def keptHere (s : State) (l : Launch) (core : Nat) : Option Kept :=
  match s.cmd with
  | some (.resume d _) => if d = l.dom.toNat then (l.kept.find? (·.1 = core)).map (·.2) else none
  | _ => none

/-- A core bound to a launch by its first context (R411, R412); a launch that was pre-empted is bound anew by RESUME, its LFSR
seeded (R366), and has back what the core kept for it (R439, R447). -/
def bindCore (s : State) (core : Nat) (b : BindRec) : State :=
  let l := (launchOfBind s b).getD ⟨0, 0, [], .waiting, [], [], 0, 0, 0, 0, none, [], []⟩
  match keptHere s l core with
  | some k =>
    let s := if stillBound s core b.dom then modCore s core fun c => { c with lfsr := lfsrSeed core } else newLaunch s core b l
    giveKept (modLaunch s l.dom fun m => { m with kept := m.kept.filter (·.1 ≠ core) }) core k
  | none => if inDomain s core b.dom || stillBound s core b.dom then s else newLaunch s core b l

/-- Whether the context of a slot with an instance tag is saved (R436). -/
def isSaved (s : State) (core x : Nat) (inst : BitVec 16) : Bool :=
  (getDie s (dieOf core)).dir.any fun e => e.core = core && e.ctx = x && e.inst = inst

/-- A context reset by a rebind (R411, R436, R438): its instance moves on, its arrivals drop and its slots alight as at a
kill, unless the context that was here is saved; every state of R19 is reset, and its launch state is loaded. -/
def rebind (s : State) (core x : Nat) (b : BindRec) : State :=
  let s := bindCore s core b
  let old := (getCtx s core x).inst
  let s := if isSaved s core x old then s
    else destroyBoarder (dropAll (endGang s core x) core x) core x old
  let s := forgetMiss (takeSfu s core x).2 core x
  setCtx s core x { Ctx.reset with
    bound := true, inst := nextInst s core x old, dom := b.dom, clcount := b.clcount, rank := b.rank, ltag := b.ltag, asid := b.asid,
    prio := b.prio, lpb := b.lpb, wmap := b.wmap }

/-- Operands of an event of the slot table: a core and a hardware context, which must exist; dispatch reads its record (R459). -/
def slotArg : M (Option (Nat × Nat)) := do
  let s ← ask
  match s.arg with
  | .num core x _ => do
    if core < 16384 && x < 4 then pure () else throw (.fault .noSuchPart)
    update fun s => dispatchMeets s (dieOf core) [recIndex core x]
    pure (some (core, x))
  | _ => pure none

/-- BIND_RECORD_REBIND (R411): operands core and context. A record with V = 1 and ACT 0 whose launch is not the context's
resets and rebinds it; its core then looks for work (R364). -/
def execBindRecordRebind : State → Out := event .bindRecordRebind do
  match ← slotArg with
  | some (core, x) => do
    let s ← ask
    let b := bindAt s core x
    let c := getCtx s core x
    if b.v && b.act = 0#2 && (!c.bound || c.ltag ≠ b.ltag) && !clusterFenced s (clusterOf core) then
      update fun s => dispatch (rebind s core x b) core
    else pure ()
  | none => pure ()

/-- BIND_RECORD_RUN (R411): with ACT 0 for its own launch, the free context takes work. -/
def execBindRecordRun : State → Out := event .bindRecordRun do
  match ← slotArg with
  | some (core, x) => do
    let s ← ask
    let b := bindAt s core x
    let c := getCtx s core x
    if b.v && b.act = 0#2 && c.bound && c.ltag = b.ltag then update fun s => dispatch s core else pure ()
  | none => pure ()

/-- A launch's entry strand picked up, and the launch started (R411); one that is killed meanwhile does not start (R446). -/
def startEntry (s : State) (core x : Nat) (b : BindRec) (l : Launch) : State :=
  let r := ofLanes 64 8 fun i => l.word (8 + i)
  let s := setBind s core x { b with act := 0 }
  if l.kill.isSome then startEnded s l
  else
    let s := modCtx s core x fun c => { c with
      dom := b.dom, clcount := b.clcount, rank := b.rank, ltag := b.ltag, asid := b.asid, lpb := b.lpb, wmap := b.wmap }
    let s := if clusterFenced s (clusterOf core) then s else pickup s core x r b.prio 6
    let t := now s
    sometime (modLaunch s b.dom fun m => { m with phase := .running, start := t }) .launchComplete (.num b.dom.toNat 0 0)

/-- BIND_RECORD_ENTRY (R411): with ACT 1 the free context picks up the entry strand of its LPB; its first instruction issues
6 cycles later, at the launch's priority. This cycle is the launch's start. -/
def execBindRecordEntry : State → Out := event .bindRecordEntry do
  match ← slotArg with
  | some (core, x) => do
    let s ← ask
    let b := bindAt s core x
    if b.v && b.act = 1#2 then do
      waitUntil (decide ((getCtx s core x).run = .free))
      match launchOfBind s b with
      | some l => update fun s => startEntry s core x b l
      | none => pure ()
    else pure ()
  | none => pure ()

/-- BIND_RECORD_UNBIND (R411): ACT 2 asks for the slot to be cleared once its context is free. -/
def execBindRecordUnbind : State → Out := event .bindRecordUnbind do
  match ← slotArg with
  | some (core, _) => update fun s => unbindFree s core
  | none => pure ()

/-- Launches whose completion record is written and whose bind records are all clear leave: their clusters and wells are
free (R209, R413). -/
def dropDone (s : State) : State :=
  let gone := fun (l : Launch) => l.phase = .done && l.cores.all fun core => (List.range 4).all fun x =>
    !((bindAt s core x).v && (bindAt s core x).dom = l.dom)
  if s.launches.any gone then askBind { s with launches := s.launches.filter fun l => !gone l } else s

/-- A slot cleared (R411); banks kept for a launch that has left the core are kept no more (R412). -/
def clearSlot (s : State) (core x : Nat) : State :=
  let s := setBind s core x { bindAt s core x with v := false }
  let s := modCtx s core x fun c => { c with bound := false }
  let s := if (List.range 4).any fun y => (getCtx s core y).bound then s
    else modCore s core fun c => { c with keeps := false }
  dropDone (idleBanks s core)

/-- UNBIND_VALID_CLEAR (R411): V := 0; the context is bound to nothing. -/
def execUnbindValidClear : State → Out := event .unbindValidClear do
  match ← slotArg with
  | some (core, x) => do
    let s ← ask
    let b := bindAt s core x
    if b.v && b.act = 2#2 && (getCtx s core x).run = .free then update fun s => clearSlot s core x
    else pure ()
  | none => pure ()

/-! ## Completion (R413) -/

/-- Whether work of a domain is outstanding (R413, R414): table queries, copy jobs, ring operations, alighting writes, and
atomics not applied yet, those of killed contexts too (R438). -/
def domainWork (s : State) (dom : BitVec 12) : Bool :=
  let of := fun (w : Who) => decide (w.dom = dom)
  s.dies.any (fun d => d.2.wellQ.any fun q => of q.who) ||
  s.clusters.any (fun c => c.2.jobs.any (fun j => j.live && of j.who) || c.2.ringQ.any fun o => of o.who) ||
  s.agenda.any fun d => match d.arg with
    | .query r => of r.who
    | .sum r => of r.who
    | .land w _ _ _ _ => of w
    | .amo r _ => d.ev = .amoApply && of r.who
    | _ => false

/-- Whether a launch is complete (R413); no context of it is saved either. DEDUCED, log entry 55. -/
def launchIdle (s : State) (l : Launch) : Bool :=
  (l.cores.filter fun core => !clusterFenced s (clusterOf core)).all (fun core =>
    let c := getCore s core
    let d := c.deque
    ((List.range 5).all fun x => let k := getCtx s core x
      decide (k.dom ≠ l.dom) || decide (k.run = .free)) &&
    (decide ((getCtx s core 4).dom ≠ l.dom) ||
      (c.mail.isEmpty && c.inbox.isEmpty && decide (d.rCount + d.oCount = 0) && !d.resv && d.waits.isEmpty && d.carry.isNone && d.hold.isNone))) &&
  !(s.dies.any fun d => d.2.dir.any fun e => e.ctxt.dom = l.dom) &&
  !(s.agenda.any fun d => match d.arg with
    | .record core _ => d.ev = .stealReplyArrive && l.cores.contains core && decide ((getCtx s core 4).dom = l.dom)
    | _ => false) &&
  !domainWork s l.dom

/-- Whether a reduction of a domain's clusters has not been applied yet. -/
def reductionsLeft (s : State) (l : Launch) : Bool :=
  s.agenda.any fun d => match d.arg with
    | .red r => l.clusters.contains r.cluster
    | _ => false

/-- LAUNCH_COMPLETE (R413): operand the domain. Once the launch is complete its slots alight and its combining buffers are
flushed, but the slots of a bypassed die's stations alight at the origin (R386); once those values are applied, its caches are written back and emptied, ACT 2 is written to its bind records, and
the completion record. -/
def execLaunchComplete : State → Out := event .launchComplete do
  let s ← ask
  match s.arg with
  | .num d _ _ =>
    match launchOf s (BitVec.ofNat 12 d) with
    | none => pure ()
    | some l =>
      if l.phase = .finishing then do
        waitUntil (!reductionsLeft s l)
        update fun s =>
          let s := l.clusters.foldl (fun s cl => dropLines (cleanLines s cl fun _ => true) cl fun _ => true) s
          let s := l.cores.foldl (fun s core => (List.range 4).foldl (fun s x =>
            let b := bindAt s core x
            if b.v && b.dom = l.dom then sometime (writeBind s core x { b with act := 2 }) .bindRecordUnbind (.num core x 0)
            else s) s) s
          let s := writeCompletion s l (if l.kill.isSome then 1 else 0)
          let s := { s with rounds := s.rounds.filter fun r => r.dom ≠ l.dom }
          askBind (dropDone (modLaunch s l.dom fun m => { m with phase := .done }))
      else do
        waitUntil ((decide (l.phase = .running) || (decide (l.phase = .preempted) && l.kill.isSome)) && launchIdle s l)
        update fun s =>
          let s := alightIf s fun r => (r.who.any fun w => decide (w.dom = l.dom)) &&
            !(getDie s (dieOfCluster r.owner.toNat)).bypassed
          let s := l.clusters.foldl (fun s cl => flushComb s cl fun _ => true) s
          let s := modLaunch s l.dom fun m => { m with phase := .finishing }
          later s 1 .launchComplete (.num d 0 0)
  | _ => pure ()

end Sys2Proof.Machine
end

