-- ==== Sys2Proof/Machine/Contexts.lean ====
section
/-! DEFINITION. Saving, restoring and killing contexts through the slot table, and the mailbox commands PREEMPT, RESUME and
KILL (27_contexts_preemption.md R433 to R439, 28_host_network.md R446, R447, 07_vector.md R188, 14_kernel_memory.md R332). -/
namespace Sys2Proof.Machine
open Sys2Proof

/-! ## What a save needs (R431, R434, R437) -/

/-- The operation of a bind record with ACT 3 (R433). -/
def opOf (b : BindRec) : Nat := bits b.wmap 1 0
def opLocal (b : BindRec) : Bool := b.wmap.getLsbD 2
def opWsave (b : BindRec) : Bool := b.wmap.getLsbD 3
/-- An operation that is ignored: OP 0, or a reserved bit set (R433). -/
def badOp (b : BindRec) : Bool := decide (opOf b = 0) || decide (bits b.wmap 63 4 ≠ 0)

/-- The bytes of a save image. -/
def imageSize : Nat := 0x50000

/-- Whether an image may lie at a physical address (R431): aligned, in first- or second-tier memory, admitted to the
management core of the die. -/
def imageOk (s : State) (core pa : Nat) : Bool :=
  decide (pa % 65536 = 0) && (homeDie pa).isSome && served s pa && served s (pa + imageSize - 1) &&
  [Perm.read, Perm.write].all fun p =>
    admits s 2 (dieOf core) p pa (dieOf core) && admits s 2 (dieOf core) p (pa + imageSize - 1) (dieOf core)

/-- A bind record after its operation: words 2 and 3 as latched or held, ACT 0 (R433). -/
def afterOp (b : BindRec) (v : Bool) (lpb wmap : W64) : BindRec := { b with v := v, act := 0, lpb := lpb, wmap := wmap }

/-- The LPB and WMAP that a bind record has after an operation: those latched by the context that is bound, else those held in
the image (R433). -/
def wordsAfter (s : State) (core x image : Nat) : W64 × W64 :=
  let c := getCtx s core x
  if !c.bound && imageOk s core image then (memWord s (image + 16), memWord s (image + 24)) else (c.lpb, c.wmap)

/-- A bind record after an operation on an image, V as given (R433). -/
def endOp (s : State) (core x : Nat) (b : BindRec) (v : Bool) : State :=
  let w := wordsAfter s core x b.lpb.toNat
  setBind s core x (afterOp b v w.1 w.2)

/-- ERR set in an image's header (R433, R436, R437). -/
def setErr (s : State) (core pa : Nat) : State :=
  if imageOk s core pa then memPut s (pa + 8) (toBytes 8 (putBits (memWord s (pa + 8)) 61 61 1).toNat) else s

/-- Whether the engine writes into a core's buffers that its contexts issued have landed, and the matrix instructions
accepted for it have completed (R434). -/
def buffersStill (s : State) (core : Nat) : Bool :=
  let cl := getCluster s (clusterOf core)
  let from_ := fun (w : Who) => decide (w.core.toNat = core)
  !(cl.jobs.any fun j => from_ j.who && j.live && j.inward && !(j.issuing && j.flying.isEmpty && j.todo.isEmpty)) &&
  !(cl.mtx.any fun m => from_ m.who && m.accepted) &&
  !(s.dies.any fun d => d.2.wellQ.any fun q => from_ q.who) &&
  !(s.agenda.any fun d => match d.arg with
    | .remote r _ => from_ r.who && (decide (r.op = .get) || decide (r.target.toNat = core))
    | .query r => from_ r.who
    | .record n (some _) => d.ev = .stealReplyArrive && decide (n = core)
    | _ => false)

/-- The gang of a context that is to be pre-empted ends (R186, R188): the followers are freed and the leader takes cause
0x08, now or, when it is the one pre-empted, when it resumes. -/
def preemptGang (s : State) (core x : Nat) : State :=
  let c := getCtx s core x
  let val := fun (i : Nat) => at64 1 63 ||| at64 1 62 ||| at64 i 0
  let stop := fun (s : State) (l y : Nat) => (followers s l y).foldl (fun s p => modCtx s p.1 p.2 fun c =>
    { c with trapCause := 0x08, trapPc := c.pc, trapVal := c.pc.setWidth 64 }) s
  if c.run = .follower then
    let l := core - c.gangIdx.toNat
    let y := c.gangLead.toNat
    takeTrap (endGang (stop s l y) l y) l y 0x08 (val c.gangIdx.toNat) false
  else if c.gangSize ≠ 0#3 && c.gangIdx = 0#3 then
    modCtx (endGang (stop s core x) core x) core x fun c => { c with pending := c.pending ++ [(0x08, val 0)] }
  else s

/-- An instruction that has issued but still waits abandoned, to issue again on resume (R434): an acceptance, a sleep. A
waiting ACQ, REL or MSG.SENDW keeps its place, its outcome goes to the image (R434, R435); a BAR.WAIT is released by its phase
(R371). -/
def abandon (s : State) (core x : Nat) : State :=
  let s := modCtx (forgetMiss s core x) core x fun c => { c with
    waitSince := none
    await := match c.await with
      | some (.bar b) => some (.bar b)
      | _ => none }
  let back := fun (s : State) => modCtx s core x fun c => { c with run := .running }
  match (getCtx s core x).run with
  | .held (.accept n) => back (modCluster s (clusterOf core) fun c => { c with mtx := c.mtx.filter (·.id ≠ n) })
  | .held (.sleep _) => back s
  | _ => s

/-- What a pre-emption leaves in the trap registers of a context that it finds in a restartable instruction (R86); in trap mode
they stand. DEDUCED, log entry 70. -/
def notePart (c : Ctx) : Ctx :=
  if !c.midway then c
  else if c.trapMode then { c with midway := false }
  else { c with midway := false, trapCause := c.trapCause ||| 0x100, trapPc := c.pc }

/-- Whether a context owns a weight slot of its core's macro (R191, R434). -/
def ownsSlot (core x : Nat) (inst : BitVec 16) (w : WSlot) : Bool :=
  w.valid && decide (bits (w.status.setWidth 64) 15 13 = core % 8) && decide (bits (w.status.setWidth 64) 12 10 = x) &&
  decide (w.status.extractLsb' 16 16 = inst)

/-- The weight slots of a core's own macro that a context owns. -/
def ownSlots (s : State) (core x : Nat) (inst : BitVec 16) : Tab WSlot :=
  (getCluster s (clusterOf core)).slots.filter fun p => decide (p.1 / 32 = core % 8) && ownsSlot core x inst p.2

/-- A slot with a context as its owner (R437). -/
def giveSlot (core x : Nat) (inst : BitVec 16) (w : WSlot) : WSlot :=
  { w with status := (w.status &&& 0x3FF) ||| BitVec.ofNat 32 (inst.toNat * 65536 + core % 8 * 8192 + x * 1024) }

/-- Whether no reply to a register of a context is outstanding (R434): none of its registers waits for one but for work that is
re-injected, and it is not held by an instruction whose outcome it has still to be given. -/
def noReply (s : State) (core x : Nat) : Bool :=
  let c := getCtx s core x
  let mine := (takeSfu s core x).1 ++ c.replay
  !(c.locks.any fun l => l.till.isNone && !(mine.any fun r => l.reg = .v r.d)) &&
  (match c.run with
    | .held (.accept _) => true
    | .held (.sleep _) => true
    | .held _ => false
    | _ => true)

/-- Where a context's registers are parked, its core being otherwise busy (R37, R332): a bank whose context is free and that
holds no parked registers; else the three lowest withheld columns of C that hold none; none when they go to the image.
DEDUCED, log entry 56. -/
def parkPlace (s : State) (core x : Nat) : Option (Option (List Nat)) :=
  let c := getCore s core
  let others := (List.range 5).filter (· ≠ x)
  let idle := others.filter fun y => (getCtx s core y).run = .free
  if idle.length = others.length || !noReply s core x then none
  else if (c.parked.filter (·.cols.isNone)).length < idle.length then some none
  else
    let cols := ((List.range 32).filter fun i =>
      c.cfree.getLsbD i && !(c.parked.any fun p => (p.cols.getD []).contains i)).take 3
    if cols.length = 3 then some (some cols) else none

/-- Registers written into columns of C, the rest of the last one zero (R332). -/
def parkColumns (c : Core) (cols : List Nat) (bs : List Byte) : Core :=
  cols.zipIdx.foldl (fun c p => { c with
    c := bytesSet c.c (p.1 * 1024) ((bs.drop (1024 * p.2) ++ List.replicate 1024 0).take 1024)
    badC := badAfter c.badC (p.1 * 1024) 1024 }) c

/-- The bytes of a free choice, `n` of them: an opaque region of an image (R431). -/
def opaqueBytes (s : State) (k n : Nat) : List Byte := (Config.freeBytes s.tick k ++ List.replicate n 0).take n

/-- The lines of an image marked in error where a buffer's words are (R460). -/
def badImage (base : Nat) (words : List Nat) : List Nat := (words.map fun w => (base + 4 * w) / 64).eraseDups

/-- A save's image written (R431, R432, R434). -/
def writeImage (s : State) (e : Saved) : State :=
  let c := getCore s e.core
  let at_ := e.image
  let s := (savedParts s e).foldl (fun s p => memPut s (at_ + p.1) p.2) s
  let s := memPut s (at_ + 0x1000) (opaqueBytes s 1 4608 ++ List.replicate 3584 0 ++ opaqueBytes s 2 4096)
  let s := memPut s (at_ + 0x6000) (List.replicate 40960 0)
  let s := if e.wsave then memPut s (at_ + 0x30000) (opaqueBytes s 3 131072) else s
  let s := if e.held then
      let s := memPut s (at_ + 0x10000) (bytesGet c.a 0 0x10000)
      let s := memPut s (at_ + 0x20000) (spaceRead c 2 0 0x8000)
      let s := memPut s (at_ + 0x28000) (bytesGet c.s 0 0x8000)
      { s with badLines := s.badLines ++ badImage (at_ + 0x10000) c.badA ++ badImage (at_ + 0x20000) c.badC ++
          badImage (at_ + 0x28000) c.badS }
    else s
  memPut { s with tick := s.tick + 1 } at_ (wordBytes (headerWords e true false false))

/-- A save that is refused (R436): ERR is set, DONE stays 0, and the context runs on. -/
def refuseSave (s : State) (core x : Nat) (b : BindRec) : State :=
  let image := b.lpb.toNat
  let s := setErr s core image
  let s := if imageOk s core image then memPut s (image + 8) (toBytes 8 (putBits (memWord s (image + 8)) 63 63 0).toNat) else s
  let s := endOp s core x b true
  dispatch { s with cmd := match s.cmd with
    | some (.preempt l a _) => some (.preempt l a true)
    | o => o } core

/-- Steps 4 and 5 of a save (R434): the image, the directory's entry, DONE, V := 0; a full directory refuses it (R436). -/
def saveCtx (s : State) (core x : Nat) (b : BindRec) : State :=
  let die := dieOf core
  let image := b.lpb.toNat
  if 16384 ≤ (getDie s die).dir.length || !imageOk s core image then refuseSave s core x b
  else
    let place := parkPlace s core x
    let s := keepReplay (modCtx s core x notePart) core x
    let c := getCtx s core x
    let k := getCore s core
    let e : Saved :=
      { core := core, ctx := x, inst := c.inst, image := image, ctxt := c, held := opLocal b, wsave := opWsave b, barm := false,
        killed := false, parked := place.isSome, bars := [],
        slots := if opWsave b then ownSlots s core x c.inst else [],
        emptyA := if opLocal b then k.emptyA else [], emptyS := if opLocal b then k.emptyS else [] }
    let s := modDie (writeImage s e) die fun d => { d with dir := d.dir ++ [e] }
    let s := match place with
      | some cols => modCore s core fun q =>
        parkColumns { q with parked := q.parked ++ [⟨x, e.inst, cols⟩] } (cols.getD []) (regBytes c)
      | none => s
    let s := setCtx s core x { Ctx.reset with inst := c.inst }
    idleBanks (endSteals (setBind s core x (afterOp b false c.lpb c.wmap)) core) core

/-- An operation that is ignored (R433): ERR in the image, the record as before. -/
def ignoreOp (s : State) (core x : Nat) (b : BindRec) : State := endOp (setErr s core b.lpb.toNat) core x b b.v

/-- The cycles that parked registers take to move (R333), counted in `k`: 12 for a bank, at once; for columns of C one in
each of 10 cycles of the core's clock (R8) in which the C port is free, which they use as the matrix engine does. Once they have moved, `done`
follows. -/
def moveParked (ev : Instr) (core x k : Nat) (cols : Bool) (done : State → State) (s : State) : State :=
  if k = 0 && !cols then later s (after s core 12 - now s) ev (.num core x 100)
  else if 10 < k then done s
  else if !onEdge s core || portBusy (getCore s core) spC (now s) then later s 1 ev (.num core x (max 1 k))
  else
    let s := modCore s core (usePort · spC (now s))
    if k = 10 then done s else later s 1 ev (.num core x (max 1 k + 1))

/-- PREEMPT_SAVE (R434, R188): operands core and context, and the cycles that its parking has taken. What the context waits in
is abandoned as it stops, before the waits of step 4. -/
def execPreemptSave : State → Out := event .preemptSave do
  let k := match (← ask).arg with
    | .num _ _ k => k
    | _ => 0
  match ← slotArg with
  | some (core, x) => do
    let s ← ask
    let b := bindAt s core x
    if !(b.v && b.act = 3#2) then pure ()
    else if badOp b then update fun s => ignoreOp s core x b
    else if opOf b = 1 && (getCtx s core x).bound then do
      update fun s => preemptGang s core x
      update fun s => if (getCtx s core x).leaving then s else abandon s core x
      let s ← ask
      if (getCtx s core x).leaving || (opLocal b && !buffersStill s core) then
        update fun s => later s 1 .preemptSave (.num core x 0)
      else match parkPlace s core x with
        | some cols => update (moveParked .preemptSave core x k cols.isSome (saveCtx · core x b))
        | none => update fun s => saveCtx s core x b
    else pure ()
  | none => pure ()

/-! ## Restoring (R437) -/

/-- The directory's entry for an image at an address. -/
def entryAt (s : State) (core image : Nat) : Option Saved := (getDie s (dieOf core)).dir.find? (·.image = image)

/-- Whether a restore is refused (R437). -/
def restoreRefused (s : State) (core x : Nat) (b : BindRec) (e : Saved) : Bool :=
  let w0 := memWord s e.image
  let w1 := memWord s (e.image + 8)
  !w1.getLsbD 63 || w1.getLsbD 62 || decide (bits w1 55 53 ≠ x) || decide (bits w1 52 39 ≠ core) ||
  decide (e.core ≠ core) || decide (e.ctx ≠ x) || decide (w0.setWidth 32 ≠ b.ltag) ||
  (getDie s (dieOf core)).dir.any fun o => o.core = core && o.ctxt.ltag = e.ctxt.ltag && o.barm && o.image ≠ e.image

/-- Where the queue engine and arriving messages keep what is theirs in S (R27): the resident records of the deque and the
occupied rows of the mailbox. A restore leaves it as it is (DESIGN CHOICE, log entry 40). -/
def enginePlaces (c : Core) : List Nat :=
  ((List.range c.deque.rCount).map (residentAt c.deque)) ++ c.mail.map fun m => 0x6000 + 64 * m.row

/-- A local buffer taken back from an image, with the words of its lines in error (R460). -/
def imageBad (s : State) (base n : Nat) : List Nat :=
  (List.range (n / 4)).filter fun w => s.badLines.contains ((base + 4 * w) / 64)
def imageTab (s : State) (base n : Nat) : Tab Byte := bytesSet [] 0 (memRead s base n)

/-- The buffers of a core taken back from an image (R437), but for what of S is the queue engine's or a message's. -/
def restoreLocal (s : State) (e : Saved) : State :=
  let s := powerUp s e.core
  let c := getCore s e.core
  let places := enginePlaces c
  let theirs := fun (w : Nat) => places.contains (w * 4 / 64 * 64)
  setCore s e.core { c with
    a := imageTab s (e.image + 0x10000) 0x10000
    c := imageTab s (e.image + 0x20000) 0x8000
    s := places.foldl (fun t o => bytesSet t o (bytesGet c.s o 64)) (imageTab s (e.image + 0x28000) 0x8000)
    badA := imageBad s (e.image + 0x10000) 0x10000
    badC := imageBad s (e.image + 0x20000) 0x8000
    badS := (imageBad s (e.image + 0x28000) 0x8000).filter (!theirs ·) ++ c.badS.filter theirs
    emptyA := e.emptyA
    emptyS := e.emptyS.filter (!theirs ·) ++ c.emptyS.filter theirs }

/-- The columns of C that hold the parked registers of a directory's entry. -/
def parkedCols (s : State) (e : Saved) : Option (List Nat) :=
  ((getCore s e.core).parked.find? fun p => p.ctx = e.ctx && p.inst = e.inst).bind (·.cols)

/-- Whether what a restore reads holds an uncorrectable error: a line of the image's control part or registers, or a column
of C that the registers are parked in. DEDUCED, log entry 43. -/
def restoreBad (s : State) (e : Saved) : Bool :=
  ((List.range 59).any fun i => !(e.parked && decide (1 ≤ i) && decide (i < 39)) && badAt s (e.image + 64 * i)) ||
  ((parkedCols s e).getD []).any fun i => (getCore s e.core).badC.any fun w => w * 4 / 1024 = i

/-- Steps 1 to 6 of a restore (R437); an error in what it reads kills the context. -/
def restoreCtx (s : State) (core x : Nat) (b : BindRec) (e : Saved) : State :=
  let w1 := memWord s (e.image + 8)
  let lpb := memWord s (e.image + 16)
  let wmap := memWord s (e.image + 24)
  let bad := restoreBad s e
  let s := bindCore s core { b with lpb := lpb, wmap := wmap }
  let e := ((getDie s (dieOf core)).dir.find? fun o => o.image = e.image && o.inst = e.inst).getD e
  let s := modDie s (dieOf core) fun d => { d with dir := d.dir.filter fun o => !(o.image = e.image && o.inst = e.inst) }
  let c := fromImage e fun o n => memRead s (e.image + o) n
  let inst := BitVec.ofNat 16 (bits w1 38 23)
  let t := if e.parked then now s else now s + 1 + Config.latency s.tick
  let s := setCtx { s with tick := s.tick + 1 } core x { c with
    inst := inst, bound := true, trapMode := w1.getLsbD 57, nextIssue := t,
    dom := b.dom, clcount := b.clcount, rank := b.rank, ltag := b.ltag, asid := b.asid, lpb := lpb, wmap := wmap }
  let s := modCore s core fun k => { k with
    parked := k.parked.filter fun p => !(p.ctx = x && p.inst = e.inst)
    bars := e.bars.foldl (fun t p => tabPut t p.1 p.2) k.bars }
  let s := settleBars s core
  let s := if e.held then restoreLocal s e else s
  let s := modCluster s (clusterOf core) fun k => { k with
    slots := e.slots.foldl (fun t p => tabPut t p.1 (giveSlot core x inst p.2)) k.slots }
  let s := setBind s core x (afterOp b true lpb wmap)
  let s := if bad then killCtx s core x 0x0C else s
  let s := match (getCtx s core x).pending.find? (·.1 = 0x08) with
    | some p => takeTrap (modCtx s core x fun c => { c with pending := c.pending.erase p }) core x 0x08 p.2 false
    | none => s
  dispatch s core

/-- PREEMPT_RESTORE (R437): operands core and context, and the cycles that its parked registers have taken. A refused restore
leaves V = 0 and sets ERR. -/
def execPreemptRestore : State → Out := event .preemptRestore do
  let k := match (← ask).arg with
    | .num _ _ k => k
    | _ => 0
  match ← slotArg with
  | some (core, x) => do
    let s ← ask
    let b := bindAt s core x
    let refuse : M Unit := update fun s => endOp (setErr s core b.lpb.toNat) core x b false
    if !(b.v && b.act = 3#2) then pure ()
    else if badOp b then update fun s => ignoreOp s core x b
    else if opOf b = 2 then
      match entryAt s core b.lpb.toNat with
      | some e =>
        if restoreRefused s core x b e then refuse
        else if e.parked && (stillBound s core b.dom || inDomain s core b.dom) then
          update (moveParked .preemptRestore core x k (parkedCols s e).isSome (restoreCtx · core x b e))
        else update fun s => restoreCtx s core x b e
      | none => refuse
    else pure ()
  | none => pure ()

/-! ## Killing (R438, R446) -/

/-- OP 3 on an image. -/
def killImage (s : State) (core x : Nat) (b : BindRec) (e : Saved) : State :=
  endOp (killSaved s e 0x0F) core x b (getCtx s core x).bound

/-- OP 3 on the resident context: a follower's gang ends first, its leader taking the trap of a member's pre-emption (R186 has
no row for a kill; DESIGN CHOICE, log entry 83). A context that has halted is still there (R382). -/
def killResident (s : State) (core x : Nat) (b : BindRec) : State :=
  let c := getCtx s core x
  let s := setBind s core x (afterOp b true c.lpb c.wmap)
  let s := if c.run = .follower then preemptGang s core x else s
  if c.bound then killCtx s core x 0x0F else s

/-- PREEMPT_KILL (R433, R438): operands core and context; word 2 of the record names the image, or none for the context that
is resident. -/
def execPreemptKill : State → Out := event .preemptKill do
  match ← slotArg with
  | some (core, x) => do
    let s ← ask
    let b := bindAt s core x
    if !(b.v && b.act = 3#2) then pure ()
    else if badOp b then update fun s => ignoreOp s core x b
    else if opOf b = 3 then
      match entryAt s core b.lpb.toNat with
      | some e => update fun s => killImage s core x b e
      | none => update fun s => killResident s core x b
    else pure ()
  | none => pure ()

/-- Every record and message of a core's part of a launch discarded (R446). -/
def discardWork (s : State) (l : Launch) (core : Nat) : State :=
  if (coreLaunch s core).dom ≠ l.dom then s
  else
    let s := if (getCtx s core 4).run = .free then s else killCtx s core 4 0x0F
    modCore s core fun c => { c with deque := Deque.reset, steal := none, mail := [], inbox := [] }

/-- A launch killed (R446): its contexts, resident or saved, those that run before those that have halted, and its pending
work. -/
def killLaunch (s : State) (l : Launch) : State :=
  let each := fun (s : State) (p : Nat → Nat → State → Bool) =>
    l.cores.foldl (fun s core => (List.range 4).foldl (fun s x =>
      if (getCtx s core x).bound && (getCtx s core x).dom = l.dom && p core x s then killCtx s core x 0x0F else s) s) s
  let s := each s fun core x s => (getCtx s core x).run ≠ .free
  let s := (s.dies.flatMap fun d => d.2.dir.filter fun e => e.ctxt.dom = l.dom).foldl (killSaved · · 0x0F) s
  let s := l.cores.foldl (fun s core => (List.range 4).foldl (fun s x =>
    let c := getCtx s core x
    if c.bound && c.dom = l.dom then destroyBoarder s core x c.inst else s) s) s
  let s := l.cores.foldl (discardWork · l) s
  let s := modLaunch s l.dom fun m => { m with
    kept := []
    kill := match m.kill with
      | none => some (0x0F, m.clusters.headD 0 * 8, 0, 0)
      | k => k }
  { s with agenda := s.agenda.filter fun d => match d.arg with
      | .msg m _ => !((d.ev = .messageArrive || d.ev = .mailboxRowWrite) && m.who.dom = l.dom)
      | .record core _ => !(d.ev = .stealReplyArrive && l.cores.contains core && (coreLaunch s core).dom = l.dom)
      | _ => true }

/-- The launch of a tag that is bound, running, finishing or pre-empted. -/
def launchOfTag (s : State) (ltag : Nat) : Option Launch :=
  s.launches.find? fun l => l.ltag.toNat = ltag && l.phase ≠ .waiting && l.phase ≠ .done

/-- A launch killed while it waits to be bound: it completes with status 1 and has no context (R446). -/
def killWaiting (s : State) (l : Launch) : State :=
  askBind (writeCompletion { s with launches := s.launches.filter (· ≠ l) } { l with kill := some (0x0F, 0, 0, 0) } 1)

/-- KILL (R446): operand the launch tag. -/
def execKill : State → Out := command .kill 0xC022 do
  let s ← ask
  match s.arg with
  | .num tag _ _ =>
    match launchOfTag s tag, s.launches.find? fun l => l.ltag.toNat = tag && l.phase = .waiting with
    | some l, _ => update fun s => reply (killLaunch s l) 0xC022 0 0
    | none, some l => update fun s => reply (killWaiting s l) 0xC022 0 0
    | none, none => update fun s => reply s 0xC022 1 0
  | _ => update fun s => reply s 0xC022 1 0

/-! ## PREEMPT and RESUME (R447) -/

/-- The image of a context of a launch in an image area (R447). -/
def imageIn (l : Launch) (area core x : Nat) : Nat := area + imageSize * (4 * l.cores.idxOf core + x)

/-- The contexts of a launch whose bind records stand. -/
def boundSlots (s : State) (l : Launch) : List (Nat × Nat) :=
  l.cores.flatMap fun core => ((List.range 4).map fun x => (core, x)).filter fun p =>
    (bindAt s p.1 p.2).v && (bindAt s p.1 p.2).dom = l.dom

/-- A record with ACT 3 written for a context (R433). -/
def askOp (s : State) (ev : Instr) (core x image op : Nat) (b : BindRec) : State :=
  later (writeBind s core x { b with act := 3, lpb := BitVec.ofNat 64 image, wmap := BitVec.ofNat 64 op }) 1 ev (.num core x 0)

/-- Whether a steal of a launch's cores is under way: a request or a reply (R367), which may carry a record. -/
def stealsOut (s : State) (l : Launch) : Bool :=
  s.agenda.any fun d => match d.arg with
    | .num victim thief _ => d.ev = .stealRequestArrive && (l.cores.contains victim || l.cores.contains thief)
    | .record core _ => d.ev = .stealReplyArrive && l.cores.contains core
    | _ => false

/-- The end of PREEMPT: every context is saved and every mailbox idle (R439), and what the cores keep goes with the launch
(R447). -/
def preempted (s : State) (l : Launch) : State :=
  let kept : Tab Kept := l.kept.map fun k => (k.1, keepDeque (getCore s k.1) k.2)
  let s := l.cores.foldl (fun s core => idleBanks (modCore s core fun c => { c with deque := Deque.reset, steal := none }) core) s
  askBind (reply (modLaunch s l.dom fun m => { m with phase := .preempted, kept := kept }) 0xC020 0 0)

/-- The masks that a launch's cores had given back to them. -/
def giveMasks (s : State) (kept : Tab Kept) : State :=
  kept.foldl (fun s k => askHandler (modCore s k.1 fun c => { c with classMask := k.2.mask }) k.1) s

/-- PREEMPT refused in part: the cores have their class masks back (R447). -/
def preemptFailed (s : State) (l : Launch) : State :=
  reply (modLaunch (giveMasks s l.kept) l.dom fun m => { m with kept := [] }) 0xC020 3 0

/-- The class masks of a launch's cores set aside as PREEMPT begins (R439). -/
def keepMasks (s : State) (l : Launch) : Launch :=
  if l.kept.isEmpty then
    { l with kept := l.cores.foldl (fun t core => tabPut t core ⟨Deque.reset, [], [], (getCore s core).classMask⟩) [] }
  else l

/-- A PREEMPT under way (R439, R447): every class of the launch's cores is masked; once their mailboxes are idle the contexts
are asked to be saved with LOCAL and WSAVE; it ends when none is still asked to be, the mailboxes are idle and no steal is
under way, so that no record is lost (R363, R367). While a
mailbox is not idle its core's masks are lifted. -/
def preemptGoOn (s : State) (l : Launch) (area : Nat) (refused : Bool) : State :=
  let l := keepMasks s l
  let s := maskClasses (modLaunch s l.dom fun m => { m with kept := l.kept }) l.cores
  let left := boundSlots s l
  let again := fun (s : State) => sometime s .preempt .none
  if left.any fun p => (bindAt s p.1 p.2).act = 3 then again s
  else if refused then preemptFailed s l
  else if !l.cores.all (mailIdle s) then again (liftMasks s l.kept l.cores)
  else if left.isEmpty then if stealsOut s l then again s else preempted s l
  else again (left.foldl (fun s p =>
    askOp s .preemptSave p.1 p.2 (imageIn l area p.1 p.2) 0xD (bindAt s p.1 p.2)) s)

/-- PREEMPT (R446, R447): operands the launch tag and the image area. With no operand, the command goes on. -/
def execPreempt : State → Out := fun s =>
  if s.arg = .none then
    event .preempt (do
      match s.cmd with
      | some (.preempt d area refused) =>
        match launchOf s (BitVec.ofNat 12 d) with
        | some l => update fun s => preemptGoOn s l area refused
        | none => update fun s => reply s 0xC020 1 0
      | _ => pure ()) s
  else
    command .preempt 0xC020 (do
      let s ← ask
      match s.arg with
      | .num tag area _ =>
        match launchOfTag s tag with
        | some l =>
          if area % 65536 ≠ 0 then update fun s => reply s 0xC020 1 0
          else if l.phase = .running then
            update fun s => sometime { s with cmd := some (.preempt l.dom.toNat area false) } .preempt .none
          else update fun s => reply s 0xC020 3 0
        | none => update fun s => reply s 0xC020 1 0
      | _ => update fun s => reply s 0xC020 1 0) s

/-- RESUME begun (R447): the records of its old clusters written to restore every image. -/
def startResume (s : State) (l : Launch) (area : Nat) : State :=
  let s := modLaunch s l.dom fun m => { m with phase := .running }
  let s := l.cores.foldl (fun s core => (List.range 4).foldl (fun s x =>
    askOp s .preemptRestore core x (imageIn l area core x) 0xE (bindRec l (clusterOf core) 3)) s) s
  sometime s .resume .none

/-- Whether a launch's old clusters or wells are held by another (R447). -/
def oldTaken (s : State) (l : Launch) : Bool :=
  s.launches.any fun o => o.holds && o.dom ≠ l.dom &&
    (l.clusters.any o.clusters.contains || l.wells.any o.wells.contains)

/-- A RESUME under way (R439, R447): every class of its cores is masked; it begins once the mailboxes of the launch's cores are idle, and ends when every image is
restored or refused. -/
def resumeGoOn (s : State) (l : Launch) (area : Nat) : State :=
  let all := l.cores.flatMap fun core => (List.range 4).map fun x => (core, x)
  if l.phase = .preempted then
    if oldTaken s l then reply s 0xC021 3 0
    else
      let s := maskClasses s l.cores
      if l.cores.all (mailIdle s) then startResume s l area
      else sometime (l.cores.foldl (fun s core =>
      liftMasks s (((launchOf s (coreLaunch s core).dom).map (·.kept)).getD []) [core]) s) .resume .none
  else if all.any fun p => (bindAt s p.1 p.2).v && (bindAt s p.1 p.2).act = 3 then sometime s .resume .none
  else
    let ok := all.all fun p => (bindAt s p.1 p.2).v
    reply (modLaunch s l.dom fun m => { m with kept := [] }) 0xC021 (if ok then 0 else 1) 0

/-- RESUME (R446, R447): operands the launch tag and the image area. With no operand, the command goes on. -/
def execResume : State → Out := fun s =>
  if s.arg = .none then
    event .resume (do
      match s.cmd with
      | some (.resume d area) =>
        match launchOf s (BitVec.ofNat 12 d) with
        | some l => update fun s => resumeGoOn s l area
        | none => update fun s => reply s 0xC021 1 0
      | _ => pure ()) s
  else
    command .resume 0xC021 (do
      let s ← ask
      match s.arg with
      | .num tag area _ =>
        match launchOfTag s tag with
        | some l =>
          if l.phase ≠ .preempted || area % 65536 ≠ 0 then update fun s => reply s 0xC021 1 0
          else if oldTaken s l then update fun s => reply s 0xC021 3 0
          else update fun s => sometime { s with cmd := some (.resume l.dom.toNat area) } .resume .none
        | none => update fun s => reply s 0xC021 1 0
      | _ => update fun s => reply s 0xC021 1 0) s

end Sys2Proof.Machine
end

