-- ==== Sys2Proof/Machine/Control.lean ====
section
/-! DEFINITION. Branches and jumps (05_integer_control.md R137 to R142). -/
namespace Sys2Proof.Machine
open Sys2Proof

/-- The target of a branch with a signed halfword offset from its own address (R137). -/
def branchTo (pc : VA) (o : VA) : VA := pc + (o <<< 1)

/-- A conditional branch: the next PC when its condition holds (R137). -/
def branchIf (cond : W64 → W64 → Bool) (a b : BitVec 5) (o : VA) : M (Option VA) := do
  let x ← rg a
  let y ← rg b
  let c ← cur
  pure (if cond x y then some (branchTo c.pc o) else none)

/-- BEQ: taken when a = b (R63, R137). -/
def execBeq (a b : BitVec 5) (o : BitVec 12) : State → Out := branchG 4 (branchIf (· == ·) a b (o.signExtend 56))
/-- BNE: taken when a ≠ b (R63, R137). -/
def execBne (a b : BitVec 5) (o : BitVec 12) : State → Out := branchG 4 (branchIf (· != ·) a b (o.signExtend 56))
/-- BLT: taken when a < b, signed (R63, R137). -/
def execBlt (a b : BitVec 5) (o : BitVec 12) : State → Out := branchG 4 (branchIf BitVec.slt a b (o.signExtend 56))
/-- BGE: taken when a ≥ b, signed (R63, R137). -/
def execBge (a b : BitVec 5) (o : BitVec 12) : State → Out := branchG 4 (branchIf (fun x y => !x.slt y) a b (o.signExtend 56))
/-- BLTN: taken when a < b, unsigned (R63, R137). -/
def execBltn (a b : BitVec 5) (o : BitVec 12) : State → Out := branchG 4 (branchIf BitVec.ult a b (o.signExtend 56))
/-- BGEN: taken when a ≥ b, unsigned (R63, R137). -/
def execBgen (a b : BitVec 5) (o : BitVec 12) : State → Out := branchG 4 (branchIf (fun x y => !x.ult y) a b (o.signExtend 56))
/-- JAL: links the next address, then jumps (R138). -/
def execJal (d : BitVec 5) (o : BitVec 20) : State → Out := branchG 4 do
  let c ← cur
  wg d (c.pc.setWidth 64 + 4)
  pure (some (branchTo c.pc (o.signExtend 56)))
/-- JALR: an odd target traps, and nothing else happens; else it links and jumps (R139). -/
def execJalr (d a : BitVec 5) (i : BitVec 12) : State → Out := branchG 4 do
  let x ← rg a
  let t : VA := (x + sext12 i).setWidth 56
  claim (.g d)
  trapIf (t.getLsbD 0) 0x03 (t.setWidth 64)
  let c ← cur
  wg d (c.pc.setWidth 64 + 4)
  pure (some t)
/-- BEQ.H (R142). -/
def execBeqH (d a : BitVec 3) (i : BitVec 5) : State → Out := branchG 2 (branchIf (· == ·) (hreg a) (hreg d) (i.signExtend 56))
/-- BNE.H (R142). -/
def execBneH (d a : BitVec 3) (i : BitVec 5) : State → Out := branchG 2 (branchIf (· != ·) (hreg a) (hreg d) (i.signExtend 56))

end Sys2Proof.Machine
end

