-- ==== Sys2Proof/Machine/Network.lean ====
section
/-! DEFINITION. The Ultra Ethernet endpoints: peer entries and receive regions, inbound packets and their chunk flags, the
acknowledgements and failures of the package's own packets, and reductions across packages (28_host_network.md R448 to
R458). -/
namespace Sys2Proof.Machine
open Sys2Proof

/-! ## Peer entries and receive regions (R446, R450, R451) -/

/-- A peer entry that is malformed (R450): a reserved bit set, or a valid entry with a field out of range. -/
def badPeerEntry (e : BitVec 256) : Bool :=
  decide (bits (entryWord e 0) 41 24 ≠ 0) || decide (bits (entryWord e 3) 63 8 ≠ 0) ||
  ((entryWord e 0).getLsbD 63 && !goodPeer e)

/-- Whether a job uses a peer entry of a die's endpoint: that of its first byte, or one that a translated page names (R449). -/
def peerUsed (s : State) (die n : Nat) : Bool :=
  s.clusters.any fun c => dieOfCluster c.1 = die && c.2.jobs.any fun j =>
    j.live && j.peer.isSome && (j.peer = some n || (j.flying ++ j.todo).any fun p => p.ready && decide (peerOf j p.pa = n))

/-- PEER.SET (R446, R450): operands the endpoint, the entry's number and the entry. -/
def execPeerSet : State → Out := command .peerSet 0xC030 do
  let s ← ask
  match s.arg with
  | .row ep n _ e =>
    if 8 ≤ ep || 1024 ≤ n || badPeerEntry e then update fun s => reply s 0xC030 1 0
    else if peerUsed s ep n then update fun s => reply s 0xC030 3 0
    else update fun s => reply (modDie s ep fun d => { d with peers := tabPut d.peers n e }) 0xC030 0 0
  | _ => update fun s => reply s 0xC030 1 0

/-- A receive region's fields (R451). -/
def regionValid (e : BitVec 256) : Bool := (entryWord e 0).getLsbD 63
def regionAsid (e : BitVec 256) : BitVec 16 := (entryWord e 0).extractLsb' 32 16
def regionJob (e : BitVec 256) : BitVec 24 := (entryWord e 0).setWidth 24
def regionBase (e : BitVec 256) : Nat := (entryWord e 1).toNat
def regionLen (e : BitVec 256) : Nat := (entryWord e 2).toNat
def regionFlags (e : BitVec 256) : Nat := (entryWord e 3).toNat

/-- A receive region that is malformed (R451). -/
def badRegion (e : BitVec 256) : Bool :=
  let w := entryWord e 0
  decide (bits w 62 61 ≠ 0) || decide (bits w 55 48 ≠ 0) || decide (bits w 31 24 ≠ 0) ||
  (w.getLsbD 63 && (decide (bits w 60 56 < 12) || decide (20 < bits w 60 56) || decide (regionBase e % chunkSize e ≠ 0) ||
    decide (regionLen e % chunkSize e ≠ 0) || decide (regionFlags e % 8 ≠ 0)))

/-- REGION.SET (R446, R451): operands the endpoint, the region's number and the entry. -/
def execRegionSet : State → Out := command .regionSet 0xC031 do
  let s ← ask
  match s.arg with
  | .row ep n _ e =>
    if 8 ≤ ep || 256 ≤ n || badRegion e then update fun s => reply s 0xC031 1 0
    else if (getDie s ep).chunks.any fun c => c.1 = n then update fun s => reply s 0xC031 3 0
    else update fun s => reply (modDie s ep fun d => { d with regions := tabPut d.regions n e }) 0xC031 0 0
  | _ => update fun s => reply s 0xC031 1 0

/-! ## Inbound packets (R451, R453 to R456) -/

/-- The packet that answers another: an acknowledgement, a refusal, or the bytes read. -/
def answer (p : Packet) (kind : PacketKind) (data : List Byte) : Packet := { p with kind := kind, data := data }

/-- The receive region that a packet matches at its endpoint: valid, of its job and its address space, its offset within
(R451). -/
def regionFor (s : State) (p : Packet) : Option (BitVec 256) :=
  let e := tabGet 0 (getDie s p.ep).regions p.region.toNat
  if regionValid e && regionJob e = p.job && regionAsid e = p.asid && decide (p.offset + p.count ≤ regionLen e) &&
    decide (0 < p.count) then some e
  else none

/-- The region that an inbound packet of at most 4,096 bytes matches; a longer payload is not supported (R448). -/
def admitPacket (s : State) (p : Packet) : Option (BitVec 256) := if p.count ≤ 4096 then regionFor s p else none

/-- The physical address of a byte that the Ethernet engine places or serves for an address space: translated, raw, admitted
in class 4 (R428, R453, R455); or the address that a refusal reports, 0 when there is none (R461). -/
def enginePa (s : State) (die : Nat) (asid : BitVec 16) (addr : Nat) (p : Perm) : Except Nat Nat × State :=
  let va : VA := BitVec.ofNat 56 addr
  if (windowOf va).isSome then (.error 0, s)
  else match walk s asid va with
    | .fail bad => (.error 0, reportWalk (walkWakes s asid va) bad)
    | .leaf l =>
      let pa := leafPa l va
      let s := walkWakes s asid va
      (if (p = .read || leafW l.entry) && leafFmt l.entry = 0 && served s pa && admits s 4 asid.toNat p pa die then .ok pa
       else .error pa, s)

/-- The parts of a range of addresses that no page boundary cuts. -/
def pageParts : Nat → Nat → Nat → List (Nat × Nat)
  | 0, _, _ => []
  | f + 1, a, n =>
    if n = 0 then []
    else
      let k := min n (65536 - a % 65536)
      (a, k) :: pageParts f (a + k) (n - k)

/-- The physical addresses of a range, part by part, when every part is admitted; else the address that the refusal reports. -/
def engineParts (s : State) (die : Nat) (asid : BitVec 16) (p : Perm) :
    List (Nat × Nat) → Except Nat (List (Nat × Nat)) × State
  | [] => (.ok [], s)
  | (a, n) :: rest =>
    match enginePa s die asid a p with
    | (.error e, s) => (.error e, s)
    | (.ok pa, s) =>
      match engineParts s die asid p rest with
      | (.ok ps, s) => (.ok ((pa, n) :: ps), s)
      | (.error e, s) => (.error e, s)

/-- A refusal of an inbound packet, reported to the endpoint's leading management core with the physical address refused, or 0,
and returned (R454, R461). -/
def refusePacket (s : State) (p : Packet) (pa : Nat) : State :=
  let s := report s 3 4 p.ep pa 4 p.asid.toNat 0
  { s with sent := s.sent ++ [answer p (.ack true) []] }

/-- Bytes written from an address on, part by part. -/
def placeParts (s : State) : List (Nat × Nat) → List Byte → State
  | [], _ => s
  | (pa, n) :: rest, bs => placeParts (memPut s pa (bs.take n)) rest (bs.drop n)

/-- Placed ranges of a chunk with one more, merged so that each byte counts once. -/
def addRange (rs : List (Nat × Nat)) (a n : Nat) : List (Nat × Nat) :=
  let touch := fun (r : Nat × Nat) => decide (r.1 ≤ a + n) && decide (a ≤ r.1 + r.2)
  let near := rs.filter touch
  let lo := near.foldl (fun m r => min m r.1) a
  let hi := near.foldl (fun m r => max m (r.1 + r.2)) (a + n)
  (lo, hi - lo) :: rs.filter fun r => !touch r

/-- Whether a job waits for the result of a chunk of a group's job and region (R450, R457). -/
def awaits (s : State) (die rn : Nat) (job : BitVec 24) (chunk : Nat) (j : Job) : Bool :=
  j.live && j.chunks.contains chunk && j.peer.any fun n =>
    let e := peerEntry s die n
    isGroupPeer e && decide ((entryWord e 0).setWidth 24 = job) && decide (bits (entryWord e 3) 7 0 = rn)

/-- The job of a die's clusters that has waited longest for a group's result of a chunk has it (R457). -/
def giveResult (s : State) (die rn : Nat) (job : BitVec 24) (chunk : Nat) : State :=
  let jobs := s.clusters.flatMap fun c =>
    if dieOfCluster c.1 = die then (c.2.jobs.filter (awaits s die rn job chunk)).map fun j => (c.1, j.seq) else []
  match jobs.foldl (fun (b : Option (Nat × Nat)) j => match b with
      | none => some j
      | some o => if j.2 < o.2 then some j else some o) none with
  | some (cl, seq) => finishJob (modJob s cl seq fun j => { j with chunks := j.chunks.erase chunk }) cl seq
  | none => s

/-- A chunk whose every byte is placed: its count is reset, its flag is incremented at its home engine (R453), and the job that
waits for the chunk has its result; or, when the flag cannot be reached, the address that the packet's refusal reports (DESIGN
CHOICE, log entry 48). -/
def chunkDone (s : State) (ep : Nat) (e : BitVec 256) (rn : Nat) (job : BitVec 24) (chunk : Nat) : Except Nat Unit × State :=
  let s := modDie s ep fun d => { d with chunks := d.chunks.filter fun c => !(c.1 = rn && c.2.1 = chunk) }
  let asid := regionAsid e
  match enginePa s ep asid (regionFlags e + 8 * chunk) .sync with
  | (.ok pa, s) =>
    if (homeDie pa).isNone then (.error pa, s)
    else if badAt s pa then (.error pa, report s 2 7 ((homeDie pa).getD 0) (pa / 64 * 64) 4 asid.toNat 0)
    else (.ok (), giveResult (memWrite s pa (toBytes 8 (memWord s pa + 1).toNat)) ep rn job chunk)
  | (.error a, s) => (.error a, s)

/-- The distinct placed bytes of a chunk counted, and the chunk ended when they are all there. -/
def countChunk (s : State) (ep : Nat) (e : BitVec 256) (rn : Nat) (job : BitVec 24) (chunk a n : Nat) : Except Nat Unit × State :=
  let d := getDie s ep
  let old := ((d.chunks.find? fun c => c.1 = rn && c.2.1 = chunk).map (·.2.2)).getD []
  let new := addRange old a n
  let s := modDie s ep fun d => { d with
    chunks := (rn, chunk, new) :: d.chunks.filter fun c => !(c.1 = rn && c.2.1 = chunk) }
  if (new.map (·.2)).sum = chunkSize e then chunkDone s ep e rn job chunk else (.ok (), s)

/-- The chunks that a range of offsets touches, each with its part. -/
def chunkParts (size : Nat) : Nat → Nat → Nat → List (Nat × Nat × Nat)
  | 0, _, _ => []
  | f + 1, a, n =>
    if n = 0 then []
    else
      let k := min n (size - a % size)
      (a / size, a, k) :: chunkParts size f (a + k) (n - k)

/-- Bytes placed at an offset of a receive region, bypassing every cluster cache, with their chunks' flags (R453); the address to
report when they are refused, and nothing is placed, or when a flag is. -/
def placeBytes (s : State) (ep : Nat) (e : BitVec 256) (rn : Nat) (job : BitVec 24) (offset : Nat) (data : List Byte) :
    Except Nat Unit × State :=
  match engineParts s ep (regionAsid e) .write (pageParts (data.length / 65536 + 2) (regionBase e + offset) data.length) with
  | (.error a, s) => (.error a, s)
  | (.ok ps, s) =>
    (chunkParts (max 1 (chunkSize e)) (data.length / 4096 + 2) offset data.length).foldl (fun r c =>
      match countChunk r.2 ep e rn job c.1 c.2.1 c.2.2 with
      | (.ok _, s) => (r.1, s)
      | (.error a, s) => (.error a, s)) (.ok (), placeParts s ps data)

/-- A packet acknowledged. -/
def ackPacket (s : State) (p : Packet) : State := { s with sent := s.sent ++ [answer p (.ack false) []] }

/-- What tells a packet from another, and is the same in its retransmissions (R448). -/
def Packet.ident (p : Packet) : BitVec 24 × Nat × Nat := (p.job, p.peer, p.seq)

/-- A packet that writes taken by its endpoint: one that it has placed before is acknowledged again and no more (R448); another is
placed in memory and acknowledged, or refused (R451, R453). -/
def receivePacket (s : State) (p : Packet) : State :=
  if (getDie s p.ep).heard.contains p.ident then ackPacket s p
  else match admitPacket s p with
    | none => refusePacket s p 0
    | some e =>
      match placeBytes s p.ep e p.region.toNat p.job p.offset (p.data.take p.count) with
      | (.ok _, s) => ackPacket (modDie s p.ep fun d => { d with heard := p.ident :: d.heard }) p
      | (.error a, s) => refusePacket s p a

/-- The endpoint of a die used by a packet that comes in (R324). -/
def heardAt (s : State) (ep : Nat) : State := useKey s (endpointKey ep) 0

/-- PACKET_RECEIVE (R453): operand a packet that writes, or a group's result. DEDUCED, log entry 48. -/
def execPacketReceive : State → Out := event .packetReceive do
  let s ← ask
  match s.arg with
  | .packet p _ => do
    if p.ep < 8 then pure () else throw (.fault .noSuchPart)
    if endpointUp s p.ep then update fun s => receivePacket (heardAt s p.ep) p else pure ()
  | _ => pure ()

/-- The lines of memory that a range of physical addresses touches. -/
def partLines (q : Nat × Nat) : List Nat := (List.range ((q.1 + q.2 - 1) / 64 + 1 - q.1 / 64)).map fun i => q.1 / 64 * 64 + 64 * i

/-- A remote read served from its region (R453): the bytes as memory holds them, their channels woken (R465); a line in error is
refused and reported. -/
def serveRead (s : State) (p : Packet) : State :=
  match admitPacket s p with
  | none => refusePacket s p 0
  | some e =>
    let asid := regionAsid e
    match engineParts s p.ep asid .read (pageParts (p.count / 65536 + 2) (regionBase e + p.offset) p.count) with
    | (.error a, s) => refusePacket s p a
    | (.ok ps, s) =>
      let lines := ps.flatMap partLines
      let s := lines.foldl wake s
      match lines.find? (badAt s) with
      | some a => refusePacket (report s 2 1 (channelUnit s a) a 4 asid.toNat 0) p a
      | none => { s with sent := s.sent ++ [answer p .readReply (ps.flatMap fun q => memRead s q.1 q.2)] }

/-- PEER_READ_REQUEST (R453): operand the packet. -/
def execPeerReadRequest : State → Out := event .peerReadRequest do
  let s ← ask
  match s.arg with
  | .packet p _ => do
    if p.ep < 8 then pure () else throw (.fault .noSuchPart)
    if endpointUp s p.ep then update fun s => serveRead (heardAt s p.ep) p else pure ()
  | _ => pure ()

/-! ## The package's own packets (R452, R454) -/

/-- A packet of a job acknowledged, answered or refused (R454): its bytes count, those of an answer as they land, from this cycle on
(R322); a refusal stops the job with ERR 2. -/
def acknowledge (s : State) (p : Packet) (refused : Bool) : State :=
  match jobOf s p.cluster p.jobId with
  | none => s
  | some j =>
    match pieceOf s j p with
    | none => s
    | some q =>
      if refused then
        stopJob (modJob s p.cluster j.seq fun j => { j with flying := j.flying.erase q }) p.cluster j.seq 2 q.va
      else if j.inward then later s 0 .copyPieceLand (.packet p false)
      else countPiece s p.cluster j.seq q

/-- PACKET_ACK (R453, R454): operands the packet, with the bytes when it was a read, and whether it was refused. -/
def execPacketAck : State → Out := event .packetAck do
  let s ← ask
  match s.arg with
  | .packet p refused => update fun s => acknowledge (heardAt s p.ep) p refused
  | _ => pure ()

/-- Whether a packet has been on its way for the 2^26 cycles that its retries take at least (R454). -/
def triedLong (s : State) (p : Packet) : Bool := (sentFor s p).all fun q => decide (q.sentAt + 67108864 ≤ now s)

/-- TRANSPORT_FAILURE (R454): operand the packet. -/
def execTransportFailure : State → Out := event .transportFailure do
  let s ← ask
  match s.arg with
  | .packet p _ =>
    match (jobOf s p.cluster p.jobId).bind fun j => (pieceOf s j p).map fun q => (j, q) with
    | some (j, q) => update fun s => if j.live && triedLong s p then transportLost s p.cluster j.seq q.va else s
    | none => pure ()
  | _ => pure ()

/-- PACKET_RETRANSMIT (R452, R454): operand an unacknowledged packet, sent again as it was, its entropy kept. -/
def execPacketRetransmit : State → Out := event .packetRetransmit do
  let s ← ask
  match s.arg with
  | .packet p _ =>
    if s.sent.contains p && ((jobOf s p.cluster p.jobId).any fun j => j.live && (pieceOf s j p).isSome) then
      update fun s => { s with sent := s.sent ++ [p] }
    else pure ()
  | _ => pure ()

/-! ## Reductions across packages (R457, R458) -/

/-- The contributions of a chunk folded in member-rank order (R457). -/
def foldGroup (j : Job) : List (List Byte) → List Byte
  | [] => []
  | c :: cs => cs.foldl (fun r x => (redCombine j r x).1) c

/-- The rerun of a lost chunk (R458): the member's own contribution, read again while its job lives, goes to every other
member, each packet with a number of its own (R448); the fold and the chunk's flag are placed at its own region. -/
def rerun (s : State) (p : Packet) (contribs : List (List Byte)) : State :=
  match jobOf s p.cluster p.jobId with
  | none => s
  | some j =>
    let e := peerEntry s p.ep p.peer
    let rank := bits (entryWord e 0) 55 49
    let members := bits (entryWord e 0) 48 42
    let q := Piece.of p.piece p.count 0 0 0
    let own := if j.live then localData s j q else contribs.getD rank []
    let packets := (List.range ((p.count + 4095) / 4096)).map fun k => { p with
      kind := .reduce, offset := p.offset + 4096 * k, data := (own.drop (4096 * k)).take 4096
      count := min 4096 (p.count - 4096 * k), piece := p.piece + 4096 * k,
      entropy := entropyOf j.ox4 (chunkSize e) (p.piece + 4096 * k), asid := j.who.asid
      rop := j.ox2.extractLsb' 11 2, rtype := j.ox2.extractLsb' 9 2, sentAt := now s }
    let copies := (List.range (members - 1)).flatMap fun _ => packets
    let s := useKey s (endpointKey p.ep) 0
    let s := { s with
      nextId := s.nextId + copies.length
      sent := s.sent ++ copies.zipIdx.map fun q => { q.1 with seq := s.nextId + q.2 } }
    match regionFor s p with
    | none => refusePacket s p 0
    | some r =>
      match placeBytes s p.ep r p.region.toNat p.job p.offset (foldGroup j ((contribs.take members).set rank own)) with
      | (.ok _, s) => s
      | (.error a, s) => refusePacket s p a

/-- CHUNK_LOST (R458): operands the chunk, as a packet of the member's job, and the contributions of the members in rank
order as they have arrived. -/
def execChunkLost : State → Out := event .chunkLost do
  let s ← ask
  match s.arg with
  | .lost p contribs => do
    if p.ep < 8 then pure () else throw (.fault .noSuchPart)
    if endpointUp s p.ep then update fun s => rerun s p contribs else pure ()
  | _ => pure ()

/-! ## Links (R462) -/

/-- ENDPOINT_LINK_DOWN (R462): operand the die. The link that stays down for 2^32 cycles has its endpoint fenced: the end of
that time is a FUNCTION_FENCE that names the die alone. -/
def execEndpointLinkDown : State → Out := event .endpointLinkDown do
  let s ← ask
  match s.arg with
  | .num die _ _ => do
    if die < 8 then pure () else throw (.fault .noSuchPart)
    update fun s =>
      if (getDie s die).linkUp then
        later (modDie s die fun d => { d with linkUp := false, linkDown := some (now s) }) 4294967296
          .functionFence (.num die 0 0)
      else s
  | _ => pure ()

/-- ENDPOINT_LINK_UP (R462): operand the die. The count ends. -/
def execEndpointLinkUp : State → Out := event .endpointLinkUp do
  let s ← ask
  match s.arg with
  | .num die _ _ => do
    if die < 8 then pure () else throw (.fault .noSuchPart)
    update fun s =>
      { modDie s die fun d => { d with linkUp := true, linkDown := none } with
        agenda := s.agenda.filter fun d => !(d.ev = .functionFence && d.arg = .num die 0 0) }
  | _ => pure ()

end Sys2Proof.Machine
end

