-- ==== Sys2Proof/Machine/Trust.lean ====
section
/-! DEFINITION. SHA-256 (FIPS 180-4) and RSASSA-PKCS1-v1_5 (RFC 8017), which 29_faults_repairs.md R467 names, the checks of a
firmware image (R467), and the signatures of attestation (00_scope.md R16, R470). -/
namespace Sys2Proof.Machine
open Sys2Proof

/-! ## SHA-256 -/

/-- The 64 round constants. -/
def shaConsts : List (BitVec 32) :=
  [0x428a2f98, 0x71374491, 0xb5c0fbcf, 0xe9b5dba5, 0x3956c25b, 0x59f111f1, 0x923f82a4, 0xab1c5ed5] ++
  [0xd807aa98, 0x12835b01, 0x243185be, 0x550c7dc3, 0x72be5d74, 0x80deb1fe, 0x9bdc06a7, 0xc19bf174] ++
  [0xe49b69c1, 0xefbe4786, 0x0fc19dc6, 0x240ca1cc, 0x2de92c6f, 0x4a7484aa, 0x5cb0a9dc, 0x76f988da] ++
  [0x983e5152, 0xa831c66d, 0xb00327c8, 0xbf597fc7, 0xc6e00bf3, 0xd5a79147, 0x06ca6351, 0x14292967] ++
  [0x27b70a85, 0x2e1b2138, 0x4d2c6dfc, 0x53380d13, 0x650a7354, 0x766a0abb, 0x81c2c92e, 0x92722c85] ++
  [0xa2bfe8a1, 0xa81a664b, 0xc24b8b70, 0xc76c51a3, 0xd192e819, 0xd6990624, 0xf40e3585, 0x106aa070] ++
  [0x19a4c116, 0x1e376c08, 0x2748774c, 0x34b0bcb5, 0x391c0cb3, 0x4ed8aa4a, 0x5b9cca4f, 0x682e6ff3] ++
  [0x748f82ee, 0x78a5636f, 0x84c87814, 0x8cc70208, 0x90befffa, 0xa4506ceb, 0xbef9a3f7, 0xc67178f2]

/-- The initial hash value. -/
def shaInit : List (BitVec 32) :=
  [0x6a09e667, 0xbb67ae85, 0x3c6ef372, 0xa54ff53a, 0x510e527f, 0x9b05688c, 0x1f83d9ab, 0x5be0cd19]

/-- The message schedule extended by one word, the newest first. -/
def shaExtend (w : List (BitVec 32)) : List (BitVec 32) :=
  let x := nth 0 w 1
  let y := nth 0 w 14
  let s1 := x.rotateRight 17 ^^^ x.rotateRight 19 ^^^ (x >>> 10)
  let s0 := y.rotateRight 7 ^^^ y.rotateRight 18 ^^^ (y >>> 3)
  (s1 + nth 0 w 6 + s0 + nth 0 w 15) :: w

/-- The message schedule of a block of 64 bytes. -/
def shaSchedule (block : List Byte) : List (BitVec 32) :=
  let first := (chunks 4 16 block).map fun b => BitVec.ofNat 32 (natOfBE b)
  ((List.range 48).foldl (fun w _ => shaExtend w) first.reverse).reverse

/-- One round on the eight working words. -/
def shaRound (v : List (BitVec 32)) (k : BitVec 32 × BitVec 32) : List (BitVec 32) :=
  match v with
  | [a, b, c, d, e, f, g, h] =>
    let s1 := e.rotateRight 6 ^^^ e.rotateRight 11 ^^^ e.rotateRight 25
    let t1 := h + s1 + ((e &&& f) ^^^ (~~~ e &&& g)) + k.1 + k.2
    let s0 := a.rotateRight 2 ^^^ a.rotateRight 13 ^^^ a.rotateRight 22
    let t2 := s0 + ((a &&& b) ^^^ (a &&& c) ^^^ (b &&& c))
    [t1 + t2, a, b, c, d + t1, e, f, g]
  | _ => v

/-- The hash value after a block. -/
def shaBlock (h : List (BitVec 32)) (block : List Byte) : List (BitVec 32) :=
  List.zipWith (· + ·) h ((shaConsts.zip (shaSchedule block)).foldl shaRound h)

/-- SHA-256 of a message (R467; FIPS 180-4; PRESUMED, log entry 59). -/
def sha256 (m : List Byte) : List Byte :=
  let pad := (119 - m.length % 64) % 64
  let msg := m ++ [0x80] ++ List.replicate pad 0 ++ (toBytes 8 (8 * m.length)).reverse
  ((chunks 64 (msg.length / 64) msg).foldl shaBlock shaInit).flatMap fun w => (toBytes 4 w.toNat).reverse

/-! ## RSASSA-PKCS1-v1_5 with a 3,072-bit modulus -/

/-- x^65537 mod n. -/
def rsaPublic (x n : Nat) : Nat := ((List.range 16).foldl (fun y _ => y * y % n) (x % n)) * x % n

/-- The encoded message of a SHA-256 digest, 384 bytes. -/
def pkcsEncode (digest : List Byte) : List Byte :=
  [0x00, 0x01] ++ List.replicate 330 0xFF ++ [0x00] ++
  [0x30, 0x31, 0x30, 0x0d, 0x06, 0x09, 0x60, 0x86, 0x48, 0x01, 0x65, 0x03, 0x04, 0x02, 0x01, 0x05, 0x00, 0x04, 0x20] ++ digest

/-- Whether a signature verifies over a digest under a modulus and the exponent 65,537. -/
def rsaVerify (n sig : List Byte) (digest : List Byte) : Bool :=
  let m := natOfBE n
  decide (0 < m) && decide (natOfBE sig < m) && decide (rsaPublic (natOfBE sig) m = natOfBE (pkcsEncode digest))

/-- A number as `n` bytes, the most significant first. -/
def bytesBE (n x : Nat) : List Byte := (toBytes n x).reverse

/-- The signature of a digest under a modulus and a private exponent (R16; RFC 8017; PRESUMED, log entry 59). -/
def rsaSign (n : List Byte) (e : Nat) (digest : List Byte) : List Byte :=
  bytesBE 384 (natOfBE (pkcsEncode digest) ^ e % natOfBE n)

/-- The bytes of a text. -/
def textBytes (t : String) : List Byte := t.toList.map fun c => BitVec.ofNat 8 c.toNat

/-- The digest that an answer of SPDM 1.2 signs: of its fixed prefix, of the signature's context and of the transcript's
digest. PRESUMED, log entry 50. -/
def spdmDigest (context : String) (transcript : List Byte) : List Byte :=
  let prefix_ := (List.replicate 4 (textBytes "dmtf-spdm-v1.2.*")).flatten
  let what := textBytes context
  sha256 (prefix_ ++ List.replicate (36 - what.length) 0 ++ what ++ sha256 transcript)

/-- The identity key's signature of a transcript (R16, R470). -/
def identitySign (context : String) (transcript : List Byte) : List Byte :=
  rsaSign Config.identityMod Config.identityExp (spdmDigest context transcript)

/-! ## The firmware image (R467) -/

/-- `n` bytes of an image at an offset. -/
def imagePart (img : List Byte) (o n : Nat) : List Byte := (img.drop o).take n
def imageSvn (img : List Byte) : Nat := natOf (imagePart img 4 4)
def imageLen (img : List Byte) : Nat := natOf (imagePart img 8 8)
def imageDigest (img : List Byte) : List Byte := imagePart img 0x10 32

/-- The checks of R467 against a key hash and a minimum security version (RFC 8017; PRESUMED, log entry 59). -/
def imageVerifies (key : List Byte) (minSvn : Nat) (img : List Byte) : Bool :=
  let len := imageLen img
  decide (natOf (imagePart img 0 4) = 0x4B5A5346) && decide (0x340 ≤ len) && decide (len ≤ img.length) &&
  decide (sha256 (imagePart img 0x1B0 388) = key) && decide (natOfBE (imagePart img 0x330 4) = 65537) &&
  decide (sha256 (imagePart img 0 16 ++ List.replicate 416 0 ++ imagePart img 0x1B0 (len - 0x1B0)) = imageDigest img) &&
  rsaVerify (imagePart img 0x1B0 384) (imagePart img 0x30 384) (imageDigest img) &&
  decide (minSvn ≤ imageSvn img)

end Sys2Proof.Machine
end

