-- ==== Sys2Proof/Machine/Faults.lean ====
section
/-! DEFINITION. Reset, power and temperature, scrubbing, fencing, retirement and self-refresh (00_scope.md R7, R18,
29_faults_repairs.md R459 to R473). -/
namespace Sys2Proof.Machine
open Sys2Proof

/-! ## Reset and recovery mode (R7, R467 to R469) -/

/-- The events that come from outside the package: they stay on the agenda when its state is lost. -/
def isInput (i : Instr) : Bool :=
  [.packageReset, .powerWindow, .thermalThrottle, .thermalTrip, .linkTraining, .hdmDecoderSet, .hostMemWrite, .hostMemRead,
   .hostSnoop, .eventLogClear, .doeDiscovery, .fwLoad, .getVersion, .getCapabilities, .negotiateAlgorithms, .getDigests,
   .getCertificate, .challenge, .getMeasurements, .boardReg, .boardUnreg, .asroot, .inval, .preempt, .resume, .kill, .peerSet,
   .regionSet, .patrolScrub, .accessTableWrite, .accessTableLock, .packetReceive, .peerReadRequest, .endpointLinkDown, .endpointLinkUp,
   .functionFence].contains i

/-- Whether an entry of the agenda is an input at a cycle: PREEMPT and RESUME without an operand are a command that goes on,
and a fence that is due already, or that a link's time down brings about, is the package's own. -/
def Due.input (t : Nat) (d : Due) : Bool :=
  isInput d.ev && !((d.ev = .preempt || d.ev = .resume) && d.arg = .none) &&
  !(d.ev = .functionFence && (decide (d.at_ ≤ t) || (match d.arg with | .func _ _ => false | _ => true)))

/-- The inputs still to come, but for the end of a power window, their times counted from a cycle. -/
def inputsLeft (s : State) (t : Nat) : List Due :=
  (s.agenda.filter fun d => d.input t && d.ev ≠ .powerWindow).map fun d => { d with at_ := d.at_ - t }

/-- The bytes of host memory (R417), which a reset of the package does not touch. -/
def hostCells (t : List Host.Cell) : List Host.Cell := t.filter fun c => decide (0x800000000000 ≤ c.1)

/-- The package after its reset is released (R7, R467 to R469): CYC is zero, the mask ROM verifies the flash image, whose
higher security version raises the fused minimum at its first successful boot; the package is in recovery mode when the image
does not verify, or its flash meets an uncorrectable error (R459). Flash, the fused minimum and the channel-geometry version
last over a reset. DEDUCED, log entry 49. -/
def resetPackage (s : State) : State :=
  let ok := imageVerifies Config.keyHash s.minSvn s.flash && !s.flashBad
  { State.reset with
    tick := s.tick
    nextId := s.nextId
    mem := hostCells s.mem
    badLines := s.badLines.filter fun l => decide (0x20000000000 ≤ l)
    geo := s.geo
    flash := s.flash
    flashBad := s.flashBad
    minSvn := if ok then max s.minSvn (imageSvn s.flash) else s.minSvn
    running := if ok then s.flash else []
    recovery := !ok
    agenda := State.reset.agenda ++ inputsLeft s (now s) }

/-- PACKAGE_RESET (R7). -/
def execPackageReset : State → Out := event .packageReset (update resetPackage)

/-- Recovery mode (R469): no compute die runs. Memory, the flash, the log, the clocks with the power windows behind them (R472),
the fenced functions (R462) and the limits that are locked (R471) stay. -/
def enterRecovery (s : State) : State :=
  { State.reset with
    cyc := s.cyc
    tick := s.tick
    nextId := s.nextId
    dies := s.dies.map fun d => (d.1, { Die.reset with
      chans := d.2.chans, fencedCh := d.2.fencedCh, wellOff := d.2.wellOff, fenced := d.2.fenced, bypassed := d.2.bypassed
      epFenced := d.2.epFenced, epLimit := d.2.epLimit, clock := d.2.clock, hot := d.2.hot, linkUp := d.2.linkUp
      linkDown := d.2.linkDown, badRows := d.2.badRows, engineBad := d.2.engineBad, dispBad := d.2.dispBad, wells := d.2.wells })
    clusters := (s.clusters.filter fun c => c.2.fenced).map fun c => (c.1, { Cluster.reset with fenced := true })
    mem := s.mem
    badLines := s.badLines
    access := s.access
    locked := s.locked
    geo := s.geo
    flash := s.flash
    flashBad := s.flashBad
    minSvn := s.minSvn
    running := s.running
    lanesOff := s.lanesOff ||| s.laneDue
    badCount := s.badCount
    winUnder := s.winUnder
    cxlLimit := s.cxlLimit
    link := s.link
    features := s.features
    doe := s.doe
    spdmA := s.spdmA
    spdmB := s.spdmB
    spdmL := s.spdmL
    mailbox := s.mailbox
    msix := s.msix
    sent := s.sent
    log := s.log
    recovery := true
    agenda := s.agenda.filter fun d => d.input (now s) || d.ev = .functionFence }

/-! ## Power and temperature (R8, R472, R473) -/

/-- A die's clusters at another clock (R472), the step logged with KIND 6; a copy job in flight is not unloaded once its
cluster is throttled (R324). -/
def clockStep (s : State) (die f : Nat) : State :=
  if (getDie s die).clock = f then s
  else
    let s := report (modDie s die fun d => { d with clock := f }) 6 5 die 0 0 0 0
    { s with clusters := s.clusters.map fun c =>
        if dieOfCluster c.1 = die && f ≠ 2400 then
          (c.1, { c.2 with jobs := c.2.jobs.map fun j => if j.live then { j with loaded := true } else j })
        else c }

/-- The clock of a die's clusters after a window (R472, R473): one step of 100 MHz down, no lower than 400 MHz, or up, no
higher than 2,400 MHz. A hot die's fall by one step each window. DEDUCED, log entry 79. -/
def clockAfter (d : Die) (ended up : Bool) : Nat :=
  if ended || d.hot then max 400 (d.clock - 100)
  else if up then min 2400 (d.clock + 100)
  else d.clock

/-- POWER_WINDOW (R472): a window of 24,000 cycles ends; its power is a free value. -/
def execPowerWindow : State → Out := event .powerWindow (update fun s =>
  let w := Config.modulePower s.tick
  let under := if w < 2850 then s.winUnder + 1 else 0
  let up := decide (10 ≤ under)
  let s := { s with tick := s.tick + 1, winUnder := if up then 0 else under }
  let s := (List.range 8).foldl (fun s d => clockStep s d (clockAfter (getDie s d) (decide (3000 < w)) up)) s
  later s 24000 .powerWindow .none)

/-- Every compute die without power, the link down, and the package held in reset until the host resets it (R473). -/
def thermalTrip (s : State) : State := { s with poweredOff := true, link := 0 }

/-- THERMAL_THROTTLE (R473): operands the die and its junction temperature. From 105 °C on the die is hot, until it is below
100 °C; at 115 °C the package trips. -/
def execThermalThrottle : State → Out := event .thermalThrottle do
  let s ← ask
  match s.arg with
  | .num die temp _ => do
    if die < 8 then pure () else throw (.fault .noSuchPart)
    update fun s =>
      let s := modDie s die fun d => { d with hot := decide (105 ≤ temp) || (d.hot && decide (100 ≤ temp)) }
      if 115 ≤ temp then thermalTrip s else s
  | _ => pure ()

/-- THERMAL_TRIP (R473): operand the die that reached 115 °C. -/
def execThermalTrip : State → Out := event .thermalTrip do
  let s ← ask
  match s.arg with
  | .num die _ _ => do
    if die < 8 then pure () else throw (.fault .noSuchPart)
    update thermalTrip
  | _ => pure ()

/-! ## Scrubbing (R459, R460) -/

/-- A line of memory read by the scrub: an error that stands is met again and reported. -/
def scrubLine (s : State) (pa : Nat) : State :=
  if badAt s pa then report s 2 1 (channelUnit s pa) (pa / 64 * 64) 2 0 0 else s

/-- A row of a well read by the scrub. -/
def scrubRow (s : State) (die row : Nat) : State :=
  if (getDie s die).badRows.contains row then report s 2 2 (die * 2048 + row / 512) 0 2 die 0 else s

/-- Whether an address is one of the package's own memory. -/
def inMemory (pa : Nat) : Bool := (homeDie pa).isSome

/-- An uncorrectable error strikes inside a core (R459): in word `n` of A, C or S (1 to 3), which later accesses meet; in the
registers of context `n` (0), which is killed with 0x0C; in its parked registers (4), likewise; in a weight slot (5), `n` its
macro × 32 + slot, which its parity meets, in the background within 2^22 cycles (R208); in the synchronisation engine's SRAM
where it holds the line `n` (6), which later accesses of the line meet (R476); in the flash (7), which the next boot meets
(R469); in the bind record of context `n` (10) or in the rest of the die's dispatch SRAM (11), which dispatch meets. -/
def strike (s : State) (store core n : Nat) : State :=
  if store = 5 then
    let s := modCluster s (clusterOf core) fun c => { c with
      slots := tabPut c.slots (n % 256) { tabGet WSlot.reset c.slots (n % 256) with bad := true } }
    later { s with tick := s.tick + 1 } (1 + Config.latency s.tick % 4194303) .slotParityCheck
      (.flag (clusterOf core) (n % 256) false)
  else if store = 6 then
    match homeDie (64 * n) with
    | some d => modDie { s with badLines := s.badLines ++ [n] } d fun d => { d with engineBad := d.engineBad ++ [n] }
    | none => s
  else if store = 7 then { s with flashBad := true }
  else if store = 10 || store = 11 then modDie s (dieOf core) fun d => { d with
    dispBad := d.dispBad ++ [if store = 10 then recIndex core (n % 4) else 8192] }
  else if store = 0 then
    if n < 5 && (getCtx s core n).run ≠ .free then killCtx (report s 2 0 (clusterOf core) 0 0 0 core) core n 0x0C else s
  else if store = 4 then
    match (getDie s (dieOf core)).dir.find? fun e => e.core = core && e.ctx = n && e.parked with
    | some e => killSaved (report s 2 0 (clusterOf core) 0 0 0 core) e 0x0C
    | none => s
  else modCore s core fun c =>
    if store = 1 then { c with badA := c.badA ++ [n % 16384] }
    else if store = 2 then { c with badC := c.badC ++ [n % 8192] }
    else { c with badS := c.badS ++ [n % 8192] }

/-- An error of one bit corrected on the access that meets it, and counted in the log (R459): its store is `store` of
`strike`, a line `n` of a cluster's data cache (8) or a slot `n` of the ring (9). A weight slot has parity alone. -/
def corrected (s : State) (store core n : Nat) : State :=
  if store = 5 then s
  else if store = 6 then
    match homeDie (64 * n) with
    | some d => report s 1 7 d (64 * n) 2 d 0
    | none => s
  else if store = 7 then report s 1 5 0 0 2 0 0
  else if store = 8 then report s 1 6 (clusterOf core) (64 * n) 0 0 core
  else if store = 9 then report s 1 3 (n / 4096) 0 2 0 0
  else if store = 10 || store = 11 then report s 1 5 (dieOf core) 0 2 (dieOf core) 0
  else report s 1 0 (clusterOf core) 0 0 0 core

/-- The patrol's next read of a line or a row, within the 2^38 cycles in which it reads every one (R459). -/
def scrubSoon (s : State) (a : EvArg) : State :=
  later { s with tick := s.tick + 1 } (1 + Config.latency s.tick % 274877906943) .patrolScrub a

/-- A row of a well in error. -/
def badRow (s : State) (die row : Nat) : State := modDie s die fun d => { d with badRows := d.badRows ++ [row] }

/-- PATROL_SCRUB (R459): operand an address of a line, which is read; as a flag, an error struck the line before, of one bit,
which is corrected and counted, or more; with 1, the error has only struck, and an access or the patrol meets it. As a row, the
same of a well's row: die, row, and 1 for corrected, 2 for more, 3 for one that has only struck. As a word, the core, the place
and the store in which an error strikes, or, from 16 on, is corrected (DESIGN CHOICE, log entry 51). -/
def execPatrolScrub : State → Out := event .patrolScrub do
  let s ← ask
  match s.arg with
  | .num pa _ _ => do
    if inMemory pa then pure () else throw (.fault .noSuchPart)
    update fun s => scrubLine s pa
  | .flag pa k bad => do
    if inMemory pa then pure () else throw (.fault .noSuchPart)
    update fun s =>
      if badAt s pa then scrubLine s pa
      else if bad && k = 1 then scrubSoon { s with badLines := s.badLines ++ [lineOf pa] } (.num pa 0 0)
      else if bad then scrubLine { s with badLines := s.badLines ++ [lineOf pa] } pa
      else report s 1 1 (channelUnit s pa) (pa / 64 * 64) 2 0 0
  | .row die row k _ => do
    if die < 8 && row < 1048576 then pure () else throw (.fault .noSuchPart)
    update fun s =>
      if k = 2 && !(getDie s die).badRows.contains row then scrubRow (badRow s die row) die row
      else if k = 3 && !(getDie s die).badRows.contains row then scrubSoon (badRow s die row) (.row die row 0 0)
      else if k = 1 && !(getDie s die).badRows.contains row then report s 1 2 (die * 2048 + row / 512) 0 2 die 0
      else scrubRow s die row
  | .word core n store => do
    if core.toNat < 16384 && (store < 8 || (10 ≤ store && store < 12) || (16 ≤ store && store < 28)) then pure ()
      else throw (.fault .noSuchPart)
    update fun s => if store < 16 then strike s store core.toNat n.toNat else corrected s (store - 16) core.toNat n.toNat
  | _ => pure ()

/-! ## Fencing (R18, R462) -/

/-- A launch that loses a cluster completes with status 1 (R462, R413). -/
def loseCluster (s : State) (cl : Nat) : State :=
  { s with launches := s.launches.map fun l =>
      if l.phase ≠ .waiting && l.phase ≠ .done && l.clusters.contains cl && l.kill.isNone
      then { l with kill := some (0x0C, cl * 8, 0, 0) } else l }

/-- A core of a fenced cluster (R462): its contexts are killed and bound to nothing; its deque and its mailbox are
discarded. -/
def fenceCore (s : State) (core : Nat) : State :=
  let s := (List.range 5).foldl (fun s x =>
    let k := getCtx s core x
    if k.run ≠ .free then killCtx s core x 0x0C
    else if k.bound then destroyBoarder s core x k.inst
    else s) s
  modCore s core fun c => { c with
    ctxs := c.ctxs.map fun k => { Ctx.reset with inst := k.inst }
    deque := Deque.reset, steal := none, inbox := [], mail := [], parked := [], retain := none, keeps := false }

/-- What a cluster's fence, or its die's, does to its contexts, resident and saved, and its launch (R462, R438). -/
def stopCluster (s : State) (cl : Nat) : State :=
  let s := ((getDie s (dieOfCluster cl)).dir.filter fun e => clusterOf e.core = cl).foldl (killSaved · · 0x0C) s
  let s := ((List.range 8).map (cl * 8 + ·)).foldl fenceCore s
  loseCluster s cl

/-- The fence of a cluster. -/
def fenceCluster (s : State) (cl : Nat) : State := stopCluster (modCluster s cl fun c => { c with fenced := true }) cl

/-- The live peer jobs of a die's clusters stop with ERR 7 (R462). -/
def fenceEndpoint (s : State) (die : Nat) : State :=
  let s := modDie s die fun d => { d with epFenced := true }
  s.clusters.foldl (fun s c =>
    if dieOfCluster c.1 ≠ die then s
    else (c.2.jobs.filter fun j => j.live && j.peer.isSome).foldl (fun s j => transportLost s c.1 j.seq 0) s) s

/-- The fence of a die other than die 0 (R462, R386): its clusters and its endpoint as above, its wells with it; its stations
leave the ring, and their operations with them. -/
def fenceDie (s : State) (die : Nat) : State :=
  let s := modDie s die fun d => { d with fenced := true, bypassed := true }
  let s := ((List.range 256).map (die * 256 + ·)).foldl stopCluster s
  let s := fenceEndpoint s die
  { s with clusters := s.clusters.map fun c => if dieOfCluster c.1 = die then (c.1, { c.2 with ringQ := [] }) else c }

/-- A lane's fence (R385): it takes effect when its slot 0 next passes the origin. -/
def fenceLane (s : State) (ln : Nat) : State :=
  later { s with laneDue := s.laneDue ||| BitVec.ofNat 4 (2 ^ ln) } (passageFrom 0 0 (now s + 1) - now s) .ringOrigin
    (.num (ln * 4096) 0 0)

/-- A channel's fence (R462, R464): Scerix retires it once the package is quiescent. -/
def fenceChannel (s : State) (die ch : Nat) : State :=
  sometime (modDie s die fun d => { d with fencedCh := d.fencedCh ||| BitVec.ofNat 32 (2 ^ ch) }) .channelRetire
    (.num die ch 0)

/-- The functions of a kind. -/
def funcCount : FencedKind → Nat
  | .cluster => 2048
  | .channel => 256
  | .well => 16384
  | .lane => 4
  | .endpoint => 8
  | .die => 8

/-- The number of a function in a log record (R461). -/
def funcCode : FencedKind → Nat
  | .cluster => 0
  | .channel => 1
  | .well => 2
  | .lane => 3
  | .endpoint => 4
  | .die => 5

/-- Whether a function is fenced already, or its fence is under way. -/
def isFenced (s : State) : FencedKind → Nat → Bool
  | .cluster, u => clusterFenced s u
  | .channel, u => (getDie s (u / 32)).fencedCh.getLsbD (u % 32) || !(getDie s (u / 32)).chans.getLsbD (u % 32)
  | .well, u => wellFenced s u
  | .lane, u => (s.lanesOff ||| s.laneDue).getLsbD u
  | .endpoint, u => (getDie s u).epFenced || (getDie s u).fenced
  | .die, u => (getDie s u).fenced

/-- The fence of a function (R462). DEDUCED, log entry 53. -/
def fenceFunction (s : State) (f : FencedKind) (u : Nat) : State :=
  match f with
  | .cluster => fenceCluster s u
  | .channel => fenceChannel s (u / 32) (u % 32)
  | .well => modDie s (u / 2048) fun d => { d with wellOff := d.wellOff ++ [u % 2048] }
  | .lane => fenceLane s u
  | .endpoint => fenceEndpoint s u
  | .die => if u = 0 then enterRecovery (modDie s 0 fun d => { d with fenced := true }) else fenceDie s u

/-- A function fenced and the fence logged, unless it is fenced; a launch that waits is looked at anew (R18). -/
def fenceNow (s : State) (f : FencedKind) (u : Nat) : State :=
  if isFenced s f u then s else askBind (fenceFunction (report s 4 (funcCode f) u 0 2 0 0) f u)

/-- FUNCTION_FENCE (R462): operands the kind and the unit, as R461 numbers it; or the die whose endpoint's link has stayed
down. -/
def execFunctionFence : State → Out := event .functionFence do
  let s ← ask
  match s.arg with
  | .func f u => do
    if u < funcCount f then pure () else throw (.fault .noSuchPart)
    update fun s => fenceNow s f u
  | .num die _ _ => do
    if die < 8 then pure () else throw (.fault .noSuchPart)
    update fun s => fenceNow s .endpoint die
  | _ => pure ()

/-! ## Retirement (R463, R464) -/

/-- The bytes of a die's interleaved region, which a retirement does not preserve, no longer listed; nor its errors. DESIGN
CHOICE, log entry 78. -/
def loseInterleaved (s : State) (die : Nat) : State :=
  let lo := die * 0x1000000000
  let hi := lo + bankBase
  { s with
    mem := s.mem.filter fun c => decide (c.1 < lo) || decide (hi ≤ c.1)
    badLines := s.badLines.filter fun l => decide (l * 64 < lo) || decide (hi ≤ l * 64) }

/-- A fenced channel retired (R464): it leaves L, the version rises, and its 64 wells are fenced. -/
def retireChannel (s : State) (die ch : Nat) : State :=
  let bit : BitVec 32 := BitVec.ofNat 32 (2 ^ ch)
  let s := modDie (loseInterleaved s die) die fun d => { d with
    chans := d.chans &&& ~~~ bit
    fencedCh := d.fencedCh &&& ~~~ bit
    wellOff := d.wellOff ++ ((List.range 64).map (64 * ch + ·)).filter fun w => !d.wellOff.contains w }
  askBind (report { s with geo := s.geo + 1 } 5 1 (32 * die + ch) 0 2 0 0)

/-- CHANNEL_RETIRE (R464): operands the die and the channel. It waits until no launch is bound. -/
def execChannelRetire : State → Out := event .channelRetire do
  let s ← ask
  match s.arg with
  | .num die ch _ => do
    if die < 8 && ch < 32 then pure () else throw (.fault .noSuchPart)
    if (getDie s die).fencedCh.getLsbD ch then do
      waitUntil (!(s.launches.any Launch.holds))
      update fun s => retireChannel s die ch
    else pure ()
  | _ => pure ()

/-! ## Self-refresh (R222, R465) -/

/-- SELF_REFRESH_ENTER (R465): operands the die and the channel; it is deferred while a request is queued at one of the
channel's wells. -/
def execSelfRefreshEnter : State → Out := event .selfRefreshEnter do
  let s ← ask
  match s.arg with
  | .num die ch _ => do
    if die < 8 && ch < 32 then pure () else throw (.fault .noSuchPart)
    waitUntil (!((getDie s die).wellQ.any fun q => decide (q.well % 2048 / 64 = ch)))
    update fun s => modDie s die fun d => { d with refresh := d.refresh ||| BitVec.ofNat 32 (2 ^ ch) }
  | _ => pure ()

end Sys2Proof.Machine
end

