-- ==== Sys2Proof/Machine/Host.lean ====
section
/-! DEFINITION. The host's side: the CXL link, its accesses to memory, the event log, firmware loading and attestation
(28_host_network.md R441 to R446, 29_faults_repairs.md R461, R468 to R471). The layouts of SPDM and DOE messages are those of
DSP0274 and of the PCIe DOE discovery protocol (PRESUMED, log entry 50). -/
namespace Sys2Proof.Machine
open Sys2Proof

/-! ## The link (R441, R442) -/

/-- The features of CXL that the package supports, by the numbers a training offers them under: 3 requests of its coherence
agent, 4 HDM-DB, 8 link IDE in containment mode (R441). The others are 0 bifurcation, 1 switch-attached pooling, 2 multiple
logical devices, 5 HDM-H, 6 HDM-D, 7 interleaving across devices, 9 selective IDE, 10 skid mode, 11 host snoops of cluster
caches. DESIGN CHOICE, log entry 76. -/
def supported : BitVec 16 := 0x118

/-- LINK_TRAINING (R441): operands the width that the host offers, x16, x8 or x4 being trained and every other rejected, and
the features that it offers, of which the supported ones are agreed on. -/
def execLinkTraining : State → Out := event .linkTraining do
  let s ← ask
  match s.arg with
  | .num w offered _ =>
    if (w = 16 || w = 8 || w = 4) && !s.poweredOff then
      update fun s => { s with link := w, features := BitVec.ofNat 16 offered &&& supported }
    else pure ()
  | _ => pure ()

/-- Whether CXL.mem, CXL.cache and all of CXL.io are offered (R469). -/
def cxlUp (s : State) : Bool := decide (s.link ≠ 0) && !s.recovery

/-- HDM_DECODER_SET (R442): operands the host base and the decoder. -/
def execHdmDecoderSet : State → Out := event .hdmDecoderSet do
  let s ← ask
  match s.arg with
  | .word base _ n =>
    if n = 0 && cxlUp s then update fun s => { s with hdm0 := base, hdmOn := s.hdmOn ||| 1 }
    else if n = 1 && cxlUp s then update fun s => { s with hdm1 := base, hdmOn := s.hdmOn ||| 2 }
    else pure ()
  | _ => pure ()

/-- The physical address that a host address reaches through a decoder whose base is set (R442). -/
def decoded (s : State) (x : Nat) : Option Nat :=
  if s.hdmOn.getLsbD 0 && decide (s.hdm0.toNat ≤ x) && decide (x < s.hdm0.toNat + 0x8000000000) then some (x - s.hdm0.toNat)
  else if s.hdmOn.getLsbD 1 && decide (s.hdm1.toNat ≤ x) && decide (x < s.hdm1.toNat + 0x20000000000) then
    some (0x20000000000 + (x - s.hdm1.toNat))
  else none

/-- Bytes cut at the lines of memory: each part's address and bytes. -/
def lineParts : Nat → Nat → List Byte → List (Nat × List Byte)
  | 0, _, _ => []
  | f + 1, a, bs =>
    if bs.isEmpty then []
    else
      let k := 64 - a % 64
      (a, bs.take k) :: lineParts f (a + k) (bs.drop k)

/-- A host write of bytes of one line, as the memory controller performs it (R443, R460). -/
def hostPut (s : State) (pa : Nat) (bs : List Byte) : State :=
  let s := wake s pa
  let s := if bs.length = 64 && pa % 64 = 0 then healLine s (lineOf pa) else s
  { s with mem := bytesSet s.mem pa bs }

/-- A part of a host write: a write of device memory is checked in class 3 and dropped and logged when refused (R442, R445);
one of the host's own memory is the host's. -/
def hostWritePart (s : State) (p : Nat × List Byte) : State :=
  match decoded s p.1 with
  | some pa =>
    if !cxlUp s then s
    else if served s pa && admits s 3 0 .write pa 0 then hostPut s pa p.2
    else report s 3 1 (channelUnit s pa) pa 3 0 0
  | none => if p.1 < 0x800000000000 then hostPut s (0x800000000000 + p.1) p.2 else s

/-- HOST_MEM_WRITE (R442, R443, R445): operands the host address and the bytes. -/
def execHostMemWrite : State → Out := event .hostMemWrite do
  let s ← ask
  match s.arg with
  | .data a bs => update fun s => (lineParts (bs.length / 64 + 2) a.toNat bs).foldl hostWritePart s
  | _ => pure ()

/-- A host read of a line of device memory, as memory stands; poison when it is refused or the line is in error (R443, R445,
R460). The host may cache the line. -/
def hostReadLine (s : State) (pa n : Nat) : State :=
  if !(served s pa && admits s 3 0 .read pa 0) then
    report { s with hostRead := s.hostRead ++ List.replicate n 0, hostBad := true } 3 1 (channelUnit s pa) pa 3 0 0
  else if badAt s pa then
    report { s with hostRead := s.hostRead ++ List.replicate n 0, hostBad := true } 2 1 (channelUnit s pa) (pa / 64 * 64) 3 0 0
  else
    let s := wake s pa
    { s with
      hostRead := s.hostRead ++ memRead s pa n
      hostHeld := if s.hostHeld.contains (lineOf pa) then s.hostHeld else s.hostHeld ++ [lineOf pa] }

/-- A part of a host read. -/
def hostReadPart (s : State) (a n : Nat) : State :=
  match decoded s a with
  | some pa => hostReadLine s pa n
  | none => s

/-- HOST_MEM_READ (R442, R443, R445): operands the host address and how many bytes; the bytes go to the host.
DEDUCED, log entry 58. -/
def execHostMemRead : State → Out := event .hostMemRead do
  let s ← ask
  match s.arg with
  | .num a n _ =>
    if cxlUp s then
      update fun s => (lineParts (n / 64 + 2) a (List.replicate n 0)).foldl (fun s p => hostReadPart s p.1 p.2.length)
        { s with hostRead := [], hostBad := false }
    else pure ()
  | _ => pure ()

/-- HOST_SNOOP (R444): a snoop of a host line is answered by the DCOH alone and reaches no cluster cache: a line that a
cluster caches keeps its bytes. -/
def execHostSnoop : State → Out := event .hostSnoop (update fun s => s)

/-! ## The event log (R461) -/

/-- The records that the event log holds, the oldest first: once it is full a record only counts in its overflow (R461;
DESIGN CHOICE, log entry 80). -/
def heldLog (s : State) : List LogRec := s.log.take Config.logSize

/-- The overflow record of a full log (R461): how many records it has not held, and the cycles of the first and the last of them.
DESIGN CHOICE, log entry 80. -/
def logOverflow (s : State) : Option (Nat × Nat × Nat) :=
  match s.log.drop Config.logSize with
  | [] => none
  | r :: rs => some (rs.length + 1, r.cyc, ((r :: rs).getLastD r).cyc)

/-- The form that a record is entered in (R461): the standard's General Media record for an error of a line of memory, its DRAM
record for one of a well's row, the vendor's for everything else. DESIGN CHOICE, log entry 80. -/
def LogRec.form (r : LogRec) : LogForm :=
  if r.kind = 1 || r.kind = 2 then if r.func = 1 then .generalMedia else if r.func = 2 then .dram else .vendor
  else .vendor

/-- The four words that a vendor record's data begins with (R461); the rest of it is zero. -/
def LogRec.words (r : LogRec) : List W64 :=
  [at64 r.kind 56 ||| at64 r.func 48 ||| at64 (r.unit % 65536) 32 ||| at64 r.geo.toNat 0, r.addr, BitVec.ofNat 64 r.cyc,
   at64 (r.cls % 16) 60 ||| at64 (r.mnum % 65536) 44 ||| at64 (r.core % 16384) 30]

/-- EVENT_LOG_CLEAR (R461): operand how many of the oldest records the host clears; the overflow is clear then. -/
def execEventLogClear : State → Out := event .eventLogClear do
  let s ← ask
  match s.arg with
  | .num n _ _ => if cxlUp s then update fun s => { s with log := (heldLog s).drop n } else pure ()
  | _ => pure ()

/-! ## Firmware (R468) -/

/-- A part of host memory that Scerix reads for FW.LOAD, a class-2 access; none when it is refused, which is logged (R445), or
meets an error (R460). -/
def scerixRead (s : State) (pa n : Nat) : Option (List Byte) × State :=
  let refuses := fun (a : Nat) => !s.recovery && !admits s 2 0 .read a 0
  if refuses pa then (none, portRefusal s pa 2 0 0)
  else if refuses (pa + n - 1) then (none, portRefusal s (pa + n - 1) 2 0 0)
  else match ((List.range ((pa % 64 + n + 63) / 64)).map fun i => pa + 64 * i).find? (badAt s) with
    | some a => (none, report s 2 1 (channelUnit s a) (a / 64 * 64) 2 0 0)
    | none => (some (memRead s pa n), s)

/-- The firmware image at a host address, when Scerix may read it and every check of R467 passes. -/
def loadedImage (s : State) (a : Nat) : Option (List Byte) × State :=
  let pa := 0x800000000000 + a
  match scerixRead s pa 16 with
  | (none, s) => (none, s)
  | (some head, s) =>
    let len := imageLen head
    if 0x800000000000 < a + len || natOf (head.take 4) ≠ 0x4B5A5346 || len < 0x340 then (none, s)
    else match scerixRead s pa len with
      | (none, s) => (none, s)
      | (some img, s) => (if imageVerifies Config.keyHash s.minSvn img then some img else none, s)

/-- FW.LOAD (R446, R468): operand the image's host address. The new image runs from the next reset. -/
def execFwLoad : State → Out := command .fwLoad 0xC0F0 do
  let s ← ask
  match s.arg with
  | .num a _ _ =>
    match loadedImage s a with
    | (some img, s) => update fun _ => reply { s with flash := img, flashBad := false } 0xC0F0 0 0
    | (none, s) => update fun _ => reply s 0xC0F0 1 0
  | _ => update fun s => reply s 0xC0F0 1 0

/-! ## DOE and SPDM (R441, R470) -/

/-- A DOE data object of a type of the PCI-SIG. -/
def doeObject (type : Nat) (body : List Byte) : List Byte :=
  let pad := (4 - body.length % 4) % 4
  toBytes 4 (0x0001 + type * 0x10000) ++ toBytes 4 (2 + (body.length + pad) / 4) ++ body ++ List.replicate pad 0

/-- An answer over DOE, while the link is up. -/
def answerDoe (s : State) (type : Nat) (body : List Byte) : State :=
  if s.link = 0 then s else { s with doe := doeObject type body }

/-- DOE_DISCOVERY (R441): operand the index. Discovery and CMA/SPDM are the only protocols. -/
def execDoeDiscovery : State → Out := event .doeDiscovery do
  let s ← ask
  match s.arg with
  | .num i _ _ =>
    update fun s => answerDoe s 0 (toBytes 4 (if i = 0 then 0x01000001 else if i = 1 then 0x00010001 else 0x0000FFFF))
  | _ => pure ()

/-- An SPDM 1.2 message: its header and its body. PRESUMED, log entry 50. -/
def spdm (code p1 p2 : Nat) (body : List Byte) : List Byte :=
  [0x12, BitVec.ofNat 8 code, BitVec.ofNat 8 p1, BitVec.ofNat 8 p2] ++ body
/-- An SPDM error. -/
def spdmError (code : Nat) : List Byte := spdm 0x7F code 0 []
/-- An answer of SPDM. -/
def answerSpdm (s : State) (m : List Byte) : State := answerDoe s 1 m

/-- `n` bytes the manual does not lay down. -/
def anyBytes (s : State) (k n : Nat) : List Byte := (Config.freeBytes s.tick k ++ List.replicate n 0).take n

/-- The messages of an exchange that begins anew (GET_VERSION), belongs to the agreement on version, capabilities and
algorithms, belongs to the certificates, or to the measurements, kept for the signatures that cover them. PRESUMED, log entry
50. -/
def keepVersion (s : State) (ms : List Byte) : State := if s.link = 0 then s else { s with spdmA := ms, spdmB := [], spdmL := [] }
def keepAgreed (s : State) (ms : List Byte) : State := if s.link = 0 then s else { s with spdmA := s.spdmA ++ ms, spdmL := [] }
def keepCerts (s : State) (ms : List Byte) : State := if s.link = 0 then s else { s with spdmB := s.spdmB ++ ms, spdmL := [] }
def keepMeasured (s : State) (ms : List Byte) : State := if s.link = 0 then s else { s with spdmL := s.spdmL ++ ms }

/-- GET_VERSION (R470): SPDM 1.2 alone. -/
def execGetVersion : State → Out := event .getVersion (update fun s =>
  let m := [0x10, 0x04, 0, 0, 0, 1] ++ toBytes 2 0x1200
  answerSpdm (keepVersion s ([0x10, 0x84, 0, 0] ++ m)) m)

/-- GET_CAPABILITIES (R470): certificates, challenges and signed measurements; the sizes and the time are open, and so is
what the host says of itself. -/
def execGetCapabilities : State → Out := event .getCapabilities (update fun s =>
  let m := spdm 0x61 0 0 ([0] ++ anyBytes s 0 1 ++ [0, 0] ++ toBytes 4 0x16 ++ anyBytes s 1 8)
  answerSpdm (keepAgreed { s with tick := s.tick + 1 } (spdm 0xE1 0 0 (anyBytes s 4 16) ++ m)) m)

/-- NEGOTIATE_ALGORITHMS (R470): operands the asymmetric and the hash algorithms offered; RSASSA-3072 and SHA-256 are the only
ones taken. -/
def execNegotiateAlgorithms : State → Out := event .negotiateAlgorithms do
  let s ← ask
  match s.arg with
  | .num asym hash _ =>
    if asym.testBit 2 && hash.testBit 0 then
      update fun s =>
        let asked := spdm 0xE3 0 0 (toBytes 2 32 ++ [1, 0] ++ toBytes 4 asym ++ toBytes 4 hash ++ List.replicate 16 0)
        let m := spdm 0x63 0 0
          (toBytes 2 36 ++ [1, 0] ++ toBytes 4 2 ++ toBytes 4 4 ++ toBytes 4 1 ++ List.replicate 12 0 ++ [0, 0, 0, 0])
        answerSpdm (keepAgreed s (asked ++ m)) m
    else update fun s => answerSpdm s (spdmError 1)
  | _ => pure ()

/-- GET_DIGESTS (R470): the hash of the certificate chain of slot 0. -/
def execGetDigests : State → Out := event .getDigests (update fun s =>
  let m := spdm 0x01 0 1 (sha256 Config.certChain)
  answerSpdm (keepCerts s (spdm 0x81 0 0 [] ++ m)) m)

/-- GET_CERTIFICATE (R470): operands the slot, the offset and the length. -/
def execGetCertificate : State → Out := event .getCertificate do
  let s ← ask
  match s.arg with
  | .num slot off n =>
    if slot = 0 && off < Config.certChain.length then
      update fun s =>
        let part := (Config.certChain.drop off).take n
        let m := spdm 0x02 0 0
          (toBytes 2 part.length ++ toBytes 2 (Config.certChain.length - off - part.length) ++ part)
        answerSpdm (keepCerts s (spdm 0x82 0 0 (toBytes 2 off ++ toBytes 2 n) ++ m)) m
    else update fun s => answerSpdm s (spdmError 1)
  | _ => pure ()

/-! ## The measurements (R470) -/

/-- A set as a bit map of `n` bytes. -/
def bitMap (n : Nat) (p : Nat → Bool) : List Byte :=
  (List.range n).map fun i => BitVec.ofNat 8 ((List.range 8).foldl (fun a j => if p (8 * i + j) then a + 2 ^ j else a) 0)

/-- The bytes of a target's access table, its 256 rows in order (R427). -/
def tableBytes (s : State) (tgt : Nat) : List Byte :=
  (List.range 256).flatMap fun r => toBytes 16 (tabGet 0 s.access (tgt * 256 + r)).toNat

/-- The value of a measurement (R470): the mask ROM's hash; the running image's digest and SVN; the hash of every locked table
in target order; WB, the geometry version and the fenced functions by kind. -/
def measurement (s : State) (i : Nat) : List Byte :=
  if i = 1 then Config.romHash
  else if i = 2 then imageDigest s.running ++ toBytes 4 (imageSvn s.running)
  else if i = 3 then sha256 (((List.range 64).filter fun t => isTarget t && s.locked.contains t).flatMap (tableBytes s))
  else toBytes 4 Config.wb ++ toBytes 4 s.geo.toNat ++
    bitMap 256 (isFenced s .cluster) ++ bitMap 32 (isFenced s .channel) ++ bitMap 2048 (isFenced s .well) ++
    bitMap 1 (fun u => decide (u < 4) && isFenced s .lane u) ++ bitMap 1 (isFenced s .endpoint) ++ bitMap 1 (isFenced s .die)

/-- A measurement block: a digest for 1 and 3, a raw value for 2 and 4. -/
def measureBlock (s : State) (i : Nat) : List Byte :=
  let v := measurement s i
  [BitVec.ofNat 8 i, 1] ++ toBytes 2 (v.length + 3) ++ [if i = 1 || i = 3 then BitVec.ofNat 8 (i / 2) else BitVec.ofNat 8 (0x80 + i)] ++
    toBytes 2 v.length ++ v

/-- The blocks that an operation asks for; none when it is not served. -/
def measureBlocks (s : State) (op : Nat) : Option (List (List Byte)) :=
  if op = 0 then some []
  else if op = 0xFF then some ((List.range 4).map fun i => measureBlock s (i + 1))
  else if op ≤ 4 then some [measureBlock s op]
  else none

/-- A nonce, which the manual leaves open, and no opaque data. -/
def nonce (s : State) : List Byte := anyBytes s 2 32 ++ toBytes 2 0

/-- CHALLENGE (R16, R470): operands the slot and the kind of summary of measurements; the host's nonce is open. The answer
ends in the identity key's signature of the messages since the version was asked for, this one's among them. -/
def execChallenge : State → Out := event .challenge do
  let s ← ask
  match s.arg with
  | .num slot kind _ =>
    if slot = 0 && (kind = 0 || kind = 1 || kind = 0xFF) then
      update fun s =>
        let summary := if kind = 0 then [] else sha256 ((List.range 4).flatMap fun i => measureBlock s (i + 1))
        let m := spdm 0x03 0 1 (sha256 Config.certChain ++ anyBytes s 2 32 ++ summary ++ toBytes 2 0)
        let asked := spdm 0x83 0 kind (anyBytes s 4 32)
        let sig := identitySign "responder-challenge_auth signing" (s.spdmA ++ s.spdmB ++ asked ++ m)
        answerSpdm { s with tick := s.tick + 1, spdmB := if s.link = 0 then s.spdmB else []
                            spdmL := if s.link = 0 then s.spdmL else [] } (m ++ sig)
    else update fun s => answerSpdm s (spdmError 1)
  | _ => pure ()

/-- The answer to GET_MEASUREMENTS with some blocks, and what is kept of the exchange: a signed answer covers the messages of
the agreement and of the measurements since the last signed one. -/
def answerMeasurements (s : State) (op : Nat) (sign : Bool) (bs : List (List Byte)) : State :=
  let rec_ := bs.flatten
  let m := spdm 0x60 (if op = 0 then 4 else 0) 0 ([BitVec.ofNat 8 bs.length] ++ toBytes 3 rec_.length ++ rec_ ++ nonce s)
  let asked := spdm 0xE0 (if sign then 1 else 0) op (if sign then anyBytes s 4 32 ++ [0] else [])
  let s := keepMeasured { s with tick := s.tick + 1 } (asked ++ m)
  if sign then
    answerSpdm { s with spdmL := if s.link = 0 then s.spdmL else [] }
      (m ++ identitySign "responder-measurements signing" (s.spdmA ++ s.spdmL))
  else answerSpdm s m

/-- GET_MEASUREMENTS (R16, R470): operands the operation, whether a signature is asked for, and the slot. -/
def execGetMeasurements : State → Out := event .getMeasurements do
  let s ← ask
  match s.arg with
  | .num op sign slot =>
    match if slot = 0 then measureBlocks s op else none with
    | some bs => update fun s => answerMeasurements s op (sign = 1) bs
    | none => update fun s => answerSpdm s (spdmError 1)
  | _ => pure ()

end Sys2Proof.Machine
end

