-- ==== Sys2Proof/Machine/OneSided.lean ====
section
/-! DEFINITION. One-sided access (10_engines.md R246 to R249): PGET and PPUT, their service at the target's port, that of the
remote updates of 11_join_sparse.md R272, and the replies. -/
namespace Sys2Proof.Machine
open Sys2Proof

/-- Whether an access of the agenda is an earlier one of the same context to the same target (R248, R338). -/
def Remote.after (r : Remote) (d : Due) : Bool :=
  match d.arg with
  | .remote q _ => d.ev = .remoteAccessServe && decide (q.who.core = r.who.core) && decide (q.who.ctx = r.who.ctx) &&
      decide (q.target = r.target) && decide (q.seq < r.seq)
  | _ => false

/-- A one-sided access on its way: it is served after every earlier one of its context to the same target (R248, R338). -/
def sendRemote (s : State) (r : Remote) : State :=
  let r := { r with seq := s.nextId }
  let s := linkUse s (dieOf r.who.core.toNat) (dieOf r.target.toNat)
  laterAfter { s with nextId := s.nextId + 1 } .remoteAccessServe (.remote r []) r.after

/-- The fields of ox0 and ox1 that R246 reserves, or a value out of range. -/
def badTarget (ox0 : W64) : Bool :=
  decide (bits ox0 63 48 ≠ 0) || decide (bits ox0 31 17 ≠ 0) || decide (bits ox0 15 14 ≠ 0)
def badShape (ox1 : W64) : Bool :=
  decide (bits ox1 63 20 ≠ 0) || decide (bits ox1 15 13 ≠ 0) || decide (bits ox1 7 3 ≠ 0) ||
  decide (bits ox1 12 8 = 0) || decide (16 < bits ox1 12 8) || decide (4 < bits ox1 2 0)

/-- PGET and PPUT to their issue, with the checks of R247 in their order. -/
def oneSided (i : Instr) (put : Bool) (a b : BitVec 5) (inS : Bool) : M Unit := do
  notInHandler i
  let ga ← rg a
  let v ← rv b
  let ox0 ← rox 0
  let ox1 ← rox 1
  trapIf (badTarget ox0) 0x05 (at64 1 63)
  trapIf (badShape ox1) 0x05 (at64 1 63 ||| 1)
  let n := bits ox1 12 8
  let size := 4 * 2 ^ bits ox1 2 0
  let rbase := bits ox0 47 32
  let laddr := ga.toNat % 65536
  trapIf (laddr % size ≠ 0) 0x03 (BitVec.ofNat 64 laddr)
  trapIf (rbase % size ≠ 0) 0x03 (BitVec.ofNat 64 rbase)
  trapIf (decide ((if inS then 0x8000 else 0x10000) < laddr + n * size)) 0x04 (BitVec.ofNat 64 laddr)
  let cc : BitVec 4 := ox1.extractLsb' 16 4
  post (n * size) cc
  let sp := if inS then spS else spA
  let s ← ask
  waitUntil (!atomicsOut s)
  waitUntil (!matrixBefore s sp laddr (n * size))
  let me ← whoNow
  let c ← curCore
  let bad := put && spaceFails c sp laddr (n * size)
  let data := if put then (List.range (n * size)).map fun k =>
    if spaceFails c sp (laddr + k) 1 then 0 else byteGet (spaceBytes c sp) (laddr + k) else []
  let target : BitVec 14 := ox0.setWidth 14
  let offs := (List.range n).map fun k => rbase + (lane v 32 k).toNat * size
  if bad then do
    update fun s => localError s s.core
    modCur (oneSidedFail 2 target.toNat
      (offs.getD (((List.range n).filter fun k => spaceFails c sp (laddr + k * size) size).getLastD 0) 0))
  else pure ()
  update fun s => sendRemote s
    ⟨me, target, ox0.getLsbD 16, if put then .put else .get, size, offs, data, cc, laddr, inS, 0, false, 0⟩

/-- PGET (R246, R247). -/
def execPget (a b : BitVec 5) (s : BitVec 1) : State → Out := instr 4 (oneSided (.pget a b s) false a b (s = 1#1))
/-- PPUT (R246, R247). -/
def execPput (a b : BitVec 5) (s : BitVec 1) : State → Out := instr 4 (oneSided (.pput a b s) true a b (s = 1#1))

/-! ## Service at the target (R248, R249, R272) -/

/-- Whether an element runs past the end of its remote buffer. -/
def Remote.past (r : Remote) (off : Nat) : Bool := decide ((if r.inS then 0x8000 else 0x10000) < off + r.size)
/-- Whether an element touches the mailbox or the deque region (R28). -/
def Remote.barred (r : Remote) (off : Nat) : Bool := r.inS && !r.past off && decide (0x6000 < off + r.size)
/-- Whether the issuer's own local side lies in those regions. -/
def Remote.localBarred (r : Remote) : Bool :=
  r.lS && (r.op = .get || r.op = .put) && decide (0x6000 < r.laddr + r.offs.length * r.size)
/-- The space code of a remote buffer. -/
def Remote.space (r : Remote) : BitVec 2 := if r.inS then spS else spA

/-- A word after a remote update (R271). -/
def accWord (f32 : Bool) (x y : BitVec 32) : BitVec 32 := if f32 then (add32 x y).1 else x + y

/-- One element served: a PPUT's bytes written and traced, a word updated, or a PGET's bytes read; the bytes read, and whether
they held an error. -/
def serveElement (s : State) (r : Remote) (off : Nat) (data : List Byte) : List Byte × Bool × State :=
  let t := r.target.toNat
  let c := getCore s t
  match r.op with
  | .put => ([], false, trace (modCore s t (engineWrite · r.space off data)) t r.who.core.toNat r.inS off)
  | .get =>
    ((List.range r.size).map fun i => if spaceFails c r.space (off + i) 1 then 0 else byteGet (spaceBytes c r.space) (off + i),
     spaceFails c r.space off r.size, s)
  | op =>
    let bad := spaceFails c r.space off 4
    let old : BitVec 32 := if bad then 0 else BitVec.ofNat 32 (natOf (bytesGet (spaceBytes c r.space) off 4))
    let new := accWord (op = .accF32) old (BitVec.ofNat 32 (natOf data))
    ([], bad, trace (modCore s t (spaceWrite · r.space off (toBytes 4 new.toNat))) t r.who.core.toNat r.inS off)

/-- What a port does with an access in a cycle: it serves one element that lies in its buffer, and passes over those before it
that do not, which set RANGE (R29, R248): the bytes read so far, and the state; the access has taken its last element when
`next` is their number. -/
def serveNext : Nat → Remote → List Byte → State → Remote × List Byte × State
  | 0, r, got, s => (r, got, s)
  | f + 1, r, got, s =>
    let t := r.target.toNat
    match r.offs[r.next]? with
    | none => (r, got, s)
    | some off =>
      let r' := { r with next := r.next + 1 }
      if r.past off then serveNext f r' (got ++ List.replicate r.size 0) (deliver s r.who (oneSidedFail 1 t off))
      else
        let (b, bad, s) := serveElement s r off ((r.data.drop (r.next * r.size)).take r.size)
        let s := if bad then
            deliver (report s 2 0 (clusterOf t) 0 1 r.who.asid.toNat r.who.core.toNat) r.who (oneSidedFail 2 t off)
          else s
        (r', got ++ b, modCore s t (usePort · r.space (now s)))

/-- An access at its target's port (R248, R249): refused whole as it arrives; not served, from an element on, at a core without
power; else the next element served. The access as it goes on, and the bytes read, none when it was refused.
DEDUCED, log entry 30. -/
def serveRemote (s : State) (r : Remote) (got : List Byte) : Remote × List Byte × State :=
  let t := r.target.toNat
  let past := { r with next := r.offs.length }
  if r.next = 0 && (!inDomain s t r.who.dom || r.localBarred) then
    (past, [], deliver s r.who (oneSidedFail 0 t (r.offs.getLastD 0)))
  else match (if r.next = 0 then (r.offs.filter r.barred).getLast? else none) with
    | some off => (past, [], deliver s r.who (oneSidedFail 0 t off))
    | none =>
      if !(getCore s t).powered then
        (past, if r.op = .get then got ++ List.replicate ((r.offs.length - r.next) * r.size) 0 else [],
         deliver s r.who (oneSidedFail 3 t (r.offs.getD r.next 0)))
      else serveNext (r.offs.length + 1) r got s

/-- REMOTE_ACCESS_SERVE (R248): operand the access. It is served an element a cycle, in the cycles in which its port is free
(R29), after the earlier ones of its context to the same target (R248). -/
def execRemoteAccessServe : State → Out := event .remoteAccessServe do
  let s ← ask
  match s.arg with
  | .remote r got =>
    if s.agenda.any r.after ||
        ((getCore s r.target.toNat).powered && portBusy (getCore s r.target.toNat) r.space (now s)) then
      update fun s => later s 1 .remoteAccessServe (.remote { r with here := true } got)
    else
      let (q, data, t) := serveRemote s r got
      if q.next < r.offs.length then update fun _ => later t 1 .remoteAccessServe (.remote { q with here := true } data)
      else update fun _ => sometime t .oneSidedReply (.remote { q with next := 0, here := false } data)
  | _ => pure ()

/-- The next element of a PGET's reply landed at its issuer, whose words become full (R34). -/
def landElement (s : State) (r : Remote) (data : List Byte) : State :=
  let core := r.who.core.toNat
  let sp := if r.lS then spS else spA
  if !(getCore s core).powered || (r.offs[r.next]?).all r.past then s
  else modCore s core fun c =>
    usePort (engineWrite c sp (r.laddr + r.next * r.size) ((data.drop (r.next * r.size)).take r.size)) sp (now s)

/-- ONE_SIDED_REPLY (R248): operands the access and the bytes read. The bytes of the elements served land at the issuer, one in
each cycle in which its port is free (R29), and every byte counts as landed. -/
def execOneSidedReply : State → Out := event .oneSidedReply do
  let s ← ask
  match s.arg with
  | .remote r data =>
    if r.op = .get && !data.isEmpty then
      if portBusy (getCore s r.who.core.toNat) (if r.lS then spS else spA) (now s) then
        update fun s => later s 1 .oneSidedReply (.remote r data)
      else do
        update fun s => deliver (landElement s r data) r.who (countDone r.size r.cc)
        if r.next + 1 < r.offs.length then
          update fun s => later s 1 .oneSidedReply (.remote { r with next := r.next + 1 } data)
        else pure ()
    else update fun s => deliver s r.who (countDone (r.offs.length * r.size) r.cc)
  | _ => pure ()

end Sys2Proof.Machine
end

