-- ==== Sys2Proof/Machine/Joins.lean ====
section
/-! DEFINITION. Join walkers, sorted streams and key-indexed arrays (11_join_sparse.md R254 to R277, 24_program_triangles.md
R402). -/
namespace Sys2Proof.Machine
open Sys2Proof

/-! ## Descriptors (R255 to R257, R260) -/

def JNode.kind (n : JNode) : Nat := bits n.w0 3 0
def JNode.card (n : JNode) : Nat := bits n.w1 31 0
def JNode.rows (n : JNode) : Nat := bits n.w2 31 0
def JNode.isLeaf (n : JNode) : Bool := n.kind = 1
def JNode.isUnion (n : JNode) : Bool := n.kind = 3
/-- The node of an index. -/
def nodeAt (ns : List JNode) (i : Nat) : JNode := ns.getD i ⟨0, 0, 0, 0⟩
/-- The children of node `i`, in order (R256). -/
def childrenOf (ns : List JNode) (i : Nat) : List Nat :=
  let n := nodeAt ns i
  if n.kind = 2 then (List.range (bits n.w0 15 12)).map fun c => bits n.w1 (8 * c + 7) (8 * c)
  else if n.kind = 3 then [i + 1] else []
/-- The indices of the leaves, in order of their numbers. -/
def leafNodes (ns : List JNode) : List Nat := (List.range ns.length).filter fun i => (nodeAt ns i).isLeaf

/-- A node that breaks the form of its kind (R256): reason 3. -/
def badKind (n : JNode) : Bool :=
  decide (bits n.w0 47 40 ≠ 0) || decide (bits n.w0 11 4 ≠ 0) ||
  (if n.kind = 1 then decide (bits n.w0 15 12 ≠ 0) || decide (bits n.w2 63 32 ≠ 0)
   else if n.kind = 2 then
     decide (bits n.w0 63 48 ≠ 0) || decide (bits n.w0 39 16 ≠ 0) || decide (bits n.w0 15 12 = 0) ||
     decide (8 < bits n.w0 15 12) || decide (n.w1.toNat >>> (8 * bits n.w0 15 12) ≠ 0) || n.w2 ≠ 0#64 || n.w3 ≠ 0#64
   else if n.kind = 3 then
     decide (bits n.w0 63 48 ≠ 0) || decide (bits n.w0 39 32 ≠ 0) || decide (bits n.w0 15 12 ≠ 0) ||
     decide (n.card = 0) || decide (bits n.w1 63 32 ≠ 0) || n.w2 ≠ 0#64 || n.w3 ≠ 0#64
   else true)

/-- The nodes reached from node `i` at a depth, each with its depth and the path size there (R257); `fuel` bounds the
depth. -/
def reach (ns : List JNode) : Nat → Nat → Nat → Nat → List (Nat × Nat × Nat)
  | 0, _, _, _ => []
  | fuel + 1, depth, size, i =>
    let p := if (nodeAt ns i).isUnion then size * (nodeAt ns i).card else size
    (i, depth, p) :: (childrenOf ns i).flatMap (reach ns fuel (depth + 1) p)

/-- The leaves and unions in pre-order, each with the nearest union above it. -/
def loops (ns : List JNode) : Nat → Option Nat → Nat → List (Nat × Option Nat)
  | 0, _, _ => []
  | fuel + 1, up, i =>
    if (nodeAt ns i).isLeaf then [(i, up)]
    else if (nodeAt ns i).isUnion then (i, up) :: loops ns fuel (some i) (i + 1)
    else (childrenOf ns i).flatMap (loops ns fuel up)

/-- The first fault of the node records, by reason and then by node: reason and node (R260). DEDUCED, log entry 31. -/
def badNodes (ns : List JNode) (root leaves : Nat) : Option (Nat × Nat) :=
  let all := List.range ns.length
  let seen := reach ns 9 1 1 root
  let under := loops ns 9 none root
  if (leafNodes ns).length ≠ leaves then some (2, 0)
  else match all.find? fun i => badKind (nodeAt ns i) with
  | some i => some (3, i)
  | none =>
    match all.find? fun i => (childrenOf ns i).any (ns.length ≤ ·) with
    | some i => some (4, i)
    | none =>
      match all.find? fun i => (seen.filter (·.1 = i)).length ≠ 1 || seen.any fun r => r.1 = i && 8 < r.2.1 with
      | some i => some (4, i)
      | none =>
        match all.find? fun i => (nodeAt ns i).isLeaf &&
            (decide (4 < bits (nodeAt ns i).w0 39 32) || decide ((nodeAt ns i).w1.toNat % 4 ≠ 0) ||
             decide ((nodeAt ns i).w3.toNat % 4 ≠ 0) ||
             ((nodeAt ns i).w3 = 0#64 && under.any fun u => u.1 = i && u.2.isSome)) with
        | some i => some (5, i)
        | none =>
          match seen.find? fun r => 0xFFFFFFFF < r.2.2 with
          | some r => some (6, r.1)
          | none => none

/-- A trap of cause 0x10 (R260). -/
def joinTrap {α : Type} (reason node : Nat) : M α := trapM 0x10 (at64 reason 0 ||| at64 node 8)

/-- Options that R261 calls malformed: reason 7. -/
def badOptions (ns : List JNode) (leaves : Nat) (ox2 ox3 : W64) : Bool :=
  let kn := bits ox2 23 16
  decide (bits ox2 63 24 ≠ 0) || decide (bits ox2 15 11 ≠ 0) || decide (bits ox2 7 1 ≠ 0) ||
  (decide (kn ≠ 0xFF) && !(decide (kn < ns.length) && (nodeAt ns kn).isUnion)) ||
  (ox2.getLsbD 0 && (decide (leaves ≤ bits ox2 10 8) || decide (bits ox3 63 32 < bits ox3 31 0)))

def walkerOf (c : Ctx) (w : BitVec 1) : Walker := c.walkers[w.toNat]'(w.isLt)
def setWalker (w : BitVec 1) (x : Walker) (c : Ctx) : Ctx := { c with walkers := c.walkers.set w.toNat x w.isLt }

/-- JW.OPEN (R261). -/
def execJwOpen (w : BitVec 1) (a : BitVec 5) : State → Out := instr 4 do
  notInHandler (.jwOpen w a)
  let ga ← rg a
  let addr := ga &&& 0xFFFFFFFFFFFFFF
  trapIf (ga.toNat % 64 ≠ 0) 0x03 addr
  let hdr ← gather (fun i => loadNow 8 (ga + BitVec.ofNat 64 (8 * i))) (List.range 8)
  let h0 := hdr.headD 0
  let h1 := hdr.getD 1 0
  if bits h0 31 0 ≠ 0x4B4A5431 || bits h0 63 48 ≠ 1 || (hdr.drop 2).any (· ≠ 0#64) then joinTrap 1 0
  let root := bits h1 23 16
  let leaves := bits h1 15 8
  let n := bits h1 7 0
  if n = 0 || 64 < n || leaves = 0 || 8 < leaves || n ≤ root then joinTrap 2 0
  let ns ← gather (fun i => do
    let ws ← gather (fun k => loadNow 8 (ga + BitVec.ofNat 64 (64 + 32 * i + 8 * k))) (List.range 4)
    pure (⟨ws.headD 0, ws.getD 1 0, ws.getD 2 0, ws.getD 3 0⟩ : JNode)) (List.range n)
  if bits h0 47 32 ≠ 0 || bits h1 63 24 ≠ 0 then joinTrap 3 0
  match badNodes ns root leaves with
  | some (r, i) => joinTrap r i
  | none => pure ()
  let ox2 ← rox 2
  let ox3 ← rox 3
  if badOptions ns leaves ox2 ox3 then joinTrap 7 0
  modCur (setWalker w ⟨ns, root, leaves, ox2, ox3, none, false⟩)

/-- The open walker that an instruction names (R260). -/
def openWalker (w : BitVec 1) : M Walker := do
  let c ← cur
  let x := walkerOf c w
  if x.nodes.isEmpty then joinTrap 0 0 else pure x

/-! ## Walking (R258, R262) -/

/-- The range of a leaf under a path code: its rows that pass the delta; its index words are read now (R258, R261, R265). -/
def leafRange (x : Walker) (i code : Nat) : M (Nat × Nat) := do
  let n := nodeAt x.nodes i
  let (a, b) ← (if n.w3 = 0#64 then pure (0, n.rows) else do
    let a ← loadNow 4 (n.w3 + BitVec.ofNat 64 (4 * code))
    let b ← loadNow 4 (n.w3 + BitVec.ofNat 64 (4 * code + 4))
    if b.toNat < a.toNat || n.rows < b.toNat then joinTrap 9 i
    pure (a.toNat, b.toNat))
  if x.opts.getLsbD 0 && (leafNodes x.nodes)[bits x.opts 10 8]? = some i then
    pure (max a (bits x.delta 31 0), max (max a (bits x.delta 31 0)) (min b (bits x.delta 63 32)))
  else pure (a, b)

/-- The path code of the loop standing at a node (R257). -/
def codeAt (stack : List JPos) (up : Option Nat) : Nat :=
  match up with
  | none => 0
  | some u => ((stack.find? (·.node = u)).map fun p => p.code + p.row).getD 0

/-- A loop entered: a union from its first code, whose path codes start at `code`, or a leaf's range. -/
def enterLoop (x : Walker) (stack : List JPos) (v : Nat × Option Nat) : M JPos := do
  let n := nodeAt x.nodes v.1
  let code := codeAt stack v.2
  if n.isUnion then pure ⟨v.1, code * n.card, 0, n.card⟩
  else do
    let (a, b) ← leafRange x v.1 code
    pure ⟨v.1, code, a, b⟩

/-- The enumeration of R258 as nested loops over the unions and leaves in pre-order, innermost first in `stack`: it goes on
until every loop stands somewhere, or there is nothing left. -/
def findTuple (x : Walker) (vars : List (Nat × Option Nat)) : Nat → List JPos → M (Option (List JPos))
  | 0, _ => pure none
  | fuel + 1, stack =>
    match stack with
    | p :: rest =>
      if p.stop ≤ p.row then
        match rest with
        | [] => pure none
        | q :: more => findTuple x vars fuel ({ q with row := q.row + 1 } :: more)
      else
        match vars[stack.length]? with
        | none => pure (some stack)
        | some v => do
          let e ← enterLoop x stack v
          findTuple x vars fuel (e :: stack)
    | [] =>
      match vars.head? with
      | none => pure none
      | some v => do
        let e ← enterLoop x [] v
        findTuple x vars fuel [e]

/-- More steps than any walk between two tuples takes. DESIGN CHOICE, log entry 38. -/
def walkFuel : Nat := 2 ^ 4096

/-- The tuple after the cursor (R258). -/
def nextTuple (x : Walker) : M (Option (List JPos)) :=
  if x.ended then pure none
  else
    let vars := loops x.nodes 9 none x.root
    match x.cursor with
    | none => findTuple x vars walkFuel []
    | some [] => pure none
    | some (p :: rest) => findTuple x vars walkFuel ({ p with row := p.row + 1 } :: rest)

/-- The row of each leaf and the key code of a tuple (R258, R261). -/
def tupleWords (x : Walker) (t : List JPos) : List Nat :=
  let row := fun (i : Nat) => ((t.find? (·.node = i)).map (·.row)).getD 0
  let kn := bits x.opts 23 16
  (leafNodes x.nodes).map row ++ [if kn = 0xFF then 0 else codeAt t (some kn)]

/-- The end of JW.NEXT with `n` tuples (R262): the other lanes are zero, the mask names the lanes of the tuples, and there is
no progress left. -/
def nextDone (x : Walker) (d : BitVec 5) (k : BitVec 3) (n : Nat) : M Unit := do
  modCur fun c => (List.range (x.leaves + 1)).foldl (fun c i =>
    let reg := d + BitVec.ofNat 5 i
    vSet c reg (vOf c reg &&& BitVec.ofNat 512 (2 ^ (32 * n) - 1))) c
  wk k (BitVec.ofNat 64 (2 ^ n - 1))
  wox 6 0
  wox 7 0

/-- JW.NEXT (R262): restartable; it takes one tuple as its context issues. -/
def execJwNext (d : BitVec 5) (k : BitVec 3) (w : BitVec 1) : State → Out := restartable 4 do
  notInHandler (.jwNext d k w)
  let x ← openWalker w
  if 31 < d.toNat + x.leaves then joinTrap 8 0
  let ox6 ← rox 6
  let ox7 ← rox 7
  trapIf (ox7 ≠ 0#64 && (decide (bits ox7 63 58 ≠ 0x35) || decide (bits ox7 57 55 ≠ 1))) 0x02 ox7
  each (fun i => claim (.v (d + BitVec.ofNat 5 i))) (List.range (x.leaves + 1))
  free (.k k)
  let n := if ox7 = 0#64 then 0 else bits ox6 4 0
  if n < 16 then do
    match ← nextTuple x with
    | none => do
      modCur (setWalker w { x with ended := true })
      nextDone x d k n
      pure true
    | some t => do
      modCur fun c => (tupleWords x t).zipIdx.foldl (fun c v =>
        let reg := d + BitVec.ofNat 5 v.2
        vSet c reg (setLane (vOf c reg) 32 n (BitVec.ofNat 32 v.1))) c
      modCur (setWalker w { x with cursor := some t })
      if n = 15 then do
        nextDone x d k 16
        pure true
      else do
        wox 6 (at64 (n + 1) 0)
        wox 7 (at64 0x35 58 ||| at64 1 55 ||| 1)
        pure false
  else do
    nextDone x d k n
    pure true

/-! ## Counting (R263) -/

/-- The sum of an action's numbers over 0 to n − 1. -/
def sumOver (f : Nat → M Nat) : Nat → M Nat
  | 0 => pure 0
  | n + 1 => do
    let a ← sumOver f n
    let b ← f n
    pure (a + b)

/-- The product of an action's numbers, up to one that is zero. -/
def productOver (f : Nat → M Nat) : List Nat → M Nat
  | [] => pure 1
  | i :: is => do
    let a ← f i
    if a = 0 then pure 0
    else do
      let b ← productOver f is
      pure (a * b)

/-- The tuples under a node with a path code, the unions of `fix` held at their codes (R263); `fuel` bounds the depth. -/
def countNode (x : Walker) (fix : List (Nat × Nat)) : Nat → Nat → Nat → M Nat
  | 0, _, _ => pure 0
  | fuel + 1, i, code =>
    let n := nodeAt x.nodes i
    if n.isLeaf then do
      let (a, b) ← leafRange x i code
      pure (b - a)
    else if n.isUnion then
      match fix.find? (·.1 = i) with
      | some f => countNode x fix fuel (i + 1) (code * n.card + f.2)
      | none => sumOver (fun c => countNode x fix fuel (i + 1) (code * n.card + c)) n.card
    else productOver (fun c => countNode x fix fuel c code) (childrenOf x.nodes i)

/-- The unions from the root to a node, the node first. -/
def unionsTo (vars : List (Nat × Option Nat)) : Nat → Option Nat → List Nat
  | 0, _ => []
  | _, none => []
  | fuel + 1, some u => u :: unionsTo vars fuel (((vars.find? (·.1 = u)).map (·.2)).getD none)

/-- A key code split into the codes of the unions on its path, innermost first, and what is left over. -/
def splitKey (ns : List JNode) : List Nat → Nat → List (Nat × Nat) × Nat
  | [], c => ([], c)
  | u :: us, c =>
    let k := max 1 (nodeAt ns u).card
    let (r, rest) := splitKey ns us (c / k)
    ((u, c % k) :: r, rest)

/-- The tuples of a walker with a key code (R263). -/
def countKey (x : Walker) (c : Nat) : M Nat := do
  let kn := bits x.opts 23 16
  let us := if kn = 0xFF then [] else unionsTo (loops x.nodes 9 none x.root) 9 (some kn)
  let (fix, rest) := splitKey x.nodes us c
  if rest ≠ 0 then pure 0 else countNode x fix 9 x.root 0

/-- JW.CNT (R263). -/
def execJwCnt (d a : BitVec 5) (w : BitVec 1) : State → Out := instr 4 do
  notInHandler (.jwCnt d a w)
  let x ← openWalker w
  let ga ← rg a
  claim (.v d)
  let ns ← gather (fun i => countKey x (bits ga 31 0 + i)) (List.range 16)
  wv d (ofLanes 32 16 fun i => BitVec.ofNat 32 (min (ns.getD i 0) 0xFFFFFFFF))

/-- JW.CLOSE (R264). -/
def execJwClose (w : BitVec 1) : State → Out := instr 4 do
  notInHandler (.jwClose w)
  modCur (setWalker w Walker.reset)

/-! ## Sorted streams (R266 to R269) -/

/-- The checks of R269, made before there is progress. -/
def streamChecks (bases : List W64) (toS : Bool) (ox3 : W64) : M Unit := do
  each (fun b => trapIf (b.toNat % 4 ≠ 0) 0x03 (b &&& 0xFFFFFFFFFFFFFF)) bases
  if toS then do
    trapIf (bits ox3 15 0 % 4 ≠ 0) 0x03 (at64 (bits ox3 15 0) 0)
    trapIf (decide (bits ox3 63 32 ≠ 0)) 0x05 (at64 1 63 ||| 3)
    trapIf (decide (0x6000 < bits ox3 15 0 + 4 * bits ox3 31 16)) 0x05 (at64 (bits ox3 15 0) 0)
  else pure ()

/-- The mismatch of R86. -/
def progressOf (maj sub : Nat) (ox7 : W64) : M Unit :=
  trapIf (ox7 ≠ 0#64 && (decide (bits ox7 63 58 ≠ maj) || decide (bits ox7 57 55 ≠ sub))) 0x02 ox7

/-- How a merge treats what it meets (R267): whether it emits an element of X alone, of Y alone, and how many of a pair. -/
structure MergeKind where
  loneX : Bool
  loneY : Bool
  both  : Nat
  deriving DecidableEq, Repr

/-- A merge's place: the indices into X and Y and the elements emitted. -/
structure MergeAt where
  i   : Nat
  j   : Nat
  cnt : Nat
  deriving DecidableEq, Repr

/-- An element emitted: a store of the context to S while it has room (R267, R269). -/
def emit (toS : Bool) (ox3 : W64) (cnt : Nat) (e : W64) : M Nat := do
  if toS && decide (cnt < bits ox3 31 16) then
    storeSite (siteAt spS (at64 (bits ox3 15 0 + 4 * cnt) 0)) (toBytes 4 e.toNat)
  pure (cnt + 1)

/-- One step of a merge: the elements it needs are read, X before Y (R402), and the step takes its effect. -/
def mergeStep (k : MergeKind) (xb yb : W64) (nx ny : Nat) (toS : Bool) (ox3 : W64) (p : MergeAt) : M MergeAt := do
  let getX := loadNow 4 (xb + BitVec.ofNat 64 (4 * p.i))
  let getY := loadNow 4 (yb + BitVec.ofNat 64 (4 * p.j))
  if p.i < nx && p.j < ny then do
    let x ← getX
    let y ← getY
    if x.toNat < y.toNat then do
      let c ← (if k.loneX then emit toS ox3 p.cnt x else pure p.cnt)
      pure ⟨p.i + 1, p.j, c⟩
    else if y.toNat < x.toNat then do
      let c ← (if k.loneY then emit toS ox3 p.cnt y else pure p.cnt)
      pure ⟨p.i, p.j + 1, c⟩
    else do
      let c ← (if 1 ≤ k.both then emit toS ox3 p.cnt x else pure p.cnt)
      let c ← (if 2 ≤ k.both then emit toS ox3 c y else pure c)
      pure ⟨p.i + 1, p.j + 1, c⟩
  else if p.i < nx then do
    let x ← getX
    let c ← emit toS ox3 p.cnt x
    pure ⟨p.i + 1, p.j, c⟩
  else do
    let y ← getY
    let c ← emit toS ox3 p.cnt y
    pure ⟨p.i, p.j + 1, c⟩

/-- Whether a merge has elements left to take. -/
def mergeMore (k : MergeKind) (nx ny : Nat) (p : MergeAt) : Bool :=
  (decide (p.i < nx) && decide (p.j < ny)) || (k.loneX && decide (p.i < nx)) || (k.loneY && decide (p.j < ny))

/-- A merging stream (R267): restartable, its place in the progress pair; it takes one step of the merge as its context
issues. -/
def stream (sub : Nat) (k : MergeKind) (d : BitVec 5) (toS : Bool) : M Bool := do
  let xb ← rox 0
  let yb ← rox 1
  let ox2 ← rox 2
  let ox3 ← rox 3
  let ox6 ← rox 6
  let ox7 ← rox 7
  progressOf 0x34 sub ox7
  claim (.g d)
  if ox7 = 0#64 then streamChecks [xb, yb] toS ox3
  let nx := bits ox2 31 0
  let ny := bits ox2 63 32
  let p : MergeAt := if ox7 = 0#64 then ⟨0, 0, 0⟩ else ⟨bits ox6 31 0, bits ox6 63 32, bits ox7 33 0⟩
  let q ← (if mergeMore k nx ny p then mergeStep k xb yb nx ny toS ox3 p else pure p)
  if mergeMore k nx ny q then do
    wox 6 (at64 q.j 32 ||| at64 q.i 0)
    wox 7 (at64 0x34 58 ||| at64 sub 55 ||| at64 (q.cnt % 2 ^ 34) 0)
    pure false
  else do
    wg d (BitVec.ofNat 64 q.cnt)
    wox 6 0
    wox 7 0
    pure true

/-- SS.ISECT (R267). -/
def execSsIsect (d : BitVec 5) (s : BitVec 1) : State → Out := restartable 4 (stream 0 ⟨false, false, 1⟩ d (s = 1#1))
/-- SS.UNION (R267). -/
def execSsUnion (d : BitVec 5) (s : BitVec 1) : State → Out := restartable 4 (stream 1 ⟨true, true, 1⟩ d (s = 1#1))
/-- SS.MERGE (R267). -/
def execSsMerge (d : BitVec 5) (s : BitVec 1) : State → Out := restartable 4 (stream 2 ⟨true, true, 2⟩ d (s = 1#1))
/-- SS.DIFF (R267). -/
def execSsDiff (d : BitVec 5) (s : BitVec 1) : State → Out := restartable 4 (stream 3 ⟨true, false, 0⟩ d (s = 1#1))

/-- A seek's place (R268). -/
structure SeekAt where
  lo : Nat
  hi : Nat
  e  : Nat
  ph : Bool
  deriving DecidableEq, Repr

/-- One step of a seek (R268). -/
def seekStep (xb : W64) (nx target : Nat) (p : SeekAt) : M SeekAt := do
  let get := fun (i : Nat) => loadNow 4 (xb + BitVec.ofNat 64 (4 * i))
  if !p.ph then
    let m := p.lo + 2 ^ min p.e 64 - 1
    if nx ≤ m then pure { p with hi := nx, ph := true }
    else do
      let x ← get m
      if x.toNat < target then pure { p with lo := m + 1, e := p.e + 1 } else pure { p with hi := m, ph := true }
  else do
    let m := (p.lo + p.hi) / 2
    let x ← get m
    if x.toNat < target then pure { p with lo := m + 1 } else pure { p with hi := m }

/-- SS.SEEK (R268): restartable; it takes one step of the search as its context issues. -/
def execSsSeek (d : BitVec 5) : State → Out := restartable 4 do
  let xb ← rox 0
  let ox2 ← rox 2
  let ox4 ← rox 4
  let ox6 ← rox 6
  let ox7 ← rox 7
  progressOf 0x34 4 ox7
  claim (.g d)
  if ox7 = 0#64 then streamChecks [xb] false 0
  let nx := bits ox2 31 0
  let p : SeekAt := if ox7 = 0#64 then ⟨bits ox4 63 32, nx, 0, false⟩
    else ⟨bits ox6 31 0, bits ox6 63 32, bits ox7 54 1, ox7.getLsbD 0⟩
  let finish := fun (r : Nat) => do
    wg d (BitVec.ofNat 64 r)
    wox 6 0
    wox 7 0
    pure true
  if nx ≤ p.lo then finish nx
  else if p.ph && p.hi ≤ p.lo then finish p.lo
  else do
    let q ← seekStep xb nx (bits ox4 31 0) p
    if q.ph && q.hi ≤ q.lo then finish q.lo
    else do
      wox 6 (at64 q.hi 32 ||| at64 q.lo 0)
      wox 7 (at64 0x34 58 ||| at64 4 55 ||| at64 q.e 1 ||| bool64 q.ph)
      pure false

/-! ## Key-indexed instructions (R270 to R276) -/

/-- The keys of a register, and the active lanes with their keys (R270). -/
def activeKeys (b : BitVec 5) : M (List (Nat × Nat)) := do
  let v ← rv b
  pure (((List.range 16).map fun i => (i, (lane v 32 i).toNat)).filter fun p => p.2 ≠ 0xFFFFFFFF)

/-- A mode's local space. -/
def modeSpace (m : BitVec 2) : BitVec 2 := if m = 0#2 then spA else if m = 1#2 then spS else 0

/-- A local array updated lane by lane, every check first (R271). -/
def accLocal (sp : BitVec 2) (f32 : Bool) (ga : W64) (els : List (Nat × BitVec 32)) : M Unit := do
  let sites := els.map fun e => siteAt sp (ga + BitVec.ofNat 64 (4 * e.1))
  let spots ← checkSites .store 4 4 sites
  let s ← ask
  each (fun p => match p with
    | .loc sp off => do
      waitUntil (!matrixBefore s sp off 4)
      checkLocal (getCore s s.core) s.core sp off 4 p.val
    | _ => pure ()) spots
  each (fun e => do
    let bs ← readSpot 4 e.2
    writeSpot e.2 (toBytes 4 (accWord f32 (BitVec.ofNat 32 (natOf bs)) e.1.2).toNat)) (els.zip spots)

/-- The bin geometry of ox2 (R273): capacity, bins, and log2 of the keys of a bin. -/
def binCap (g : W64) : Nat := bits g 47 32
def binCount (g : W64) : Nat := bits g 31 16
def binLog (g : W64) : Nat := bits g 4 0
def badBins (g : W64) : Bool :=
  decide (bits g 63 48 ≠ 0) || decide (bits g 15 5 ≠ 0) || decide (binCount g = 0) || decide (binCap g = 0) ||
  decide (16 < binLog g)
/-- The address of a bin of an area. -/
def binAt (area g : W64) (b : Nat) : W64 := area + BitVec.ofNat 64 (b * (64 + 8 * binCap g))
/-- A trap that names a bin (R260). -/
def binTrap {α : Type} (reason b : Nat) : M α := trapM 0x10 (at64 reason 0 ||| at64 b 16)

/-- The number of a lane's record: what its bin holds, and the earlier lanes of that bin (R273). -/
def recordOf (counts : List (Nat × Nat)) (bins : List Nat) (i : Nat) : Nat :=
  let b := bins.getD i 0
  ((counts.find? (·.1 = b)).map (·.2)).getD 0 + ((bins.take i).filter (· = b)).length

/-- Lanes appended to the bins of an area (R273). -/
def accBinned (ga : W64) (els : List (Nat × BitVec 32)) : M Unit := do
  let g ← rox 2
  if badBins g then joinTrap 10 0
  trapIf (ga.toNat % 64 ≠ 0) 0x03 (ga &&& 0xFFFFFFFFFFFFFF)
  let bins := els.map fun e => e.1 >>> binLog g
  match bins.find? (binCount g ≤ ·) with
  | some b => binTrap 11 b
  | none => pure ()
  let counts ← gather (fun b => do
    let w ← loadNow 4 (binAt ga g b)
    pure (b, w.toNat)) bins.eraseDups
  match counts.find? fun c => binCap g < c.2 + (bins.filter (· = c.1)).length with
  | some c => binTrap 12 c.1
  | none => pure ()
  let spots ← gather (fun i => do
    let b := bins.getD i 0
    let head := binAt ga g b
    let r ← checkSite .store 8 (siteAt 0 (head + BitVec.ofNat 64 (64 + 8 * recordOf counts bins i)))
    let c ← checkSite .store 4 (siteAt 0 head)
    pure (r, c)) (List.range els.length)
  each (fun p => do
    let e := els.getD p.2 (0, 0)
    writeMore p.1.1 (toBytes 4 e.1 ++ toBytes 4 e.2.toNat)
    writeMore p.1.2 (toBytes 4 (recordOf counts bins p.2 + 1))) spots.zipIdx

/-- Lanes sent to another core's S (R272). -/
def accRemote (i : Instr) (f32 : Bool) (ga : W64) (els : List (Nat × BitVec 32)) : M Unit := do
  notInHandler i
  let ox0 ← rox 0
  trapIf (decide (bits ox0 63 20 ≠ 0) || decide (bits ox0 15 14 ≠ 0)) 0x05 (at64 1 63)
  trapIf (ga.toNat % 4 ≠ 0) 0x03 ga
  let offs := els.map fun e => ga.toNat + 4 * e.1
  match offs.find? (0x8000 ≤ ·) with
  | some o => trapM 0x04 (BitVec.ofNat 64 o)
  | none => pure ()
  let cc : BitVec 4 := ox0.extractLsb' 16 4
  post (4 * els.length) cc
  let s ← ask
  waitUntil (!atomicsOut s)
  let me ← whoNow
  if els.isEmpty then pure ()
  else update fun s => sendRemote s ⟨me, ox0.setWidth 14, true, if f32 then .accF32 else .accI32, 4, offs,
      els.flatMap fun e => toBytes 4 e.2.toNat, cc, 0, false, 0, false, 0⟩

/-- KACC in its four modes, given the values of the active lanes (R270 to R273). -/
def accumulate (i : Instr) (f32 : Bool) (a b : BitVec 5) (m : BitVec 2) (vals : Nat → BitVec 32) : M Unit := do
  let ga ← rg a
  let ks ← activeKeys b
  let els := ks.map fun p => (p.2, vals p.1)
  if m = 3#2 then accRemote i f32 ga els
  else if m = 2#2 then accBinned ga els
  else accLocal (modeSpace m) f32 ga els

/-- KACC (R270 to R273). -/
def execKacc (d a b : BitVec 5) (m : BitVec 2) (t : BitVec 1) : State → Out := instr 4 do
  if m = 3#2 then notInHandler (.kacc d a b m t)
  let v ← rv d
  accumulate (.kacc d a b m t) (t = 0#1) a b m fun i => lane v 32 i

/-- KCNT: KACC of 1 in every lane as integers (R276). -/
def execKcnt (a b : BitVec 5) (m : BitVec 2) : State → Out := instr 4 do
  if m = 3#2 then notInHandler (.kcnt a b m)
  accumulate (.kcnt a b m) false a b m fun _ => 1

/-- KEXP (R275, R397). -/
def execKexp (d a b : BitVec 5) (m : BitVec 2) : State → Out := instr 4 do
  let ga ← rg a
  let ks ← activeKeys b
  claim (.v d)
  let spots ← checkSites .load 4 4 (ks.map fun p => siteAt (modeSpace m) (ga + BitVec.ofNat 64 (4 * p.2)))
  let ws ← gather (readSpot 4) spots
  aliasDone [] spots
  let out := (ks.zip ws).map fun p => (p.1.1, BitVec.ofNat 32 (natOf p.2))
  wv d (ofLanes 32 16 fun i => ((out.find? (·.1 = i)).map (·.2)).getD 0)

/-- The places of a span of `n` words of `size` bytes that stand for it in its checks: its first word and the first of each
4 KiB, within which no check of R148 differs. -/
def spanStarts (base : W64) (size n : Nat) : List W64 :=
  ((List.range n).map fun i => base + BitVec.ofNat 64 (size * i)).zipIdx.filterMap fun p =>
    if p.2 = 0 || p.1.toNat % 4096 < size then some p.1 else none

/-- A word read in phase 2 of KFLUSH: an error reads zero and is reported (R274). -/
def readOrZero (n : Nat) (p : Spot) : M (List Byte) := do
  let r ← attemptM (readMore n p)
  match r with
  | .ok bs => pure bs
  | .error _ => pure (List.replicate n 0)

/-- One record applied to the array (R274). -/
def applyRecord (array : W64) (f32 : Bool) (r log : Nat) (rec : W64) (applied : Nat) : M Nat := do
  let k := bits rec 31 0
  if k >>> log = r then do
    let p ← checkSite .store 4 (siteAt 0 (array + BitVec.ofNat 64 (4 * k)))
    let bs ← readOrZero 4 p
    let w ← attemptM (writeMore p (toBytes 4 (accWord f32 (BitVec.ofNat 32 (natOf bs)) (rec.extractLsb' 32 32)).toNat))
    let _ := w
    pure (applied + 1)
  else pure applied

/-- The records of a bin applied in append order. -/
def applyBin (array head : W64) (f32 : Bool) (r log : Nat) : List Nat → Nat → M Nat
  | [], applied => pure applied
  | n :: ns, applied => do
    let p ← checkSite .load 8 (siteAt 0 (head + BitVec.ofNat 64 (64 + 8 * n)))
    let bs ← readOrZero 8 p
    let applied ← applyRecord array f32 r log (wordOf bs) applied
    applyBin array head f32 r log ns applied

/-- The areas of a flush in directory order: each bin's records, then its COUNT reset (R274). -/
def applyAreas (array : W64) (f32 : Bool) (r log : Nat) : List (W64 × Nat) → Nat → M Nat
  | [], applied => pure applied
  | (head, n) :: rest, applied => do
    let applied ← applyBin array head f32 r log (List.range n) applied
    let p ← checkSite .store 4 (siteAt 0 head)
    let w ← attemptM (writeMore p (toBytes 4 0))
    let _ := w
    applyAreas array f32 r log rest applied

/-- KFLUSH (R274). -/
def execKflush (d a : BitVec 5) (t : BitVec 1) : State → Out := instr 4 do
  let ga ← rg a
  let array ← rox 0
  let dir ← rox 1
  let g ← rox 2
  let ox3 ← rox 3
  claim (.g d)
  let m := bits ox3 15 0
  trapIf (decide (bits ox3 63 16 ≠ 0) || decide (m = 0)) 0x05 (at64 1 63 ||| 3)
  if badBins g then joinTrap 10 0
  let r := bits ga 31 0
  if binCount g ≤ r then binTrap 11 r
  trapIf (array.toNat % 4 ≠ 0) 0x03 (array &&& 0xFFFFFFFFFFFFFF)
  trapIf (dir.toNat % 8 ≠ 0) 0x03 (dir &&& 0xFFFFFFFFFFFFFF)
  let heads ← gather (fun i => do
    let area ← loadNow 8 (dir + BitVec.ofNat 64 (8 * i))
    trapIf (area.toNat % 64 ≠ 0) 0x03 (area &&& 0xFFFFFFFFFFFFFF)
    let head := binAt area g r
    let n ← loadNow 4 head
    if binCap g < n.toNat then binTrap 12 r
    let _ ← checkSite .store 4 (siteAt 0 head)
    pure (head, n.toNat)) (List.range m)
  each (fun h => each (fun x => do let _ ← checkSite .load 8 (siteAt 0 x))
    (spanStarts (h.1 + 64) 8 h.2)) heads
  let words := spanStarts (array + BitVec.ofNat 64 (4 * (r <<< binLog g))) 4 (2 ^ binLog g)
  each (fun x => do
    let _ ← checkSite .load 4 (siteAt 0 x)
    let _ ← checkSite .store 4 (siteAt 0 x)) words
  let applied ← applyAreas array (t = 0#1) r (binLog g) heads 0
  wg d (BitVec.ofNat 64 applied)

end Sys2Proof.Machine
end

