-- ==== Sys2Proof/Machine/Sync.lean ====
section
/-! DEFINITION. Atomics, reductions and entry consistency, and their events at the synchronisation engines
(12_sync_ring.md R278 to R288, R476). -/
namespace Sys2Proof.Machine
open Sys2Proof

/-! ## Atomics (R279, R280) -/

/-- FP32 add of the low halves, the high half kept (R280). -/
def addLow (old b : W64) : W64 := (old.extractLsb' 32 32) ++ (add32 (old.setWidth 32) (b.setWidth 32)).1

/-- The new word of an atomic, by FN (R80, R280). -/
def amoNew (fn : BitVec 4) (old b cmp : W64) : W64 :=
  if fn = 0 then old + b
  else if fn = 1 then old &&& b
  else if fn = 2 then old ||| b
  else if fn = 3 then old ^^^ b
  else if fn = 4 then (if b.slt old then b else old)
  else if fn = 5 then (if old.slt b then b else old)
  else if fn = 6 then (if b.ult old then b else old)
  else if fn = 7 then (if old.ult b then b else old)
  else if fn = 8 then b
  else if fn = 9 then (if old = cmp then b else old)
  else addLow old b

/-- A returning atomic: checked, its cluster's combining entry flushed, sent to its engine; D is interlocked until the
reply (R280). -/
def amo (fn : BitVec 4) (d a b : BitVec 5) : M Unit := do
  let base ← rg a
  let y ← rg b
  let cmp ← if fn = 9#4 then rg d else do
    claim (.g d)
    pure 0
  let pa ← syncWord base
  let w ← whoNow
  update fun s => flushComb s (clusterOf s.core) (·.pa = pa)
  update fun s => laterAfter s .amoApply (.amo ⟨w, pageTag s s.core (getCtx s s.core s.ctx) (base.setWidth 56), fn, pa, y, cmp, d⟩ 0)
    (wordEvents (clusterOf s.core) pa)
  if d = 0#5 then pure () else addLock (.g d) 0

/-- AMOADD (R280). -/
def execAmoadd (d a b : BitVec 5) : State → Out := instr 4 (amo 0 d a b)
/-- AMOAND (R280). -/
def execAmoand (d a b : BitVec 5) : State → Out := instr 4 (amo 1 d a b)
/-- AMOOR (R280). -/
def execAmoor (d a b : BitVec 5) : State → Out := instr 4 (amo 2 d a b)
/-- AMOXOR (R280). -/
def execAmoxor (d a b : BitVec 5) : State → Out := instr 4 (amo 3 d a b)
/-- AMOMIN, signed (R280). -/
def execAmomin (d a b : BitVec 5) : State → Out := instr 4 (amo 4 d a b)
/-- AMOMAX, signed (R280). -/
def execAmomax (d a b : BitVec 5) : State → Out := instr 4 (amo 5 d a b)
/-- AMOMINN, unsigned (R280). -/
def execAmominn (d a b : BitVec 5) : State → Out := instr 4 (amo 6 d a b)
/-- AMOMAXN, unsigned (R280). -/
def execAmomaxn (d a b : BitVec 5) : State → Out := instr 4 (amo 7 d a b)
/-- AMOSWP (R280). -/
def execAmoswp (d a b : BitVec 5) : State → Out := instr 4 (amo 8 d a b)
/-- AMOCAS: D is the comparand (R279, R280). -/
def execAmocas (d a b : BitVec 5) : State → Out := instr 4 (amo 9 d a b)
/-- AMOFADD (R280). -/
def execAmofadd (d a b : BitVec 5) : State → Out := instr 4 (amo 10 d a b)

/-- An atomic applied indivisibly to memory (R280): the new word, the old one returned by the reply. -/
def applyAmo (s : State) (r : AmoReq) : State :=
  if badAt s r.pa then engineError s r.who r.pa
  else
    let old := memWord s r.pa
    let s := memWrite s r.pa (toBytes 8 (amoNew r.fn old r.b r.cmp).toNat)
    sometime s .amoReply (.amo r old)

/-- AMO_APPLY (R280, R476). -/
def execAmoApply : State → Out := event .amoApply do
  let s ← ask
  match s.arg with
  | .amo r _ => update fun s => applyAmo s r
  | _ => pure ()

/-- AMO_REPLY (R280): D takes the old word. -/
def execAmoReply : State → Out := event .amoReply do
  let s ← ask
  match s.arg with
  | .amo r old => update fun s => deliver s r.who fun c => unlock (gSet c r.d old) (.g r.d)
  | _ => pure ()

/-! ## Reductions and the combining buffer (R281, R282) -/

/-- Two terms of a reduction merged, by FN (R281, R119). -/
def redNew (fn : BitVec 3) (x y : W64) : W64 :=
  if fn = 0 then x + y
  else if fn = 1 then (if y.slt x then y else x)
  else if fn = 2 then (if x.slt y then y else x)
  else if fn = 3 then addLow x y
  else x ||| y

/-- A reduction put into its cluster's combining buffer (R282): merged into its word's entry of the same FN, else a new
entry, an entry of another FN flushed first and the oldest entry of a full buffer too. -/
def combine64 (s : State) (cl pa : Nat) (va : VA) (fn : BitVec 3) (x : W64) (w : Who) : State :=
  let c := getCluster s cl
  if c.comb.any (fun e => e.pa = pa && e.fn = fn) then
    setCluster s cl { c with
     comb := c.comb.map fun e =>
      if e.pa = pa then { e with
        val := redNew fn e.val x
        whos := withElem w e.whos
        vas := withElem (pageTag s w.core.toNat (getCtx s w.core.toNat w.ctx.toNat) va, va) e.vas }
      else e }
  else
    let s := flushComb s cl (·.pa = pa)
    let c := getCluster s cl
    let s := if c.comb.length < 64 then s
      else match c.comb.head? with
        | some e => flushComb s cl (·.pa = e.pa)
        | none => s
    modCluster s cl fun c => { c with comb := c.comb ++ [⟨[w], [(pageTag s w.core.toNat (getCtx s w.core.toNat w.ctx.toNat) va, va)], pa, fn, x⟩] }

/-- A reduction (R281, R282). -/
def reduce (fn : BitVec 3) (a b : BitVec 5) : M Unit := do
  let base ← rg a
  let y ← rg b
  let pa ← syncWord base
  let w ← whoNow
  update fun s => combine64 s (clusterOf s.core) pa (base.setWidth 56) fn y w

/-- REDADD (R281). -/
def execRedadd (a b : BitVec 5) : State → Out := instr 4 (reduce 0 a b)
/-- REDMIN (R281). -/
def execRedmin (a b : BitVec 5) : State → Out := instr 4 (reduce 1 a b)
/-- REDMAX (R281). -/
def execRedmax (a b : BitVec 5) : State → Out := instr 4 (reduce 2 a b)
/-- REDFADD (R281). -/
def execRedfadd (a b : BitVec 5) : State → Out := instr 4 (reduce 3 a b)
/-- REDOR (R281). -/
def execRedor (a b : BitVec 5) : State → Out := instr 4 (reduce 4 a b)

/-- REDUCTION_APPLY (R282, R476): the merged value applied as one term; over an uncorrectable error it is discarded. -/
def execReductionApply : State → Out := event .reductionApply do
  let s ← ask
  match s.arg with
  | .red r =>
    if badAt s r.pa then update fun s => report s 2 7 ((homeDie r.pa).getD 0) (r.pa / 64 * 64) 0 0 (r.cluster * 8)
    else update fun s => memWrite s r.pa (toBytes 8 (redNew r.fn (memWord s r.pa) r.val).toNat)
  | _ => pure ()

/-! ## Bindings (R283) -/

/-- The 56 bits of an address. -/
def low56 (x : W64) : W64 := x &&& 0xFFFFFFFFFFFFFF

/-- Whether two regions meet. -/
def meets (b : Binding) (base len : W64) : Bool :=
  decide (b.base.toNat < base.toNat + len.toNat) && decide (base.toNat < b.base.toNat + b.len.toNat)

/-- The checks of BIND on its operands (R283), in order: alignment, the object's word at its engine, the length. -/
def bindChecks (word : W64) (d a b : BitVec 5) : M (W64 × W64 × W64) := do
  let h ← isHandler
  trapIf h 0x09 word
  let obj ← rg d
  let base ← rg a
  let len ← rg b
  trapIf (obj.toNat % 8 ≠ 0) 0x03 (low56 obj)
  trapIf (base.toNat % 64 ≠ 0) 0x03 (low56 base)
  trapIf (len.toNat % 64 ≠ 0) 0x03 len
  let _ ← engineTarget obj .sync
  trapIf (len = 0#64) 0x12 (low56 obj)
  pure (low56 obj, low56 base, len)

/-- BIND: the region belongs to the object from now on, in every cluster (R283). -/
def execBind (d a b : BitVec 5) : State → Out := instr 4 do
  let (obj, base, len) ← bindChecks (insnWord (.bind d a b)) d a b
  let s ← ask
  let c ← cur
  let mine := s.binds.filter (·.asid = c.asid)
  trapIf (decide (4096 ≤ mine.length) || mine.any (fun b => decide (b.obj ≠ obj) && meets b base len)) 0x12 obj
  update fun s => { s with binds := s.binds ++ [⟨c.asid, obj, base, len⟩] }

/-- The unbinding form of BIND: one binding that is exactly the one named goes (R283). -/
def execUnbind (d a b : BitVec 5) : State → Out := instr 4 do
  let (obj, base, len) ← bindChecks (insnWord (.unbind d a b)) d a b
  let s ← ask
  let c ← cur
  trapIf (!s.binds.contains ⟨c.asid, obj, base, len⟩) 0x12 obj
  update fun s => { s with binds := s.binds.erase ⟨c.asid, obj, base, len⟩ }

/-! ## Acquiring and releasing objects (R284 to R287) -/

/-- The physical ranges of the pages of a virtual range that translate, found page by page (R285): pages that do not
are skipped. -/
def physRanges (s : State) (asid : BitVec 16) (base len : Nat) : List (Nat × Nat) :=
  (List.range (len / 65536 + 2)).filterMap fun i =>
    let pg := base / 65536 * 65536 + i * 65536
    let lo := max base pg
    let hi := min (base + len) (pg + 65536)
    if hi ≤ lo then none
    else match walk s asid (BitVec.ofNat 56 lo) with
      | .leaf l => some (leafPa l (BitVec.ofNat 56 lo), hi - lo)
      | .fail _ => none

/-- The regions bound to an object of an address space, base and length (R283). -/
def boundRegions (s : State) (asid : BitVec 16) (obj : W64) : List (W64 × W64) :=
  (s.binds.filter fun b => b.asid = asid && b.obj = obj).map fun b => (b.base, b.len)

/-- Whether a line lies in one of some regions of an address space (R285). -/
def boundLine (s : State) (asid : BitVec 16) (regions : List (W64 × W64)) : Nat → Bool :=
  let rs := regions.flatMap fun b => physRanges s asid b.1.toNat b.2.toNat
  fun line => rs.any fun r => decide (r.1 ≤ line * 64) && decide (line * 64 < r.1 + r.2)

/-- The dirty bytes of an object's lines written back and the lines discarded (R285). -/
def discardBound (s : State) (cl : Nat) (asid : BitVec 16) (regions : List (W64 × W64)) : State :=
  dropLines (cleanLines s cl (boundLine s asid regions)) cl (boundLine s asid regions)

/-- The checks that ACQ and REL share (R280, R287): the handler, alignment, translation, refusal.
DEDUCED, log entry 36. -/
def objectWord (word : W64) (base : W64) : M Nat := do
  let h ← isHandler
  trapIf h 0x09 word
  trapIf (base.toNat % 8 ≠ 0) 0x03 (low56 base)
  engineTarget base .sync

/-- ACQ: once the context's atomics have returned (R341), the request goes to the object's home engine, with the bindings as
they stand (R283), and its context waits for the grant (R285, R287). -/
def execAcq (d a : BitVec 5) (sh : BitVec 1) : State → Out := instrRaw do
  let base ← rg a
  claim (.g d)
  let pa ← objectWord (insnWord (.acq d a sh)) base
  let obj := low56 base
  let c ← cur
  let s ← ask
  trapIf (decide (8 ≤ c.held.length) || c.held.contains obj || !s.binds.any (fun b => b.asid = c.asid && b.obj = obj)) 0x12 obj
  waitUntil (!atomicsOut s)
  let w ← whoNow
  update fun s => { s with acqs := s.acqs ++
    [⟨w, obj, pageTag s s.core c (obj.setWidth 56), pa, sh = 1#1, d, boundRegions s c.asid obj⟩] }
  modCur fun c => { c with run := .held (.grant obj) }
  update fun s => sometime s .acqGrant (.num pa 0 0)

/-- The word of an object granted to a context (R284). -/
def grantWord (w : W64) (r : AcqReq) : W64 :=
  let w := putBits w 62 62 0
  if r.shared then putBits w 15 0 (bits w 15 0 + 1)
  else putBits (putBits (putBits (putBits w 63 63 1) 61 48 r.who.core.toNat) 47 45 r.who.ctx.toNat) 44 29 r.who.inst.toNat

/-- Whether the first waiting request of an object can be granted (R285). -/
def grantable (w : W64) (r : AcqReq) : Bool :=
  !w.getLsbD 63 && (if r.shared then decide (bits w 15 0 < 65535) else decide (bits w 15 0 = 0))

/-- The grants that can be made at an object's word, in order of arrival (R285). -/
def grantAll : Nat → State → Nat → State
  | 0, s, _ => s
  | f + 1, s, pa =>
    match s.acqs.find? (·.pa = pa) with
    | none => s
    | some r =>
      let rest := { s with acqs := s.acqs.erase r }
      if badAt s pa then grantAll f (engineError rest r.who pa) pa
      else
        let w := memWord s pa
        if grantable w r then
          let s := memWrite rest pa (toBytes 8 (grantWord w r).toNat)
          let s := discardBound s (clusterOf r.who.core.toNat) r.who.asid r.regions
          let t := after s r.who.core.toNat 1
          grantAll f (deliver s r.who fun c => { (gSet c r.d (bool64 (w.getLsbD 62))).goOn (c.pc + 4) t with
            held := c.held ++ [r.obj], run := .running }) pa
        else s

/-- ACQ_GRANT (R285): operand the object's physical address. -/
def execAcqGrant : State → Out := event .acqGrant do
  let s ← ask
  match s.arg with
  | .num pa _ _ => update fun s => if s.acqs.any (·.pa = pa) then grantAll (s.acqs.length + 1) (wake s pa) pa else s
  | _ => pure ()

/-- REL (R286): the bound regions' dirty bytes are written back, the context's work drains, and the object is released
at its engine; the context goes on after that. -/
def execRel (a : BitVec 5) : State → Out := instrRaw do
  let base ← rg a
  let pa ← objectWord (insnWord (.rel a)) base
  let obj := low56 base
  let c ← cur
  let s ← ask
  trapIf (!c.held.contains obj || !s.binds.any (fun b => b.asid = c.asid && b.obj = obj)) 0x12 obj
  writesDone
  update fun s => cleanLines s (clusterOf s.core) (boundLine s c.asid (boundRegions s c.asid obj))
  let w ← whoNow
  modCur fun c => { c with run := .held (.release obj) }
  update fun s => sometime s .objectRelease (.who w pa obj)

/-- Whether the context a piece of work belongs to holds an object, resident or saved (R286, R438). -/
def holdsObject (s : State) (w : Who) (obj : W64) : Bool :=
  if resident s w then (getCtx s w.core.toNat w.ctx.toNat).held.contains obj
  else (savedOf s w).any fun e => e.ctxt.held.contains obj

/-- OBJECT_RELEASE (R286): EX cleared or SHARED lowered; the context that released goes on. Operands the context, the
word's physical address and the object. One killed meanwhile holds it no longer (R438). -/
def execObjectRelease : State → Out := event .objectRelease do
  let s ← ask
  match s.arg with
  | .who w pa obj =>
    if !holdsObject s w obj then pure ()
    else if badAt s pa then update fun s => engineError s w pa
    else do
      let x := memWord s pa
      let x := if x.getLsbD 63 then putBits x 63 63 0 else putBits x 15 0 (bits x 15 0 - 1)
      update fun s => memWrite s pa (toBytes 8 x.toNat)
      update fun s =>
        let t := after s w.core.toNat 1
        deliver s w fun c => { c.goOn (c.pc + 4) t with held := c.held.erase obj, run := .running }
      update fun s => later s 0 .acqGrant (.num pa 0 0)
  | _ => pure ()

/-- Whether writes of the current context to host memory have not been accepted by the host (R288, R444): pieces of its copy
jobs, a piece whose page is not translated yet among them; sums of its scans, waiting at a well or on their way; and the bytes
of slots that it alights, from their alighting's issue on. -/
def hostWrites (s : State) : Bool :=
  let host := fun (pa : Nat) => decide (0x800000000000 ≤ pa)
  (getCluster s (clusterOf s.core)).jobs.any (fun j => isMine s j.who && (j.kind = .put || j.kind = .scat) && jobLive j &&
    (j.todo ++ j.flying).any fun p => !p.ready || host p.pa) ||
  (getCluster s (clusterOf s.core)).ringQ.any (fun r => isMine s r.who && r.kind = .alight &&
    host (tabGet RingSlot.reset s.ring (r.lane.toNat * 4096 + r.idx)).addr) ||
  s.dies.any (fun p => p.2.wellQ.any fun q => isMine s q.who && match q.op with
    | .scan _ _ _ _ _ _ _ _ spa _ _ _ => host spa
    | _ => false) ||
  s.agenda.any fun d => match d.arg with
    | .land w _ _ pa _ => isMine s w && host pa
    | .sum r => isMine s r.who && host r.pa
    | _ => false

/-- FENCE (R288): scope 0 core, 1 cluster, 2 die, 3 package, 4 system; kind 0 full, 1 release, 2 acquire. Its discard comes
after the context's atomics have returned (R341). -/
def execFence (sc : BitVec 3) (k : BitVec 2) : State → Out := instr 4 do
  portsDone
  if sc.toNat < 2 then pure ()
  else do
    let s ← ask
    waitUntil (!(sc = 4#3 && hostWrites s) && !(k ≠ 1#2 && atomicsOut s))
    if k = 2#2 then pure () else releaseAll
    if k = 1#2 then pure () else update fun s => acquireAll s s.core

end Sys2Proof.Machine
end

