-- ==== Sys2Proof/Machine/Wells.lean ====
section
/-! DEFINITION. Table queries at the wells and the special-function unit (09_wells_sfu.md R209 to R226). -/
namespace Sys2Proof.Machine
open Sys2Proof

/-! ## Wells and table words (R209 to R212) -/

/-- Bytes of a well. -/
def wellSize : Nat := 524288
/-- The die and the bank of a physical well (R409). -/
def wellDie (w : Nat) : Nat := w / 2048
def wellBank (w : Nat) : Nat := w % 2048

/-- The logical well that a selector names (R209). -/
def logicalWell (c : Ctx) (core : Nat) (x : W64) : Nat :=
  if x.getLsbD 15 then c.rank.toNat * 8 + core % 8 else bits x 13 0

/-- A table-query trap (R210). -/
def tableTrap {α : Type} (l reason : Nat) : M α := trapM 0x0D (at64 (l % 16384) 0 ||| at64 reason 16)

/-- The physical well of a logical well of the current context's launch, when one is bound and not fenced (R209, R462). -/
def physicalWell (s : State) (dom : BitVec 12) (l : Nat) : Option Nat :=
  match launchOf s dom with
  | none => none
  | some x => (x.wells[l]?).filter fun w => !wellFenced s w

/-- The logical and the physical well that register `r` selects (R209, R210). -/
def wellFor (r : BitVec 5) : M (Nat × Nat) := do
  let x ← rg r
  let c ← cur
  let s ← ask
  let l := logicalWell c s.core x
  match physicalWell s c.dom l with
  | some w => pure (l, w)
  | none => tableTrap l 0

/-- The wells' table admits a class-0 access (R427, R428): wells are counted from their die's first, 512 KiB each. A refusal
takes cause 0x05 with a TRAPVAL the manual does not give. -/
def wellAdmits (w : Nat) (p : Perm) : M Unit := do
  let s ← ask
  let c ← cur
  if tableAdmits s (wellDie w * 8 + 2) (wellBank w * wellSize) 0 c.asid.toNat p then pure ()
  else do
    update fun s => { s with tick := s.tick + 1 }
    trapM 0x05 (Config.freeWord s.tick)

/-- The entry size code, entry type and index width of a table word, and its length and base (R211). -/
def tabEnt (t : W64) : Nat := bits t 10 9
def tabType (t : W64) : Nat := bits t 13 12
def tabWide (t : W64) : Bool := t.getLsbD 11
def tabLen (t : W64) : Nat := bits t 47 32 + 1
def tabSize (t : W64) : Nat := 2 ^ tabEnt t
def tabBase (t : W64) : Nat := bits t 8 0 * 1024

/-- A table word that R211 calls malformed. -/
def badTable (t : W64) : Bool :=
  decide (tabEnt t = 3) || decide (tabType t = 3) || decide (bits t 63 48 ≠ 0) || decide (bits t 31 14 ≠ 0) ||
  decide (wellSize < tabBase t + tabLen t * tabSize t)

/-! ## Issuing (R213 to R220) -/

/-- The table-query instructions that a context has outstanding (R220). -/
def queriesOut (c : Ctx) : Nat := c.tqOut + (c.scans.filter (·.2 ≠ 0)).length

/-- Waits while the context has 8 table-query instructions outstanding (R220), or atomics that are still to return (R341). -/
def queryTurn : M Unit := do
  let s ← ask
  let c ← cur
  waitUntil (decide (queriesOut c < 8) && !atomicsOut s)

/-- Waits for a place among the outstanding table-query instructions, then takes it (R220). -/
def takeQuery : M Unit := do
  queryTurn
  modCur fun c => { c with tqOut := c.tqOut + 1 }

/-- A request sent to its well, which it reaches after a free time (R221). -/
def sendWell (well : Nat) (op : WellOp) : M Unit := do
  let id ← fresh
  let me ← whoNow
  update fun s => sometime (modDie s (wellDie well) fun d => { d with wellQ := d.wellQ ++ [⟨id, me, well, op⟩] })
    .wellService (.num (wellDie well) id 0)

/-- TQ.LD (R215). -/
def execTqLd (d a b : BitVec 5) : State → Out := instr 4 do
  notInHandler (.tqLd d a b)
  let (l, w) ← wellFor d
  let row ← rg b
  let ga ← rg a
  if 511 < row.toNat then tableTrap l 1
  let src := ga.toNat % 65536
  trapIf (src % 64 ≠ 0) 0x03 (BitVec.ofNat 64 src)
  trapIf (decide (0x6000 < src + 1024)) 0x05 (BitVec.ofNat 64 src)
  wellAdmits w .write
  takeQuery
  let bs ← readSpot 1024 (.loc spS src)
  sendWell w (.ld row.toNat bs)

/-- The 64 indices of TQ.Q and TQ.QS (R216). -/
def queryIndices (l : Nat) (a : BitVec 5) (wide : Bool) : M (List Nat) := do
  if wide && a = 31#5 then tableTrap l 2
  let v ← rv a
  if wide then do
    let u ← rv (a + 1)
    pure ((List.range 64).map fun p => if p < 32 then (lane v 16 p).toNat else (lane u 16 (p - 32)).toNat)
  else pure ((List.range 64).map fun p => (lane v 8 p).toNat)

/-- TQ.Q (R216): to v registers from D, or to A at the address in D. Of several traps the first here is taken, and a group of
registers may end at v31: R216 leaves both open (DESIGN CHOICE, log entry 84). -/
def execTqQ (d a b : BitVec 5) (o : BitVec 1) : State → Out := instr 4 do
  notInHandler (.tqQ d a b o)
  let (l, w) ← wellFor b
  let tab ← rox 0
  let ox1 ← rox 1
  if badTable tab || (o = 1#1 && bits ox1 63 4 ≠ 0) then tableTrap l 1
  let size := tabSize tab
  if o = 0#1 && 32 < d.toNat + size then tableTrap l 2
  let idx ← queryIndices l a (tabWide tab)
  if o = 1#1 then do
    let x ← rg d
    let addr := x.toNat % 65536
    trapIf (addr % 64 ≠ 0) 0x03 (BitVec.ofNat 64 addr)
    trapIf (decide (0x10000 < addr + 64 * size)) 0x04 (BitVec.ofNat 64 addr)
    wellAdmits w .read
    let s ← ask
    waitUntil (!matrixBefore s spA addr (64 * size))
    takeQuery
    let cc : BitVec 4 := ox1.setWidth 4
    post (64 * size) cc
    sendWell w (.q tab idx (some addr) cc d)
  else do
    each (fun i => claim (.v (d + BitVec.ofNat 5 i))) (List.range size)
    wellAdmits w .read
    takeQuery
    each (fun i => addLock (.v (d + BitVec.ofNat 5 i)) 0) (List.range size)
    sendWell w (.q tab idx none 0 d)

/-- The group size of a code. -/
def groupSize (g : BitVec 2) : Nat := if g = 0 then 8 else if g = 1 then 16 else 64

/-- TQ.QS (R217). -/
def execTqQs (d a b : BitVec 5) (g : BitVec 2) : State → Out := instr 4 do
  notInHandler (.tqQs d a b g)
  let (l, w) ← wellFor b
  let tab ← rox 0
  let ox1 ← rox 1
  if badTable tab || bits ox1 47 0 ≠ 0 then tableTrap l 1
  let idx ← queryIndices l a (tabWide tab)
  claim (.v d)
  wellAdmits w .read
  takeQuery
  addLock (.v d) 0
  sendWell w (.qs tab idx (groupSize g) (bits ox1 63 48) d)

/-- A scan's page translated (R219): cause 0x04 in the S window, which no page lies in. -/
def scanPage (va : VA) (a : Acc) : M (Leaf × Nat) := do
  trapIf (windowOf va).isSome 0x04 (va.setWidth 64)
  let l ← leafFor va a
  let pa := leafPa l va
  pure (l, pa)

/-- The access table of a scan's page asked (R219, R428, R445). -/
def scanAdmits (va : VA) (pa cls : Nat) (p : Perm) : M Unit := do
  let s ← ask
  let c ← cur
  if admits s cls c.asid.toNat p pa (dieOf s.core) && !inPeer pa then pure ()
  else do
    update fun s => portRefusal s pa cls c.asid.toNat s.core
    trapM 0x05 (va.setWidth 64)

/-- How many sums of a scan, from a physical address on, memory admits (R427): a table is asked once for each unit of 2 MiB. -/
def sumsAdmitted (s : State) (asid die : Nat) : Nat → Nat → Nat
  | 0, _ => 0
  | f + 1, pa =>
    if admits s 1 asid .write pa die then
      let n := (0x200000 - pa % 0x200000) / 4
      n + sumsAdmitted s asid die f (pa + 4 * n)
    else 0

/-- The chunk of a scan that begins with item `n` (R219): its pages translated, its bytes posted, the chunk sent; the item that
the next one begins with. A chunk ends before the first sum that memory refuses, at which the next one then traps (DESIGN
CHOICE, log entry 85). An execution's first chunk takes a place among the outstanding table queries (R220). -/
def scanChunk (w : Nat) (tab ox1 : W64) (items width : Nat) (src dst : W64) (n : Nat) : M Nat := do
  let c ← cur
  if c.midway then pure ()
  else do
    queryTurn
    let seq ← fresh
    modCur fun c => { c with scans := (seq, 0) :: c.scans.filter (·.2 ≠ 0) }
  let iva : VA := (src + BitVec.ofNat 64 (n * width)).setWidth 56
  let sva : VA := (dst + BitVec.ofNat 64 (4 * n)).setWidth 56
  let (il, ipa) ← scanPage iva .load
  trapIf (!leafWell il.entry || decide (bankOf ipa ≠ some (wellDie w, wellBank w))) 0x04 (iva.setWidth 64)
  scanAdmits iva ipa 0 .read
  let (sl, spa) ← scanPage sva .store
  trapIf (leafFmt sl.entry ≠ 0) 0x04 (sva.setWidth 64)
  scanAdmits sva spa 1 .write
  let s ← ask
  let k := min (items - n) (min ((0x200000 - iva.toNat % 0x200000) / width) ((2 ^ sl.bits - sva.toNat % 2 ^ sl.bits) / 4))
  let k := min k (sumsAdmitted s c.asid.toNat (dieOf s.core) 8 spa)
  let cc : BitVec 4 := ox1.setWidth 4
  post (4 * k) cc
  let c ← cur
  let seq := (c.scans.headD (0, 0)).1
  modCur fun c => { c with scans := c.scans.map fun p => if p.1 = seq then (seq, p.2 + k) else p }
  sendWell w (.scan tab (groupSize (ox1.extractLsb' 16 2)) (bits ox1 63 48) iva sva (tagOf il) (tagOf sl) ipa spa k cc seq)
  pure (n + k)

/-- TQ.SCAN (R218, R219): restartable, its progress in ox6 and ox7; it sends one chunk as its context issues. -/
def execTqScan (d : BitVec 5) : State → Out := restartable 4 do
  notInHandler (.tqScan d)
  let (l, w) ← wellFor d
  let tab ← rox 0
  let ox1 ← rox 1
  let src ← rox 2
  let ox3 ← rox 3
  let dst ← rox 4
  if badTable tab || bits ox1 47 18 ≠ 0 || bits ox1 17 16 = 3 || bits ox1 15 4 ≠ 0 || bits ox3 63 32 ≠ 0 then tableTrap l 1
  let width := groupSize (ox1.extractLsb' 16 2) * (if tabWide tab then 2 else 1)
  trapIf (src.toNat % width ≠ 0) 0x03 (src &&& 0xFFFFFFFFFFFFFF)
  trapIf (dst.toNat % 4 ≠ 0) 0x03 (dst &&& 0xFFFFFFFFFFFFFF)
  let ox6 ← rox 6
  let ox7 ← rox 7
  trapIf (ox7 ≠ 0#64 && (decide (bits ox7 63 58 ≠ 0x2C) || decide (bits ox7 57 55 ≠ 3))) 0x02 ox7
  let n := if ox7 = 0#64 then 0 else ox6.toNat
  let items := bits ox3 31 0
  wellAdmits w .read
  let m ← (if n < items then scanChunk w tab ox1 items width src dst n else pure n)
  if m < items then do
    wox 6 (BitVec.ofNat 64 m)
    wox 7 (at64 0x2C 58 ||| at64 3 55 ||| 1)
    pure false
  else do
    wox 6 0
    wox 7 0
    pure true

/-- TQ.WAIT (R220). -/
def execTqWait (d : BitVec 5) : State → Out := instr 4 do
  notInHandler (.tqWait d)
  claim (.g d)
  let c ← cur
  waitUntil (queriesOut c = 0)
  modCur fun c => { c with qstat := 0 }
  wg d (c.qstat.setWidth 64)

/-! ## Service at the well (R212, R217, R219, R221, R223) -/

/-- An entry of a table as its raw bits: its flags say that the index was out of range, and that its row held an error. -/
def tableEntry (d : Die) (w : Nat) (tab : W64) (i : Nat) : Nat × Bool × Bool :=
  if tabLen tab ≤ i then (0, true, false)
  else
    let at_ := wellBank w * wellSize + tabBase tab + i * tabSize tab
    if d.badRows.contains (at_ / 1024) then (0, false, true)
    else (natOf (bytesGet d.wells at_ (tabSize tab)), false, false)

/-- An entry widened to the 32 bits that are summed (R217). -/
def widenEntry (tab : W64) (x : Nat) : BitVec 32 :=
  let w := 8 * tabSize tab
  if tabType tab = 1 then
    if tabEnt tab = 0 then elemGet 2 (toBytes 1 x) else if tabEnt tab = 1 then elemGet 1 (toBytes 2 x) else BitVec.ofNat 32 x
  else if tabType tab = 0 then BitVec.ofInt 32 (signedOf w x) else BitVec.ofNat 32 x

/-- The pairwise tree of R119 over 2^k entries. -/
def pairSum (fp : Bool) : Nat → List (BitVec 32) → BitVec 32
  | 0, xs => let x := xs.headD 0; if fp && (num32 x).isNan then 0x7FC00000 else x
  | k + 1, xs =>
    let a := pairSum fp k (xs.take (2 ^ k))
    let b := pairSum fp k (xs.drop (2 ^ k))
    if fp then (add32 a b).1 else a + b

/-- A group's sum, with its flags (R217): effective indices and the tree in index order. -/
def sumGroup (d : Die) (w : Nat) (tab : W64) (g stride : Nat) (idx : List Nat) : BitVec 32 × Bool × Bool :=
  let es := idx.zipIdx.map fun p => tableEntry d w tab (p.1 + p.2 % g * stride)
  (pairSum (tabType tab = 1) g.log2 (es.map fun e => widenEntry tab e.1), es.any (·.2.1), es.any (·.2.2))

/-- A row's error reported (R223, R461). -/
def wellError (s : State) (w : Nat) (who : Who) (ue : Bool) : State :=
  if ue then report s 2 2 w 0 0 who.asid.toNat who.core.toNat else s

/-- A request whose service is over leaves the queue, or a scan moves to its next item. -/
def wellNext (s : State) (die id : Nat) (op : Option WellOp) : State :=
  modDie s die fun d => { d with
    wellQ := match op with
      | none => d.wellQ.filter (·.id ≠ id)
      | some o => d.wellQ.map fun r => if r.id = id then { r with op := o } else r }

/-- One service of a request at its well (R221), which wakes its channel (R465). A scan's item whose index line is in error has
the sum 0 (R219 gives none; DESIGN CHOICE, log entry 85). -/
def serveWell (s : State) (die : Nat) (r : WellReq) : State :=
  let s := wakeChannel s die (wellBank r.well / 64)
  let d := getDie s die
  match r.op with
  | .ld row bs =>
    let row := wellBank r.well * 512 + row
    let s := modDie s die fun d => { d with
      wells := bytesSet d.wells (row * 1024) bs, badRows := d.badRows.filter (· ≠ row) }
    deliver (wellNext s die r.id none) r.who fun c => { c with tqOut := c.tqOut - 1 }
  | .q tab idx toA cc v =>
    let es := idx.map (tableEntry d r.well tab)
    let oor := es.any (·.2.1)
    let ue := es.any (·.2.2)
    let bytes := es.flatMap fun e => toBytes (tabSize tab) e.1
    let vals := if toA.isSome then [] else (chunks 64 (tabSize tab) bytes).map vecOf
    let s := wellNext (wellError s r.well r.who ue) die r.id none
    sometime s .queryResultLand (.query ⟨r.who, toA, v, vals, if toA.isSome then bytes else [], cc, oor, ue⟩)
  | .qs tab idx g stride v =>
    let sums := (chunks g (64 / g) idx).map (sumGroup d r.well tab g stride)
    let ue := sums.any (·.2.2)
    let val := ofLanes 32 (64 / g) fun i => (sums.getD i (0, false, false)).1
    let s := wellNext (wellError s r.well r.who ue) die r.id none
    sometime s .queryResultLand (.query ⟨r.who, none, v, [val], [], 0, sums.any (·.2.1), ue⟩)
  | .scan tab g stride iva sva ileaf sleaf ipa spa left cc seq =>
    let width := if tabWide tab then 2 else 1
    let bad := (List.range (g * width)).any fun i => badAt s (ipa + i)
    let s := wake s ipa
    let idx := (chunks width g (memRead s ipa (g * width))).map natOf
    let (sum, oor, ue) := if bad then (0, false, true) else sumGroup d r.well tab g stride idx
    let s := if bad then report s 2 1 (channelUnit s ipa) (lineOf ipa * 64) 0 r.who.asid.toNat r.who.core.toNat
      else wellError s r.well r.who ue
    let s := wellNext s die r.id
      (if left ≤ 1 then none
       else some (.scan tab g stride (iva + BitVec.ofNat 56 (g * width)) (sva + 4) ileaf sleaf (ipa + g * width) (spa + 4)
        (left - 1) cc seq))
    let s := if left ≤ 1 then s else sometime s .wellService (.num die r.id 0)
    laterAfter s .scanSumLand (.sum ⟨r.who, sleaf, spa, sum, cc, oor, ue, seq⟩) fun q => match q.arg with
      | .sum x => decide (x.who = r.who)
      | _ => false

/-- WELL_SERVICE (R221): operands the die and the request. Requests of one context to one well are served in issue order. -/
def execWellService : State → Out := event .wellService do
  let s ← ask
  match s.arg with
  | .num die id _ =>
    let q := (getDie s die).wellQ
    match q.find? (·.id = id) with
    | none => pure ()
    | some r =>
      if (q.takeWhile (·.id ≠ id)).any fun o => o.who = r.who && o.well = r.well then
        update fun s => sometime s .wellService (.num die id 0)
      else update fun s => serveWell s die r
  | _ => pure ()

/-- The status bits of a query. -/
def queryFlags (oor ue : Bool) : BitVec 2 := (if ue then 1#1 else 0#1) ++ (if oor then 1#1 else 0#1)

/-- A query's end at its context: its registers, its flags and its place among the outstanding ones (R216, R217, R220). -/
def queryDone (r : QueryResult) (c : Ctx) : Ctx :=
  let c := r.vals.zipIdx.foldl (fun c v =>
    let reg := r.d + BitVec.ofNat 5 v.2
    unlock (vSet c reg v.1) (.v reg)) c
  { c with qstat := c.qstat ||| queryFlags r.oor r.ue, tqOut := c.tqOut - 1 }

/-- QUERY_RESULT_LAND (R216, R217): operand the result. In A it lands in aligned pieces of the port's 128 bytes, one in a cycle
in which the port is free, each counted as it lands (R29, R35). -/
def execQueryResultLand : State → Out := event .queryResultLand do
  let s ← ask
  match s.arg with
  | .query r =>
    let core := r.who.core.toNat
    match r.toA with
    | none => update fun s => deliver s r.who (queryDone r)
    | some a =>
      if portBusy (getCore s core) spA (now s) then update fun s => later s 1 .queryResultLand (.query r)
      else do
        let n := min r.bytes.length (128 - a % 128)
        if (getCore s core).powered then
          update fun s => modCore s core fun c => usePort (engineWrite c spA a (r.bytes.take n)) spA (now s)
        update fun s => deliver s r.who (countDone n r.cc)
        if n < r.bytes.length then
          update fun s => later s 1 .queryResultLand (.query { r with toA := some (a + n), bytes := r.bytes.drop n })
        else update fun s => deliver s r.who (queryDone r)
  | _ => pure ()

/-- SCAN_SUM_LAND (R219): operand the sum; it goes to memory without passing a cluster cache. -/
def execScanSumLand : State → Out := event .scanSumLand do
  let s ← ask
  match s.arg with
  | .sum r => do
    update fun s => memPut s r.pa (toBytes 4 r.val.toNat)
    update fun s => deliver s r.who fun c =>
      let c := countDone 4 r.cc c
      { c with
        qstat := c.qstat ||| queryFlags r.oor r.ue
        scans := c.scans.map fun p => if p.1 = r.seq then (p.1, p.2 - 1) else p }
  | _ => pure ()

/-! ## The special-function unit (R224 to R226) -/

/-- A special-function instruction: it enters its cluster's queue, and D is interlocked until it is served. -/
def special (op : BitVec 3) (d a : BitVec 5) : M Unit := do
  let x ← rv a
  claim (.v d)
  let s ← ask
  waitUntil (!sfuFull s (clusterOf s.core) 1)
  let me ← whoNow
  addLock (.v d) 0
  update fun s => pushSfu s ⟨0, 0, me, op, x, d⟩

/-- SF.RCP (R224). -/
def execSfRcp (d a : BitVec 5) : State → Out := instrG 4 (special 0 d a)
/-- SF.RSQ (R224). -/
def execSfRsq (d a : BitVec 5) : State → Out := instrG 4 (special 1 d a)
/-- SF.SQRT (R224). -/
def execSfSqrt (d a : BitVec 5) : State → Out := instrG 4 (special 2 d a)
/-- SF.EXP2 (R224). -/
def execSfExp2 (d a : BitVec 5) : State → Out := instrG 4 (special 3 d a)
/-- SF.LOG2 (R224). -/
def execSfLog2 (d a : BitVec 5) : State → Out := instrG 4 (special 4 d a)

/-- SFU_SERVE (R224 to R226): operands the cluster and the entry, which may have been removed meanwhile. -/
def execSfuServe : State → Out := event .sfuServe do
  let s ← ask
  match s.arg with
  | .num cl id _ =>
    match (getCluster s cl).sfu.find? (·.id = id) with
    | none => pure ()
    | some e => do
      let out := (List.range 16).map fun i => sfuLane e.op.toNat (lane e.a 32 i)
      let val := ofLanes 32 16 fun i => (out.getD i (0, 0)).1
      let fl := out.foldl (fun f r => f ||| r.2) 0
      update fun s => modCluster s cl fun c => { c with sfu := c.sfu.filter (·.id ≠ id) }
      update fun s => deliver s e.who fun c => { unlock (vSet c e.d val) (.v e.d) with fpstat := c.fpstat ||| fl }
  | _ => pure ()

end Sys2Proof.Machine
end

