-- ==== Sys2Proof/Machine/Dispatch.lean ====
section
/-! DEFINITION. The dispatch of every instruction and event to its meaning (03_opcode_map.md R80, R82). -/
namespace Sys2Proof.Machine
open Sys2Proof

def exec (i : Instr) (s : State) : Host.Outcome State Fault Refusal :=
  match i with
  | .add d a b => Sys2Proof.Machine.execAdd d a b s
  | .sub d a b => Sys2Proof.Machine.execSub d a b s
  | .and d a b => Sys2Proof.Machine.execAnd d a b s
  | .or d a b => Sys2Proof.Machine.execOr d a b s
  | .xor d a b => Sys2Proof.Machine.execXor d a b s
  | .shl d a b => Sys2Proof.Machine.execShl d a b s
  | .shr d a b => Sys2Proof.Machine.execShr d a b s
  | .sha d a b => Sys2Proof.Machine.execSha d a b s
  | .mul d a b => Sys2Proof.Machine.execMul d a b s
  | .mulh d a b => Sys2Proof.Machine.execMulh d a b s
  | .mulhn d a b => Sys2Proof.Machine.execMulhn d a b s
  | .div d a b => Sys2Proof.Machine.execDiv d a b s
  | .divn d a b => Sys2Proof.Machine.execDivn d a b s
  | .rem d a b => Sys2Proof.Machine.execRem d a b s
  | .remn d a b => Sys2Proof.Machine.execRemn d a b s
  | .min d a b => Sys2Proof.Machine.execMin d a b s
  | .max d a b => Sys2Proof.Machine.execMax d a b s
  | .minn d a b => Sys2Proof.Machine.execMinn d a b s
  | .maxn d a b => Sys2Proof.Machine.execMaxn d a b s
  | .slt d a b => Sys2Proof.Machine.execSlt d a b s
  | .sltn d a b => Sys2Proof.Machine.execSltn d a b s
  | .clz d a => Sys2Proof.Machine.execClz d a s
  | .ctz d a => Sys2Proof.Machine.execCtz d a s
  | .popc d a => Sys2Proof.Machine.execPopc d a s
  | .addi d a i1 => Sys2Proof.Machine.execAddi d a i1 s
  | .andi d a i1 => Sys2Proof.Machine.execAndi d a i1 s
  | .ori d a i1 => Sys2Proof.Machine.execOri d a i1 s
  | .xori d a i1 => Sys2Proof.Machine.execXori d a i1 s
  | .slti d a i1 => Sys2Proof.Machine.execSlti d a i1 s
  | .shli d a n => Sys2Proof.Machine.execShli d a n s
  | .shri d a n => Sys2Proof.Machine.execShri d a n s
  | .shai d a n => Sys2Proof.Machine.execShai d a n s
  | .tern d a b t => Sys2Proof.Machine.execTern d a b t s
  | .fshl d a b n => Sys2Proof.Machine.execFshl d a b n s
  | .fshr d a b n => Sys2Proof.Machine.execFshr d a b n s
  | .bext d a p l => Sys2Proof.Machine.execBext d a p l s
  | .bins d a p l => Sys2Proof.Machine.execBins d a p l s
  | .csel d a b c => Sys2Proof.Machine.execCsel d a b c s
  | .lui d i1 => Sys2Proof.Machine.execLui d i1 s
  | .addpc d i1 => Sys2Proof.Machine.execAddpc d i1 s
  | .beq a b o => Sys2Proof.Machine.execBeq a b o s
  | .bne a b o => Sys2Proof.Machine.execBne a b o s
  | .blt a b o => Sys2Proof.Machine.execBlt a b o s
  | .bge a b o => Sys2Proof.Machine.execBge a b o s
  | .bltn a b o => Sys2Proof.Machine.execBltn a b o s
  | .bgen a b o => Sys2Proof.Machine.execBgen a b o s
  | .jal d o => Sys2Proof.Machine.execJal d o s
  | .jalr d a i1 => Sys2Proof.Machine.execJalr d a i1 s
  | .ldb d a o => Sys2Proof.Machine.execLdb d a o s
  | .ldbn d a o => Sys2Proof.Machine.execLdbn d a o s
  | .ldh d a o => Sys2Proof.Machine.execLdh d a o s
  | .ldhn d a o => Sys2Proof.Machine.execLdhn d a o s
  | .ldw d a o => Sys2Proof.Machine.execLdw d a o s
  | .ldwn d a o => Sys2Proof.Machine.execLdwn d a o s
  | .ldd d a o => Sys2Proof.Machine.execLdd d a o s
  | .ldbA d a o => Sys2Proof.Machine.execLdbA d a o s
  | .ldbnA d a o => Sys2Proof.Machine.execLdbnA d a o s
  | .ldhA d a o => Sys2Proof.Machine.execLdhA d a o s
  | .ldhnA d a o => Sys2Proof.Machine.execLdhnA d a o s
  | .ldwA d a o => Sys2Proof.Machine.execLdwA d a o s
  | .ldwnA d a o => Sys2Proof.Machine.execLdwnA d a o s
  | .lddA d a o => Sys2Proof.Machine.execLddA d a o s
  | .ldbS d a o => Sys2Proof.Machine.execLdbS d a o s
  | .ldbnS d a o => Sys2Proof.Machine.execLdbnS d a o s
  | .ldhS d a o => Sys2Proof.Machine.execLdhS d a o s
  | .ldhnS d a o => Sys2Proof.Machine.execLdhnS d a o s
  | .ldwS d a o => Sys2Proof.Machine.execLdwS d a o s
  | .ldwnS d a o => Sys2Proof.Machine.execLdwnS d a o s
  | .lddS d a o => Sys2Proof.Machine.execLddS d a o s
  | .stb a b o => Sys2Proof.Machine.execStb a b o s
  | .sth a b o => Sys2Proof.Machine.execSth a b o s
  | .stw a b o => Sys2Proof.Machine.execStw a b o s
  | .std a b o => Sys2Proof.Machine.execStd a b o s
  | .stbA a b o => Sys2Proof.Machine.execStbA a b o s
  | .sthA a b o => Sys2Proof.Machine.execSthA a b o s
  | .stwA a b o => Sys2Proof.Machine.execStwA a b o s
  | .stdA a b o => Sys2Proof.Machine.execStdA a b o s
  | .stflA a b o => Sys2Proof.Machine.execStflA a b o s
  | .clreA a o => Sys2Proof.Machine.execClreA a o s
  | .stbS a b o => Sys2Proof.Machine.execStbS a b o s
  | .sthS a b o => Sys2Proof.Machine.execSthS a b o s
  | .stwS a b o => Sys2Proof.Machine.execStwS a b o s
  | .stdS a b o => Sys2Proof.Machine.execStdS a b o s
  | .stflS a b o => Sys2Proof.Machine.execStflS a b o s
  | .clreS a o => Sys2Proof.Machine.execClreS a o s
  | .ldwt d a b s1 => Sys2Proof.Machine.execLdwt d a b s1 s
  | .tstf d a b s1 => Sys2Proof.Machine.execTstf d a b s1 s
  | .lde d a b => Sys2Proof.Machine.execLde d a b s
  | .ste d a b => Sys2Proof.Machine.execSte d a b s
  | .pf a b => Sys2Proof.Machine.execPf a b s
  | .vld d a b s1 => Sys2Proof.Machine.execVld d a b s1 s
  | .vst d a b s1 => Sys2Proof.Machine.execVst d a b s1 s
  | .vlds d a b w s1 => Sys2Proof.Machine.execVlds d a b w s1 s
  | .vldx d a b w s1 => Sys2Proof.Machine.execVldx d a b w s1 s
  | .vstx d a b w s1 => Sys2Proof.Machine.execVstx d a b w s1 s
  | .vlde d a b f s1 => Sys2Proof.Machine.execVlde d a b f s1 s
  | .vste d a b f s1 => Sys2Proof.Machine.execVste d a b f s1 s
  | .vadd d a b e => Sys2Proof.Machine.execVadd d a b e s
  | .vsub d a b e => Sys2Proof.Machine.execVsub d a b e s
  | .vmul d a b e => Sys2Proof.Machine.execVmul d a b e s
  | .vmin d a b e => Sys2Proof.Machine.execVmin d a b e s
  | .vmax d a b e => Sys2Proof.Machine.execVmax d a b e s
  | .vabs d a e => Sys2Proof.Machine.execVabs d a e s
  | .vfma d a b e => Sys2Proof.Machine.execVfma d a b e s
  | .vfms d a b e => Sys2Proof.Machine.execVfms d a b e s
  | .vand d a b e => Sys2Proof.Machine.execVand d a b e s
  | .vor d a b e => Sys2Proof.Machine.execVor d a b e s
  | .vxor d a b e => Sys2Proof.Machine.execVxor d a b e s
  | .vshl d a b e => Sys2Proof.Machine.execVshl d a b e s
  | .vshr d a b e => Sys2Proof.Machine.execVshr d a b e s
  | .vsha d a b e => Sys2Proof.Machine.execVsha d a b e s
  | .vfshl d a b e => Sys2Proof.Machine.execVfshl d a b e s
  | .vfshr d a b e => Sys2Proof.Machine.execVfshr d a b e s
  | .vtern d a b t => Sys2Proof.Machine.execVtern d a b t s
  | .vcmp k a b e c => Sys2Proof.Machine.execVcmp k a b e c s
  | .vsel d a b e k => Sys2Proof.Machine.execVsel d a b e k s
  | .vcvt d a b t s1 => Sys2Proof.Machine.execVcvt d a b t s1 s
  | .vred d a e o => Sys2Proof.Machine.execVred d a e o s
  | .vscan d a e o => Sys2Proof.Machine.execVscan d a e o s
  | .vperm d a b e => Sys2Proof.Machine.execVperm d a b e s
  | .vbcast d a e => Sys2Proof.Machine.execVbcast d a e s
  | .vext d a b e => Sys2Proof.Machine.execVext d a b e s
  | .vins d a b e => Sys2Proof.Machine.execVins d a b e s
  | .vpack d a b e => Sys2Proof.Machine.execVpack d a b e s
  | .vunpk d a e h => Sys2Proof.Machine.execVunpk d a e h s
  | .vpopc d a e => Sys2Proof.Machine.execVpopc d a e s
  | .kand d a b => Sys2Proof.Machine.execKand d a b s
  | .kor d a b => Sys2Proof.Machine.execKor d a b s
  | .knot d a => Sys2Proof.Machine.execKnot d a s
  | .kmov d a => Sys2Proof.Machine.execKmov d a s
  | .kmovKg d a => Sys2Proof.Machine.execKmovKg d a s
  | .kmovGk d a => Sys2Proof.Machine.execKmovGk d a s
  | .gang d n => Sys2Proof.Machine.execGang d n s
  | .mzero t => Sys2Proof.Machine.execMzero t s
  | .mldb d a f h v w => Sys2Proof.Machine.execMldb d a f h v w s
  | .mma t a b h v w => Sys2Proof.Machine.execMma t a b h v w s
  | .mdrain t x a b h f c => Sys2Proof.Machine.execMdrain t x a b h f c s
  | .mscale t b v i1 => Sys2Proof.Machine.execMscale t b v i1 s
  | .mstat d a s1 => Sys2Proof.Machine.execMstat d a s1 s
  | .mtr d a f h v w => Sys2Proof.Machine.execMtr d a f h v w s
  | .tqLd d a b => Sys2Proof.Machine.execTqLd d a b s
  | .tqQ d a b o => Sys2Proof.Machine.execTqQ d a b o s
  | .tqQs d a b g => Sys2Proof.Machine.execTqQs d a b g s
  | .tqScan d => Sys2Proof.Machine.execTqScan d s
  | .tqWait d => Sys2Proof.Machine.execTqWait d s
  | .sfRcp d a => Sys2Proof.Machine.execSfRcp d a s
  | .sfRsq d a => Sys2Proof.Machine.execSfRsq d a s
  | .sfSqrt d a => Sys2Proof.Machine.execSfSqrt d a s
  | .sfExp2 d a => Sys2Proof.Machine.execSfExp2 d a s
  | .sfLog2 d a => Sys2Proof.Machine.execSfLog2 d a s
  | .hset h a => Sys2Proof.Machine.execHset h a s
  | .hwait h w => Sys2Proof.Machine.execHwait h w s
  | .hadv h n => Sys2Proof.Machine.execHadv h n s
  | .hpub h n => Sys2Proof.Machine.execHpub h n s
  | .hstat d h c => Sys2Proof.Machine.execHstat d h c s
  | .cpGet d a p => Sys2Proof.Machine.execCpGet d a p s
  | .cpPut d a p => Sys2Proof.Machine.execCpPut d a p s
  | .cpGath d a b p => Sys2Proof.Machine.execCpGath d a b p s
  | .cpScat d a b p => Sys2Proof.Machine.execCpScat d a b p s
  | .cpRed d a p => Sys2Proof.Machine.execCpRed d a p s
  | .cpStat d a p => Sys2Proof.Machine.execCpStat d a p s
  | .cpWait d a => Sys2Proof.Machine.execCpWait d a s
  | .ccSet c a => Sys2Proof.Machine.execCcSet c a s
  | .ccWait d c => Sys2Proof.Machine.execCcWait d c s
  | .sleepP a => Sys2Proof.Machine.execSleepP a s
  | .sleepC a => Sys2Proof.Machine.execSleepC a s
  | .pget a b s1 => Sys2Proof.Machine.execPget a b s1 s
  | .pput a b s1 => Sys2Proof.Machine.execPput a b s1 s
  | .ctrb a n => Sys2Proof.Machine.execCtrb a n s
  | .grd d n => Sys2Proof.Machine.execGrd d n s
  | .grpset a n => Sys2Proof.Machine.execGrpset a n s
  | .ssIsect d s1 => Sys2Proof.Machine.execSsIsect d s1 s
  | .ssUnion d s1 => Sys2Proof.Machine.execSsUnion d s1 s
  | .ssMerge d s1 => Sys2Proof.Machine.execSsMerge d s1 s
  | .ssDiff d s1 => Sys2Proof.Machine.execSsDiff d s1 s
  | .ssSeek d => Sys2Proof.Machine.execSsSeek d s
  | .jwOpen w a => Sys2Proof.Machine.execJwOpen w a s
  | .jwNext d k w => Sys2Proof.Machine.execJwNext d k w s
  | .jwCnt d a w => Sys2Proof.Machine.execJwCnt d a w s
  | .jwClose w => Sys2Proof.Machine.execJwClose w s
  | .kacc d a b m t => Sys2Proof.Machine.execKacc d a b m t s
  | .kexp d a b m => Sys2Proof.Machine.execKexp d a b m s
  | .kflush d a t => Sys2Proof.Machine.execKflush d a t s
  | .kcnt a b m => Sys2Proof.Machine.execKcnt a b m s
  | .amoadd d a b => Sys2Proof.Machine.execAmoadd d a b s
  | .amoand d a b => Sys2Proof.Machine.execAmoand d a b s
  | .amoor d a b => Sys2Proof.Machine.execAmoor d a b s
  | .amoxor d a b => Sys2Proof.Machine.execAmoxor d a b s
  | .amomin d a b => Sys2Proof.Machine.execAmomin d a b s
  | .amomax d a b => Sys2Proof.Machine.execAmomax d a b s
  | .amominn d a b => Sys2Proof.Machine.execAmominn d a b s
  | .amomaxn d a b => Sys2Proof.Machine.execAmomaxn d a b s
  | .amoswp d a b => Sys2Proof.Machine.execAmoswp d a b s
  | .amocas d a b => Sys2Proof.Machine.execAmocas d a b s
  | .amofadd d a b => Sys2Proof.Machine.execAmofadd d a b s
  | .redadd a b => Sys2Proof.Machine.execRedadd a b s
  | .redmin a b => Sys2Proof.Machine.execRedmin a b s
  | .redmax a b => Sys2Proof.Machine.execRedmax a b s
  | .redfadd a b => Sys2Proof.Machine.execRedfadd a b s
  | .redor a b => Sys2Proof.Machine.execRedor a b s
  | .bind d a b => Sys2Proof.Machine.execBind d a b s
  | .unbind d a b => Sys2Proof.Machine.execUnbind d a b s
  | .acq d a s1 => Sys2Proof.Machine.execAcq d a s1 s
  | .rel a => Sys2Proof.Machine.execRel a s
  | .fence s1 k => Sys2Proof.Machine.execFence s1 k s
  | .barInit a n => Sys2Proof.Machine.execBarInit a n s
  | .barEnrol n => Sys2Proof.Machine.execBarEnrol n s
  | .barArr n => Sys2Proof.Machine.execBarArr n s
  | .barWait n => Sys2Proof.Machine.execBarWait n s
  | .barSig a n => Sys2Proof.Machine.execBarSig a n s
  | .barDrop n => Sys2Proof.Machine.execBarDrop n s
  | .barGrel n g => Sys2Proof.Machine.execBarGrel n g s
  | .msgSend d a b => Sys2Proof.Machine.execMsgSend d a b s
  | .msgSendw d a b => Sys2Proof.Machine.execMsgSendw d a b s
  | .msgStat d a => Sys2Proof.Machine.execMsgStat d a s
  | .msgMask a => Sys2Proof.Machine.execMsgMask a s
  | .msgUnmask a => Sys2Proof.Machine.execMsgUnmask a s
  | .swRd d a => Sys2Proof.Machine.execSwRd d a s
  | .swAdd d a b t => Sys2Proof.Machine.execSwAdd d a b t s
  | .swMax d a b t => Sys2Proof.Machine.execSwMax d a b t s
  | .swSwap d a b => Sys2Proof.Machine.execSwSwap d a b s
  | .swCas d a b => Sys2Proof.Machine.execSwCas d a b s
  | .swBoard d a b => Sys2Proof.Machine.execSwBoard d a b s
  | .swAlight a => Sys2Proof.Machine.execSwAlight a s
  | .swWait d => Sys2Proof.Machine.execSwWait d s
  | .fork d a b => Sys2Proof.Machine.execFork d a b s
  | .join a => Sys2Proof.Machine.execJoin a s
  | .halt r a => Sys2Proof.Machine.execHalt r a s
  | .haltj a => Sys2Proof.Machine.execHaltj a s
  | .suspend a => Sys2Proof.Machine.execSuspend a s
  | .oxl n c i1 => Sys2Proof.Machine.execOxl n c i1 s
  | .oxm n a => Sys2Proof.Machine.execOxm n a s
  | .oxmToG d n => Sys2Proof.Machine.execOxmToG d n s
  | .oxld n a o => Sys2Proof.Machine.execOxld n a o s
  | .oxst a n o => Sys2Proof.Machine.execOxst a n o s
  | .sysrd d i1 => Sys2Proof.Machine.execSysrd d i1 s
  | .syswr a i1 => Sys2Proof.Machine.execSyswr a i1 s
  | .trap a b => Sys2Proof.Machine.execTrap a b s
  | .vpfx m z r x v => Sys2Proof.Machine.execVpfx m z r x v s
  | .addiH d a i1 => Sys2Proof.Machine.execAddiH d a i1 s
  | .addH d a b => Sys2Proof.Machine.execAddH d a b s
  | .subH d a b => Sys2Proof.Machine.execSubH d a b s
  | .andH d a b => Sys2Proof.Machine.execAndH d a b s
  | .orH d a b => Sys2Proof.Machine.execOrH d a b s
  | .xorH d a b => Sys2Proof.Machine.execXorH d a b s
  | .shlH d a b => Sys2Proof.Machine.execShlH d a b s
  | .shrH d a b => Sys2Proof.Machine.execShrH d a b s
  | .shaH d a b => Sys2Proof.Machine.execShaH d a b s
  | .ldwH d a i1 => Sys2Proof.Machine.execLdwH d a i1 s
  | .lddH d a i1 => Sys2Proof.Machine.execLddH d a i1 s
  | .stwH d a i1 => Sys2Proof.Machine.execStwH d a i1 s
  | .stdH d a i1 => Sys2Proof.Machine.execStdH d a i1 s
  | .beqH d a i1 => Sys2Proof.Machine.execBeqH d a i1 s
  | .bneH d a i1 => Sys2Proof.Machine.execBneH d a i1 s
  | .sltiH d a i1 => Sys2Proof.Machine.execSltiH d a i1 s
  | .andiH d a i1 => Sys2Proof.Machine.execAndiH d a i1 s
  | .disband => Sys2Proof.Machine.execDisband s
  | .msgRet => Sys2Proof.Machine.execMsgRet s
  | .yield => Sys2Proof.Machine.execYield s
  | .spillmapWrite => Sys2Proof.Machine.execSpillmapWrite s
  | .eret => Sys2Proof.Machine.execEret s
  | .brk => Sys2Proof.Machine.execBrk s
  | .nop => Sys2Proof.Machine.execNop s
  | .nopH => Sys2Proof.Machine.execNopH s
  | .haltH => Sys2Proof.Machine.execHaltH s
  | .brkH => Sys2Proof.Machine.execBrkH s
  | .asyncTrap => Sys2Proof.Machine.execAsyncTrap s
  | .packageReset => Sys2Proof.Machine.execPackageReset s
  | .linkTraining => Sys2Proof.Machine.execLinkTraining s
  | .powerWindow => Sys2Proof.Machine.execPowerWindow s
  | .thermalThrottle => Sys2Proof.Machine.execThermalThrottle s
  | .thermalTrip => Sys2Proof.Machine.execThermalTrip s
  | .hostMemWrite => Sys2Proof.Machine.execHostMemWrite s
  | .hostMemRead => Sys2Proof.Machine.execHostMemRead s
  | .hostSnoop => Sys2Proof.Machine.execHostSnoop s
  | .boardReg => Sys2Proof.Machine.execBoardReg s
  | .boardUnreg => Sys2Proof.Machine.execBoardUnreg s
  | .boardRemove => Sys2Proof.Machine.execBoardRemove s
  | .asroot => Sys2Proof.Machine.execAsroot s
  | .inval => Sys2Proof.Machine.execInval s
  | .invalidationComplete => Sys2Proof.Machine.execInvalidationComplete s
  | .preempt => Sys2Proof.Machine.execPreempt s
  | .resume => Sys2Proof.Machine.execResume s
  | .kill => Sys2Proof.Machine.execKill s
  | .peerSet => Sys2Proof.Machine.execPeerSet s
  | .regionSet => Sys2Proof.Machine.execRegionSet s
  | .fwLoad => Sys2Proof.Machine.execFwLoad s
  | .getVersion => Sys2Proof.Machine.execGetVersion s
  | .getCapabilities => Sys2Proof.Machine.execGetCapabilities s
  | .negotiateAlgorithms => Sys2Proof.Machine.execNegotiateAlgorithms s
  | .getDigests => Sys2Proof.Machine.execGetDigests s
  | .getCertificate => Sys2Proof.Machine.execGetCertificate s
  | .challenge => Sys2Proof.Machine.execChallenge s
  | .getMeasurements => Sys2Proof.Machine.execGetMeasurements s
  | .launchRecordTake => Sys2Proof.Machine.execLaunchRecordTake s
  | .launchBind => Sys2Proof.Machine.execLaunchBind s
  | .bindRecordRebind => Sys2Proof.Machine.execBindRecordRebind s
  | .bindRecordRun => Sys2Proof.Machine.execBindRecordRun s
  | .bindRecordEntry => Sys2Proof.Machine.execBindRecordEntry s
  | .bindRecordUnbind => Sys2Proof.Machine.execBindRecordUnbind s
  | .unbindValidClear => Sys2Proof.Machine.execUnbindValidClear s
  | .preemptSave => Sys2Proof.Machine.execPreemptSave s
  | .preemptRestore => Sys2Proof.Machine.execPreemptRestore s
  | .preemptKill => Sys2Proof.Machine.execPreemptKill s
  | .launchComplete => Sys2Proof.Machine.execLaunchComplete s
  | .msixSend => Sys2Proof.Machine.execMsixSend s
  | .contextDispatch => Sys2Proof.Machine.execContextDispatch s
  | .stealBackoffExpire => Sys2Proof.Machine.execStealBackoffExpire s
  | .stealRequestArrive => Sys2Proof.Machine.execStealRequestArrive s
  | .stealReplyArrive => Sys2Proof.Machine.execStealReplyArrive s
  | .dequeMigrate => Sys2Proof.Machine.execDequeMigrate s
  | .bankPowerDown => Sys2Proof.Machine.execBankPowerDown s
  | .cacheEvict => Sys2Proof.Machine.execCacheEvict s
  | .copyPageTranslate => Sys2Proof.Machine.execCopyPageTranslate s
  | .copyPieceLand => Sys2Proof.Machine.execCopyPieceLand s
  | .remoteAccessServe => Sys2Proof.Machine.execRemoteAccessServe s
  | .oneSidedReply => Sys2Proof.Machine.execOneSidedReply s
  | .matrixAccept => Sys2Proof.Machine.execMatrixAccept s
  | .matrixComplete => Sys2Proof.Machine.execMatrixComplete s
  | .slotParityCheck => Sys2Proof.Machine.execSlotParityCheck s
  | .wellService => Sys2Proof.Machine.execWellService s
  | .queryResultLand => Sys2Proof.Machine.execQueryResultLand s
  | .scanSumLand => Sys2Proof.Machine.execScanSumLand s
  | .sfuServe => Sys2Proof.Machine.execSfuServe s
  | .amoApply => Sys2Proof.Machine.execAmoApply s
  | .amoReply => Sys2Proof.Machine.execAmoReply s
  | .reductionApply => Sys2Proof.Machine.execReductionApply s
  | .acqGrant => Sys2Proof.Machine.execAcqGrant s
  | .objectRelease => Sys2Proof.Machine.execObjectRelease s
  | .barSignalArrive => Sys2Proof.Machine.execBarSignalArrive s
  | .groupRoundComplete => Sys2Proof.Machine.execGroupRoundComplete s
  | .groupResultArrive => Sys2Proof.Machine.execGroupResultArrive s
  | .grpsetComplete => Sys2Proof.Machine.execGrpsetComplete s
  | .grelRelease => Sys2Proof.Machine.execGrelRelease s
  | .messageArrive => Sys2Proof.Machine.execMessageArrive s
  | .mailboxRowWrite => Sys2Proof.Machine.execMailboxRowWrite s
  | .handlerStart => Sys2Proof.Machine.execHandlerStart s
  | .messageStatusReturn => Sys2Proof.Machine.execMessageStatusReturn s
  | .ringPassage => Sys2Proof.Machine.execRingPassage s
  | .ringOrigin => Sys2Proof.Machine.execRingOrigin s
  | .boardWindowExpire => Sys2Proof.Machine.execBoardWindowExpire s
  | .alightWriteLand => Sys2Proof.Machine.execAlightWriteLand s
  | .tlbWalkComplete => Sys2Proof.Machine.execTlbWalkComplete s
  | .packetReceive => Sys2Proof.Machine.execPacketReceive s
  | .peerReadRequest => Sys2Proof.Machine.execPeerReadRequest s
  | .packetAck => Sys2Proof.Machine.execPacketAck s
  | .transportFailure => Sys2Proof.Machine.execTransportFailure s
  | .chunkLost => Sys2Proof.Machine.execChunkLost s
  | .sleepWake => Sys2Proof.Machine.execSleepWake s
  | .handleWaitTimeout => Sys2Proof.Machine.execHandleWaitTimeout s
  | .ccWaitTimeout => Sys2Proof.Machine.execCcWaitTimeout s
  | .patrolScrub => Sys2Proof.Machine.execPatrolScrub s
  | .functionFence => Sys2Proof.Machine.execFunctionFence s
  | .channelRetire => Sys2Proof.Machine.execChannelRetire s
  | .selfRefreshEnter => Sys2Proof.Machine.execSelfRefreshEnter s
  | .accessTableWrite => Sys2Proof.Machine.execAccessTableWrite s
  | .accessTableLock => Sys2Proof.Machine.execAccessTableLock s
  | .illegalInstruction => Sys2Proof.Machine.execIllegalInstruction s
  | .fetchFault => Sys2Proof.Machine.execFetchFault s
  | .prefetchFill => Sys2Proof.Machine.execPrefetchFill s
  | .endpointLinkDown => Sys2Proof.Machine.execEndpointLinkDown s
  | .endpointLinkUp => Sys2Proof.Machine.execEndpointLinkUp s
  | .packetRetransmit => Sys2Proof.Machine.execPacketRetransmit s
  | .hdmDecoderSet => Sys2Proof.Machine.execHdmDecoderSet s
  | .eventLogClear => Sys2Proof.Machine.execEventLogClear s
  | .doeDiscovery => Sys2Proof.Machine.execDoeDiscovery s

end Sys2Proof.Machine
end

