-- ==== Sys2Proof/Machine/Step.lean ====
section
/-! DEFINITION. The step of the package: the next instruction of the next core, or the next event, or the next cycle
(25_launch_scheduling.md R415, 01_state.md R29), and the placing of one instruction where a step fetches it. -/
namespace Sys2Proof.Machine
open Sys2Proof

/-- A 16-bit instruction run: its meaning, or the trap of an encoding that is none (R77). -/
noncomputable def runHalf (w : BitVec 16) (s : State) : Out :=
  match decode16 w with
  | .ok i => exec i s
  | .error _ => exec .illegalInstruction s

/-- The same, each short form's meaning called by its fields. -/
def runFields (f : Half) (s : State) : Out :=
  if f.op = 1#4 then
    execAddiH (f.d) (f.a) (f.i) s
  else if f.op = 2#4 then
    if (f.i.extractLsb' 3 2) = 0#2 then execAddH (f.d) (f.a) ((f.i.extractLsb' 0 3)) s else
    if (f.i.extractLsb' 3 2) = 1#2 then execSubH (f.d) (f.a) ((f.i.extractLsb' 0 3)) s else
    if (f.i.extractLsb' 3 2) = 2#2 then execAndH (f.d) (f.a) ((f.i.extractLsb' 0 3)) s else
    if (f.i.extractLsb' 3 2) = 3#2 then execOrH (f.d) (f.a) ((f.i.extractLsb' 0 3)) s else
    exec .illegalInstruction s
  else if f.op = 3#4 then
    if (f.i.extractLsb' 3 2) = 0#2 then execXorH (f.d) (f.a) ((f.i.extractLsb' 0 3)) s else
    if (f.i.extractLsb' 3 2) = 1#2 then execShlH (f.d) (f.a) ((f.i.extractLsb' 0 3)) s else
    if (f.i.extractLsb' 3 2) = 2#2 then execShrH (f.d) (f.a) ((f.i.extractLsb' 0 3)) s else
    if (f.i.extractLsb' 3 2) = 3#2 then execShaH (f.d) (f.a) ((f.i.extractLsb' 0 3)) s else
    exec .illegalInstruction s
  else if f.op = 4#4 then
    execLdwH (f.d) (f.a) (f.i) s
  else if f.op = 5#4 then
    execLddH (f.d) (f.a) (f.i) s
  else if f.op = 6#4 then
    execStwH (f.d) (f.a) (f.i) s
  else if f.op = 7#4 then
    execStdH (f.d) (f.a) (f.i) s
  else if f.op = 8#4 then
    execBeqH (f.d) (f.a) (f.i) s
  else if f.op = 9#4 then
    execBneH (f.d) (f.a) (f.i) s
  else if f.op = 10#4 then
    execSltiH (f.d) (f.a) (f.i) s
  else if f.op = 11#4 then
    execAndiH (f.d) (f.a) (f.i) s
  else if f.op = 15#4 then
    if f.i = 0#5 ∧ f.a = 0#3 ∧ f.d = 0#3 then execNopH s else
    if f.i = 1#5 ∧ f.a = 0#3 ∧ f.d = 0#3 then execHaltH s else
    if f.i = 2#5 ∧ f.a = 0#3 ∧ f.d = 0#3 then execBrkH s else
    exec .illegalInstruction s
  else exec .illegalInstruction s

/-- The same from the word. -/
def runHalfImpl (w : BitVec 16) (s : State) : Out := runFields (Half.ofWord w) s

/-- What a decoding of a short form runs. -/
noncomputable def runAccepted (s : State) (r : Except DecodeError Instr) : Out :=
  match accept r with
  | .ok i => exec i s
  | .error _ => exec .illegalInstruction s

theorem runAccepted_ite (s : State) (c : Prop) [Decidable c] (a b : Except DecodeError Instr) :
    runAccepted s (if c then a else b) = if c then runAccepted s a else runAccepted s b := by
  split <;> rfl

theorem runAccepted_decodeHalf (f : Half) (s : State) : runAccepted s (decodeHalf f) = runFields f s := by
  simp only [decodeHalf, runAccepted_ite]
  rfl

@[csimp]
theorem runHalf_eq_runHalfImpl : @runHalf = @runHalfImpl := by
  funext w s
  exact runAccepted_decodeHalf (Half.ofWord w) s

/-- A 32-bit instruction run. -/
def runWord (w : BitVec 32) (s : State) : Out :=
  match decode32 w with
  | .ok i => exec i s
  | .error _ => exec .illegalInstruction s

/-- The instruction at the head of fetched bytes run; its bytes stand as the operand of an illegal-instruction trap
(R78). -/
def runBytes (bs : List Byte) (s : State) : Out :=
  let s := { s with arg := .word (wordOf bs) 0 0 }
  match halfword bs with
  | none => exec .illegalInstruction s
  | some h0 =>
    if h0.getLsbD 0 then
      match halfword (bs.drop 2) with
      | none => exec .illegalInstruction s
      | some h1 => runWord (h1 ++ h0) s
    else runHalf h0 s

/-- The next thing a context does (R77, R319). -/
def attempt (s : State) : Out := contextStep runBytes exec s

/-- One step of the package. -/
def step (s : State) : Host.Outcome State Fault Refusal := stepWith attempt exec s

/-- The page tables, the access-table row and the context that withFetchWord sets up: address space 1, whose 64 KiB page
at 0 is an executable raw page at physical 0x20_0000, read by instructions of that address space alone; the
context's first halfword stands at the page's start. -/
def fetchPage (s : State) : State :=
  let s := memPut s 0x100000 (toBytes 8 0x8000000000110000)
  let s := memPut s 0x110000 (toBytes 8 0x8000000000120000)
  let s := memPut s 0x120000 (toBytes 8 0x8000000000130000)
  let s := memPut s 0x130000 (toBytes 8 0xC300000000200001)
  let s := modCluster s 0 fun c => { c with
    tlb := [⟨0, 16, some 1, 0xC300000000200001⟩]
    cache := c.cache.filter (fun l => l.line ≠ 0x200000 / 64) }
  let s := modCore s 0 fun c => coreSetCtx { c with powered := true } 0 { coreCtx c 0 with
    run := .running, bound := true, asid := 1, pc := 0, nextIssue := 0, pending := [], replay := []
    await := none, midway := false, leaving := false }
  { s with root := tabPut s.root 1 0x8000000000100000
           access := tabPut s.access 0 0x00008000000000_00C000010001000000#128
           poweredOff := false
           scan := 0 }

/-- A state with one instruction placed where the next step fetches it (DESIGN CHOICE, log entry 15). -/
def State.withFetchWord (s : State) (nbits w : Nat) : State :=
  memPut (fetchPage s) 0x200000 (bytesOf 4 (w % 2 ^ nbits))

end Sys2Proof.Machine
end

