-- ==== Sys2Proof/Safety.lean ====
section
/-! DEFINITION. What the claims speak of: the state of a context that nothing holds up, what every finished instruction
leaves behind beside its own effect, one register written and nothing else, what a cluster sees of memory, and the
invariants of a run. Each is a plain function of the state. -/
namespace Sys2Proof.Machine
open Sys2Proof

/-! ## The current context -/

/-- The context that issues in this step. -/
def here (s : State) : Ctx := getCtx s s.core s.ctx
/-- Its core. -/
def hereCore (s : State) : Core := getCore s s.core
/-- A context with no interlock still running at a cycle (R125). -/
def unlocked (c : Ctx) (t : Nat) : Bool :=
  c.locks.all fun l => match l.till with
    | none => false
    | some u => decide (u ≤ t)
/-- The current context is one of the five of a core of the package, leads no gang, and none of its registers is interlocked: what every
instruction needs to issue by itself (R125, R185). -/
def calm (s : State) : Bool :=
  decide (s.core < 16384) && decide (s.ctx < 5) && !leads s && unlocked (here s) (now s)
/-- The same for a hardware context: the handler may not run some instructions (R21). -/
def calmStrand (s : State) : Bool := calm s && decide (s.ctx < 4)

/-! ## What an instruction leaves -/

/-- The current context's file changed, and nothing else. -/
def onHere (f : Ctx → Ctx) (s : State) : State := modCtx s s.core s.ctx f
/-- The current context's core changed, and nothing else. -/
def onCore (f : Core → Core) (s : State) : State := modCore s s.core f
/-- The current context's cluster changed, and nothing else. -/
def onCluster (f : Cluster → Cluster) (s : State) : State := modCluster s (clusterOf s.core) f
/-- An instruction of `len` bytes done: the PC past it, the context ready in its core's next cycle (R8), and nothing of a wait
kept. -/
def done (len : Nat) (s : State) : State :=
  onHere (fun c => { c with
    pc := c.pc + BitVec.ofNat 56 len, nextIssue := after s s.core 1, waitSince := none, walkFail := none, await := none
    midway := false }) s
/-- A branch or jump taken to an address: its first instruction issues three cycles later (R8, R125). -/
def jumped (pc : VA) (s : State) : State :=
  onHere (fun c => { c with
    pc := pc, nextIssue := after s s.core 3, waitSince := none, walkFail := none, await := none, midway := false }) s
/-- A general register written; g0 keeps nothing (R20). -/
def setG (d : BitVec 5) (x : W64) : State → State := onHere (gSet · d x)
/-- A vector register written. -/
def setV (d : BitVec 5) (x : V512) : State → State := onHere (vSet · d x)
/-- A mask register written; k0 keeps nothing (R20). -/
def setK (d : BitVec 3) (x : W64) : State → State := onHere (kSet · d x)
/-- A register interlocked for `n` cycles of its core's clock, or until a reply when `n` is 0 (R8, R125). -/
def interlock (r : RegId) (n : Nat) (s : State) : State :=
  onHere (fun c => { c with
    locks := ⟨r, if n = 0 then none else some (after s s.core n)⟩ ::
      c.locks.filter (fun l => l.reg ≠ r && (match l.till with | none => true | some u => decide (now s < u))) }) s
/-- A general register written, and interlocked for `n` cycles unless it is g0. -/
def setGLat (d : BitVec 5) (n : Nat) (x : W64) (s : State) : State :=
  if d = 0#5 then s else interlock (.g d) n (setG d x s)

/-- An instruction that only stalls, for no timer's sake (R434). -/
def stallsOnly (s : State) : State := { onHere (fun c => { c with waitSince := none }) s with stalled := true }

/-! ## What an access needs, and what a cluster sees -/

/-- The page leaf of a virtual address, when the current context's cluster TLB holds the page and the leaf allows the access
(R148 step 3). -/
def leafHere (s : State) (a : Acc) (va : VA) : Option Leaf :=
  match tlbHit (getCluster s (clusterOf s.core)) (here s).asid va with
  | some l => if leafAllows l a then some l else none
  | none => none

/-- The byte of a physical address as a cluster reads it: from the line its data cache holds, else from memory
(R149). -/
def seen (s : State) (cl pa : Nat) : Byte :=
  match (getCluster s cl).cache.find? (·.line = lineOf pa) with
  | some l => if l.known.getLsbD (pa % 64) then lane l.data 8 (pa % 64) else byteGet s.mem pa
  | none => byteGet s.mem pa
/-- `n` bytes as a cluster reads them. -/
def seenBytes (s : State) (cl pa n : Nat) : List Byte := (List.range n).map fun i => seen s cl (pa + i)

/-- Whether a cluster reads the line of an address without an uncorrectable error (R460). -/
def sound (s : State) (cl pa : Nat) : Bool :=
  match (getCluster s cl).cache.find? (·.line = lineOf pa) with
  | some l => !l.failed && (!badAt s pa || decide (l.known = BitVec.allOnes 64))
  | none => !badAt s pa

/-- Where an access of `n` bytes at a site arrives, when it passes the five checks of R148: in range, aligned to `al`,
translated, admitted, and outside the regions it may not touch. -/
def arrives (s : State) (a : Acc) (n al : Nat) (x : Site) : Option Spot :=
  let spot := match x with
    | .loc sp off => some (.loc sp off)
    | .window core off => some (.window core off)
    | .mem va => (leafHere s a va).map fun l => .phys va (leafPa l va) l
  match spot with
  | some p => if rangeOk x && alignedTo al x && admitOk s (permOf a) p && (regionCause a n p).isNone then some p else none
  | none => none

/-- Whether an access to a core's S through the window is served now: the port's turn has come and it is free, and no earlier
access of the context is on its way there (R29, R32, R338). -/
def turn (s : State) (core : Nat) : Bool :=
  decide (s.scan = scanEnd) && !remoteBefore s core && !portBusy (getCore s core) 3 (now s)

/-- Whether `n` bytes of a spot can be read at once, with no uncorrectable error: no atomic of the context is out, and nothing
earlier of it is still to reach them (R29, R164, R338, R341, R459, R460). -/
def readable (s : State) (n : Nat) (x : Spot) : Bool :=
  !atomicsOut s && match x with
  | .loc sp off => !matrixBefore s sp off n && !spaceFails (hereCore s) sp off n
  | .window core off => turn s core && (!(getCore s core).powered || !spaceFails (getCore s core) 3 off n)
  | .phys _ pa _ => sound s (clusterOf s.core) pa

/-- The bytes of a spot: a withheld column of C and unpowered banks read zero (R38, R249). -/
def spotBytes (s : State) (n : Nat) : Spot → List Byte
  | .loc sp off => spaceRead (hereCore s) sp off n
  | .window core off => if (getCore s core).powered then spaceRead (getCore s core) 3 off n else List.replicate n 0
  | .phys _ pa _ => seenBytes s (clusterOf s.core) pa n

/-- What the reading of a spot leaves: a port used, or a line filled (R29, R149). -/
def afterRead (s : State) (n : Nat) : Spot → State
  | .loc sp off => onCore (fun c => usePort (noteSpv c sp off n) sp (now s)) s
  | .window _ _ => s
  | .phys _ pa _ => (cacheRead s (clusterOf s.core) pa n).2

/-- What one load of a spot leaves: that, and for the S window its port used or OFF set (R29, R249). -/
def afterLoad (s : State) (n : Nat) (x : Spot) : State := aliasServed [] [x] (afterRead s n x)

/-- Whether `n` bytes of a spot can be written at once. -/
def writable (s : State) (n : Nat) (x : Spot) : Bool :=
  !atomicsOut s && match x with
  | .loc sp off => !matrixBefore s sp off n
  | .window core _ => turn s core
  | .phys _ pa _ => match (getCluster s (clusterOf s.core)).cache.find? (·.line = lineOf pa) with
    | some l => !l.failed
    | none => true

/-- What the writing of a spot leaves: the bytes in the local space, in the S of the window's core, or in the cluster's cache
(R29, R38, R149, R249). -/
def afterWrite (s : State) (bs : List Byte) : Spot → State
  | .loc sp off => onCore (fun c => usePort (spaceWrite (noteSpv c sp off bs.length) sp off bs) sp (now s)) s
  | .window core off => if (getCore s core).powered then modCore s core (spaceWrite · 3 off bs) else s
  | .phys _ pa _ => (cacheWrite s (clusterOf s.core) pa bs).2

/-- What one store of a spot leaves: that, and for the S window its port used and its trace entry, or OFF set (R29, R50,
R249). -/
def afterStore (s : State) (bs : List Byte) (x : Spot) : State := aliasServed [x] [x] (afterWrite s bs x)

/-- The lanes of a vector load read one after the other: each lane's bytes, and the state they leave. -/
def readEach (n : Nat) : State → List (Nat × Spot) → Option (List (Nat × Nat) × State)
  | s, [] => some ([], s)
  | s, (i, p) :: rest =>
    if readable s n p then
      match readEach n (afterRead s n p) rest with
      | some (ls, t) => some ((i, natOf (spotBytes s n p)) :: ls, t)
      | none => none
    else none

/-- The lanes of a vector store written one after the other. -/
def writeEach : State → List (List Byte × Spot) → Option State
  | s, [] => some s
  | s, (bs, p) :: rest => if writable s bs.length p then writeEach (afterWrite s bs p) rest else none

/-! ## Invariants -/

/-- Memory stands in its canonical form: addresses strictly rising, no entry equal to what an unlisted one reads as. -/
def memInv (s : State) : Prop := Memory.wf s.mem = true

end Sys2Proof.Machine
end

