-- ==== Sys2Proof/Certificates/Slice0/Obligations.lean ====
section
/-! DEFINITION. The statements put to the provers. Each names the rules of spec/ it formalises; a clause that rests on the
model's own choice says so and names its log entry. -/
open Sys2Proof Sys2Proof.Machine

namespace Sys2Proof.Claims

/-- Instruction `i` ends as one of `len` bytes does, its only effect `x` written to general register `d`. -/
def writes (i : Instr) (s : State) (len : Nat) (d : BitVec 5) (x : W64) : Prop :=
  exec i s = .next (done len (setG d x s))
/-- The same with an interlock on the register for `n` cycles (R125). -/
def writesLat (i : Instr) (s : State) (n : Nat) (d : BitVec 5) (x : W64) : Prop :=
  exec i s = .next (done 4 (setGLat d n x s))
/-- Register `r` of the current context. -/
def reg (s : State) (r : BitVec 5) : W64 := gOf (here s) r

end Sys2Proof.Claims
open Sys2Proof.Claims

/-- In every state whose context nothing holds up, and for all registers, g0 among them as source and as
destination, and all immediates, ADD, SUB, AND, OR, XOR, SHL, SHR, SHA, ADDI, ANDI, ORI, XORI, SLTI, SHLI, SHRI and
SHAI answer the next state in which D holds the value of the table of R126 (nothing where D is g0), the PC has moved
past the instruction, and nothing else has changed. (R126) -/
def Obligations.ArithmeticAndLogicResults : Prop :=
  ∀ s : State, calm s = true → ∀ (d a b : BitVec 5) (i : BitVec 12) (n : BitVec 6),
    writes (.add d a b) s 4 d (reg s a + reg s b) ∧
    writes (.sub d a b) s 4 d (reg s a - reg s b) ∧
    writes (.and d a b) s 4 d (reg s a &&& reg s b) ∧
    writes (.or d a b) s 4 d (reg s a ||| reg s b) ∧
    writes (.xor d a b) s 4 d (reg s a ^^^ reg s b) ∧
    writes (.shl d a b) s 4 d (reg s a <<< (reg s b &&& 63#64).toNat) ∧
    writes (.shr d a b) s 4 d (reg s a >>> (reg s b &&& 63#64).toNat) ∧
    writes (.sha d a b) s 4 d ((reg s a).sshiftRight (reg s b &&& 63#64).toNat) ∧
    writes (.addi d a i) s 4 d (reg s a + i.signExtend 64) ∧
    writes (.andi d a i) s 4 d (reg s a &&& i.signExtend 64) ∧
    writes (.ori d a i) s 4 d (reg s a ||| i.signExtend 64) ∧
    writes (.xori d a i) s 4 d (reg s a ^^^ i.signExtend 64) ∧
    writes (.slti d a i) s 4 d (if (reg s a).toInt < (i.signExtend 64).toInt then 1 else 0) ∧
    writes (.shli d a n) s 4 d (reg s a <<< n.toNat) ∧
    writes (.shri d a n) s 4 d (reg s a >>> n.toNat) ∧
    writes (.shai d a n) s 4 d ((reg s a).sshiftRight n.toNat)

/-- In every state whose context nothing holds up and for all registers: MUL sets D to the low half of the product,
MULH and MULHN to the high half of the exact signed and unsigned products; DIV and REM divide signed, truncating
toward zero, DIVN and REMN unsigned; division by zero gives all ones and leaves the dividend as remainder; the most
negative number divided by −1 gives itself and remainder 0. Each completes, its D interlocked for the cycles of
R125, and none traps. (R128, R129) -/
def Obligations.MultiplyAndDivideResults : Prop :=
  ∀ s : State, calm s = true → ∀ d a b : BitVec 5,
    writesLat (.mul d a b) s 4 d (((reg s a).setWidth 128 * (reg s b).setWidth 128).extractLsb' 0 64) ∧
    writesLat (.mulh d a b) s 4 d (((reg s a).signExtend 128 * (reg s b).signExtend 128).extractLsb' 64 64) ∧
    writesLat (.mulhn d a b) s 4 d (((reg s a).setWidth 128 * (reg s b).setWidth 128).extractLsb' 64 64) ∧
    writesLat (.div d a b) s 34 d
      (if reg s b = 0 then BitVec.allOnes 64
       else if reg s a = 0x8000000000000000#64 ∧ reg s b = BitVec.allOnes 64 then reg s a
       else BitVec.ofInt 64 ((reg s a).toInt.tdiv (reg s b).toInt)) ∧
    writesLat (.rem d a b) s 34 d
      (if reg s b = 0 then reg s a
       else if reg s a = 0x8000000000000000#64 ∧ reg s b = BitVec.allOnes 64 then 0
       else reg s a - BitVec.ofInt 64 ((reg s a).toInt.tdiv (reg s b).toInt) * reg s b) ∧
    writesLat (.divn d a b) s 34 d
      (if reg s b = 0 then BitVec.allOnes 64 else BitVec.ofNat 64 ((reg s a).toNat / (reg s b).toNat)) ∧
    writesLat (.remn d a b) s 34 d
      (if reg s b = 0 then reg s a
       else reg s a - BitVec.ofNat 64 ((reg s a).toNat / (reg s b).toNat) * reg s b)

/-- In every state whose context nothing holds up and for all operands: MIN and MAX compare signed, MINN and MAXN
unsigned, SLT and SLTN give 1 or 0; CLZ and CTZ count the zero bits above the highest and below the lowest one bit,
64 for 0, POPC counts one bits; TERN looks every bit up in its table by a, b and D; FSHL and FSHR shift the joined
128-bit value; BEXT reads a field with zeros above, BINS replaces one; CSEL selects by its third register; LUI and
ADDPC give the 20-bit immediate shifted by 12, added to the address of the ADDPC itself. Each completes with D
written and nothing else changed. (R130, R132, R133, R135) -/
def Obligations.CompareCountAndBitResults : Prop :=
  ∀ s : State, calm s = true → ∀ (d a b c : BitVec 5) (t : BitVec 8) (n p l : BitVec 6) (i : BitVec 20),
    writes (.min d a b) s 4 d (if (reg s a).toInt < (reg s b).toInt then reg s a else reg s b) ∧
    writes (.max d a b) s 4 d (if (reg s a).toInt < (reg s b).toInt then reg s b else reg s a) ∧
    writes (.minn d a b) s 4 d (if (reg s a).toNat < (reg s b).toNat then reg s a else reg s b) ∧
    writes (.maxn d a b) s 4 d (if (reg s a).toNat < (reg s b).toNat then reg s b else reg s a) ∧
    writes (.slt d a b) s 4 d (if (reg s a).toInt < (reg s b).toInt then 1 else 0) ∧
    writes (.sltn d a b) s 4 d (if (reg s a).toNat < (reg s b).toNat then 1 else 0) ∧
    (∃ z : Nat, z ≤ 64 ∧ (∀ j, j < z → (reg s a).getLsbD (63 - j) = false) ∧
      (z < 64 → (reg s a).getLsbD (63 - z) = true) ∧ writes (.clz d a) s 4 d (BitVec.ofNat 64 z)) ∧
    (∃ z : Nat, z ≤ 64 ∧ (∀ j, j < z → (reg s a).getLsbD j = false) ∧
      (z < 64 → (reg s a).getLsbD z = true) ∧ writes (.ctz d a) s 4 d (BitVec.ofNat 64 z)) ∧
    writes (.popc d a) s 4 d (BitVec.ofNat 64 ((List.range 64).countP (reg s a).getLsbD)) ∧
    (∃ x : W64, (∀ j, j < 64 → x.getLsbD j = t.getLsbD
        (4 * ((reg s a).getLsbD j).toNat + 2 * ((reg s b).getLsbD j).toNat + ((reg s d).getLsbD j).toNat)) ∧
      writes (.tern d a b t) s 4 d x) ∧
    writes (.fshl d a b n) s 4 d (BitVec.ofNat 64 (((reg s a).toNat * 2 ^ 64 + (reg s b).toNat) * 2 ^ n.toNat / 2 ^ 64)) ∧
    writes (.fshr d a b n) s 4 d (BitVec.ofNat 64 (((reg s a).toNat * 2 ^ 64 + (reg s b).toNat) / 2 ^ n.toNat)) ∧
    (∃ x : W64, (∀ j, j < 64 → x.getLsbD j = (decide (j ≤ l.toNat) && (reg s a).getLsbD (p.toNat + j))) ∧
      writes (.bext d a p l) s 4 d x) ∧
    (∃ x : W64, (∀ j, j < 64 → x.getLsbD j =
        if p.toNat ≤ j ∧ j ≤ p.toNat + l.toNat then (reg s a).getLsbD (j - p.toNat) else (reg s d).getLsbD j) ∧
      writes (.bins d a p l) s 4 d x) ∧
    writes (.csel d a b c) s 4 d (if reg s c = 0 then reg s b else reg s a) ∧
    writes (.lui d i) s 4 d ((i.signExtend 64) <<< 12) ∧
    writes (.addpc d i) s 4 d ((here s).pc.setWidth 64 + (i.signExtend 64) <<< 12)

/-- In every state whose context nothing holds up: add.h, sub.h, and.h, or.h, xor.h, shl.h, shr.h and sha.h compute
d := a op b on registers g8 to g15, addi.h, slti.h and andi.h use imm5 sign-extended, each moving the PC by 2; beq.h
and bne.h compare a′ with d′ and, when the condition holds, go to their own address plus 2 × imm5, else to the next
instruction, and write no register. (R142) -/
def Obligations.ShortFormResults : Prop :=
  ∀ s : State, calm s = true → ∀ (d a b : BitVec 3) (i : BitVec 5),
    let r := fun (x : BitVec 3) => reg s (BitVec.ofNat 5 (8 + x.toNat))
    let dst : BitVec 5 := BitVec.ofNat 5 (8 + d.toNat)
    let dest : VA := (here s).pc + (i.signExtend 56) <<< 1
    writes (.addH d a b) s 2 dst (r a + r b) ∧
    writes (.subH d a b) s 2 dst (r a - r b) ∧
    writes (.andH d a b) s 2 dst (r a &&& r b) ∧
    writes (.orH d a b) s 2 dst (r a ||| r b) ∧
    writes (.xorH d a b) s 2 dst (r a ^^^ r b) ∧
    writes (.shlH d a b) s 2 dst (r a <<< (r b &&& 63#64).toNat) ∧
    writes (.shrH d a b) s 2 dst (r a >>> (r b &&& 63#64).toNat) ∧
    writes (.shaH d a b) s 2 dst ((r a).sshiftRight (r b &&& 63#64).toNat) ∧
    writes (.addiH d a i) s 2 dst (r a + i.signExtend 64) ∧
    writes (.sltiH d a i) s 2 dst (if (r a).toInt < (i.signExtend 64).toInt then 1 else 0) ∧
    writes (.andiH d a i) s 2 dst (r a &&& i.signExtend 64) ∧
    exec (.beqH d a i) s = .next (if r a = r d then jumped dest s else done 2 s) ∧
    exec (.bneH d a i) s = .next (if r a = r d then done 2 s else jumped dest s)

/-- In every state whose context nothing holds up: BEQ, BNE, BLT, BGE, BLTN and BGEN compare a and b and set the PC
to their own address plus twice the offset, modulo 2^56, or go on at the next instruction, and write no register.
JAL sets D to its address plus 4 and jumps. JALR jumps to a plus the immediate modulo 2^56, read before D is
written, and links; to an odd target it takes trap 0x03 with the target in TRAPVAL, D and PC unchanged. (R137, R138)
-/
def Obligations.BranchesAndJumps : Prop :=
  ∀ s : State, calm s = true → ∀ (d a b : BitVec 5) (o : BitVec 12) (o20 : BitVec 20),
    let pc := (here s).pc
    let go := fun (c : Bool) => if c then jumped (pc + 2 * o.signExtend 56) s else done 4 s
    let t : VA := (reg s a + o.signExtend 64).setWidth 56
    exec (.beq a b o) s = .next (go (decide (reg s a = reg s b))) ∧
    exec (.bne a b o) s = .next (go (decide (reg s a ≠ reg s b))) ∧
    exec (.blt a b o) s = .next (go (decide ((reg s a).toInt < (reg s b).toInt))) ∧
    exec (.bge a b o) s = .next (go (decide ((reg s b).toInt ≤ (reg s a).toInt))) ∧
    exec (.bltn a b o) s = .next (go (decide ((reg s a).toNat < (reg s b).toNat))) ∧
    exec (.bgen a b o) s = .next (go (decide ((reg s b).toNat ≤ (reg s a).toNat))) ∧
    exec (.jal d o20) s = .next (jumped (pc + 2 * o20.signExtend 56) (setG d (pc.setWidth 64 + 4) s)) ∧
    exec (.jalr d a o) s = .next
      (if t.getLsbD 0 then takeTrap s s.core s.ctx 0x03 (t.setWidth 64) false
       else jumped t (setG d (pc.setWidth 64 + 4) s))

namespace Sys2Proof.Claims

/-- The bytes of a load as one value: the first the lowest (R51). -/
def le1 (bs : List Byte) : BitVec 8 := bs.getD 0 0
def le2 (bs : List Byte) : BitVec 16 := bs.getD 1 0 ++ bs.getD 0 0
def le4 (bs : List Byte) : BitVec 32 := bs.getD 3 0 ++ bs.getD 2 0 ++ bs.getD 1 0 ++ bs.getD 0 0
def le8 (bs : List Byte) : BitVec 64 :=
  bs.getD 7 0 ++ bs.getD 6 0 ++ bs.getD 5 0 ++ bs.getD 4 0 ++ bs.getD 3 0 ++ bs.getD 2 0 ++ bs.getD 1 0 ++ bs.getD 0 0
/-- The low bytes of a value, the lowest first (R51). -/
def low (n : Nat) (x : W64) : List Byte := (List.range n).map fun k => x.extractLsb' (8 * k) 8
/-- A space by its code: 0 global, 1 A, 3 S (R61). -/
abbrev Space := BitVec 2

/-- Between two states a cluster's view of memory, and memory, have changed as a store of bytes at `pa`, within one line, changes
them (R149, R151): the line that a full set gives up, and nothing else, may have been written back. -/
def storedOnly (s t : State) (cl pa : Nat) (bs : List Byte) : Prop :=
  let kept := fun (b : Nat) => ∀ v, lruOf (getCluster s cl) (lineOf pa) = some v → lineOf b ≠ v.line
  (∀ k, k < bs.length → seen t cl (pa + k) = bs.getD k 0) ∧
  (∀ b, lineOf b = lineOf pa → (b < pa ∨ pa + bs.length ≤ b) → sound s cl pa = true → seen t cl b = seen s cl b) ∧
  (∀ b, lineOf b ≠ lineOf pa → kept b → seen t cl b = seen s cl b) ∧
  (∀ b, kept b → byteGet t.mem b = byteGet s.mem b)

/-- The scalar load `i` of `n` bytes at `base` + `off` completes wherever its access arrives and can be read, with `val` of
the bytes in register `d`. -/
def loads (i : Instr) (s : State) (len : Nat) (sp : Space) (n : Nat) (d a : BitVec 5) (off : W64)
    (val : List Byte → W64) : Prop :=
  ∀ p, arrives s .load n n (siteAt sp (reg s a + off)) = some p → readable s n p = true →
    exec i s = .next (done len (setG d (val (spotBytes s n p)) (afterLoad s n p)))
/-- The scalar store `i` of the low `n` bytes of register `b`, likewise. -/
def stores (i : Instr) (s : State) (len : Nat) (sp : Space) (n : Nat) (a b : BitVec 5) (off : W64) : Prop :=
  ∀ p, arrives s .store n n (siteAt sp (reg s a + off)) = some p → writable s n p = true →
    exec i s = .next (done len (afterStore s (low n (reg s b)) p))

end Sys2Proof.Claims

/-- In every state whose context nothing holds up, for all registers and offsets and in each space (global memory
through a TLB leaf, the S window of a core, the local spaces A and S): a scalar load whose access passes the checks
of R148, that nothing earlier of the context delays and whose port's turn has come, and that meets no uncorrectable
error, completes. LDB, LDH and LDW sign-extend, LDBN, LDHN and LDWN zero-extend, LDD moves the doubleword, the bytes
taken lowest first; D = g0 keeps nothing; beside D and the PC it leaves what reading the place leaves (a port used,
a cache line filled). LDW.H and LDD.H are the loads of S through g8 to g15. STB, STH, STW and STD complete likewise,
where the leaf allows stores, with the low 1, 2, 4 or 8 bytes of B written lowest first at base + offset, and
nothing else changed but the PC and what writing the place leaves (a port used, a trace-ring entry, a cached line).
STW.H and STD.H are the stores of S with their data in d′. (R61, R82, R144, R146, R148, R149) -/
def Obligations.ScalarLoadsAndStoresComplete : Prop :=
  ∀ s : State, calm s = true → ∀ (d a b : BitVec 5) (o : BitVec 12) (d' a' : BitVec 3) (i : BitVec 5),
    let off := o.signExtend 64
    let h := fun (x : BitVec 3) => BitVec.ofNat 5 (8 + x.toNat)
    loads (.ldb d a o) s 4 0 1 d a off (fun bs => (le1 bs).signExtend 64) ∧
    loads (.ldbn d a o) s 4 0 1 d a off (fun bs => (le1 bs).setWidth 64) ∧
    loads (.ldh d a o) s 4 0 2 d a off (fun bs => (le2 bs).signExtend 64) ∧
    loads (.ldhn d a o) s 4 0 2 d a off (fun bs => (le2 bs).setWidth 64) ∧
    loads (.ldw d a o) s 4 0 4 d a off (fun bs => (le4 bs).signExtend 64) ∧
    loads (.ldwn d a o) s 4 0 4 d a off (fun bs => (le4 bs).setWidth 64) ∧
    loads (.ldd d a o) s 4 0 8 d a off le8 ∧
    loads (.ldbA d a o) s 4 1 1 d a off (fun bs => (le1 bs).signExtend 64) ∧
    loads (.ldbnA d a o) s 4 1 1 d a off (fun bs => (le1 bs).setWidth 64) ∧
    loads (.ldhA d a o) s 4 1 2 d a off (fun bs => (le2 bs).signExtend 64) ∧
    loads (.ldhnA d a o) s 4 1 2 d a off (fun bs => (le2 bs).setWidth 64) ∧
    loads (.ldwA d a o) s 4 1 4 d a off (fun bs => (le4 bs).signExtend 64) ∧
    loads (.ldwnA d a o) s 4 1 4 d a off (fun bs => (le4 bs).setWidth 64) ∧
    loads (.lddA d a o) s 4 1 8 d a off le8 ∧
    loads (.ldbS d a o) s 4 3 1 d a off (fun bs => (le1 bs).signExtend 64) ∧
    loads (.ldbnS d a o) s 4 3 1 d a off (fun bs => (le1 bs).setWidth 64) ∧
    loads (.ldhS d a o) s 4 3 2 d a off (fun bs => (le2 bs).signExtend 64) ∧
    loads (.ldhnS d a o) s 4 3 2 d a off (fun bs => (le2 bs).setWidth 64) ∧
    loads (.ldwS d a o) s 4 3 4 d a off (fun bs => (le4 bs).signExtend 64) ∧
    loads (.ldwnS d a o) s 4 3 4 d a off (fun bs => (le4 bs).setWidth 64) ∧
    loads (.lddS d a o) s 4 3 8 d a off le8 ∧
    loads (.ldwH d' a' i) s 2 3 4 (h d') (h a') (i.signExtend 64) (fun bs => (le4 bs).signExtend 64) ∧
    loads (.lddH d' a' i) s 2 3 8 (h d') (h a') (i.signExtend 64) le8 ∧
    stores (.stb a b o) s 4 0 1 a b off ∧ stores (.sth a b o) s 4 0 2 a b off ∧
    stores (.stw a b o) s 4 0 4 a b off ∧ stores (.std a b o) s 4 0 8 a b off ∧
    stores (.stbA a b o) s 4 1 1 a b off ∧ stores (.sthA a b o) s 4 1 2 a b off ∧
    stores (.stwA a b o) s 4 1 4 a b off ∧ stores (.stdA a b o) s 4 1 8 a b off ∧
    stores (.stbS a b o) s 4 3 1 a b off ∧ stores (.sthS a b o) s 4 3 2 a b off ∧
    stores (.stwS a b o) s 4 3 4 a b off ∧ stores (.stdS a b o) s 4 3 8 a b off ∧
    stores (.stwH d' a' i) s 2 3 4 (h a') (h d') (i.signExtend 64) ∧
    stores (.stdH d' a' i) s 2 3 8 (h a') (h d') (i.signExtend 64)

/-- In every state whose context nothing holds up and has no atomic outstanding, for A and for S, at every word
whose access passes its checks: STFL, once the context's one-sided accesses are done, writes b[31:0] to the word and
sets its full-empty bit full, and every other context of the core that waits for the word in LDWT has then observed
b[31:0]. At a word without error: CLRE sets the bit empty and leaves the data unchanged; TSTF sets D to 1 when the
bit is full and to 0 when it is empty, and waits for nothing; LDWT by a hardware context, when the word is full,
loads it sign-extended and leaves the bit full, while it is empty only stalls and waits for the word, and with a
value observed it completes with that value. That a waiter observes the filling write is the model's reading (log
entry 10), as are that an error of a word covers its full-empty bit (log entry 63) and that TSTF does not wait for a
drain of the word (log entry 64). (R152, R153, R154, R155, R156) -/
def Obligations.FullEmptyInstructions : Prop :=
  ∀ s : State, calm s = true → atomicsOut s = false → ∀ (d a b : BitVec 5) (o : BitVec 12) (sp : Space) (off : Nat),
    (sp = 1#2 ∨ sp = 3#2) →
    let p : Spot := .loc sp off
    (arrives s .store 4 4 (siteAt sp (reg s a + o.signExtend 64)) = some p → matrixBefore s sp off 4 = false →
      (flying s [.remoteAccessServe] = false →
        let t := done 4 (onCore (setFull · sp off) (afterWrite s (low 4 (reg s b)) p))
        (exec (if sp = 1#2 then .stflA a b o else .stflS a b o) s = .next t) ∧
        (∀ x, x < 5 → x ≠ s.ctx → (getCtx s s.core x).await = some (.word sp off none) →
          (getCtx t s.core x).await = some (.word sp off (some ((reg s b).setWidth 32))))) ∧
      (spaceFails (hereCore s) sp off 4 = false →
        exec (if sp = 1#2 then .clreA a o else .clreS a o) s =
          .next (done 4 (onCore (fun c => usePort (setEmpty c sp off) sp (now s)) s)))) ∧
    (arrives s .load 4 4 (siteAt sp (reg s a + reg s b)) = some p → spaceFails (hereCore s) sp off 4 = false →
      (exec (.tstf d a b sp) s =
        .next (done 4 (setG d (if isFull (hereCore s) sp off then 1 else 0) (onCore (usePort · sp (now s)) s)))) ∧
      (s.ctx < 4 → (here s).await = none → readable s 4 p = true → isFull (hereCore s) sp off = true →
        exec (.ldwt d a b sp) s =
          .next (done 4 (setG d ((le4 (spotBytes s 4 p)).signExtend 64) (afterRead s 4 p)))) ∧
      (s.ctx < 4 → (here s).await = none → isFull (hereCore s) sp off = false →
        exec (.ldwt d a b sp) s = .next { onHere (fun c => { c with
          waitSince := none, await := some (.word sp off none) }) s with stalled := true }) ∧
      (∀ x, s.ctx < 4 → (here s).await = some (.word sp off (some x)) →
        exec (.ldwt d a b sp) s = .next (done 4 (setG d (x.signExtend 64) s))))

/-- In every state whose context nothing holds up, for every array start on a page of format f < 5 in the TLB,
aligned as f asks, whose element lies on a page of the same format in the TLB that allows the access, admitted, and
not in the S window, with no atomic of the context outstanding: LDE sets D to the FP32 value of the element, with no
flag; STE encodes the low 32 bits of D into the element, with the flags of the encoding, an E2M1 element by
rewriting its 64-byte line. PF of an address whose page the TLB holds only puts the fill on the agenda, where the
page misses it starts a walk, or joins the page's, and stalls while 16 others of the cluster are outstanding, and in
the S window it does nothing; it never traps. That the elements a partial E2M1 write keeps are taken as exact
products is the model's choice (log entry 87). (R105, R120, R121, R149, R157, R158) -/
def Obligations.ElementAccessesAndPrefetch : Prop :=
  ∀ s : State, calm s = true → ∀ (d a b : BitVec 5),
    let cl := clusterOf s.core
    let start : VA := (reg s a).setWidth 56
    (∀ (l : Leaf), windowOf start = none →
      let f := leafFmt l.entry
      let el : VA := (elemAddr f (reg s a) (reg s b).toNat).setWidth 56
      f < 5 → start.toNat % elemAlign f = 0 → windowOf el = none → atomicsOut s = false →
      (∀ m, leafHere s .load start = some l → leafHere s .load el = some m → leafFmt m.entry = f →
        admitOk s .read (.phys el (leafPa m el) m) = true → sound s cl (leafPa m el) = true →
        let bs := seenBytes s cl (leafPa m el) (elemSpan f)
        exec (.lde d a b) s = .next (done 4 (setG d
          ((if f = 4 then lineGet (vecOf bs) ((reg s b).toNat % 96) else elemGet f bs).setWidth 64)
          (cacheRead s cl (leafPa m el) (elemSpan f)).2))) ∧
      (∀ m, f ≠ 4 → leafHere s .load start = some l → leafHere s .store el = some m → leafFmt m.entry = f →
        admitOk s .write (.phys el (leafPa m el) m) = true →
        writable s (elemSpan f) (.phys el (leafPa m el) m) = true →
        let e := elemPut f ((reg s d).setWidth 32)
        let s' := onHere (fun c => { c with fpstat := c.fpstat ||| e.2 }) s
        exec (.ste d a b) s = .next (done 4 (cacheWrite s' cl (leafPa m el) e.1).2)) ∧
      (∀ m, f = 4 → leafHere s .load start = some l → leafHere s .store el = some m → leafFmt m.entry = f →
        admitOk s .write (.phys el (leafPa m el) m) = true → sound s cl (leafPa m el) = true →
        let bs := seenBytes s cl (leafPa m el) 64
        let e := linePut (vecOf bs) [((reg s b).toNat % 96, (reg s d).setWidth 32)]
        let s' := (cacheRead s cl (leafPa m el) 64).2
        exec (.ste d a b) s = .next (done 4
          (cacheWrite (onHere (fun c => { c with fpstat := c.fpstat ||| e.2 }) s') cl (leafPa m el) (vecBytes e.1)).2))) ∧
    (∀ va : VA, va = (reg s a + reg s b).setWidth 56 →
      exec (.pf a b) s = .next (
        if (windowOf va).isSome then done 4 s
        else if (tlbHit (getCluster s cl) (here s).asid va).isSome then
          done 4 (sometime s .prefetchFill (.page cl (here s).asid va))
        else if walkFull s cl (here s).asid va then stallsOnly s
        else done 4 (startWalk s cl (here s).asid va .fill)))

/-- In every state whose context nothing holds up, for every scalar load and store of n bytes, the short forms among
them, in each space: an S address of 0x8000 or above takes trap 0x04, whatever its alignment; an address in range
that is not a multiple of n takes trap 0x03, in A, in S, in global memory whatever its page, and in the S window,
whose own range is that of S; TRAPVAL holds the address and the trap is all that happens. A store of S in range and
aligned that touches the deque region traps 0x05, one that touches the mailbox region 0x0E. (R145, R146, R147, R148)
-/
def Obligations.MemoryChecksTrap : Prop :=
  ∀ s : State, calm s = true → ∀ (d a b : BitVec 5) (o : BitVec 12) (d' a' : BitVec 3) (m : BitVec 5) (n : Nat) (i : Instr),
    let x := reg s a + o.signExtend 64
    let y := reg s (BitVec.ofNat 5 (8 + a'.toNat)) + m.signExtend 64
    let traps := fun (cause : BitVec 8) (v : W64) => exec i s = .next (takeTrap s s.core s.ctx cause v false)
    let local_ := fun (z : W64) (cause : BitVec 8) => traps cause (BitVec.ofNat 64 (z.toNat % 65536))
    let ofS := fun (z : W64) =>
      (0x8000 ≤ z.toNat % 65536 → local_ z 0x04) ∧ (z.toNat % 65536 < 0x8000 → z.toNat % n ≠ 0 → local_ z 0x03)
    let store := fun (z : W64) => z.toNat % n = 0 →
      (0x7000 ≤ z.toNat % 65536 → z.toNat % 65536 < 0x8000 → local_ z 0x05) ∧
      (0x6000 ≤ z.toNat % 65536 → z.toNat % 65536 < 0x7000 → local_ z 0x0E)
    let storeS := (n = 1 ∧ i = .stbS a b o) ∨ (n = 2 ∧ i = .sthS a b o) ∨ (n = 4 ∧ i = .stwS a b o) ∨ (n = 8 ∧ i = .stdS a b o)
    let storeH := (n = 4 ∧ i = .stwH d' a' m) ∨ (n = 8 ∧ i = .stdH d' a' m)
    (((n = 1 ∧ (i = .ldbS d a o ∨ i = .ldbnS d a o)) ∨ (n = 2 ∧ (i = .ldhS d a o ∨ i = .ldhnS d a o)) ∨
      (n = 4 ∧ (i = .ldwS d a o ∨ i = .ldwnS d a o)) ∨ (n = 8 ∧ i = .lddS d a o) ∨ storeS) → ofS x) ∧
    (((n = 4 ∧ i = .ldwH d' a' m) ∨ (n = 8 ∧ i = .lddH d' a' m) ∨ storeH) → ofS y) ∧
    (((n = 2 ∧ (i = .ldhA d a o ∨ i = .ldhnA d a o ∨ i = .sthA a b o)) ∨
      (n = 4 ∧ (i = .ldwA d a o ∨ i = .ldwnA d a o ∨ i = .stwA a b o)) ∨ (n = 8 ∧ (i = .lddA d a o ∨ i = .stdA a b o))) →
      x.toNat % n ≠ 0 → local_ x 0x03) ∧
    (storeS → store x) ∧ (storeH → store y) ∧
    (((n = 1 ∧ (i = .ldb d a o ∨ i = .ldbn d a o ∨ i = .stb a b o)) ∨ (n = 2 ∧ (i = .ldh d a o ∨ i = .ldhn d a o ∨ i = .sth a b o)) ∨
      (n = 4 ∧ (i = .ldw d a o ∨ i = .ldwn d a o ∨ i = .stw a b o)) ∨ (n = 8 ∧ (i = .ldd d a o ∨ i = .std a b o))) →
      let va : VA := x.setWidth 56
      ((windowOf va).isSome = true → 0x8000 ≤ va.toNat % 65536 → traps 0x04 (va.setWidth 64)) ∧
      (((windowOf va).isSome = false ∨ va.toNat % 65536 < 0x8000) → va.toNat % n ≠ 0 → traps 0x03 (va.setWidth 64)))

/-- For every store of bytes within one line through a cluster cache that the cache takes: afterwards the cluster
sees the stored bytes at their addresses, sees every other byte of that line and every byte of every line but the
one that a full set gives up as before, and memory itself holds every byte as before but those of that line. And for
STB, STH, STW and STD of global memory in every state whose context nothing holds up, at the address that their
meaning computes, where the access arrives and can be written: the instruction completes, and the same holds between
the state before and after it. That a store that misses fills its line from memory is the model's choice (log entry
81). (R144, R146, R149, R151) -/
def Obligations.StoreIsSeenAndNothingElse : Prop :=
  (∀ (s t : State) (cl pa : Nat) (bs : List Byte), pa % 64 + bs.length ≤ 64 → 0 < bs.length →
    cacheWrite s cl pa bs = (some (), t) → storedOnly s t cl pa bs) ∧
  (∀ s : State, calm s = true → ∀ (a b : BitVec 5) (o : BitVec 12) (i : Instr) (n : Nat) (va : VA) (pa : Nat) (l : Leaf),
    ((i = .stb a b o ∧ n = 1) ∨ (i = .sth a b o ∧ n = 2) ∨ (i = .stw a b o ∧ n = 4) ∨ (i = .std a b o ∧ n = 8)) →
    arrives s .store n n (siteAt 0 (reg s a + o.signExtend 64)) = some (.phys va pa l) →
    writable s n (.phys va pa l) = true →
    ∃ t, exec i s = .next t ∧ storedOnly s t (clusterOf s.core) pa (low n (reg s b)))

namespace Sys2Proof.Claims

/-- Vector register `r` of the current context. -/
def vreg (s : State) (r : BitVec 5) : V512 := vOf (here s) r
/-- Mask register `r`; k0 reads all ones (R19). -/
def kreg (s : State) (r : BitVec 3) : W64 := kOf (here s) r
/-- Flags set in FPSTAT (R95). -/
def flagged (f : FpFlags) : State → State := onHere fun c => { c with fpstat := c.fpstat ||| f }
/-- Instruction `i` writes vector register `d`: its `n` lanes of `w` bits, which fill the register, are `val`; a dependent
instruction issues `lat` cycles later; no flag is set and nothing else changes. -/
def lanesAre (i : Instr) (s : State) (lat : Nat) (d : BitVec 5) (w n : Nat) (val : Nat → BitVec w) : Prop :=
  ∃ x : V512, (∀ k, k < n → lane x w k = val k) ∧ exec i s = .next (done 4 (interlock (.v d) lat (setV d x s)))
/-- The same with a value and flags for each lane, bits above the lanes zero. -/
def lanesFlag (i : Instr) (s : State) (lat : Nat) (d : BitVec 5) (w n : Nat) (val : Nat → Nat × FpFlags) : Prop :=
  ∃ x : V512, (∀ k, k < n → lane x w k = BitVec.ofNat w (val k).1) ∧ (∀ j, w * n ≤ j → x.getLsbD j = false) ∧
    exec i s = .next (done 4 (interlock (.v d) lat
      (flagged (((List.range n).map fun k => (val k).2).foldl (· ||| ·) 0) (setV d x s))))
/-- A comparison of lanes by an integer element type (R170, R173). -/
def below {w : Nat} (e : BitVec 3) (x y : BitVec w) : Bool :=
  if isSigned e then decide (x.toInt < y.toInt) else decide (x.toNat < y.toNat)

end Sys2Proof.Claims

/-- In every state whose context nothing holds up, for all registers and every integer element type: VADD, VSUB and
VMUL wrap at the lane's width, VMIN and VMAX compare signed for .i and unsigned for .n types, VABS of the most
negative value is that value, VFMA and VFMS give a × b plus or minus the old lane of D, all sources read before D is
written; D is interlocked for 2 cycles, no flag is set, and nothing else changes. For .f32 and .bf16: VADD, VSUB,
VMUL, VFMA and VFMS give in every lane the exact result rounded once to nearest-even, VMIN and VMAX the smaller and
larger with NaN for a NaN input, VABS the value without its sign bit or the canonical NaN; FPSTAT gains the flags of
all lanes and loses none; D is interlocked for 4 cycles and nothing else changes. (R92, R93, R95, R165, R166, R169,
R170) -/
def Obligations.VectorArithmetic : Prop :=
  (∀ s : State, calm s = true → ∀ (d a b : BitVec 5) (e : BitVec 3), 2 ≤ e.toNat →
    let w := etWidth e
    let n := etLanes e
    let x := fun k => lane (vreg s a) w k
    let y := fun k => lane (vreg s b) w k
    let z := fun k => lane (vreg s d) w k
    lanesAre (.vadd d a b e) s 2 d w n (fun k => x k + y k) ∧
    lanesAre (.vsub d a b e) s 2 d w n (fun k => x k - y k) ∧
    lanesAre (.vmul d a b e) s 2 d w n (fun k => x k * y k) ∧
    lanesAre (.vmin d a b e) s 2 d w n (fun k => if below e (y k) (x k) then y k else x k) ∧
    lanesAre (.vmax d a b e) s 2 d w n (fun k => if below e (x k) (y k) then y k else x k) ∧
    lanesAre (.vabs d a e) s 2 d w n (fun k => if isSigned e && (x k).msb then - x k else x k) ∧
    lanesAre (.vfma d a b e) s 2 d w n (fun k => x k * y k + z k) ∧
    lanesAre (.vfms d a b e) s 2 d w n (fun k => x k * y k - z k)) ∧
  (∀ s : State, calm s = true → ∀ (d a b : BitVec 5) (e : BitVec 3), e.toNat < 2 →
    let f := etFmt e
    let x := fun k => decodeNum f (laneNat (vreg s a) (etWidth e) k)
    let y := fun k => decodeNum f (laneNat (vreg s b) (etWidth e) k)
    let z := fun k => decodeNum f (laneNat (vreg s d) (etWidth e) k)
    let once := fun (p : FpNum × FpFlags) => packLane f .rne p.1 p.2
    let fused := fun k (c : FpNum) => let p := mulNum (x k) (y k); let r := addNum .rne p.1 c; once (r.1, p.2 ||| r.2)
    lanesFlag (.vadd d a b e) s 4 d (etWidth e) (etLanes e) (fun k => once (addNum .rne (x k) (y k))) ∧
    lanesFlag (.vsub d a b e) s 4 d (etWidth e) (etLanes e) (fun k => once (addNum .rne (x k) (negNum (y k)))) ∧
    lanesFlag (.vmul d a b e) s 4 d (etWidth e) (etLanes e) (fun k => once (mulNum (x k) (y k))) ∧
    lanesFlag (.vmin d a b e) s 4 d (etWidth e) (etLanes e) (fun k =>
      (minMaxNum f false (laneNat (vreg s a) (etWidth e) k) (laneNat (vreg s b) (etWidth e) k), 0)) ∧
    lanesFlag (.vmax d a b e) s 4 d (etWidth e) (etLanes e) (fun k =>
      (minMaxNum f true (laneNat (vreg s a) (etWidth e) k) (laneNat (vreg s b) (etWidth e) k), 0)) ∧
    lanesFlag (.vabs d a e) s 4 d (etWidth e) (etLanes e) (fun k =>
      (if (x k).isNan then nanCode f false else laneNat (vreg s a) (etWidth e) k % f.signBit, 0)) ∧
    lanesFlag (.vfma d a b e) s 4 d (etWidth e) (etLanes e) (fun k => fused k (z k)) ∧
    lanesFlag (.vfms d a b e) s 4 d (etWidth e) (etLanes e) (fun k => fused k (negNum (z k))))

/-- In every state whose context nothing holds up, for all registers and every integer element type: VAND, VOR and
VXOR act on bits, VSHL, VSHR and VSHA shift by the lane of b modulo the width, VTERN looks every one of 512 bits up
in its table, VCMP writes to its mask register one bit for each lane that meets the condition and zero above, VSEL
selects by a mask register, VPERM takes lane (b mod n), VBCAST copies a general register, VEXT reads one lane with
the type's extension, VINS replaces one lane, VPOPC counts one bits. Each completes with nothing else changed but
its destination and its interlock. In every state whose context nothing holds up and for all registers: KAND, KOR,
KNOT, KMOV of a mask register and KMOV of a general register set the mask register named, all 64 bits, with k0 read
as all ones; a write to k0 changes nothing but the PC; KMOV to a general register sets it to the mask register.
Nothing else changes but the interlock of 2 cycles. (R19, R20, R165, R166, R171, R172, R173, R174, R182, R183) -/
def Obligations.VectorLogicAndMasks : Prop :=
  (∀ s : State, calm s = true → ∀ (d a b : BitVec 5) (e : BitVec 3) (t : BitVec 8) (k : BitVec 3) (c : BitVec 4),
    2 ≤ e.toNat →
    let w := etWidth e
    let n := etLanes e
    let x := fun j => lane (vreg s a) w j
    let y := fun j => lane (vreg s b) w j
    lanesAre (.vand d a b e) s 2 d w n (fun j => x j &&& y j) ∧
    lanesAre (.vor d a b e) s 2 d w n (fun j => x j ||| y j) ∧
    lanesAre (.vxor d a b e) s 2 d w n (fun j => x j ^^^ y j) ∧
    lanesAre (.vshl d a b e) s 2 d w n (fun j => x j <<< ((y j).toNat % w)) ∧
    lanesAre (.vshr d a b e) s 2 d w n (fun j => x j >>> ((y j).toNat % w)) ∧
    lanesAre (.vsha d a b e) s 2 d w n (fun j => (x j).sshiftRight ((y j).toNat % w)) ∧
    (∃ v : V512, (∀ j, j < 512 → v.getLsbD j = t.getLsbD (4 * ((vreg s a).getLsbD j).toNat +
        2 * ((vreg s b).getLsbD j).toNat + ((vreg s d).getLsbD j).toNat)) ∧
      exec (.vtern d a b t) s = .next (done 4 (interlock (.v d) 2 (setV d v s)))) ∧
    (c.toNat < 6 → ∃ m : W64, (∀ j, j < n → m.getLsbD j = (match c.toNat with
        | 0 => decide (x j = y j)
        | 1 => decide (x j ≠ y j)
        | 2 => below e (x j) (y j)
        | 3 => !below e (y j) (x j)
        | 4 => below e (y j) (x j)
        | _ => !below e (x j) (y j))) ∧ (∀ j, n ≤ j → m.getLsbD j = false) ∧
      exec (.vcmp k a b e c) s =
        .next (done 4 (if k = 0#3 then s else interlock (.k k) 2 (setK k m s)))) ∧
    lanesAre (.vsel d a b e k) s 2 d w n (fun j => if (kreg s k).getLsbD j then x j else y j) ∧
    lanesAre (.vperm d a b e) s 3 d w n (fun j => x ((y j).toNat % n)) ∧
    lanesAre (.vbcast d a e) s 3 d w n (fun _ => (reg s a).setWidth w) ∧
    writesLat (.vext d a b e) s 3 d
      (if isSigned e then (x ((reg s b).toNat % n)).signExtend 64 else (x ((reg s b).toNat % n)).setWidth 64) ∧
    lanesAre (.vins d a b e) s 3 d w n (fun j =>
      if j = (reg s b).toNat % n then (reg s a).setWidth w else lane (vreg s d) w j) ∧
    lanesAre (.vpopc d a e) s 3 d w n (fun j => BitVec.ofNat w ((List.range w).countP (x j).getLsbD))) ∧
  (∀ s : State, calm s = true → ∀ (d a b : BitVec 3) (g : BitVec 5),
    let sets := fun (i : Instr) (x : W64) =>
      exec i s = .next (done 4 (if d = 0#3 then s else interlock (.k d) 2 (setK d x s)))
    kreg s 0#3 = BitVec.allOnes 64 ∧
    sets (.kand d a b) (kreg s a &&& kreg s b) ∧
    sets (.kor d a b) (kreg s a ||| kreg s b) ∧
    sets (.knot d a) (~~~ kreg s a) ∧
    sets (.kmov d a) (kreg s a) ∧
    sets (.kmovKg d g) (reg s g) ∧
    writesLat (.kmovGk g a) s 2 g (kreg s a))

/-- In every state whose context nothing holds up and for all registers: VCVT between two types other than E2M1
converts 512 / max(ws, wd) elements, each rounded or clamped once, zero above; to and from E2M1 it completes with 4
cycles' interlock; VPACK to an integer type clamps the double-width signed lanes of a and then of b; VUNPK of an
integer type extends the chosen half by the type's signedness, the sign of a NaN that a conversion keeps or drops,
and RM before VPACK of an integer type, being the model's readings (log entries 89, 88); VRED.add of an integer type
puts the sum of all lanes, wrapped, in lane 0 and zero in every other; VSCAN.add puts in lane k the wrapped sum of
lanes 0 to k; every VRED and VSCAN form completes. (R119, R175, R176, R177, R178, R179, R180, R181) -/
def Obligations.VectorConversionsAndReductions : Prop :=
  ∀ s : State, calm s = true → ∀ (d a b : BitVec 5) (e : BitVec 3) (t u o : BitVec 4) (h : BitVec 1),
    let w := etWidth e
    let n := etLanes e
    (t ≠ 10#4 → u ≠ 10#4 → lanesFlag (.vcvt d a b t u) s 4 d (cvWidth t) (512 / max (cvWidth u) (cvWidth t))
      (fun k => cvOne .rne t u (laneNat (vreg s a) (cvWidth u) k))) ∧
    (t = 10#4 ∨ u = 10#4 → ∃ x f, exec (.vcvt d a b t u) s =
      .next (done 4 (interlock (.v d) 4 (flagged f (setV d x s))))) ∧
    (4 ≤ e.toNat → lanesFlag (.vpack d a b e) s 4 d w n (fun k =>
      let v := (lane (if k < n / 2 then vreg s a else vreg s b) (2 * w) (k % (n / 2))).toInt
      let lo : Int := if isSigned e then -(2 ^ (w - 1)) else 0
      let hi : Int := if isSigned e then 2 ^ (w - 1) - 1 else 2 ^ w - 1
      if v < lo then ((BitVec.ofInt w lo).toNat, fSAT) else if hi < v then ((BitVec.ofInt w hi).toNat, fSAT)
      else ((BitVec.ofInt w v).toNat, 0))) ∧
    (e = 1#3 → lanesFlag (.vpack d a b e) s 4 d w n (fun k =>
      packNum bf16 .rne (decodeNum f32 (laneNat (if k < 16 then vreg s a else vreg s b) 32 (k % 16))))) ∧
    (4 ≤ e.toNat → lanesAre (.vunpk d a e h) s 4 d (2 * w) (n / 2) (fun k =>
      let v := lane (vreg s a) w (if h = 1#1 then k + n / 2 else k)
      if isSigned e then v.signExtend (2 * w) else v.setWidth (2 * w))) ∧
    (e = 1#3 → ∃ x, exec (.vunpk d a e h) s = .next (done 4 (interlock (.v d) 4 (setV d x s)))) ∧
    (2 ≤ e.toNat → lanesAre (.vred d a e 0) s 10 d w n (fun k =>
      if k = 0 then (List.range n).foldl (fun acc j => acc + lane (vreg s a) w j) 0 else 0)) ∧
    (2 ≤ e.toNat → lanesAre (.vscan d a e 0) s 18 d w n (fun k =>
      (List.range (k + 1)).foldl (fun acc j => acc + lane (vreg s a) w j) 0)) ∧
    (∃ x f, exec (.vred d a e o) s = .next (done 4 (interlock (.v d) 10 (flagged f (setV d x s))))) ∧
    (∃ x f, exec (.vscan d a e o) s = .next (done 4 (interlock (.v d) 18 (flagged f (setV d x s)))))

/-- In every state whose context nothing holds up, for all registers and every space: VLD and VST with a
64-byte-aligned address, and VLDS, VLDX and VSTX, complete when each lane's access passes the checks of R148 at its
own address (a + b + 4k, a + k × b, or a + the signed index × width) and meets no uncorrectable error. A load puts
lane k's bytes in lane k of D, a store writes lane k of D at lane k's address, in lane order, so that of two lanes
on one address the higher remains. Nothing else changes but what reading or writing those places leaves. (R144,
R147, R148, R159, R160, R162, R164) -/
def Obligations.VectorLoadsAndStoresComplete : Prop :=
  ∀ s : State, calm s = true → ∀ (d a b : BitVec 5) (wd : BitVec 1) (sp : Space),
    let w := if wd = 1#1 then 64 else 32
    let n := if wd = 1#1 then 8 else 4
    let base := reg s a + reg s b
    let word := fun k => siteAt sp (base + BitVec.ofNat 64 (4 * k))
    let strided := fun k => siteAt sp (reg s a + BitVec.ofNat 64 k * reg s b)
    let indexed := fun k => siteAt sp (reg s a + (lane (vreg s b) w k).signExtend 64 * BitVec.ofNat 64 n)
    let spots := fun (acc : Acc) (m : Nat) (count : Nat) (site : Nat → Site) (l : List Spot) =>
      l.length = count ∧ ∀ k, k < count → arrives s acc m m (site k) = l[k]?
    let loaded := fun (i : Instr) (m count : Nat) (l : List Spot) => ∀ ls t,
      readEach m s ((List.range count).zip l) = some (ls, t) → ∃ x : V512,
        (∀ k, k < count → lane x (8 * m) k = BitVec.ofNat (8 * m) (ls.getD k (0, 0)).2) ∧
        exec i s = .next (done 4 (setV d x (aliasServed [] l t)))
    let stored := fun (i : Instr) (m count : Nat) (l begins : List Spot) => ∀ t,
      writeEach s (((List.range count).map fun k => toBytes m (lane (vreg s d) (8 * m) k).toNat).zip l) = some t →
        exec i s = .next (done 4 (aliasServed begins l t))
    (alignedTo 64 (siteAt sp base) = true → ∀ l,
      (spots .load 4 16 word l → loaded (.vld d a b sp) 4 16 l) ∧
      (spots .store 4 16 word l → stored (.vst d a b sp) 4 16 l (l.take 1))) ∧
    (∀ l, (spots .load n (64 / n) strided l → loaded (.vlds d a b wd sp) n (64 / n) l) ∧
      (spots .load n (64 / n) indexed l → loaded (.vldx d a b wd sp) n (64 / n) l) ∧
      (spots .store n (64 / n) indexed l → stored (.vstx d a b wd sp) n (64 / n) l l))

/-- In every state whose context nothing holds up, for A and S and the formats BF16, E4M3, E5M2 and E2M1, when each
of the 16 elements from index b of the array at a arrives, aligned as its format asks, and can be read: VLDE puts
element b + k, decoded to FP32, in lane k of D, with no flag. For the formats of one element each, VSTE encodes lane
k of D into element b + k, in lane order, with the flags of the encodings. (R105, R110, R120, R121, R157, R161) -/
def Obligations.VectorElementAccesses : Prop :=
  ∀ s : State, calm s = true → ∀ (d a b : BitVec 5) (f : BitVec 3) (sp : Space) (l : List Spot),
    (sp = 1#2 ∨ sp = 3#2) → 1 ≤ f.toNat → f.toNat < 5 → l.length = 16 →
    let span := if f = 4#3 then 64 else if f = 1#3 then 2 else 1
    let site := fun k => siteAt sp (elemAddr f.toNat (reg s a) ((reg s b).toNat + k))
    ((∀ k, k < 16 → arrives s .load span (elemAlign f.toNat) (site k) = l[k]?) → ∀ ls t,
      readEach span s ((List.range 16).zip l) = some (ls, t) → ∃ x : V512,
        (∀ k, k < 16 → lane x 32 k =
          (let bs := toBytes span (ls.getD k (0, 0)).2
           if f = 4#3 then lineGet (vecOf bs) (((reg s b).toNat + k) % 96) else elemGet f.toNat bs)) ∧
        exec (.vlde d a b f sp) s = .next (done 4 (setV d x t))) ∧
    (f ≠ 4#3 → (∀ k, k < 16 → arrives s .store span (elemAlign f.toNat) (site k) = l[k]?) →
      let e := fun k => elemPut f.toNat (lane (vreg s d) 32 k)
      ∀ t, writeEach (flagged (((List.range 16).map fun k => (e k).2).foldl (· ||| ·) 0) s)
          (((List.range 16).map fun k => (e k).1).zip l) = some t →
        exec (.vste d a b f sp) s = .next (done 4 t))

/-- In every state whose context nothing holds up, when the four bytes after a VPFX word are fetched and decode to
an instruction other than GANG and DISBAND: if it accepts the fields of the prefix and its operation under the
prefix completes, the unit completes and the PC moves by 8; if it does not accept them, the unit takes trap 0x02
with both words in TRAPVAL. Under a mask a vector addition of integers leaves an inactive lane as it was, or zero
under Z, and adds the active ones; VFSHL and VFSHR under X4 give the top and low half of the joined lane shifted by
the lane of V4 modulo the width; without a prefix they take trap 0x02 with the word in TRAPVAL. (R69, R88, R89,
R167, R168, R171) -/
def Obligations.PrefixUnit : Prop :=
  ∀ s : State, calm s = true → ∀ (m : BitVec 3) (z : BitVec 1) (r : BitVec 3) (x : BitVec 1) (v d a b : BitVec 5)
      (e : BitVec 3) (bs : List Byte) (i : Instr),
    let p : Prefix := ⟨m, z = 1#1, r, if x = 1#1 then some v else none⟩
    let w := etWidth e
    let la := fun j => lane (vreg s a) w j
    let lb := fun j => lane (vreg s b) w j
    let joined := fun j => (la j).toNat * 2 ^ w + (lb j).toNat
    (unitBytes s = .ok bs s → unitInstr bs = some i → (∀ g n, i ≠ .gang g n) → i ≠ .disband →
      (∀ op t, prefixed p i = some op → op s = .ok () t → exec (.vpfx m z r x v) s = .next (done 8 t)) ∧
      (prefixed p i = none → exec (.vpfx m z r x v) s = .next (takeTrap s s.core s.ctx 0x02
        (BitVec.ofNat 64 (natOf (encode (.vpfx m z r x v)).bytes) ||| (wordOf bs <<< 32)) false)) ∧
      (i = .vadd d a b e → 2 ≤ e.toNat → r = 0#3 → x = 0#1 → ∃ y : V512,
        (∀ j, j < etLanes e → lane y w j = if (kreg s m).getLsbD j then la j + lb j
          else if z = 1#1 then 0 else lane (vreg s d) w j) ∧
        exec (.vpfx m z r x v) s = .next (done 8 (interlock (.v d) 2 (setV d y s)))) ∧
      (i = .vfshl d a b e → 2 ≤ e.toNat → m = 0#3 → r = 0#3 → x = 1#1 → ∃ y : V512,
        (∀ j, j < etLanes e → lane y w j =
          BitVec.ofNat w (joined j * 2 ^ ((lane (vreg s v) w j).toNat % w) / 2 ^ w)) ∧
        exec (.vpfx m z r x v) s = .next (done 8 (interlock (.v d) 2 (setV d y s)))) ∧
      (i = .vfshr d a b e → 2 ≤ e.toNat → m = 0#3 → r = 0#3 → x = 1#1 → ∃ y : V512,
        (∀ j, j < etLanes e → lane y w j = BitVec.ofNat w (joined j / 2 ^ ((lane (vreg s v) w j).toNat % w))) ∧
        exec (.vpfx m z r x v) s = .next (done 8 (interlock (.v d) 2 (setV d y s))))) ∧
    exec (.vfshl d a b e) s =
      .next (takeTrap s s.core s.ctx 0x02 (BitVec.ofNat 64 (natOf (encode (.vfshl d a b e)).bytes)) false) ∧
    exec (.vfshr d a b e) s =
      .next (takeTrap s s.core s.ctx 0x02 (BitVec.ofNat 64 (natOf (encode (.vfshr d a b e)).bytes)) false)

namespace Sys2Proof.Claims

/-- Every member of the gang that the current context leads is a context of its core with no interlock running. -/
def gangReady (s : State) : Bool :=
  leads s && (members s).all fun p => decide (p.2 < 5) && unlocked (getCtx s p.1 p.2) (now s)

end Sys2Proof.Claims

/-- For a hardware context that nothing holds up: GANG on a core whose index is no multiple of the size writes
status 1, with a follower core that has no free context status 2, and takes no context; else the gang forms: the
leader has D = 0 and the member index 0, and each follower core's lowest free bound context follows it with the
leader's registers, next PC and identity, its own handles, counters, group results and status words cleared and its
instance tag moved on to the next one its slot's directory does not hold. DISBAND by a leader whose members' earlier
instructions have retired frees every follower and leaves the leader an ordinary context at the next instruction;
outside a gang it does nothing. The next instruction of its context issues two cycles later. That the new tag skips
those the directory holds is the model's reading (R184 says only that it increments: log entry 57), as is that a
free context is one that a launch is bound to (log entry 25). (R166, R184, R187) -/
def Obligations.GangFormsAndDisbands : Prop :=
  ∀ (s : State) (d : BitVec 5) (n : BitVec 2), n ≠ 0#2 →
    let size := 2 ^ n.toNat
    (calmStrand s = true →
      (s.core % 8 % size ≠ 0 → exec (.gang d n) s = .next (done 4 (setGLat d 2 1 s))) ∧
      (s.core % 8 % size = 0 → (∃ j, 1 ≤ j ∧ j < size ∧ freeFollower s (s.core + j) = none) →
        exec (.gang d n) s = .next (done 4 (setGLat d 2 2 s))) ∧
      (s.core % 8 % size = 0 → (∀ j, 1 ≤ j → j < size → (freeFollower s (s.core + j)).isSome = true) →
        ∃ t, exec (.gang d n) s = .next t ∧ reg t d = 0 ∧ (here t).pc = (here s).pc + 4 ∧
          (here t).gangSize = n.setWidth 3 ∧ (here t).gangIdx = 0 ∧
          ∀ j x, 1 ≤ j → j < size → freeFollower s (s.core + j) = some x →
            let f := getCtx t (s.core + j) x
            f.run = .follower ∧ f.inst = nextInst s (s.core + j) x (getCtx s (s.core + j) x).inst ∧ f.pc = (here t).pc ∧
            f.g = (here t).g ∧ f.v = (here t).v ∧ f.k = (here t).k ∧ f.ox = (here t).ox ∧
            f.prio = (here t).prio ∧ f.trapVec = (here t).trapVec ∧ f.asid = (here t).asid ∧
            f.ltag = (here t).ltag ∧ f.dom = (here t).dom ∧ f.gangIdx = BitVec.ofNat 3 j ∧
            f.h = Vector.replicate 16 Handle.reset ∧ f.cc = Vector.replicate 16 Counter.reset ∧
            f.grp = Vector.replicate 64 0 ∧ f.fpstat = 0 ∧ f.mxstat = 0)) ∧
    (Claims.gangReady s = true → (∀ p, p ∈ members s → matrixPending s p.1 p.2 = false) →
      ∃ t, exec .disband s = .next t ∧ (here t).gangSize = 0 ∧ (here t).pc = (here s).pc + 4 ∧
        (here t).nextIssue = after s s.core 2 ∧
        ∀ p, p ∈ followers s s.core s.ctx → (getCtx t p.1 p.2).run = .free ∧ (getCtx t p.1 p.2).gangSize = 0) ∧
    (calm s = true → exec .disband s = .next (onHere (fun c => { c with nextIssue := after s s.core 2 }) (done 4 s)))

/-- When a gang's leader reaches an ADD and every member is ready at the same PC, each member's own D becomes the
sum of its own registers and each member's PC moves on. When it reaches a BEQ on which some member's next PC differs
from the leader's, no member branches: each follower holds cause 0x08, its own PC and its own next PC in its trap
registers and is let go, to be freed as at HALT once its own work is over, and the leader, which has a handler, is
not in one and has no matrix instruction outstanding, takes trap 0x08 with its own next PC in TRAPVAL. Whenever a
context leads a gang, reaching any instruction of the table that R185 does not list (every matrix, well, handle,
copy, counter, sleep, one-sided, group, sparse, join-wait, key, atomic, reduction, object, fence, barrier, message,
swift-ring and strand instruction, GANG itself, SYSWR, MSG.RET, YIELD, SUSPEND, HALT, HALTJ and ERET) makes none of
its own checks and has no effect of its own: once the leader's matrix instructions have completed, the followers are
let go with cause 0x08 in their trap registers, and the leader takes cause 0x08 with bits 63 and 61 of TRAPVAL set.
The order of those checks and the followers' own trap values are the model's choice (log entry 83), as is what
becomes of a follower's asynchronous work (log entry 25). (R141, R185, R186, R197) -/
def Obligations.GangRunsAndEnds : Prop :=
  (∀ (s : State) (d a b : BitVec 5) (o : BitVec 12), Claims.gangReady s = true →
    (∀ p, p ∈ members s → (getCtx s p.1 p.2).pc = (here s).pc) →
    (∃ t, exec (.add d a b) s = .next t ∧ ∀ p, p ∈ members s →
      let c := getCtx s p.1 p.2
      gOf (getCtx t p.1 p.2) d = (if d = 0#5 then 0 else gOf c a + gOf c b) ∧ (getCtx t p.1 p.2).pc = c.pc + 4) ∧
    (∀ next : Nat × Nat → VA, (∀ p, next p = if gOf (getCtx s p.1 p.2) a = gOf (getCtx s p.1 p.2) b
        then (getCtx s p.1 p.2).pc + 2 * o.signExtend 56 else (getCtx s p.1 p.2).pc + 4) →
      (∃ p, p ∈ members s ∧ next p ≠ next (s.core, s.ctx)) →
      (here s).trapVec ≠ 0 → (here s).trapMode = false → (here s).midway = false → matrixPending s s.core s.ctx = false →
      ∃ t, exec (.beq a b o) s = .next t ∧
        (here t).trapCause = 0x08 ∧ (here t).trapPc = (here s).pc ∧
        (here t).trapVal = (next (s.core, s.ctx)).setWidth 64 ∧ (here t).pc = (here s).trapVec ++ 0#1 ∧
        (here t).trapMode = true ∧ (here t).gangSize = 0 ∧
        ∀ p, p ∈ followers s s.core s.ctx →
          (getCtx t p.1 p.2).run = .running ∧ (getCtx t p.1 p.2).leaving = true ∧ (getCtx t p.1 p.2).gangSize = 0 ∧
          (getCtx t p.1 p.2).trapCause = 0x08 ∧
          (getCtx t p.1 p.2).trapPc = (here s).pc ∧ (getCtx t p.1 p.2).trapVal = (next p).setWidth 64)) ∧
  (∀ s : State, leads s = true → ∀ (d a b : BitVec 5) (m n : BitVec 4) (j : BitVec 3) (x : BitVec 2) (u v w z : BitVec 1)
      (p : BitVec 6) (e : BitVec 9) (o : BitVec 12),
    ∀ i, i ∈ [.gang d x, .mzero m, .mldb d a j u v m, .mma m d a u v n, .mdrain m u d a v w z, .mscale m d u v,
        .mstat d a u, .mtr d a j u v m, .tqLd d a b, .tqQ d a b u, .tqQs d a b x, .tqScan d, .tqWait d, .hset m
        d, .hwait m n, .hadv m d, .hpub m d, .hstat d m u, .cpGet d a x, .cpPut d a u, .cpGath d a b x, .cpScat
        d a b u, .cpRed d a u, .cpStat d a x, .cpWait d a, .ccSet m d, .ccWait d m, .sleepP d, .sleepC d, .pget
        d a u, .pput d a u, .ctrb d p, .grd d p, .grpset d p, .ssIsect d u, .ssUnion d u, .ssMerge d u, .ssDiff
        d u, .ssSeek d, .jwOpen u d, .jwNext d j u, .jwCnt d a u, .jwClose u, .kacc d a b x u, .kexp d a b x,
        .kflush d a u, .kcnt d a x, .amoadd d a b, .amoand d a b, .amoor d a b, .amoxor d a b, .amomin d a b,
        .amomax d a b, .amominn d a b, .amomaxn d a b, .amoswp d a b, .amocas d a b, .amofadd d a b, .redadd d
        a, .redmin d a, .redmax d a, .redfadd d a, .redor d a, .bind d a b, .unbind d a b, .acq d a u, .rel d,
        .fence j x, .barInit d e, .barEnrol e, .barArr e, .barWait e, .barSig d e, .barDrop e, .barGrel e p,
        .msgSend d a b, .msgSendw d a b, .msgStat d a, .msgMask d, .msgUnmask d, .swRd d a, .swAdd d a b u,
        .swMax d a b u, .swSwap d a b, .swCas d a b, .swBoard d a b, .swAlight d, .swWait d, .fork d a b, .join
        d, .halt u d, .haltj d, .suspend d, .syswr d o, .msgRet, .yield, .eret, .haltH] →
      exec i s = gangTrap s 0x08 (1#64 <<< 63 ||| 1#64 <<< 61) ∧
      (matrixPending s s.core s.ctx = true → ∃ t, exec i s = .next t ∧ t.stalled = true))

/-- For a hardware context that nothing holds up and has no atomic outstanding, with a configured handle where the
handle form is used, a weight format of at most 4 (for MTR not 0) and an even slot for BF16: MZERO, MLDB, MTR, MMA,
MDRAIN and MSCALE enter the cluster's matrix queue with the tile, selector, source and scales of their operands, the
context is held until the acceptance, which is due at once, and nothing else changes. MSTAT, when none of the
context's matrix instructions is outstanding, sets D to MXSTAT, or, when no copy job and no accepted load is writing
the selected slot, to its status word. (R193, R198, R199, R200, R202, R203, R204, R205, R206, R475) -/
def Obligations.MatrixInstructionsIssue : Prop :=
  ∀ s : State, calmStrand s = true → atomicsOut s = false → ∀ (t : BitVec 4) (d a b : BitVec 5) (f : BitVec 3) (h v x c i : BitVec 1) (w : BitVec 4),
    let issued := fun (k : MtxKind) (tile : BitVec 4) (sel : BitVec 8) (hd : Option (BitVec 4)) (addr : Nat) (adv : Bool)
        (wait : BitVec 4) => later (onHere (fun q => { q with run := .held (.accept s.nextId) }) (onCluster (fun q => { q with
        mtx := q.mtx ++ [(⟨s.nextId, whoOf (here s) s.core s.ctx, k, tile, sel, hd, addr, [], adv, wait, false, false,
          [], WSlot.reset, 0⟩ : MtxOp)] }) { s with nextId := s.nextId + 1 })) 0 .matrixAccept (.num (clusterOf s.core) s.nextId 0)
    let hd : Option (BitVec 4) := if h = 1#1 then some (a.setWidth 4) else none
    let addr := if h = 1#1 then 0 else (reg s a).toNat % 65536
    let good := h = 1#1 → (handleOfCtx (here s) (a.setWidth 4)).configured = true
    exec (.mzero t) s = .next (issued .mzero t 0 none 0 false 0) ∧
    (good → f.toNat ≤ 4 → (f = 4#3 → (reg s d).getLsbD 0 = false) →
      exec (.mldb d a f h v w) s = .next (issued (.load f false) 0 ((reg s d).setWidth 8) hd addr (v = 1#1) w) ∧
      (f ≠ 0#3 → exec (.mtr d a f h v w) s =
        .next (issued (.load f true) 0 ((reg s d).setWidth 8) hd addr (v = 1#1) w))) ∧
    (good → exec (.mma t a b h v w) s = .next (issued .mma t ((reg s b).setWidth 8) hd addr (v = 1#1) w)) ∧
    (good → exec (.mdrain t x a b h i c) s = .next (issued
      (.drain (i = 1#1) (x = 1#1) (c = 1#1) (if i = 1#1 then (reg s b).setWidth 16 else 0)) t 0 hd addr false 0)) ∧
    exec (.mscale t b 0 i) s =
      .next (issued (.scale (i = 1#1) (List.replicate 32 ((reg s b).setWidth 32))) t 0 none 0 false 0) ∧
    exec (.mscale t b 1 i) s = .next (issued
      (.scale (i = 1#1) ((List.range 32).map fun j => widen16 (lane (vreg s b) 16 j))) t 0 none 0 false 0) ∧
    ((getCluster s (clusterOf s.core)).mtx.any (fun m => isMine s m.who) = false →
      exec (.mstat d a 0) s = .next (done 4 (setG d ((here s).mxstat.setWidth 64) s)) ∧
      let k := bits (reg s a) 7 5 * 32 + bits (reg s a) 4 0
      let w := slotAt (getCluster s (clusterOf s.core)) k
      (w.loading = false → (∀ m, m ∈ (getCluster s (clusterOf s.core)).mtx → m.accepted = true → k ∉ loadsSlot (getCluster s (clusterOf s.core)) m) →
        exec (.mstat d a 1) s = .next (done 4 (setG d (w.status.setWidth 64) s))))

/-- An MZERO whose context waits for it and whose tile is free is accepted: the context runs on at the next
instruction and the first of the cycles in which it uses the C port (log entry 28) falls due. When it completes, all
2,048 bytes of its C tile that are not withheld read zero, and it leaves its cluster's queue. An MMA of INT8 that
completes on a tile without errors adds to each of the 512 words the dot product of the captured row and the column
of the slot that its acceptance found, clamped to 32 bits. A failed parity check of a slot that is not CORRUPT marks
it so and reports it. (R193, R194, R202, R203, R204, R208, R475) -/
def Obligations.MatrixAcceptanceAndCompletion : Prop :=
  ∀ (s : State) (cl n : Nat) (m : MtxOp),
    let core := m.who.core.toNat
    let x := m.who.ctx.toNat
    ((getCluster s cl).mtx.find? (fun o => o.id = n && !o.accepted) = some m → m.kind = .mzero → m.handle = none →
      x < 5 → s.arg = .num cl n 1 → resident s m.who = true → (getCtx s core x).run = .held (.accept n) →
      blocked s cl m = false → m.addr = 0 →
      ∃ t, exec .matrixAccept s = .next t ∧ (getCtx t core x).run = .running ∧
        (getCtx t core x).pc = (getCtx s core x).pc + 4 ∧
        (∃ o, o ∈ (getCluster t cl).mtx ∧ o.id = n ∧ o.accepted = true) ∧
        (∃ e, e ∈ t.agenda ∧ e.ev = .matrixComplete ∧ e.arg = .num cl n 1)) ∧
    ((getCluster s cl).mtx.find? (fun o => o.id = n && o.accepted) = some m → s.arg = .num cl n 0 →
      ∃ t, exec .matrixComplete s = .next t ∧ (∀ o, o ∈ (getCluster t cl).mtx → o.id ≠ n) ∧
        (m.kind = .mzero → ∀ k, k < 2048 → spaceRead (getCore t core) 2 (2048 * m.tile.toNat + k) 1 = [0]) ∧
        (m.kind = .mma → m.slot.fmt = 3#3 → (getCore s core).cfree = 0 →
          spaceFails (getCore s core) 2 (2048 * m.tile.toNat) 2048 = false →
          let c := tileWords (getCore s core) m.tile
          let row := fun r => ((m.data.drop (64 * r)).take 64).map (·.toInt)
          let col := fun k => ((m.slot.cells.drop (64 * k)).take 64).map (·.toInt)
          let sum := fun r k => (c.getD (32 * r + k) 0).toInt + ((row r).zip (col k)).foldl (fun z p => z + p.1 * p.2) 0
          m.data.length = 1024 → m.slot.cells.length = 2048 →
          m.slot.grp.length = 256 →
          m.slot.band.length = 32 →
          ∀ r k, r < 16 → k < 32 → (tileWords (getCore t core) m.tile).getD (32 * r + k) 0 =
            BitVec.ofInt 32 (max (-(2 ^ 31)) (min (2 ^ 31 - 1) (sum r k))))) ∧
    (∀ k, cl < 2048 → k < 256 → s.arg = .flag cl k true →
      (slotAt (getCluster s cl) k).corrupt = false →
      ∃ t, exec .slotParityCheck s = .next t ∧ (slotAt (getCluster t cl) k).corrupt = true ∧
        (∃ e, e ∈ t.log ∧ e.kind = 2 ∧ e.func = 0 ∧ e.unit = cl))

/-- For a hardware context that nothing holds up and every handle n: HSET of a well-formed word (or 0) on a handle
with nothing reserved configures it with empty counts; on a configured handle HWAIT goes on when W slots are filled
and stalls while they are not; HADV with enough filled slots moves the consumer pointer round the ring; HPUB on a
handle whose producer is the kernel, with enough free slots that no job of the context has still to read, the ports
done and no atomic outstanding, publishes slots; HSTAT reads the state or the configuration. HWAIT, HADV and HPUB on
an unconfigured handle, HSET of a malformed word and HADV past the filled slots trap with cause 0x11 and change
nothing. (R36, R227, R228, R229, R230, R329) -/
def Obligations.HandleInstructions : Prop :=
  ∀ s : State, calmStrand s = true → ∀ (n w : BitVec 4) (k a d : BitVec 5),
    let h := handleOfCtx (here s) n
    let put := fun (q : Handle) => onHere (setHandle n q) s
    let traps := fun i code => exec i s = .next (takeTrap s s.core s.ctx 0x11 (n.setWidth 64 ||| BitVec.ofNat 64 code) false)
    ((reg s a = 0 ∨ badConfig (reg s a) = false) → h.pend = 0 →
      exec (.hset n a) s = .next (done 4 (put ⟨reg s a, 0, 0, 0⟩))) ∧
    (reg s a ≠ 0 → badConfig (reg s a) = true → traps (.hset n a) 0x500) ∧
    (h.configured = false → traps (.hwait n w) 0 ∧ traps (.hadv n k) 0 ∧ traps (.hpub n k) 0) ∧
    (h.configured = true →
      (w.toNat ≤ h.filled.toNat → exec (.hwait n w) s = .next (done 4 s)) ∧
      (h.filled.toNat < w.toNat → ∃ t, exec (.hwait n w) s = .next t ∧ t.stalled = true ∧ (here t).pc = (here s).pc) ∧
      (k.toNat ≤ h.filled.toNat → exec (.hadv n k) s = .next (done 4 (put { h with
        filled := h.filled - k.setWidth 8, cptr := BitVec.ofNat 8 ((h.cptr.toNat + k.toNat) % max 1 h.cnt) }))) ∧
      (h.filled.toNat < k.toNat → traps (.hadv n k) 0x400) ∧
      (h.prod = 0 → k.toNat ≤ h.free → slotsRead s h k.toNat = false → flying s [.remoteAccessServe] = false → atomicsOut s = false →
        exec (.hpub n k) s = .next (done 4 (put { h with filled := h.filled + k.setWidth 8 }))) ∧
      (h.prod ≠ 0 → traps (.hpub n k) 0x100)) ∧
    exec (.hstat d n 1) s = .next (done 4 (setG d h.cfg s)) ∧
    exec (.hstat d n 0) s = .next (done 4 (setG d (handleState h) s))

/-- For a hardware context that nothing holds up: CC.SET sets a counter's EXPECT and DONE; CC.WAIT with the two
equal puts the counter's word in D, and else stalls. SLEEP.C at or past its cycle goes on, before it holds the
context until then; SLEEP.P past its promise goes on when the promise is kept and takes trap 0x06 when it is not;
until then it holds the context, which goes on only after what lands in the promised cycle itself. SLEEP_WAKE lets a
resident sleeper go on at the next instruction, or gives it trap 0x06 for a promise not kept. A wait for a handle or
a counter that has lasted since its timer began takes trap 0x11 with the timer's TRAPVAL. (R232, R244, R245, R319,
R325) -/
def Obligations.CountersSleepsAndTimeouts : Prop :=
  ∀ s : State,
    (calmStrand s = true → ∀ (n : BitVec 4) (d a : BitVec 5),
      let k := counterOf (here s) n
      let v := reg s a
      let held := onHere (fun c => { c with run := .held (.sleep v) }) s
      exec (.ccSet n a) s = .next (done 4 (onHere (fun c => { c with
        cc := c.cc.set n.toNat ⟨v.extractLsb' 32 32, v.extractLsb' 0 32⟩ n.isLt }) s)) ∧
      (k.done = k.expect → exec (.ccWait d n) s = .next (done 4 (setG d (k.expect ++ k.done) s))) ∧
      (k.done ≠ k.expect → ∃ t, exec (.ccWait d n) s = .next t ∧ t.stalled = true ∧ (here t).pc = (here s).pc) ∧
      (v.toNat ≤ now s → exec (.sleepC a) s = .next (done 4 s)) ∧
      (now s < v.toNat → exec (.sleepC a) s = .next
        (later held (v.toNat - now s) .sleepWake (.who (whoOf (here s) s.core s.ctx) 0 v))) ∧
      (v.toNat / 256 < now s → kept (getCluster s (clusterOf s.core)) v = true →
        exec (.sleepP a) s = .next (done 4 s)) ∧
      (v.toNat / 256 < now s → kept (getCluster s (clusterOf s.core)) v = false →
        exec (.sleepP a) s = .next (takeTrap s s.core s.ctx 0x06 v false)) ∧
      (now s ≤ v.toNat / 256 → exec (.sleepP a) s = .next
        (later held (v.toNat / 256 - now s) .sleepWake (.who (whoOf (here s) s.core s.ctx) 1 v)))) ∧
    (∀ (w : Who) (p : Nat) (v : W64), s.arg = .who w p v → resident s w = true →
      let core := w.core.toNat
      let x := w.ctx.toNat
      ((getCtx s core x).run = .held (.sleep v) →
        ((p ≠ 1 ∨ kept (getCluster s (clusterOf core)) v = true) → exec .sleepWake s = .next
          (modCtx s core x fun c => { c with
            run := .running, pc := c.pc + 4, nextIssue := after s core 1, waitSince := none, walkFail := none, await := none
            midway := false })) ∧
        (p = 1 → kept (getCluster s (clusterOf core)) v = false →
          exec .sleepWake s = .next (takeTrap s core x 0x06 v false))) ∧
      ((getCtx s core x).run = .running → (getCtx s core x).waitSince = some p →
        exec .handleWaitTimeout s = .next (takeTrap s core x 0x11 v false) ∧
        exec .ccWaitTimeout s = .next (takeTrap s core x 0x11 v false)))

namespace Sys2Proof.Claims

/-- The bytes of one local row and the number of rows that a copy request may have, on a raw or a formatted page
(R234, R235). -/
def rowLengths (s : State) : List Nat :=
  let len := bits (oxOf (here s) 1) 15 0 + 1
  [len, 4 * len]
def copyRows (s : State) (indexed : Bool) : Nat :=
  if indexed then bits (oxOf (here s) 3) 20 16 else bits (oxOf (here s) 1) 31 16 + 1
/-- The counter of the request has room for its bytes (R35, R323), and a handle named for it is configured, fed by the copy
unit, and has the whole slots free that its image takes, which no job of the context has still to read (R233, R236, R329). -/
def copyRoom (s : State) (indexed : Bool) (p : BitVec 2) (a : BitVec 5) : Prop :=
  let ox2 := oxOf (here s) 2
  let k := counterOf (here s) (ox2.extractLsb' 0 4)
  let h := handleOfCtx (here s) (a.setWidth 4)
  ((k.expect - k.done).toNat + copyRows s indexed * (rowLengths s).getD 1 0 ≤ 2 ^ 31) ∧
  (p = 2#2 → h.configured = true ∧ h.prod = 1 ∧ h.slot ≠ 0 ∧ ∀ r, r ∈ rowLengths s →
    let extent := (copyRows s indexed - 1) * (if bits ox2 31 16 = 0 then r else bits ox2 31 16) + r
    extent % h.slot = 0 ∧ extent / h.slot ≤ min h.cnt h.free ∧ slotsRead s h (extent / h.slot) = false)
/-- The copy unit of the current cluster takes the request: it has an entry for each of its cores, or one is left once every core
has been asked in the cycle and no other request meets it. The context is bound, has issued no other in this cycle (R243), and has
no atomic and no matrix instruction outstanding (R341, R195). -/
def copyFree (s : State) : Prop :=
  let js := (getCluster s (clusterOf s.core)).jobs
  let c := getCluster s (clusterOf s.core)
  (here s).bound = true ∧ atomicsOut s = false ∧ (∀ m, m ∈ c.mtx → isMine s m.who = false) ∧ ((js.filter (·.live)).length ≤ 24 ∨
    ((js.filter (·.live)).length < 32 ∧ s.scan = scanEnd ∧ ∀ b, b ∈ c.bids → b.1 ≠ now s)) ∧
  ∀ j, j ∈ js → ¬ (j.issued = now s ∧ j.who.core.toNat = s.core ∧ j.who.ctx.toNat = s.ctx)
/-- A copy instruction completes: a job of its kind joins its cluster's table, its promise and id stand in D, and the PC moves
past it. A malformed request gives a job that has failed with ERR 5 (R235). -/
def enqueues (i : Instr) (s : State) (kind : CpKind) (d : BitVec 5) : Prop :=
  ∃ t j, exec i s = .next t ∧ j ∈ (getCluster t (clusterOf s.core)).jobs ∧ j.seq = s.nextId ∧ j.kind = kind ∧
    j.who = whoOf (here s) s.core s.ctx ∧ ((j.state = 0#2 ∧ j.err = 0#8) ∨ (j.state = 3#2 ∧ j.err = 5#8)) ∧
    reg t d = (if d = 0#5 then 0 else j.promise ++ j.id) ∧ (here t).pc = (here s).pc + 4
/-- Every page that row `x` of the table of a CP.GATH may touch is in the TLB, admitted and no peer window (R237, R238). -/
def rowHere (s : State) (x : Nat) : Prop :=
  ∀ k, k < (rowLengths s).getD 1 0 + 64 →
    let va : VA := (oxOf (here s) 0).setWidth 56 +
      ((oxOf (here s) 1).extractLsb' 32 32).signExtend 56 * BitVec.ofNat 56 x + BitVec.ofNat 56 k
    windowOf va = none ∧ ∃ l, leafHere s .load va = some l ∧
      admits s 1 (here s).asid.toNat .read (leafPa l va) (dieOf s.core) = true ∧ inPeer (leafPa l va) = false
/-- A CP.GATH has queued rows of its job `j` up to `n`, not the last: its context stands at it, part way, with the progress pair
naming the job and the row (R86, R238). -/
def gathering (s t : State) (j : Job) (n : Nat) : Prop :=
  j.issuing = true ∧ j.queued = n ∧ (here t).pc = (here s).pc ∧ (here t).midway = true ∧
  oxOf (here t) 6 = BitVec.ofNat 64 (256 * j.id.toNat + n) ∧ oxOf (here t) 7 = 0xBD00000000000001

end Sys2Proof.Claims

/-- For a bound hardware context that nothing holds up and has no atomic or matrix instruction outstanding, a copy
unit with a free entry, and room in the completion counter and, for the handle form, in the handle: each of the five
copy instructions completes: a job of its kind joins the table of its cluster, live, or failed with ERR 5 when the
request is malformed; D holds the promise in bits 63 to 8 and the id in bits 7 to 0; and the PC moves on. CP.GATH,
whose issue is restartable, queues one row each time, when the pages of that row are in the TLB, readable and
admitted: the first puts the job in the table; after each row but the last the context stands at the instruction
with the progress pair naming the job and the next row, and after the last D holds the value, the pair is zero and
the PC moves on. That one issue queues one row, so that it takes a cycle, is the model's choice (log entry 69).
(R86, R233, R235, R236, R238, R242, R243, R323) -/
def Obligations.CopyRequestsEnqueue : Prop :=
  ∀ s : State, calmStrand s = true → copyFree s → ∀ (d a b : BitVec 5) (p : BitVec 2) (q : BitVec 1),
    (copyRoom s false p a → enqueues (.cpGet d a p) s .get d) ∧
    (copyRoom s false 0 a → enqueues (.cpPut d a q) s .put d ∧ enqueues (.cpRed d a q) s .red d) ∧
    (copyRoom s true 0 a → enqueues (.cpScat d a b q) s .scat d) ∧
    (p ≠ 3#2 → copyRoom s true p a → oxOf (here s) 7 = 0 →
      (tlbHit (getCluster s (clusterOf s.core)) (here s).asid ((oxOf (here s) 0).setWidth 56)).isSome = true →
      ((lane (vreg s b) 32 0).toNat ≤ bits (oxOf (here s) 1) 31 16 → rowHere s (lane (vreg s b) 32 0).toNat) →
      enqueues (.cpGath d a b p) s .gath d ∨
      ∃ t j, exec (.cpGath d a b p) s = .next t ∧ j ∈ (getCluster t (clusterOf s.core)).jobs ∧ j.seq = s.nextId ∧
        j.kind = .gath ∧ j.who = whoOf (here s) s.core s.ctx ∧ j.state = 0#2 ∧ 1 < copyRows s true ∧ gathering s t j 1) ∧
    (∀ (j : Job) (n : Nat), jobById (getCluster s (clusterOf s.core)) ((oxOf (here s) 6).extractLsb' 8 8) = some j →
      jobOf s (clusterOf s.core) j.seq = some j → j.issuing = true → j.who = whoOf (here s) s.core s.ctx →
      j.hcfg = 0 → (∀ h, j.loc ≠ .handle h) →
      oxOf (here s) 7 = 0xBD00000000000001 → bits (oxOf (here s) 6) 4 0 = n → n < j.rows → j.rows ≤ 16 →
      (j.fmt = 0 → j.rowLen = (rowLengths s).getD 0 0) → (j.fmt ≠ 0 → j.rowLen = (rowLengths s).getD 1 0) →
      (let k := counterOf (here s) j.cc
       (k.expect - k.done).toNat + j.rowLen ≤ 2 ^ 31) →
      ((lane (vreg s b) 32 n).toNat ≤ bits (oxOf (here s) 1) 31 16 → rowHere s (lane (vreg s b) 32 n).toNat) →
      ∃ t k, exec (.cpGath d a b p) s = .next t ∧ jobOf t (clusterOf s.core) j.seq = some k ∧ k.queued = n + 1 ∧
        (n + 1 < j.rows → gathering s t k (n + 1)) ∧
        (n + 1 = j.rows → k.issuing = false ∧ oxOf (here t) 6 = 0 ∧ oxOf (here t) 7 = 0 ∧ (here t).pc = (here s).pc + 4 ∧
          reg t d = if d = 0#5 then 0 else j.promise ++ j.id))

/-- For a hardware context that nothing holds up: CP.STAT puts the status word, or with .addr the fault address, of
the job that the table holds under the id in D, and 0 for none; .one reads and clears the one-sided status; CP.WAIT
does the same once the job has ended and stalls before; that an id the table does not hold reads 0 is the model's
choice (log entry 29). When a job that begins a page the TLB holds, admitted and of its format, comes to it, a piece
that lies within the page gets its physical address. When a piece of a raw CP.GET into A lands on powered banks, in
a cycle of its cluster's clock in which its copy unit has moved no other and its port is free, no other agent having
used its channel before an unloaded job's, the unit's work on the rows that it begins done, and with no error, every
byte of it stands in A at the local base plus its place in the row, and the counter counts it. (R8, R234, R237,
R240, R243, R244, R322, R324) -/
def Obligations.CopyStatusAndLanding : Prop :=
  (∀ s : State, calmStrand s = true → ∀ d a : BitVec 5,
    let cl := getCluster s (clusterOf s.core)
    let job := jobById cl ((reg s a).extractLsb' 0 8)
    exec (.cpStat d a 0) s = .next (done 4 (setG d ((job.map Job.word).getD 0) s)) ∧
    exec (.cpStat d a 1) s = .next (done 4 (setG d ((job.map fun j => j.fault.setWidth 64).getD 0) s)) ∧
    exec (.cpStat d a 2) s = .next (done 4 (setG d (here s).oneSided (onHere (fun c => { c with oneSided := 0 }) s))) ∧
    (job = none → exec (.cpWait d a) s = .next (done 4 (setG d 0 s))) ∧
    (∀ j, job = some j → j.live = false → exec (.cpWait d a) s = .next (done 4 (setG d j.word s))) ∧
    (∀ j, job = some j → j.live = true → exec (.cpWait d a) s = .next (stallsOnly s))) ∧
  (∀ (s : State) (cl seq : Nat) (j : Job) (p : Piece) (rest : List Piece) (l : Leaf), s.arg = .num cl seq 0 →
    jobOf s cl seq = some j → j.live = true → j.kind = .get → j.loc = .bufA → j.stopping = false → j.fmt = 0 → j.peer = none →
    j.todo = p :: rest → p.fill = false → p.ready = false →
    p.va.toNat % 65536 + p.bytes ≤ 65536 →
    windowOf p.va = none → tlbHit (getCluster s cl) j.who.asid p.va = some l → 16 ≤ l.bits → leafFmt l.entry = 0 →
    admits s 1 j.who.asid.toNat .read (leafPa l p.va) (dieOfCluster cl) = true → inPeer (leafPa l p.va) = false →
    ∃ t k q, exec .copyPageTranslate s = .next t ∧ jobOf t cl seq = some k ∧ k.todo.head? = some q ∧
      q.ready = true ∧ q.pa = leafPa l p.va ∧ q.va = p.va ∧ q.bytes = p.bytes) ∧
  (∀ (s : State) (cl seq : Nat) (j : Job) (p : Piece), s.arg = .piece cl seq p →
    let core := j.who.core.toNat
    let row := p.pos / j.rowLen
    let at_ := j.lbase + row * j.pitch + p.pos % j.rowLen
    jobOf s cl seq = some j → j.live = true → j.flying.contains p = true → j.kind = .get → j.loc = .bufA →
    j.fmt = 0 → j.swz = false → j.peer = none → j.stopping = false → p.fill = false → 0 < j.rowLen →
    p.va.toNat % 65536 + p.bytes ≤ 65536 → rowWork j p = false → p.pos % j.rowLen + p.bytes ≤ j.rowLen → asleep s p.pa = none → (∀ k, k < p.bytes → badAt s (p.pa + k) = false) →
    (getCore s core).powered = true → portBusy (getCore s core) 1 (now s) = false → resident s j.who = true →
    (getCluster s cl).cpLand ≤ now s → onEdge s (8 * cl) = true → (j.loaded = true ∨ othersUse s j p.pa = false) →
    j.who.ctx.toNat < 5 →
    ∃ t, exec .copyPieceLand s = .next t ∧
      (∀ k, k < p.bytes → byteGet (getCore t core).a (at_ + k) = byteGet s.mem (p.pa + k)) ∧
      (counterOf (getCtx t core j.who.ctx.toNat) j.cc).done =
        (counterOf (getCtx s core j.who.ctx.toNat) j.cc).done + BitVec.ofNat 32 p.bytes)

namespace Sys2Proof.Claims

/-- A table query counted as outstanding (R220). -/
def counted : State → State := onHere fun c => { c with tqOut := c.tqOut + 1 }
/-- A request of the current context sent to a well (R221). -/
def toWell (w : Nat) (op : WellOp) (s : State) : State :=
  sometime (modDie { s with nextId := s.nextId + 1 } (wellDie w) fun d => { d with
    wellQ := d.wellQ ++ [(⟨s.nextId, whoOf (here s) s.core s.ctx, w, op⟩ : WellReq)] }) .wellService
    (.num (wellDie w) s.nextId 0)
/-- Registers v(d) to v(d + n − 1) interlocked until a reply (R216). -/
def awaiting (d : BitVec 5) (n : Nat) (s : State) : State :=
  (List.range n).foldl (fun s i => interlock (.v (d + BitVec.ofNat 5 i)) 0 s) s
/-- The 64 indices of a query: bytes of va, or halfwords of va and the register after it (R216). -/
def indicesOf (s : State) (a : BitVec 5) (wide : Bool) : List Nat :=
  (List.range 64).map fun k =>
    if wide then (if k < 32 then (lane (vreg s a) 16 k).toNat else (lane (vreg s (a + 1)) 16 (k - 32)).toNat)
    else (lane (vreg s a) 8 k).toNat
/-- The physical well that a register selects for the current context (R209). -/
def wellOf (s : State) (r : BitVec 5) : Option Nat := physicalWell s (here s).dom (logicalWell (here s) s.core (reg s r))
/-- Whether the wells' access table admits the current context, which may have another query outstanding and has no atomic
outstanding (R220, R341, R427, R428). -/
def wellOpen (s : State) (w : Nat) (p : Perm) : Prop :=
  tableAdmits s (wellDie w * 8 + 2) (wellBank w * 524288) 0 (here s).asid.toNat p = true ∧ queriesOut (here s) < 8 ∧ atomicsOut s = false

end Sys2Proof.Claims

/-- For a hardware context that nothing holds up, with fewer than 8 queries and no atomic outstanding, whose launch
binds the selected well and whose access the wells' table admits: TQ.LD with a row of at most 511 and a
64-byte-aligned source in S below 0x6000 sends that row the 1,024 bytes; TQ.Q and TQ.QS with a well-formed table
word send the 64 indices, their destination registers interlocked until the answer, or, for the A form to bytes that
no matrix instruction still uses, 64 entries posted to the counter. TQ.SCAN, which is restartable, at an item n, the
first or the one its progress pair names, whose item and sum pages are in the TLB, in the well's bank and admitted:
it sends the items up to the end of either page, 4 bytes posted for each; with more left the context stands at the
instruction, the pair naming the next item, and after the last the pair is zero and the PC moves on. That one issue
sends one chunk is the model's choice (log entry 69), as is that a chunk ends before a sum that memory refuses (log
entry 85). TQ.WAIT with nothing outstanding puts QSTAT in D and clears it. (R86, R209, R211, R213, R215, R216, R217,
R218, R219, R220) -/
def Obligations.TableQueriesIssue : Prop :=
  ∀ s : State, calmStrand s = true → ∀ (d a b : BitVec 5) (g : BitVec 2) (w : Nat),
    let tab := oxOf (here s) 0
    let ox1 := oxOf (here s) 1
    let size := 2 ^ bits tab 10 9
    let k := counterOf (here s) (ox1.setWidth 4)
    let posted := fun n => onHere (fun c => { c with
      cc := c.cc.set (ox1.setWidth 4).toNat ⟨k.expect + BitVec.ofNat 32 n, k.done⟩ (ox1.setWidth 4).isLt })
    let idx := indicesOf s a (tab.getLsbD 11)
    (wellOf s d = some w → wellOpen s w .write → (reg s b).toNat ≤ 511 → (reg s a).toNat % 64 = 0 →
      (reg s a).toNat % 65536 + 1024 ≤ 0x6000 → readable s 1024 (.loc 3 ((reg s a).toNat % 65536)) = true →
      exec (.tqLd d a b) s = .next (done 4 (toWell w
        (.ld (reg s b).toNat (spotBytes s 1024 (.loc 3 ((reg s a).toNat % 65536))))
        (afterRead (counted s) 1024 (.loc 3 ((reg s a).toNat % 65536)))))) ∧
    (wellOf s b = some w → wellOpen s w .read → badTable tab = false → (tab.getLsbD 11 = true → a ≠ 31#5) →
      (d.toNat + size ≤ 32 → exec (.tqQ d a b 0) s =
        .next (done 4 (toWell w (.q tab idx none 0 d) (awaiting d size (counted s))))) ∧
      (bits ox1 63 4 = 0 → (reg s d).toNat % 64 = 0 → (reg s d).toNat % 65536 + 64 * size ≤ 65536 →
        matrixBefore s 1 ((reg s d).toNat % 65536) (64 * size) = false →
        (k.expect - k.done).toNat + 64 * size ≤ 2 ^ 31 → exec (.tqQ d a b 1) s =
          .next (done 4 (toWell w (.q tab idx (some ((reg s d).toNat % 65536)) (ox1.setWidth 4) d)
            (posted (64 * size) (counted s))))) ∧
      (bits ox1 47 0 = 0 → exec (.tqQs d a b g) s =
        .next (done 4 (toWell w (.qs tab idx (if g = 0#2 then 8 else if g = 1#2 then 16 else 64) (bits ox1 63 48) d)
          (interlock (.v d) 0 (counted s)))))) ∧
    (wellOf s d = some w → wellOpen s w .read → badTable tab = false → bits ox1 47 18 = 0 → bits ox1 17 16 ≠ 3 →
      bits ox1 15 4 = 0 → bits (oxOf (here s) 3) 63 32 = 0 →
      (let items := bits (oxOf (here s) 3) 31 0
       let width := (if bits ox1 17 16 = 0 then 8 else if bits ox1 17 16 = 1 then 16 else 64) *
         (if tab.getLsbD 11 then 2 else 1)
       let src := oxOf (here s) 2
       let dst := oxOf (here s) 4
       src.toNat % width = 0 → dst.toNat % 4 = 0 → ∀ n : Nat, n ≤ items →
       ((oxOf (here s) 7 = 0 ∧ n = 0) ∨ (oxOf (here s) 7 = 0xB180000000000001 ∧ (oxOf (here s) 6).toNat = n)) →
       let ends := fun (t : State) => oxOf (here t) 6 = 0 ∧ oxOf (here t) 7 = 0 ∧ (here t).pc = (here s).pc + 4
       (n = items → ∃ t, exec (.tqScan d) s = .next t ∧ ends t) ∧
       (n < items → (k.expect - k.done).toNat + 4 * items ≤ 2 ^ 31 →
         let iva : VA := (src + BitVec.ofNat 64 (n * width)).setWidth 56
         let sva : VA := (dst + BitVec.ofNat 64 (4 * n)).setWidth 56
         windowOf iva = none → windowOf sva = none → ∀ il sl : Leaf,
         leafHere s .load iva = some il → leafWell il.entry = true →
         bankOf (leafPa il iva) = some (wellDie w, wellBank w) →
         admits s 0 (here s).asid.toNat .read (leafPa il iva) (dieOf s.core) = true → inPeer (leafPa il iva) = false →
         leafHere s .store sva = some sl → leafFmt sl.entry = 0 → 2 ≤ sl.bits → inPeer (leafPa sl sva) = false →
         let m := n + min (items - n) (min ((0x200000 - iva.toNat % 0x200000) / width)
           ((2 ^ sl.bits - sva.toNat % 2 ^ sl.bits) / 4))
         (∀ j, j ≤ m - n → admits s 1 (here s).asid.toNat .write (leafPa sl sva + 4 * j) (dieOf s.core) = true) →
         ∃ t, exec (.tqScan d) s = .next t ∧ n < m ∧
           (counterOf (here t) (ox1.setWidth 4)).expect = k.expect + BitVec.ofNat 32 (4 * (m - n)) ∧
           ((here s).midway = false → (here t).scans.head? = some (s.nextId, m - n)) ∧
           (m = items → ends t) ∧
           (m < items → (oxOf (here t) 6).toNat = m ∧ oxOf (here t) 7 = 0xB180000000000001 ∧
             (here t).pc = (here s).pc ∧ (here t).midway = true)))) ∧
    (queriesOut (here s) = 0 → exec (.tqWait d) s = .next (done 4 (setG d ((here s).qstat.setWidth 64)
      (onHere (fun c => { c with qstat := 0 }) s))))

/-- When a request first of its context at its well is served: TQ.LD replaces the 1,024 bytes of its row and ends
the query; TQ.Q sends back its 64 entries, an index at or beyond the table's length reading zero; TQ.QS of an
integer table without a bad row sends back the wrapped sum of each group's widened entries; a scan's last item
leaves the queue with its sum due. A result for registers lands in the v registers, which are free again, adds its
flags to QSTAT and ends the query; one for A lands in pieces of the port's 128 bytes, one in a cycle, each counted,
the last of which ends the query; a scan's sum lands in memory and counts 4 bytes. (R29, R212, R215, R216, R217,
R219, R220, R221, R223) -/
def Obligations.WellServiceAndResults : Prop :=
  (∀ (s : State) (die id : Nat) (r : WellReq), s.arg = .num die id 0 →
    (getDie s die).wellQ.find? (·.id = id) = some r →
    ((getDie s die).wellQ.takeWhile (·.id ≠ id)).any (fun o => o.who = r.who && o.well = r.well) = false →
    (∀ row bs, r.op = .ld row bs → bs.length = 1024 → ∃ t, exec .wellService s = .next t ∧
      (∀ k, k < 1024 → byteGet (getDie t die).wells ((r.well % 2048 * 512 + row) * 1024 + k) = bs.getD k 0) ∧
      (∀ q, q ∈ (getDie t die).wellQ → q.id ≠ id)) ∧
    (∀ tab idx toA cc v, r.op = .q tab idx toA cc v → idx.length = 64 → ∃ t q, exec .wellService s = .next t ∧
      (∃ e, e ∈ t.agenda ∧ e.ev = .queryResultLand ∧ e.arg = .query q) ∧ q.who = r.who ∧ q.toA = toA ∧
      q.oor = idx.any (fun i => decide (tabLen tab ≤ i)) ∧
      (toA.isSome = true → q.bytes = idx.flatMap fun i =>
        toBytes (tabSize tab) (tableEntry (getDie s die) r.well tab i).1) ∧
      (∀ i, tabLen tab ≤ i → (tableEntry (getDie s die) r.well tab i).1 = 0)) ∧
    (∀ tab idx grp stride v, r.op = .qs tab idx grp stride v → tabType tab ≠ 1 → idx.length = 64 →
      (grp = 8 ∨ grp = 16 ∨ grp = 64) → (getDie s die).badRows = [] → ∃ t q x, exec .wellService s = .next t ∧
      (∃ e, e ∈ t.agenda ∧ e.ev = .queryResultLand ∧ e.arg = .query q) ∧ q.who = r.who ∧ q.d = v ∧ q.vals = [x] ∧
      ∀ k, k < 64 / grp → lane x 32 k = (List.range grp).foldl (fun z j => z +
        widenEntry tab (tableEntry (getDie s die) r.well tab (idx.getD (k * grp + j) 0 + j * stride)).1) 0) ∧
    (∀ tab grp stride iva sva ileaf sleaf ipa spa cc seq,
      r.op = .scan tab grp stride iva sva ileaf sleaf ipa spa 1 cc seq → ∃ t q,
      exec .wellService s = .next t ∧ (∀ o, o ∈ (getDie t die).wellQ → o.id ≠ id) ∧
      (∃ e, e ∈ t.agenda ∧ e.ev = .scanSumLand ∧ e.arg = .sum q) ∧ q.who = r.who ∧ q.pa = spa ∧ q.leaf = sleaf ∧ q.seq = seq)) ∧
  (∀ (s : State) (r : QueryResult), s.arg = .query r → resident s r.who = true → r.who.ctx.toNat < 5 →
    let core := r.who.core.toNat
    let x := r.who.ctx.toNat
    (r.toA = none → ∀ v, r.vals = [v] → ∃ t, exec .queryResultLand s = .next t ∧ vOf (getCtx t core x) r.d = v ∧
      lockedAt (getCtx t core x) (.v r.d) (now s) = false ∧
      (getCtx t core x).qstat = (getCtx s core x).qstat ||| queryFlags r.oor r.ue ∧
      (getCtx t core x).tqOut = (getCtx s core x).tqOut - 1) ∧
    (∀ a, r.toA = some a → r.vals = [] → (getCore s core).powered = true → portBusy (getCore s core) 1 (now s) = false →
      let n := min r.bytes.length (128 - a % 128)
      ∃ t, exec .queryResultLand s = .next t ∧
      (∀ k, k < n → byteGet (getCore t core).a (a + k) = r.bytes.getD k 0) ∧ portBusy (getCore t core) 1 (now s) = true ∧
      (counterOf (getCtx t core x) r.cc).done = (counterOf (getCtx s core x) r.cc).done + BitVec.ofNat 32 n ∧
      (n = r.bytes.length → (getCtx t core x).tqOut = (getCtx s core x).tqOut - 1) ∧
      (n < r.bytes.length → (⟨now s + 1, .queryResultLand, .query { r with toA := some (a + n), bytes := r.bytes.drop n }⟩ : Due) ∈
        t.agenda))) ∧
  (∀ (s : State) (r : ScanSum), s.arg = .sum r → resident s r.who = true → r.who.ctx.toNat < 5 → r.pa % 4 = 0 →
    ∃ t, exec .scanSumLand s = .next t ∧
      (∀ k, k < 4 → byteGet t.mem (r.pa + k) = (low 4 (r.val.setWidth 64)).getD k 0) ∧
      (counterOf (getCtx t r.who.core.toNat r.who.ctx.toNat) r.cc).done =
        (counterOf (getCtx s r.who.core.toNat r.who.ctx.toNat) r.cc).done + 4)

/-- In every state whose context nothing holds up and whose cluster's special-function queue has room, SF.RCP,
SF.RSQ, SF.SQRT, SF.EXP2 and SF.LOG2 enter the queue with their operand, D interlocked until the answer. When an
entry of a resident context is served, each lane of D is the function of its lane, D is free, FPSTAT gains the
lanes' flags, and the entry leaves the queue. (R45, R224, R225, R226) -/
def Obligations.SpecialFunctions : Prop :=
  (∀ s : State, calm s = true → ∀ d a : BitVec 5, sfuFull s (clusterOf s.core) 1 = false →
    let queued := fun op => Host.Outcome.next (done 4 (pushSfu (interlock (.v d) 0 s)
      ⟨0, 0, whoOf (here s) s.core s.ctx, op, vreg s a, d⟩))
    exec (.sfRcp d a) s = queued 0 ∧ exec (.sfRsq d a) s = queued 1 ∧ exec (.sfSqrt d a) s = queued 2 ∧
    exec (.sfExp2 d a) s = queued 3 ∧ exec (.sfLog2 d a) s = queued 4) ∧
  (∀ (s : State) (cl id : Nat) (e : SfuEntry), s.arg = .num cl id 0 → (getCluster s cl).sfu.find? (·.id = id) = some e →
    resident s e.who = true → e.who.ctx.toNat < 5 → ∃ t, exec .sfuServe s = .next t ∧
      (∀ k, k < 16 → lane (vOf (getCtx t e.who.core.toNat e.who.ctx.toNat) e.d) 32 k =
        (sfuLane e.op.toNat (lane e.a 32 k)).1) ∧
      lockedAt (getCtx t e.who.core.toNat e.who.ctx.toNat) (.v e.d) (now s) = false ∧
      (getCtx t e.who.core.toNat e.who.ctx.toNat).fpstat = (getCtx s e.who.core.toNat e.who.ctx.toNat).fpstat |||
        ((List.range 16).map fun k => (sfuLane e.op.toNat (lane e.a 32 k)).2).foldl (· ||| ·) 0 ∧
      (∀ o, o ∈ (getCluster t cl).sfu → o.id ≠ id))

/-- For a hardware context that nothing holds up, a target word and a shape word without reserved bits, a count from
1 to 16, an element size of at most 64 bytes, local and remote bases aligned to it, a local side inside its space
and room in the counter: PGET and, when none of its local bytes is in error, PPUT complete once no atomic is
outstanding and no matrix instruction still uses the local bytes: EXPECT of the counter rises by count times size,
the access with the offsets rbase + index × size, and for PPUT the local bytes, is on its way to the target, and the
PC moves on. An access that no earlier one of its context to the same target is before, at a port that is free: one
that arrives at a core outside its issuer's domain leaves only the issuer's one-sided status changed and a reply
without bytes; one that has arrived at a powered core of its domain, no element of it in the mailbox or deque
region, has its next element served, which lies inside the space and holds no error: PPUT's bytes stand in the
target's A or S, an accumulation's word is the old one plus the term, either takes the next trace entry, and PGET
has read the bytes that stand there; the port is used in the cycle, the access goes on in the next one, and after
its last element its reply is on the way. The next element of a PGET's reply that reaches its powered core at a free
port stands there and is counted, and the others come after; any other reply counts whole. That an element takes a
cycle (log entry 28), that each one served, an accumulation's too, makes a trace entry (log entry 30) and the order
of what meets at a port (log entry 67) are the model's choices. (R246, R247, R248, R323, R249, R272, R29, R34, R35,
R50, R341) -/
def Obligations.OneSidedAccesses : Prop :=
  (∀ s : State, calmStrand s = true → ∀ (a b : BitVec 5) (f : BitVec 1),
    let ox0 := oxOf (here s) 0
    let ox1 := oxOf (here s) 1
    let n := bits ox1 12 8
    let size := 4 * 2 ^ bits ox1 2 0
    let base := (reg s a).toNat % 65536
    let cc : BitVec 4 := ox1.extractLsb' 16 4
    let k := counterOf (here s) cc
    let sp : Space := if f = 1#1 then 3 else 1
    let offs := (List.range n).map fun j => bits ox0 47 32 + (lane (vreg s b) 32 j).toNat * size
    let posted := onHere (fun c => { c with cc := c.cc.set cc.toNat ⟨k.expect + BitVec.ofNat 32 (n * size), k.done⟩ cc.isLt }) s
    let sent := fun op data => Host.Outcome.next (done 4 (sendRemote posted
      ⟨whoOf (here s) s.core s.ctx, ox0.setWidth 14, ox0.getLsbD 16, op, size, offs, data, cc, base, f = 1#1, 0, false, 0⟩))
    bits ox0 63 48 = 0 → bits ox0 31 17 = 0 → bits ox0 15 14 = 0 → bits ox1 63 20 = 0 → bits ox1 15 13 = 0 →
    bits ox1 7 3 = 0 → 1 ≤ n → n ≤ 16 → bits ox1 2 0 ≤ 4 → base % size = 0 → bits ox0 47 32 % size = 0 →
    base + n * size ≤ (if f = 1#1 then 0x8000 else 0x10000) →
    (k.expect + BitVec.ofNat 32 (n * size) - k.done).toNat ≤ 2 ^ 31 → atomicsOut s = false →
    matrixBefore s sp base (n * size) = false →
    exec (.pget a b f) s = sent .get [] ∧
    (spaceFails (hereCore s) sp base (n * size) = false →
      exec (.pput a b f) s = sent .put ((List.range (n * size)).map fun j => byteGet (spaceBytes (hereCore s) sp) (base + j)))) ∧
  (∀ (s : State) (r : Remote) (l : List Byte), s.arg = .remote r l → s.agenda.any r.after = false →
    let core := r.target.toNat
    ((getCore s core).powered = true → portBusy (getCore s core) r.space (now s) = false) →
    (r.next = 0 → inDomain s core r.who.dom = false → exec .remoteAccessServe s = .next (sometime
      (deliver s r.who (oneSidedFail 0 core (r.offs.getLastD 0))) .oneSidedReply (.remote { r with here := false } []))) ∧
    ((getCore s core).powered = true →
      (r.next = 0 → inDomain s core r.who.dom = true ∧ r.localBarred = false ∧ ∀ o, o ∈ r.offs → r.barred o = false) →
      ∀ off, r.offs[r.next]? = some off → r.past off = false → spaceFails (getCore s core) r.space off r.size = false →
      let mine := (r.data.drop (r.next * r.size)).take r.size
      let goesOn := fun (t : State) (got : List Byte) => portBusy (getCore t core) r.space (now s) = true ∧
        (r.next + 1 < r.offs.length → (⟨now s + 1, .remoteAccessServe, .remote { r with next := r.next + 1, here := true } got⟩ : Due) ∈
          t.agenda) ∧
        (r.next + 1 = r.offs.length →
          ∃ e, e ∈ t.agenda ∧ e.ev = .oneSidedReply ∧ e.arg = .remote { r with next := 0, here := false } got)
      (r.op = .put → mine.length = r.size → ∃ t, exec .remoteAccessServe s = .next t ∧ goesOn t l ∧
        (∀ k, k < r.size → byteGet (spaceBytes (getCore t core) r.space) (off + k) = mine.getD k 0) ∧
        (getCore t core).trcIdx = (getCore s core).trcIdx + 1) ∧
      (∀ f32 : Bool, r.op = (if f32 then .accF32 else .accI32) → r.size = 4 → mine.length = 4 →
        ∃ t, exec .remoteAccessServe s = .next t ∧ goesOn t l ∧ (getCore t core).trcIdx = (getCore s core).trcIdx + 1 ∧
          le4 (bytesGet (spaceBytes (getCore t core) r.space) off 4) =
            (if f32 then (add32 (le4 (bytesGet (spaceBytes (getCore s core) r.space) off 4)) (le4 mine)).1
             else le4 (bytesGet (spaceBytes (getCore s core) r.space) off 4) + le4 mine)) ∧
      (r.op = .get → ∃ t, exec .remoteAccessServe s = .next t ∧
        goesOn t (l ++ (List.range r.size).map fun k => byteGet (spaceBytes (getCore s core) r.space) (off + k))))) ∧
  (∀ (s : State) (r : Remote) (data : List Byte), s.arg = .remote r data → resident s r.who = true → r.who.ctx.toNat < 5 →
    let core := r.who.core.toNat
    let sp : Space := if r.lS then 3 else 1
    let counts := fun (t : State) (n : Nat) => (counterOf (getCtx t core r.who.ctx.toNat) r.cc).done =
      (counterOf (getCtx s core r.who.ctx.toNat) r.cc).done + BitVec.ofNat 32 n
    ((r.op ≠ .get ∨ data = []) → ∃ t, exec .oneSidedReply s = .next t ∧ counts t (r.offs.length * r.size)) ∧
    (r.op = .get → data ≠ [] → portBusy (getCore s core) sp (now s) = false →
      ∃ t, exec .oneSidedReply s = .next t ∧ counts t r.size ∧
        (r.next + 1 < r.offs.length → (⟨now s + 1, .oneSidedReply, .remote { r with next := r.next + 1 } data⟩ : Due) ∈ t.agenda) ∧
        ((getCore s core).powered = true → (∃ off, r.offs[r.next]? = some off ∧ r.past off = false) →
          (r.next + 1) * r.size ≤ data.length → ∀ k, k < r.size →
          byteGet (spaceBytes (getCore t core) sp) (r.laddr + r.next * r.size + k) = data.getD (r.next * r.size + k) 0)))

/-- For a hardware context that nothing holds up, in a domain with a tree for the group: CTRB, with the ports done,
no atomic outstanding, no word on its way and no contribution of its core in the round, adds its register to the
round and lets its context wait; GRD goes on and puts grpN in D once no result of the group is owed to it, and
stalls before; GRPSET of a word below 128 with an operator, while no round is in progress, sends it to the routers,
and with any other word takes cause 0x07. A round of a domain of one cluster in which its eight cores contributed
values, core by core, completes with every contributor's result on its way: the sum, in core order, where the
operator is ADD of integers. An arriving result stands in grpN and one result less is owed; an arriving word is the
group's. (R250, R251, R252) -/
def Obligations.GroupContributions : Prop :=
  (∀ s : State, calmStrand s = true → ∀ (d a : BitVec 5) (n : BitVec 6) (w : W64), groupWord s (here s).dom n = some w →
    let r := groupRound s (here s).dom n
    (r.setting = 0 → contributed s (here s).dom n s.core = false → flying s [.remoteAccessServe] = false → atomicsOut s = false →
      exec (.ctrb a n) s = .next (done 4 (onHere (fun c => { c with grpWait := n :: c.grpWait })
        (contribute s (here s).dom n s.core (some (reg s a, whoOf (here s) s.core s.ctx)) none)))) ∧
    (n ∉ (here s).grpWait →
      exec (.grd d n) s = .next (done 4 (setG d ((here s).grp[n.toNat]'(n.isLt)) s))) ∧
    (n ∈ (here s).grpWait → exec (.grd d n) s = .next (stallsOnly s)) ∧
    ((reg s a).toNat < 128 → bits (reg s a) 6 4 ≠ 7 → r.vals = [] →
      ∃ t, exec (.grpset a n) s = .next t ∧ (groupRound t (here s).dom n).setting = r.setting + 1 ∧
        (here t).pc = (here s).pc + 4 ∧ ∃ e, e ∈ t.agenda ∧ e.ev = .grpsetComplete ∧
          e.arg = .word (reg s a) 0 ((here s).dom.toNat * 64 + n.toNat)) ∧
    ((128 ≤ (reg s a).toNat ∨ bits (reg s a) 6 4 = 7) →
      exec (.grpset a n) s = .next (takeTrap s s.core s.ctx 0x07 (n.setWidth 64 ||| 0x100) false))) ∧
  (∀ (s : State) (l : Launch) (cl : Nat) (dom : BitVec 12) (n : BitVec 6) (vals : Nat → W64),
    s.arg = .num dom.toNat n.toNat 0 → launchOf s dom = some l → l.clusters = [cl] → bits (tabGet 0 l.groups n.toNat) 6 4 = 0 →
    (groupRound s dom n).vals = (List.range 8).map (fun j => (cl * 8 + j, some (vals j))) → (groupRound s dom n).greln = [] →
    ∃ t, exec .groupRoundComplete s = .next t ∧ ∀ w, w ∈ (groupRound s dom n).whos →
      ∃ e, e ∈ t.agenda ∧ e.ev = .groupResultArrive ∧
        e.arg = .who w n.toNat (vals 0 + vals 1 + vals 2 + vals 3 + vals 4 + vals 5 + vals 6 + vals 7)) ∧
  (∀ (s : State) (w : Who) (n : BitVec 6) (v : W64), s.arg = .who w n.toNat v → resident s w = true → w.ctx.toNat < 5 →
    ∃ t, exec .groupResultArrive s = .next t ∧
      (getCtx t w.core.toNat w.ctx.toNat).grp[n.toNat]'(n.isLt) = v ∧
      (getCtx t w.core.toNat w.ctx.toNat).grpWait = (getCtx s w.core.toNat w.ctx.toNat).grpWait.erase n) ∧
  (∀ (s : State) (x : W64) (dom : BitVec 12) (n : BitVec 6) (l : Launch), s.arg = .word x 0 (dom.toNat * 64 + n.toNat) →
    launchOf s dom = some l → ∃ t, exec .grpsetComplete s = .next t ∧ groupWord t dom n = some x ∧
      (groupRound t dom n).setting = (groupRound s dom n).setting - 1)

namespace Sys2Proof.Claims

/-- A sync word that the current context may use: aligned, on a raw writable page of first- or second-tier memory that the
TLB holds, admitted by its engine's table, and no object's word (R280, R423, R428). -/
def syncAt (s : State) (base : W64) (l : Leaf) : Prop :=
  let va : VA := base.setWidth 56
  base.toNat % 8 = 0 ∧ windowOf va = none ∧ leafHere s .store va = some l ∧ leafFmt l.entry = 0 ∧
  (homeDie (leafPa l va)).isSome = true ∧ admitOk s .sync (.phys va (leafPa l va) l) = true ∧
  isObject s (leafPa l va) = false
/-- A returning atomic completes: its cluster's combined term of the word goes first, its own request follows those of its
cluster to the word, and D waits for the reply (R280, R282). -/
def atomic (i : Instr) (s : State) (fn : BitVec 4) (d : BitVec 5) (base b cmp : W64) (l : Leaf) : Prop :=
  let pa := leafPa l (base.setWidth 56)
  let sent := laterAfter (flushComb s (clusterOf s.core) (·.pa = pa)) .amoApply
    (.amo ⟨whoOf (here s) s.core s.ctx, tagOf l, fn, pa, b, cmp, d⟩ 0) (wordEvents (clusterOf s.core) pa)
  exec i s = .next (done 4 (if d = 0#5 then sent else interlock (.g d) 0 sent))
/-- A reduction completes: its term is in its cluster's combining buffer (R281, R282). -/
def reduction (i : Instr) (s : State) (fn : BitVec 3) (base b : W64) (l : Leaf) : Prop :=
  exec i s = .next (done 4 (combine64 s (clusterOf s.core) (leafPa l (base.setWidth 56)) (base.setWidth 56) fn b
    (whoOf (here s) s.core s.ctx)))
/-- The new word of an atomic, as the table of R280 gives it by FN (R80). -/
def amoWord (fn : Nat) (old b cmp : W64) : W64 :=
  match fn with
  | 0 => old + b
  | 1 => old &&& b
  | 2 => old ||| b
  | 3 => old ^^^ b
  | 4 => if old.toInt ≤ b.toInt then old else b
  | 5 => if b.toInt ≤ old.toInt then old else b
  | 6 => if old.toNat ≤ b.toNat then old else b
  | 7 => if b.toNat ≤ old.toNat then old else b
  | 8 => b
  | 9 => if old = cmp then b else old
  | _ => old.extractLsb' 32 32 ++ (add32 (old.extractLsb' 0 32) (b.extractLsb' 0 32)).1
/-- A merged reduction applied to a word, by FN (R281). -/
def redWord (fn : Nat) (old b : W64) : W64 :=
  match fn with
  | 0 => old + b
  | 1 => if old.toInt ≤ b.toInt then old else b
  | 2 => if b.toInt ≤ old.toInt then old else b
  | 3 => old.extractLsb' 32 32 ++ (add32 (old.extractLsb' 0 32) (b.extractLsb' 0 32)).1
  | _ => old ||| b

end Sys2Proof.Claims

/-- In every state whose context nothing holds up, for every word that the context may use as a sync word: each of
the eleven atomics completes with its cluster's combined term of the word sent first, its own request with FN,
operand, comparand (the old D of AMOCAS, 0 of the others) and D behind it, and D interlocked until the reply unless
it is g0; each of the five reductions completes with its term in its cluster's combining buffer. A misaligned word
traps with 0x03 and the word of an object with 0x12. For every state, FN and operands, and a word of first- or
second-tier memory, aligned and without an error: applying an atomic stores the new word of the table of R280 and
changes no other byte of memory, and the reply carries the old word; applying a merged reduction stores the word
combined with its term and changes no other byte. A reply that reaches its resident context puts the old word in D,
which is free again. Over an error in the word, a reduction changes no memory and is reported. (R279, R280, R281,
R282, R285, R476) -/
def Obligations.AtomicsAndReductions : Prop :=
  (∀ s : State, calm s = true → ∀ (d a b : BitVec 5) (l : Leaf),
    (syncAt s (reg s a) l →
      atomic (.amoadd d a b) s 0 d (reg s a) (reg s b) 0 l ∧ atomic (.amoand d a b) s 1 d (reg s a) (reg s b) 0 l ∧
      atomic (.amoor d a b) s 2 d (reg s a) (reg s b) 0 l ∧ atomic (.amoxor d a b) s 3 d (reg s a) (reg s b) 0 l ∧
      atomic (.amomin d a b) s 4 d (reg s a) (reg s b) 0 l ∧ atomic (.amomax d a b) s 5 d (reg s a) (reg s b) 0 l ∧
      atomic (.amominn d a b) s 6 d (reg s a) (reg s b) 0 l ∧ atomic (.amomaxn d a b) s 7 d (reg s a) (reg s b) 0 l ∧
      atomic (.amoswp d a b) s 8 d (reg s a) (reg s b) 0 l ∧ atomic (.amocas d a b) s 9 d (reg s a) (reg s b) (reg s d) l ∧
      atomic (.amofadd d a b) s 10 d (reg s a) (reg s b) 0 l ∧
      reduction (.redadd a b) s 0 (reg s a) (reg s b) l ∧ reduction (.redmin a b) s 1 (reg s a) (reg s b) l ∧
      reduction (.redmax a b) s 2 (reg s a) (reg s b) l ∧ reduction (.redfadd a b) s 3 (reg s a) (reg s b) l ∧
      reduction (.redor a b) s 4 (reg s a) (reg s b) l) ∧
    (∀ i, i ∈ [Instr.amoadd d a b, .amocas d a b, .amofadd d a b, .redadd a b, .redor a b] →
      ((reg s a).toNat % 8 ≠ 0 →
        exec i s = .next (takeTrap s s.core s.ctx 0x03 (((reg s a).setWidth 56).setWidth 64) false)) ∧
      (∀ va : VA, va = (reg s a).setWidth 56 → (reg s a).toNat % 8 = 0 → windowOf va = none → leafHere s .store va = some l →
        leafFmt l.entry = 0 → (homeDie (leafPa l va)).isSome = true → admitOk s .sync (.phys va (leafPa l va) l) = true →
        isObject s (leafPa l va) = true → exec i s = .next (takeTrap s s.core s.ctx 0x12 (va.setWidth 64) false)))) ∧
  (∀ (s : State) (r : AmoReq) (z : W64), s.arg = .amo r z → r.fn.toNat ≤ 10 → r.pa % 8 = 0 → badAt s r.pa = false →
    ∃ t, exec .amoApply s = .next t ∧
      (∀ k, k < 8 → byteGet t.mem (r.pa + k) = (low 8 (amoWord r.fn.toNat (memWord s r.pa) r.b r.cmp)).getD k 0) ∧
      (∀ a, (a < r.pa ∨ r.pa + 8 ≤ a) → byteGet t.mem a = byteGet s.mem a) ∧
      (∃ e, e ∈ t.agenda ∧ e.ev = .amoReply ∧ e.arg = .amo r (memWord s r.pa))) ∧
  (∀ (s : State) (r : AmoReq) (old : W64), s.arg = .amo r old → resident s r.who = true → r.who.ctx.toNat < 5 →
    ∃ t, exec .amoReply s = .next t ∧
      let c := getCtx t r.who.core.toNat r.who.ctx.toNat
      (r.d ≠ 0#5 → gOf c r.d = old ∧ lockedAt c (.g r.d) (now s) = false) ∧ t.mem = s.mem) ∧
  (∀ (s : State) (r : RedReq), s.arg = .red r → r.fn.toNat ≤ 4 → r.pa % 8 = 0 →
    (badAt s r.pa = false → ∃ t, exec .reductionApply s = .next t ∧
      (∀ k, k < 8 → byteGet t.mem (r.pa + k) = (low 8 (redWord r.fn.toNat (memWord s r.pa) r.val)).getD k 0) ∧
      (∀ a, (a < r.pa ∨ r.pa + 8 ≤ a) → byteGet t.mem a = byteGet s.mem a)) ∧
    (badAt s r.pa = true → ∃ t, exec .reductionApply s = .next t ∧ t.mem = s.mem ∧
      ∃ e, e ∈ t.log ∧ e.kind = 2 ∧ e.func = 7 ∧ e.unit = (homeDie r.pa).getD 0))

namespace Sys2Proof.Claims

/-- The object at an address: its word is on a page that the context may use (R283 to R287). -/
def objectAt (s : State) (base : W64) (l : Leaf) : Prop :=
  let va : VA := base.setWidth 56
  base.toNat % 8 = 0 ∧ windowOf va = none ∧ leafHere s .store va = some l ∧ leafFmt l.entry = 0 ∧
  (homeDie (leafPa l va)).isSome = true ∧ admitOk s .sync (.phys va (leafPa l va) l) = true
/-- Nothing that the current context has issued is on its way to memory, to a target or to its core (steps 1 to 3 of R286, with
the wait of R356 and R394 for every copy job and one-sided access), and its atomics have returned (R341). -/
def drained (s : State) : Prop :=
  flying s [.remoteAccessServe] = false ∧ (getCluster s (clusterOf s.core)).comb.any (fun e => e.whos.any (isMine s)) = false ∧
  reducing s = false ∧ flying s [.oneSidedReply, .amoApply, .alightWriteLand] = false ∧ atomicsOut s = false ∧
  (getCluster s (clusterOf s.core)).jobs.any (fun j => isMine s j.who && jobLive j) = false ∧
  (getCluster s (clusterOf s.core)).ringQ.any (fun r => isMine s r.who && r.kind = .alight) = false
/-- The 56 bits of an address as a doubleword. -/
def addr56 (x : W64) : W64 := (x.setWidth 56).setWidth 64

end Sys2Proof.Claims

/-- For a hardware context that nothing holds up: BIND of an aligned, nonempty region to an object at a usable word
adds the binding when fewer than 4,096 stand and none of another object meets it, UNBIND takes away one that is
exactly it, and both trap with 0x12 otherwise: at the limit, where the region meets a binding of another object, of
an unknown binding, and of an empty region. ACQ of a bound object not held, with fewer than 8 held and no atomic
outstanding, queues the request with the bindings as they stand, holds the context and lets the engine look; REL of
a held object, with the context's work drained, writes back its regions and holds the context until the release. A
grant of a free object to the first request, exclusive, sets EX with the holder in the word, clears DEAD, puts the
old DEAD bit in D and lets the context go on holding the object; the release of an object that the context holds
clears EX, or lowers SHARED, lets the context go on without the object, and lets the engine look. The order of the
checks of the word, which these premises satisfy, is the model's reading (log entry 36). (R283, R284, R285, R286,
R287, R340) -/
def Obligations.ObjectsAreBoundAndHeld : Prop :=
  (∀ s : State, calmStrand s = true → ∀ (d a b : BitVec 5) (l : Leaf) (sh : BitVec 1),
    let c := here s
    let mine := s.binds.filter (·.asid = c.asid)
    let new : Binding := ⟨c.asid, addr56 (reg s d), addr56 (reg s a), reg s b⟩
    (objectAt s (reg s d) l → (reg s a).toNat % 64 = 0 → (reg s b).toNat % 64 = 0 → reg s b ≠ 0 →
      (mine.length < 4096 → (∀ o, o ∈ mine → o.obj ≠ new.obj → meets o new.base new.len = false) →
        exec (.bind d a b) s = .next (done 4 { s with binds := s.binds ++ [new] })) ∧
      ((∃ o, o ∈ mine ∧ o.obj ≠ new.obj ∧ meets o new.base new.len = true) →
        exec (.bind d a b) s = .next (takeTrap s s.core s.ctx 0x12 new.obj false)) ∧
      (4096 ≤ mine.length → exec (.bind d a b) s = .next (takeTrap s s.core s.ctx 0x12 new.obj false)) ∧
      (new ∈ s.binds → exec (.unbind d a b) s = .next (done 4 { s with binds := s.binds.erase new })) ∧
      (new ∉ s.binds → exec (.unbind d a b) s = .next (takeTrap s s.core s.ctx 0x12 new.obj false))) ∧
    (objectAt s (reg s d) l → (reg s a).toNat % 64 = 0 → reg s b = 0 →
      exec (.bind d a b) s = .next (takeTrap s s.core s.ctx 0x12 new.obj false) ∧
      exec (.unbind d a b) s = .next (takeTrap s s.core s.ctx 0x12 new.obj false)) ∧
    (objectAt s (reg s a) l → atomicsOut s = false →
      (c.held.length < 8 → addr56 (reg s a) ∉ c.held → (∃ o, o ∈ mine ∧ o.obj = addr56 (reg s a)) →
        ∃ t, exec (.acq d a sh) s = .next t ∧ (here t).run = .held (.grant (addr56 (reg s a))) ∧ (here t).pc = c.pc ∧
          t.acqs = s.acqs ++ [⟨whoOf c s.core s.ctx, addr56 (reg s a), tagOf l, leafPa l ((reg s a).setWidth 56), sh = 1#1, d,
            (mine.filter (·.obj = addr56 (reg s a))).map fun o => (o.base, o.len)⟩] ∧
          ∃ e, e ∈ t.agenda ∧ e.ev = .acqGrant ∧ e.arg = .num (leafPa l ((reg s a).setWidth 56)) 0 0) ∧
      (addr56 (reg s a) ∈ c.held → (∃ o, o ∈ mine ∧ o.obj = addr56 (reg s a)) → drained s →
        ∃ t, exec (.rel a) s = .next t ∧ (here t).run = .held (.release (addr56 (reg s a))) ∧ (here t).pc = c.pc ∧
          ∃ e, e ∈ t.agenda ∧ e.ev = .objectRelease ∧
            e.arg = .who (whoOf c s.core s.ctx) (leafPa l ((reg s a).setWidth 56)) (addr56 (reg s a))))) ∧
  (∀ (s : State) (pa : Nat) (r : AcqReq), s.arg = .num pa 0 0 → s.acqs = [r] → r.pa = pa → pa % 8 = 0 → badAt s pa = false →
    (memWord s pa).getLsbD 63 = false → bits (memWord s pa) 15 0 = 0 → r.shared = false → resident s r.who = true →
    r.who.ctx.toNat < 5 → (getCluster s (clusterOf r.who.core.toNat)).cache = [] →
    let core := r.who.core.toNat
    let x := r.who.ctx.toNat
    ∃ t, exec .acqGrant s = .next t ∧ (getCtx t core x).run = .running ∧ (getCtx t core x).pc = (getCtx s core x).pc + 4 ∧
      (getCtx t core x).held = (getCtx s core x).held ++ [r.obj] ∧ t.acqs = [] ∧
      (r.d ≠ 0#5 → gOf (getCtx t core x) r.d = if (memWord s pa).getLsbD 62 then 1 else 0) ∧
      (memWord t pa).getLsbD 63 = true ∧ (memWord t pa).getLsbD 62 = false ∧ bits (memWord t pa) 61 48 = core ∧
      bits (memWord t pa) 47 45 = x ∧ bits (memWord t pa) 44 29 = r.who.inst.toNat) ∧
  (∀ (s : State) (w : Who) (pa : Nat) (obj : W64), s.arg = .who w pa obj → pa % 8 = 0 → badAt s pa = false →
    resident s w = true → w.ctx.toNat < 5 → obj ∈ (getCtx s w.core.toNat w.ctx.toNat).held →
    let core := w.core.toNat
    let x := w.ctx.toNat
    ∃ t, exec .objectRelease s = .next t ∧ (getCtx t core x).run = .running ∧
      (getCtx t core x).pc = (getCtx s core x).pc + 4 ∧ (getCtx t core x).held = (getCtx s core x).held.erase obj ∧
      (∃ e, e ∈ t.agenda ∧ e.ev = .acqGrant ∧ e.arg = .num pa 0 0) ∧ (memWord t pa).getLsbD 63 = false ∧
      (∀ k, k < 63 → (memWord s pa).getLsbD 63 = true → (memWord t pa).getLsbD k = (memWord s pa).getLsbD k) ∧
      ((memWord s pa).getLsbD 63 = false → 0 < bits (memWord s pa) 15 0 →
        bits (memWord t pa) 15 0 + 1 = bits (memWord s pa) 15 0))

/-- For a context that nothing holds up and a fence of scope 0 to 4 and kind 0 to 2 whose context has its ports done
and every atomic returned, and for system scope its writes accepted by the host: a fence of core or cluster scope
changes nothing but the PC. Of die scope or wider, with the context's work drained and a cache whose lines are
distinct, admitted for the contexts that stored to them and without errors: a release or full fence leaves every
dirty byte of the cache in memory; a release fence keeps the lines, clean; an acquire fence discards the clean lines
and keeps the dirty ones; a full fence leaves the cache empty. (R288, R340, R341, R149, R356, R428, R444) -/
def Obligations.FenceReleasesAndAcquires : Prop :=
  ∀ s : State, calm s = true → ∀ (sc : BitVec 3) (k : BitVec 2), sc.toNat < 5 → k ≠ 3#2 →
    let cl := clusterOf s.core
    let lines := (getCluster s cl).cache
    flying s [.remoteAccessServe] = false → atomicsOut s = false → (sc = 4#3 → hostWrites s = false) →
    (sc.toNat < 2 → exec (.fence sc k) s = .next (done 4 s)) ∧
    (2 ≤ sc.toNat → k = 2#2 → ∃ t, exec (.fence sc k) s = .next t ∧ t.mem = s.mem ∧ (here t).pc = (here s).pc + 4 ∧
      (getCluster t cl).cache = lines.filter fun l => l.dirty ≠ 0#64 && !l.failed) ∧
    (2 ≤ sc.toNat → k ≠ 2#2 → drained s → (lines.map (·.line)).Nodup →
      (∀ l, l ∈ lines → l.failed = false ∧
        admits s 0 l.owner.toNat .write (l.line * 64) (dieOfCluster cl) = true) →
      ∃ t, exec (.fence sc k) s = .next t ∧ (here t).pc = (here s).pc + 4 ∧
        (∀ l i, l ∈ lines → i < 64 → l.dirty.getLsbD i = true → byteGet t.mem (l.line * 64 + i) = lane l.data 8 i) ∧
        (∀ a, (∀ l, l ∈ lines → lineOf a ≠ l.line) → byteGet t.mem a = byteGet s.mem a) ∧
        (k = 0#2 → (getCluster t cl).cache = []) ∧
        (k = 1#2 → (getCluster t cl).cache = lines.map fun l => { l with dirty := 0 }))

namespace Sys2Proof.Claims

/-- Barrier `n` of the current core, and the state with another in its place (R290). -/
def bar (s : State) (n : BitVec 9) : Barrier := barAt (hereCore s) n
def setBar (n : BitVec 9) (b : Barrier) (s : State) : State := putBar s.core n b s
/-- A barrier at the start of its next phase: nothing arrived, EXPECT lowered by the drops that waited; none left, it is
uninitialised (R290, R291). -/
def nextPhase (b : Barrier) : Barrier :=
  if b.expect.toNat ≤ b.drops.toNat then ⟨false, 0, 0, none, 0, 0, 0, false⟩
  else ⟨b.init, b.expect - b.drops, 0, none, b.enrol, 0, 0, false⟩
/-- A barrier without a group that counts one more arrival: its phase ends when enough have arrived (R290). -/
def counted1 (b : Barrier) : Barrier :=
  let c := { b with arrived := b.arrived + 1 }
  if b.expect.toNat ≤ (b.arrived + 1).toNat then nextPhase c else c
/-- A barrier that the context with a bit is dropped from (R291). -/
def dropped (bit : BitVec 4) (b : Barrier) : Barrier :=
  let c := { b with enrol := b.enrol &&& ~~~ bit }
  if b.pend &&& bit ≠ 0#4 then { c with drops := b.drops + 1 }
  else if b.expect = 1#16 then ⟨false, 0, 0, none, 0, 0, 0, false⟩
  else
    let c := { c with expect := b.expect - 1 }
    if b.group = none ∧ (b.expect - 1).toNat ≤ b.arrived.toNat then nextPhase c else c

end Sys2Proof.Claims

/-- For a hardware context that nothing holds up and every barrier n: BAR.INIT with an expectation from 1 to 65,535
on a barrier with no arrival pending, BAR.ENROL on an initialised one, BAR.ARR by an enrolled context with no
arrival pending on a barrier without a group and with its ports done and no atomic outstanding (the phase ends at
EXPECT arrivals), BAR.WAIT without a pending arrival, BAR.DROP by an enrolled context, BAR.SIG of a word without
reserved bits and BAR.GREL with a tree for its group complete with the barrier changed as their rules say; BAR.WAIT
with an arrival pending stalls, and goes on once it is clear though its barrier has become uninitialised; every
other use of an uninitialised barrier, an arrival not enrolled or already pending, an expectation of 0 and an
ill-formed signal word take cause 0x07 with the barrier's number in TRAPVAL. A signal that reaches a bound context
of its instance counts an arrival at its barrier, or, with the barrier uninitialised or in another domain, is
counted as stray. A group's release at a core bound to the domain, whose barriers no image holds, begins the next
phase of an initialised barrier that waits for it. (R49, R289, R290, R291, R292, R293, R340) -/
def Obligations.Barriers : Prop :=
  (∀ s : State, calmStrand s = true → ∀ (a : BitVec 5) (n : BitVec 9) (g : BitVec 6),
    let b := bar s n
    let bit := BitVec.ofNat 4 (2 ^ s.ctx)
    let x := reg s a
    let traps := fun i => exec i s = .next (takeTrap s s.core s.ctx 0x07 (n.setWidth 64) false)
    ((b.init = false ∨ b.pend = 0#4) → 0 < x.toNat → x.toNat < 65536 →
      exec (.barInit a n) s = .next (done 4 (setBar n ⟨true, x.setWidth 16, 0, none, 0, 0, 0, false⟩ s))) ∧
    (x = 0 → traps (.barInit a n)) ∧
    (b.init = true → exec (.barEnrol n) s = .next (done 4 (setBar n { b with enrol := b.enrol ||| bit } s))) ∧
    (b.init = false → traps (.barEnrol n) ∧ traps (.barArr n) ∧ traps (.barDrop n) ∧ traps (.barGrel n g) ∧
      ((here s).await ≠ some (.bar n) → traps (.barWait n))) ∧
    (b.enrol.getLsbD s.ctx = false → traps (.barArr n) ∧ traps (.barDrop n) ∧ traps (.barGrel n g)) ∧
    (b.init = true → b.enrol.getLsbD s.ctx = true → flying s [.remoteAccessServe] = false → atomicsOut s = false →
      (b.pend.getLsbD s.ctx = true → traps (.barArr n) ∧ traps (.barGrel n g)) ∧
      (b.pend.getLsbD s.ctx = false → b.group = none →
        exec (.barArr n) s = .next (done 4 (setBar n (counted1 { b with pend := b.pend ||| bit }) s))) ∧
      (b.pend.getLsbD s.ctx = false → (b.group = some g ∨ (b.group = none ∧ b.arrived = 0)) →
        (groupWord s (here s).dom g).isSome = true →
        exec (.barGrel n g) s = .next (done 4 (settleBars (setBar n { b with
          arrived := b.arrived + 1, pend := b.pend ||| bit, group := some g } s) s.core)))) ∧
    (b.init = true ∨ (here s).await = some (.bar n) →
      (b.pend.getLsbD s.ctx = false → exec (.barWait n) s = .next (done 4 s)) ∧
      (b.pend.getLsbD s.ctx = true → exec (.barWait n) s =
        .next (onHere (fun c => { c with await := some (.bar n) }) (stallsOnly s)))) ∧
    (b.init = true → b.enrol.getLsbD s.ctx = true →
      exec (.barDrop n) s = .next (done 4 (settleBars (setBar n (dropped bit b) s) s.core))) ∧
    (x &&& 0xFFFF0000FFF8C000 = 0 → x.getLsbD 18 = false → flying s [.remoteAccessServe] = false → atomicsOut s = false →
      exec (.barSig a n) s = .next (done 4 (sometime s .barSignalArrive
        (.barSig ⟨(here s).dom, x.extractLsb' 0 14, x.extractLsb' 16 3, x.extractLsb' 32 16, n⟩)))) ∧
    (x.getLsbD 18 = true → traps (.barSig a n))) ∧
  (∀ (s : State) (g : BarSig), s.arg = .barSig g →
    let core := g.core.toNat
    let c := getCtx s core g.ctx.toNat
    let b := barAt (getCore s core) g.bar
    let stray1 := fun k : BitVec 32 => if k = BitVec.allOnes 32 then k else k + 1
    c.bound = true → c.inst = g.inst →
    (c.dom = g.dom → b.init = true → b.group = none →
      exec .barSignalArrive s = .next (settleBars (putBar core g.bar (counted1 b) s) core)) ∧
    (c.dom ≠ g.dom ∨ b.init = false → exec .barSignalArrive s =
      .next (modCore s core fun k => { k with straySig := stray1 k.straySig }))) ∧
  (∀ (s : State) (core : Nat) (n : BitVec 9) (dom : BitVec 12), s.arg = .num core n.toNat dom.toNat →
    (∀ o, o ∈ (getDie s (dieOf core)).dir → ¬ (o.core = core ∧ o.ctxt.dom = dom ∧ o.barm = true)) →
    (coreLaunch s core).dom = dom →
    let b := barAt (getCore s core) n
    (b.init = true → exec .grelRelease s =
      .next (settleBars (putBar core n (if b.gone = true then nextPhase b else b) s) core)) ∧
    (b.init = false → exec .grelRelease s = .next s))

/-- For a context that nothing holds up, with a well-formed header, its ports done and no atomic outstanding:
MSG.SEND with a free send id takes the lowest free one, marks it in flight, puts its number in D and the message,
its payload narrowed by its format, on its way to the target; MSG.SENDW of a hardware context does so without an id
and holds the context at its PC. A malformed header traps with 0x0E. MSG.STAT puts the status of the id in D (0 in
flight, 7 never used); MSG.MASK and MSG.UNMASK set and clear bits of the class mask. MSG.RET in the handler, none of
whose special-function work is queued, frees its mailbox row and makes the handler idle; in a hardware context it
traps with 0x0E. (R294, R295, R296, R298, R340) -/
def Obligations.MessageInstructions : Prop :=
  ∀ s : State, calm s = true → ∀ d a b : BitVec 5,
    let x := reg s a
    let fmt : BitVec 2 := x.extractLsb' 32 2
    let plain := (vecBytes (vreg s b)).take (bits x 40 34)
    let wire := wirePayload fmt plain
    let m := fun (id : Option (BitVec 3)) => (⟨whoOf (here s) s.core s.ctx, x.extractLsb' 0 14, x.extractLsb' 16 3,
      x.extractLsb' 24 8, fmt, x.extractLsb' 34 7, wire.1, wire.2, id⟩ : Msg)
    let good := x &&& 0xFFFFFE0000F8C000 = 0 ∧ bits x 40 34 ≤ 64 ∧ (fmt = 0#2 ∨ bits x 40 34 % 4 = 0)
    (good → flying s [.remoteAccessServe] = false → atomicsOut s = false →
      (∀ i, i < 8 → (here s).sends.toList[i]? = some .free → (∀ j, j < i → (here s).sends.toList[j]? ≠ some .free) →
        exec (.msgSend d a b) s = .next (done 4 (setG d (BitVec.ofNat 64 i) (sendMsg
          (onHere (fun c => { c with sends := c.sends.setIfInBounds i .flying }) s) (m (some (BitVec.ofNat 3 i))))))) ∧
      (s.ctx < 4 → exec (.msgSendw d a b) s =
        .next (sendMsg (onHere (fun c => { c with run := .held (.sendw d) }) s) (m none)))) ∧
    (¬ good → exec (.msgSend d a b) s = .next (takeTrap s s.core s.ctx 0x0E x false)) ∧
    (fmt = 0#2 → wire = (plain, 0)) ∧
    (∀ i : BitVec 3, i = x.extractLsb' 0 3 → exec (.msgStat d a) s = .next (done 4 (setG d
      (match (here s).sends[i.toNat]'(i.isLt) with
        | .free => 7
        | .flying => 0
        | .resolved st _ => st.setWidth 64) s))) ∧
    exec (.msgMask a) s = .next (done 4 (onCore (fun k => { k with classMask := k.classMask ||| x.setWidth 8 }) s)) ∧
    exec (.msgUnmask a) s = .next (done 4 (later
      (onCore (fun k => { k with classMask := k.classMask &&& ~~~ x.setWidth 8 }) s) 0 .handlerStart (.num s.core 0 0))) ∧
    (s.ctx < 4 → exec .msgRet s = .next (takeTrap s s.core s.ctx 0x0E (insnWord .msgRet) false)) ∧
    (s.ctx = 4 → (getCluster s (clusterOf s.core)).sfu = [] → ∃ t, exec .msgRet s = .next t ∧ (here t).run = .free ∧
      (here t).trapMode = false ∧ (hereCore t).mail = (hereCore s).mail.filter (·.row ≠ (here s).mailRow) ∧ t.mem = s.mem)

/-- When a message arrives at a target where none before it waits: outside its sender's domain its status 4 is on
its way back; with a handler entry and a free row of its class it takes the lowest such row, status 1 is on its way
back, and at a core whose banks are up and whose S port is free its bytes, padded with zeros, stand in the row; at a
core without power they are due 64 cycles later, and a row written at a free port holds its bytes. The idle handler
of a core none of whose contexts follows a gang takes the oldest row whose class is not masked, once it is written:
it runs at the row's even PC with the row's address in g1, the source core in g2, handler index and class in g3, the
narrowing's flags in FPSTAT and TRAPVEC as it was. A status that returns resolves its send id, or puts the status in
D of the sender that waits, which goes on. (R25, R50, R122, R296, R297, R298, R376) -/
def Obligations.MessagesArriveAndReturn : Prop :=
  (∀ (s : State) (m : Msg) (z : BitVec 3), s.arg = .msg m z → (getCore s m.target.toNat).inbox = [] →
    let core := m.target.toNat
    (inDomain s core m.who.dom = false → ∃ t, exec .messageArrive s = .next t ∧ (getCore t core).mail = (getCore s core).mail ∧
      ∃ e, e ∈ t.agenda ∧ e.ev = .messageStatusReturn ∧ e.arg = .msg m 4) ∧
    (inDomain s core m.who.dom = true → m.fmt = 0#2 → m.payload.length ≤ 64 → ∀ pc u r,
      handlerEntry s m = (some (some pc), u) → freeRow (getCore u core) m.cls.toNat = some r →
      let accepted := fun (t : State) (w : Bool) => (∃ q, q ∈ (getCore t core).mail ∧ q.row = r ∧ q.pc = pc ∧ q.cls = m.cls ∧
          q.hidx = m.hidx ∧ q.src = m.who.core ∧ q.written = w) ∧
        ∃ e, e ∈ t.agenda ∧ e.ev = .messageStatusReturn ∧ e.arg = .msg m 1
      ((getCore s core).powered = true → (getCore u core).powered = true → (getCore s core).upAt ≤ now s →
        portBusy (getCore s core) 3 (now s) = false →
        ∃ t, exec .messageArrive s = .next t ∧ accepted t true ∧
          (∀ k, k < 64 → byteGet (getCore t core).s (0x6000 + 64 * r + k) = m.payload.getD k 0) ∧
          (getCore t core).trcIdx = (getCore s core).trcIdx + 1) ∧
      ((getCore s core).powered = false → (getCore u core).powered = false →
        ∃ t, exec .messageArrive s = .next t ∧ accepted t false ∧ (getCore t core).powered = true ∧
          (⟨now s + 64, .mailboxRowWrite, .num core r 0⟩ : Due) ∈ t.agenda))) ∧
  (∀ (s : State) (core r : Nat) (q : MailRow), s.arg = .num core r 0 → q.bytes.length = 64 →
    portBusy (getCore s core) 3 (now s) = false →
    (getCore s core).mail.find? (fun p => p.row = r && !p.written) = some q →
    ∃ t, exec .mailboxRowWrite s = .next t ∧
      (∀ k, k < 64 → byteGet (getCore t core).s (0x6000 + 64 * r + k) = q.bytes.getD k 0) ∧
      ∃ p, p ∈ (getCore t core).mail ∧ p.row = r ∧ p.written = true) ∧
  (∀ (s : State) (core : Nat) (q : MailRow), s.arg = .num core 0 0 → (getCtx s core 4).run = .free →
    (∀ x, x < 4 → (getCtx s core x).run ≠ .follower) → q.pc.getLsbD 0 = false →
    (getCore s core).mail.find? (fun p => !(getCore s core).classMask.getLsbD p.cls.toNat) = some q → q.written = true →
    ∃ t, exec .handlerStart s = .next t ∧
      let c := getCtx t core 4
      c.run = .running ∧ c.pc = q.pc ∧ gOf c 1 = BitVec.ofNat 64 (0x6000 + 64 * q.row) ∧ gOf c 2 = q.src.setWidth 64 ∧
      gOf c 3 = BitVec.ofNat 64 (256 * q.hidx.toNat + q.cls.toNat) ∧ (∀ r : BitVec 5, 3 < r.toNat → gOf c r = 0) ∧
      c.fpstat = q.flags ∧ c.trapVec = (getCtx s core 4).trapVec ∧ c.mailRow = q.row) ∧
  (∀ (s : State) (m : Msg) (st : BitVec 3), s.arg = .msg m st → resident s m.who = true → m.who.ctx.toNat < 5 →
    let core := m.who.core.toNat
    let x := m.who.ctx.toNat
    ∃ t, exec .messageStatusReturn s = .next t ∧
      (∀ i : BitVec 3, m.sid = some i → ∃ age, (getCtx t core x).sends[i.toNat]'(i.isLt) = .resolved st age) ∧
      (∀ d : BitVec 5, m.sid = none → (getCtx s core x).run = .held (.sendw d) → (getCtx t core x).run = .running ∧
        (getCtx t core x).pc = (getCtx s core x).pc + 4 ∧ (d ≠ 0#5 → gOf (getCtx t core x) d = st.setWidth 64)))

namespace Sys2Proof.Claims

/-- A ring instruction completes: its operation stands last in its station's queue, and its slot's passage, the first one at
least 4 cycles away, is on the agenda (R299 to R301). -/
def onRing (i : Instr) (s : State) (kind : RingKind) (w : W64) (b cmp : V512) (d : BitVec 5) (lock : Option RegId) : Prop :=
  let st := clusterOf s.core
  let idx := bits w 11 0
  ∃ t o, exec i s = .next t ∧ (here t).pc = (here s).pc + 4 ∧
    (getCluster t st).ringQ = (getCluster s st).ringQ ++ [o] ∧ o.who = whoOf (here s) s.core s.ctx ∧ o.kind = kind ∧
    o.lane = w.extractLsb' 12 2 ∧ o.idx = idx ∧ o.tag = w.extractLsb' 32 16 ∧ o.b = b ∧ o.cmp = cmp ∧ o.d = d ∧
    o.issued = now s ∧ o.fail = 0#3 ∧
    (∃ e, e ∈ t.agenda ∧ e.ev = .ringPassage ∧ e.arg = .num st ((w.extractLsb' 12 2).toNat * 4096 + idx) 0 ∧
      now s + 4 ≤ e.at_ ∧ e.at_ < now s + 4 + 2176 ∧ slotPassing (stationPos st) e.at_ = idx) ∧
    (∀ r, lock = some r → ∀ n, lockedAt (here t) r n = true)
/-- A board completes: its operation stands last in its station's queue, with what it looks for and the reason that it has failed
for already, 0 for none (R303, R383). -/
def boards (i : Instr) (s t : State) (w : W64) (b : V512) (d : BitVec 5) (pa : Nat) (reason : BitVec 3) (o : RingOp) : Prop :=
  let st := clusterOf s.core
  exec i s = .next t ∧ (here t).pc = (here s).pc + 4 ∧ (getCluster t st).ringQ = (getCluster s st).ringQ ++ [o] ∧
    o.who = whoOf (here s) s.core s.ctx ∧ o.kind = .board ∧ o.lane = w.extractLsb' 12 2 ∧ o.anyFree = w.getLsbD 15 ∧
    o.tag = w.extractLsb' 32 16 ∧ o.b = b ∧ o.d = d ∧ o.addr = pa ∧ o.issued = now s ∧ o.fail = reason ∧
    (d ≠ 0#5 → ∀ n, lockedAt (here t) (.g d) n = true)

end Sys2Proof.Claims

/-- For a hardware context that nothing holds up, a station's queue of fewer than 64 operations and a slot index
below 2,176: SW.RD, SW.ADD, SW.MAX, SW.SWAP, SW.CAS and SW.ALIGHT, and SW.BOARD for a named slot with a tag that is
not 0 and an alighting address that is aligned, raw, in the TLB, no peer's and admitted to the station, complete:
the operation is the last of the queue with its operands, its passage is the first at which the slot stands at the
station's position from 4 cycles on, and a capture's or board's D is interlocked. So does SW.BOARD for any free slot
of a lane that is not fenced, which is offered the slot that passes 4 cycles later and whose window ends 2,180
cycles later; and SW.BOARD with tag 0 (reason 5), on a fenced lane for any slot or for an index of 2,176 or above
(reason 4), or for such an index of another lane (reason 1), which is decided 4 cycles later. A misaligned alighting
address traps with 0x03, one in the S window or the peer window with 0x05. SW.WAIT with none of the context's ring
operations and alighting writes left puts RSTAT in D and clears it, and stalls while either is left. (R299, R300,
R301, R302, R303, R304, R305, R383, R387, R449) -/
def Obligations.RingInstructionsQueue : Prop :=
  ∀ s : State, calmStrand s = true → (getCluster s (clusterOf s.core)).ringQ.length < 64 → ∀ (d a b : BitVec 5) (t : BitVec 1),
    let w := reg s a
    let x := vreg s b
    let y := vreg s d
    let v : Option RegId := some (.v d)
    (bits w 11 0 < 2176 →
      onRing (.swRd d a) s .rd w 0 0 d v ∧ onRing (.swAdd d a b t) s (.add (t = 1#1)) w x 0 d v ∧
      onRing (.swMax d a b t) s (.max (t = 1#1)) w x 0 d v ∧ onRing (.swSwap d a b) s .swap w x 0 d v ∧
      onRing (.swCas d a b) s .cas w x y d v ∧ onRing (.swAlight a) s .alight w 0 0 0 none) ∧
    (let va : VA := (oxOf (here s) 0).setWidth 56
     let st := clusterOf s.core
     let lane4096 := (w.extractLsb' 12 2).toNat * 4096
     let fenced := s.lanesOff.getLsbD (w.extractLsb' 12 2).toNat
     let reason : BitVec 3 := if bits w 47 32 = 0 then 5
       else if fenced ∧ (w.getLsbD 15 = true ∨ 2176 ≤ bits w 11 0) then 4
       else if w.getLsbD 15 = false ∧ 2176 ≤ bits w 11 0 then 1 else 0
     (va.toNat % 64 ≠ 0 → exec (.swBoard d a b) s = .next (takeTrap s s.core s.ctx 0x03 (va.setWidth 64) false)) ∧
     (va.toNat % 64 = 0 → windowOf va ≠ none →
       exec (.swBoard d a b) s = .next (takeTrap s s.core s.ctx 0x05 (oxOf (here s) 0) false)) ∧
     ∀ l, va.toNat % 64 = 0 → windowOf va = none → leafHere s .store va = some l → leafFmt l.entry = 0 →
      (inPeer (leafPa l va) = true → ∃ t, exec (.swBoard d a b) s = .next t ∧
        ((here s).trapVec ≠ 0 → (here s).trapMode = false → (here t).trapVal = va.setWidth 64 ∧
          (here t).trapCause.setWidth 8 = 0x05#8)) ∧
      (admits s 1 (here s).asid.toNat .write (leafPa l va) (dieOf s.core) = true → inPeer (leafPa l va) = false →
        (w.getLsbD 15 = false → reason = 0 →
          onRing (.swBoard d a b) s .board w x 0 d (if d = 0#5 then none else some (.g d))) ∧
        (w.getLsbD 15 = true → reason = 0 → ∃ t o, boards (.swBoard d a b) s t w x d (leafPa l va) 0 o ∧
          (⟨now s + 4, .ringPassage, .num st (lane4096 + slotPassing (stationPos st) (now s + 4)) (o.id + 1)⟩ : Due) ∈ t.agenda ∧
          (⟨now s + 2180, .boardWindowExpire, .num st o.id 0⟩ : Due) ∈ t.agenda) ∧
        (reason ≠ 0 → ∃ t o, boards (.swBoard d a b) s t w x d (leafPa l va) reason o ∧
          (⟨now s + 4, .ringPassage, .num st (lane4096 + bits w 11 0) 0⟩ : Due) ∈ t.agenda))) ∧
    ((getCluster s (clusterOf s.core)).ringQ.any (fun r => isMine s r.who) = false → flying s [.alightWriteLand] = false →
      exec (.swWait d) s = .next (done 4 (onHere (fun c => { c with rstat := 0 }) (setG d ((here s).rstat.setWidth 64) s)))) ∧
    ((getCluster s (clusterOf s.core)).ringQ.any (fun r => isMine s r.who) = true ∨ flying s [.alightWriteLand] = true →
      exec (.swWait d) s = .next (stallsOnly s))

/-- When a slot passes a station whose queue holds one operation for it, 4 cycles old, of a resident context, whose
D no later operation has written, and whose die is not bypassed: on a fenced lane a capture gives D zero, and a
capture or an alight sets bit 2 of RSTAT and has no effect. On another lane: a capture whose tag and address space
the slot has leaves the new payload (added, larger, swapped or compared-and-swapped) in the slot and the old one in
D; one whose tag differs gives D zero and sets bit 0 of RSTAT; a board claims a slot that is free and has passed the
origin while the station holds fewer than 32, the slot carrying payload, tag, owner and address, and D its name; a
board of a taken slot gives bit 63 and reason 1, one that failed at its issue its own reason; a board for any slot
claims the first that it may, goes on past a taken one, and notes the limit where that alone stands against it; an
alight of the station's own slot of its launch frees it and sends its payload to memory. An uncorrectable error
frees its slot and is reported. A board whose window ends gives reason 3, or 2 when the limit passed a slot over. A
freed slot that passes the origin is boardable again. An alighting write that memory admits makes the 64 bytes of
its line those of the payload and changes no other byte; a refused one changes no memory and is reported. (R302,
R303, R304, R306, R379, R381, R383, R384, R385, R388, R428, R429) -/
def Obligations.RingPassages : Prop :=
  (∀ (s : State) (st : Nat) (o : RingOp), (getCluster s st).ringQ = [o] → st < 2048 → o.idx < 2176 → o.anyFree = false →
    o.fail = 0#3 → o.outdone = false → o.issued + 4 ≤ now s → slotPassing (stationPos st) (now s) = o.idx →
    (getDie s (dieOfCluster st)).bypassed = false → resident s o.who = true → o.who.ctx.toNat < 5 →
    s.arg = .num st (o.lane.toNat * 4096 + o.idx) 0 →
    let fenced := s.lanesOff.getLsbD o.lane.toNat
    let name := o.lane.toNat * 4096 + o.idx
    let r := tabGet RingSlot.reset s.ring name
    let c := fun t => getCtx t o.who.core.toNat o.who.ctx.toNat
    let mine := r.tag ≠ 0#16 ∧ r.tag = o.tag ∧ ∃ w, r.who = some w ∧ w.asid = o.who.asid
    (fenced = true → o.kind ≠ .board → ∃ t, exec .ringPassage s = .next t ∧ t.ring = s.ring ∧ (c t).rstat = (c s).rstat ||| 4 ∧
      (o.kind ≠ .alight → vOf (c t) o.d = 0)) ∧
    (fenced = false → o.kind ≠ .board → o.kind ≠ .alight → (mine → ∃ t, exec .ringPassage s = .next t ∧ (getCluster t st).ringQ = [] ∧
        vOf (c t) o.d = r.payload ∧ (c t).rstat = (c s).rstat ∧
        (let p := (tabGet RingSlot.reset t.ring name).payload
         (o.kind = .rd → p = r.payload) ∧ (o.kind = .swap → p = o.b) ∧
         (o.kind = .cas → p = if r.payload = o.cmp then o.b else r.payload) ∧
         (o.kind = .add true → ∀ k, k < 8 → lane p 64 k = lane r.payload 64 k + lane o.b 64 k) ∧
         (o.kind = .add false → ∀ k, k < 16 → lane p 32 k = (add32 (lane r.payload 32 k) (lane o.b 32 k)).1) ∧
         (o.kind = .max true → ∀ k, k < 8 → lane p 64 k =
           if (lane r.payload 64 k).toInt < (lane o.b 64 k).toInt then lane o.b 64 k else lane r.payload 64 k))) ∧
      (¬ mine → ∃ t, exec .ringPassage s = .next t ∧ vOf (c t) o.d = 0 ∧ (c t).rstat = (c s).rstat ||| 1 ∧ t.ring = s.ring)) ∧
    (fenced = false → o.kind = .board →
      (r.tag = 0#16 → r.passed = true → stationHolds s st < 32 → ∃ t, exec .ringPassage s = .next t ∧
        tabGet RingSlot.reset t.ring name = ⟨o.b, o.tag, BitVec.ofNat 11 st, some o.who, o.addr, o.va, o.leaf, true⟩ ∧
        (o.d ≠ 0#5 → gOf (c t) o.d = BitVec.ofNat 64 name)) ∧
      (r.tag ≠ 0#16 → ∃ t, exec .ringPassage s = .next t ∧ t.ring = s.ring ∧
        (o.d ≠ 0#5 → gOf (c t) o.d = 0x8000000000000001))) ∧
    (fenced = false → o.kind = .alight → mine → r.owner.toNat = st → (∀ w, r.who = some w → w.ltag = o.who.ltag) →
      ∃ t, exec .ringPassage s = .next t ∧ (tabGet RingSlot.reset t.ring name).tag = 0 ∧
        (tabGet RingSlot.reset t.ring name).passed = false ∧
        ∃ e, e ∈ t.agenda ∧ e.ev = .alightWriteLand ∧ e.arg = .land o.who r.leaf r.va r.addr r.payload)) ∧
  (∀ (s : State) (st name : Nat) (o : RingOp), (getCluster s st).ringQ = [o] → st < 2048 → name < 16384 → name % 4096 < 2176 →
    o.kind = .board → o.outdone = false → o.issued + 4 ≤ now s → resident s o.who = true → o.who.ctx.toNat < 5 →
    let r := tabGet RingSlot.reset s.ring name
    let c := fun t => getCtx t o.who.core.toNat o.who.ctx.toNat
    (o.fail ≠ 0#3 → s.arg = .num st name 0 → o.lane.toNat * 4096 + o.idx = name →
      ∃ t, exec .ringPassage s = .next t ∧ t.ring = s.ring ∧ (getCluster t st).ringQ = [] ∧
        (o.d ≠ 0#5 → gOf (c t) o.d = 0x8000000000000000 ||| o.fail.setWidth 64)) ∧
    (o.fail = 0#3 → o.anyFree = true → s.arg = .num st name (o.id + 1) → o.lane.toNat = name / 4096 → now s < o.issued + 2180 →
      slotPassing (stationPos st) (now s) = name % 4096 → (getDie s (dieOfCluster st)).bypassed = false →
      s.lanesOff.getLsbD o.lane.toNat = false →
      (r.tag = 0#16 → r.passed = true → stationHolds s st < 32 → ∃ t, exec .ringPassage s = .next t ∧
        tabGet RingSlot.reset t.ring name = ⟨o.b, o.tag, BitVec.ofNat 11 st, some o.who, o.addr, o.va, o.leaf, true⟩ ∧
        (getCluster t st).ringQ = [] ∧ (o.d ≠ 0#5 → gOf (c t) o.d = BitVec.ofNat 64 name)) ∧
      (r.tag = 0#16 → r.passed = true → 32 ≤ stationHolds s st → ∃ t, exec .ringPassage s = .next t ∧ t.ring = s.ring ∧
        (getCluster t st).ringQ = [{ o with limited := true }]) ∧
      (r.tag ≠ 0#16 ∨ r.passed = false → ∃ t, exec .ringPassage s = .next t ∧ t.ring = s.ring ∧ (getCluster t st).ringQ = [o] ∧
        (now s + 1 < o.issued + 2180 → (⟨now s + 1, .ringPassage,
          .num st (name / 4096 * 4096 + slotPassing (stationPos st) (now s + 1)) (o.id + 1)⟩ : Due) ∈ t.agenda)))) ∧
  (∀ (s : State) (st name : Nat), s.arg = .flag st name true → st < 2048 → name < 16384 → name % 4096 < 2176 →
    ∃ t, exec .ringPassage s = .next t ∧ (tabGet RingSlot.reset t.ring name).tag = 0 ∧
      ∃ e, e ∈ t.log ∧ e.kind = 2 ∧ e.func = 3 ∧ e.unit = name / 4096) ∧
  (∀ (s : State) (st id : Nat) (o : RingOp), s.arg = .num st id 0 → (getCluster s st).ringQ.find? (·.id = id) = some o →
    s.lanesOff.getLsbD o.lane.toNat = false → resident s o.who = true → o.who.ctx.toNat < 5 → o.d ≠ 0#5 → o.outdone = false →
    ∃ t, exec .boardWindowExpire s = .next t ∧ gOf (getCtx t o.who.core.toNat o.who.ctx.toNat) o.d =
      if o.limited then 0x8000000000000002 else 0x8000000000000003) ∧
  (∀ (s : State) (name : Nat), s.arg = .num name 0 0 → name < 16384 → name % 4096 < 2176 → 0 < name % 4096 →
    (tabGet RingSlot.reset s.ring name).tag = 0#16 → ∃ t, exec .ringOrigin s = .next t ∧
      (tabGet RingSlot.reset t.ring name).passed = true ∧ (tabGet RingSlot.reset t.ring name).tag = 0) ∧
  (∀ (s : State) (w : Who) (leaf : LeafTag) (va : VA) (pa : Nat) (x : V512), s.arg = .land w leaf va pa x → pa % 64 = 0 →
    (served s pa = true → admits s 1 w.asid.toNat .write pa (dieOf w.core.toNat) = true →
      ∃ t, exec .alightWriteLand s = .next t ∧ (∀ k, k < 64 → byteGet t.mem (pa + k) = lane x 8 k) ∧
        (∀ a, (a < pa ∨ pa + 64 ≤ a) → byteGet t.mem a = byteGet s.mem a)) ∧
    (served s pa = false ∨ admits s 1 w.asid.toNat .write pa (dieOf w.core.toNat) = false →
      ∃ t, exec .alightWriteLand s = .next t ∧ t.mem = s.mem ∧
        ∃ e, e ∈ t.log ∧ e.kind = 3 ∧ e.unit = clusterOf w.core.toNat))

namespace Sys2Proof.Claims

/-- The lines that the cluster's cache holds are clean, without error, and as memory is: reading through it gives memory's
bytes and stores nothing. -/
def cleanCache (s : State) : Prop :=
  ∀ l, l ∈ (getCluster s (clusterOf s.core)).cache → l.dirty = 0#64 ∧ l.failed = false ∧
    ∀ i, i < 64 → lane l.data 8 i = byteGet s.mem (l.line * 64 + i)
/-- The `n` bytes at a global address lie at a physical one, the current context may make the access, and the line is
without error (R148, R460). -/
def globalAt (s : State) (acc : Acc) (n : Nat) (a : W64) (pa : Nat) : Prop :=
  let va : VA := a.setWidth 56
  windowOf va = none ∧ va.toNat % n = 0 ∧ pa % n = 0 ∧ badAt s pa = false ∧
  ∃ l, leafHere s acc va = some l ∧ leafPa l va = pa ∧ admitOk s (permOf acc) (.phys va pa l) = true
/-- The same for a load, with the value that the bytes hold. -/
def wordAt (s : State) (n : Nat) (a : W64) (x : Nat) : Prop :=
  ∃ pa, globalAt s .load n a pa ∧ natOf (memRead s pa n) = x
/-- A list of numbers that stands in memory as words of `n` bytes from an address on. -/
def listAt (s : State) (n : Nat) (a : W64) (xs : List Nat) : Prop :=
  ∀ i, i < xs.length → wordAt s n (a + BitVec.ofNat 64 (n * i)) (xs.getD i 0)
/-- The general and restart registers as a finished restartable instruction leaves them (R86). -/
def restartDone (t s : State) : Prop := oxOf (here t) 6 = 0 ∧ oxOf (here t) 7 = 0 ∧ (here t).pc = (here s).pc + 4
/-- A restartable instruction issued by its context again and again, at most `n` times, until it is not part way any more
(R86). -/
def issues (i : Instr) : Nat → State → Option State
  | 0, _ => none
  | n + 1, s =>
    match exec i s with
    | .next t => if (here t).midway = true then issues i n t else some t
    | _ => none
/-- A restartable instruction goes on: as its context issues it answers a next state, part way or done (R86). -/
def goesOn (i : Instr) (s : State) : Prop := ∃ t, exec i s = .next t ∧ ((here t).midway = true ∨ restartDone t s)

end Sys2Proof.Claims

/-- For a hardware context that nothing holds up and either walker: JW.OPEN of a 64-byte-aligned descriptor that
stands in readable memory, with the header of R255, node records that meet R256 and R257 and options that meet R261,
puts its nodes and options into the walker with the cursor before the first tuple; a header with another TYPE or
VERSION, or whose words 2 to 7 are not zero, traps 0x10 with reason 1, and one sound but for a reserved bit of its
first two words with reason 3. On a closed walker JW.NEXT and JW.CNT trap 0x10 with reason 0. On a walker of one
leaf without an index, at its first tuple, JW.NEXT, which is restartable and takes a tuple as its context issues,
goes on, and gives in the end its first 16 rows, their key code 0 and a mask of the lanes filled; at its end it
gives no lane and a mask of zero. JW.CNT on a leaf, and on a product of two leaves, gives their rows, and the
product of their rows, for key code 0, and 0 for every other. JW.CLOSE closes the walker. (R86, R254, R255, R256,
R257, R258, R260, R261, R262, R263, R264) -/
def Obligations.JoinWalkers : Prop :=
  ∀ s : State, calmStrand s = true → ∀ (d a : BitVec 5) (k : BitVec 3) (w : BitVec 1),
    let x := walkerOf (here s) w
    let traps := fun i (reason : W64) => exec i s = .next (takeTrap s s.core s.ctx 0x10 reason false)
    (∀ (hdr ws : List Nat) (ns : List JNode), cleanCache s → atomicsOut s = false → (reg s a).toNat % 64 = 0 → hdr.length = 8 →
      listAt s 8 (reg s a) hdr →
      (hdr.getD 0 0 % 2 ^ 32 ≠ 0x4B4A5431 ∨ hdr.getD 0 0 / 2 ^ 48 ≠ 1 ∨ (∃ i, 2 ≤ i ∧ i < 8 ∧ hdr.getD i 0 ≠ 0) →
        traps (.jwOpen w a) 1) ∧
      (let n := ns.length
       let leaves := hdr.getD 1 0 / 2 ^ 8 % 2 ^ 8
       let root := hdr.getD 1 0 / 2 ^ 16 % 2 ^ 8
       hdr.getD 0 0 % 2 ^ 32 = 0x4B4A5431 → hdr.getD 0 0 / 2 ^ 48 = 1 → hdr.getD 1 0 % 2 ^ 8 = n →
       (∀ i, 2 ≤ i → hdr.getD i 0 = 0) →
       1 ≤ n → n ≤ 64 → 1 ≤ leaves → leaves ≤ 8 → root < n → ws.length = 4 * n →
       listAt s 8 (reg s a + 64) ws → (∀ i, i < n → ns.getD i ⟨0, 0, 0, 0⟩ = ⟨BitVec.ofNat 64 (ws.getD (4 * i) 0),
         BitVec.ofNat 64 (ws.getD (4 * i + 1) 0), BitVec.ofNat 64 (ws.getD (4 * i + 2) 0),
         BitVec.ofNat 64 (ws.getD (4 * i + 3) 0)⟩) →
       badNodes ns root leaves = none →
       (hdr.getD 0 0 ≠ 0x000100004B4A5431 ∨ 2 ^ 24 ≤ hdr.getD 1 0 → traps (.jwOpen w a) 3) ∧
       (hdr.getD 0 0 = 0x000100004B4A5431 → hdr.getD 1 0 < 2 ^ 24 →
       badOptions ns leaves (oxOf (here s) 2) (oxOf (here s) 3) = false →
       ∃ t, exec (.jwOpen w a) s = .next t ∧ (here t).pc = (here s).pc + 4 ∧
         walkerOf (here t) w = ⟨ns, root, leaves, oxOf (here s) 2, oxOf (here s) 3, none, false⟩))) ∧
    (x.nodes = [] → traps (.jwNext d k w) 0 ∧ traps (.jwCnt d a w) 0) ∧
    (oxOf (here s) 7 = 0 → x.nodes ≠ [] → d.toNat + x.leaves ≤ 31 → x.ended = true →
      ∃ t, exec (.jwNext d k w) s = .next t ∧ restartDone t s ∧ (k ≠ 0#3 → kreg t k = 0) ∧
        ∀ i, i ≤ x.leaves → vreg t (d + BitVec.ofNat 5 i) = 0) ∧
    (∀ n : JNode, x.nodes = [n] → x.root = 0 → x.leaves = 1 → n.kind = 1 → n.w3 = 0#64 → x.opts.getLsbD 0 = false →
      bits x.opts 23 16 = 0xFF →
      (x.cursor = none → x.ended = false → oxOf (here s) 7 = 0 → d.toNat < 31 →
        let m := min 16 n.rows
        goesOn (.jwNext d k w) s ∧ ∃ j t, issues (.jwNext d k w) j s = some t ∧ restartDone t s ∧ (k ≠ 0#3 → kreg t k = BitVec.ofNat 64 (2 ^ m - 1)) ∧
          vreg t (d + 1) = 0 ∧
          ∀ i, i < 16 → lane (vreg t d) 32 i = if i < m then BitVec.ofNat 32 i else 0) ∧
      (∃ v : V512, exec (.jwCnt d a w) s = .next (done 4 (setV d v s)) ∧ ∀ i, i < 16 →
        lane v 32 i = if (reg s a).toNat % 2 ^ 32 + i = 0 then BitVec.ofNat 32 n.rows else 0)) ∧
    (∀ p n m : JNode, x.nodes = [p, n, m] → x.root = 0 → x.leaves = 2 → p.kind = 2 → bits p.w0 15 12 = 2 → bits p.w1 7 0 = 1 →
      bits p.w1 15 8 = 2 → n.kind = 1 → m.kind = 1 → n.w3 = 0#64 → m.w3 = 0#64 → x.opts.getLsbD 0 = false →
      bits x.opts 23 16 = 0xFF →
      ∃ v : V512, exec (.jwCnt d a w) s = .next (done 4 (setV d v s)) ∧ ∀ i, i < 16 →
        lane v 32 i = if (reg s a).toNat % 2 ^ 32 + i = 0 then BitVec.ofNat 32 (min (n.rows * m.rows) 0xFFFFFFFF) else 0) ∧
    exec (.jwClose w) s = .next (done 4 (onHere (fun c => { c with
      walkers := c.walkers.set w.toNat ⟨[], 0, 0, 0, 0, none, true⟩ w.isLt }) s))

namespace Sys2Proof.Claims

/-- The elements of two strictly rising streams that a stream instruction of a SUB keeps, as R267 defines them: those of
both; those of either, once each; those of both streams, a pair twice; those of the first alone. -/
def kept (sub : Nat) (xs ys : List Nat) : List Nat :=
  if sub = 0 then xs.filter ys.contains
  else if sub = 1 then (xs ++ ys.filter fun y => !xs.contains y).mergeSort (· ≤ ·)
  else if sub = 2 then (xs ++ ys).mergeSort (· ≤ ·)
  else xs.filter fun x => !ys.contains x
/-- Strictly rising numbers of 32 bits. -/
def strictly (xs : List Nat) : Prop := ∀ i j, i < j → j < xs.length → xs.getD i 0 < xs.getD j 0
/-- The address in A or S of the word that lane `k` of register `b` selects from `ga` on (R271). -/
def keyOff (s : State) (ga : W64) (b : BitVec 5) (k : Nat) : Nat :=
  ((ga + BitVec.ofNat 64 (4 * (lane (vreg s b) 32 k).toNat)).toNat) % 65536
/-- The active lanes: their key is not all ones (R270). -/
def active (s : State) (b : BitVec 5) : List Nat :=
  (List.range 16).filter fun k => decide (lane (vreg s b) 32 k ≠ BitVec.allOnes 32)
/-- A word of A or S. -/
def localWord (s : State) (sp : Space) (off : Nat) : BitVec 32 := le4 (bytesGet (spaceBytes (hereCore s) sp) off 4)
/-- The words of a local array that the active lanes select may be updated: in range, aligned, outside mailbox and deque, not
awaited from a matrix instruction and without error (R148, R271). -/
def keysFree (s : State) (sp : Space) (ga : W64) (b : BitVec 5) : Prop :=
  ∀ k, k ∈ active s b → keyOff s ga b k % 4 = 0 ∧ (sp = 3#2 → keyOff s ga b k < 0x6000) ∧
    matrixBefore s sp (keyOff s ga b k) 4 = false ∧ spaceFails (hereCore s) sp (keyOff s ga b k) 4 = false
/-- A local accumulation completes: every word is folded with the values of the active lanes that select it, in lane order. -/
def accumulates (i : Instr) (s : State) (sp : Space) (ga : W64) (b : BitVec 5)
    (f : BitVec 32 → BitVec 32 → BitVec 32) (val : Nat → BitVec 32) : Prop :=
  ∃ t, exec i s = .next t ∧ (here t).pc = (here s).pc + 4 ∧ ∀ off, off % 4 = 0 → off < 65536 → localWord t sp off =
    ((active s b).filter fun k => decide (keyOff s ga b k = off)).foldl (fun x k => f x (val k)) (localWord s sp off)
/-- The bin of lane `k`'s key under a geometry, and the head of a bin of an area (R273). -/
def binOf (s : State) (b : BitVec 5) (k : Nat) : Nat := (lane (vreg s b) 32 k).toNat / 2 ^ bits (oxOf (here s) 2) 4 0
def headOf (s : State) (ga : W64) (n : Nat) : W64 := ga + BitVec.ofNat 64 (n * (64 + 8 * bits (oxOf (here s) 2) 47 32))
/-- A sound geometry and area for the active lanes: each bin holds `count` records, has room for those of its lanes, and its
count and the records' places, at physical addresses `hpa` and `rpa`, may be written and do not overlap (R273). -/
def binsSound (s : State) (ga : W64) (b : BitVec 5) (count hpa rpa : Nat → Nat) : Prop :=
  let g := oxOf (here s) 2
  let ks := active s b
  bits g 63 48 = 0 ∧ bits g 15 5 = 0 ∧ 0 < bits g 47 32 ∧ bits g 4 0 ≤ 16 ∧ ga.toNat % 64 = 0 ∧ 0 < bits g 31 16 ∧
  ∀ k, k ∈ ks →
    let n := binOf s b k
    let index := count n + (ks.filter fun j => decide (j < k) && decide (binOf s b j = n)).length
    n < bits g 31 16 ∧ wordAt s 4 (headOf s ga n) (count n) ∧ index < bits g 47 32 ∧
    globalAt s .store 4 (headOf s ga n) (hpa n) ∧ globalAt s .store 8 (headOf s ga n + BitVec.ofNat 64 (64 + 8 * index)) (rpa k) ∧
    ∀ j, j ∈ ks → (hpa (binOf s b j) + 4 ≤ rpa k ∨ rpa k + 8 ≤ hpa (binOf s b j)) ∧
      (j ≠ k → rpa j + 8 ≤ rpa k ∨ rpa k + 8 ≤ rpa j) ∧
      (binOf s b j ≠ n → hpa (binOf s b j) + 4 ≤ hpa n ∨ hpa n + 4 ≤ hpa (binOf s b j))
/-- A binned accumulation completes: each active lane's key and value stand in its record, and each bin's count has gone up by
its lanes (R273). -/
def bins (i : Instr) (s : State) (b : BitVec 5) (val : Nat → BitVec 32) (count hpa rpa : Nat → Nat) : Prop :=
  ∃ u, exec i s = .next u ∧ (here u).pc = (here s).pc + 4 ∧ ∀ k, k ∈ active s b →
    natOf (seenBytes u (clusterOf s.core) (rpa k) 4) = (lane (vreg s b) 32 k).toNat ∧
    natOf (seenBytes u (clusterOf s.core) (rpa k + 4) 4) = (val k).toNat ∧
    natOf (seenBytes u (clusterOf s.core) (hpa (binOf s b k)) 4) =
      count (binOf s b k) + ((active s b).filter fun j => decide (binOf s b j = binOf s b k)).length

end Sys2Proof.Claims

/-- For a hardware context that nothing holds up with no progress in ox7, and two strictly rising streams of words
that stand in readable memory at aligned addresses, of the lengths in ox2: each of the five, which are restartable
and take one step as their context issues, goes on, and SS.ISECT, SS.UNION, SS.MERGE and SS.DIFF are done after some
issues with D the number of elements it keeps, ox6 and ox7 zero, and in its storing form, with an aligned output
inside S below 0x6000, the kept elements that fit stand there in rising order, one word each. SS.SEEK is done with D
the first index from its start at which the stream is at least the target, or the length. (R86, R266, R267, R268,
R269) -/
def Obligations.SortedStreams : Prop :=
  ∀ s : State, calmStrand s = true → cleanCache s → atomicsOut s = false → ∀ (d : BitVec 5) (f : BitVec 1) (xs ys : List Nat),
    let xb := oxOf (here s) 0
    let yb := oxOf (here s) 1
    let ox2 := oxOf (here s) 2
    let ox3 := oxOf (here s) 3
    let ox4 := oxOf (here s) 4
    oxOf (here s) 7 = 0 → xb.toNat % 4 = 0 → listAt s 4 xb xs → strictly xs → xs.length = bits ox2 31 0 →
    (yb.toNat % 4 = 0 → listAt s 4 yb ys → strictly ys → ys.length = bits ox2 63 32 →
      (f = 1#1 → bits ox3 15 0 % 4 = 0 ∧ bits ox3 63 32 = 0 ∧ bits ox3 15 0 + 4 * bits ox3 31 16 ≤ 0x6000) →
      ∀ p, p ∈ [(Instr.ssIsect d f, 0), (.ssUnion d f, 1), (.ssMerge d f, 2), (.ssDiff d f, 3)] →
        goesOn p.1 s ∧ ∃ n t, issues p.1 n s = some t ∧ restartDone t s ∧
          reg t d = (if d = 0#5 then 0 else BitVec.ofNat 64 (Claims.kept p.2 xs ys).length) ∧
          (f = 1#1 → ∀ k, k < (Claims.kept p.2 xs ys).length → k < bits ox3 31 16 →
            (localWord t 3 (bits ox3 15 0 + 4 * k)).toNat = (Claims.kept p.2 xs ys).getD k 0)) ∧
    goesOn (.ssSeek d) s ∧
    (∃ n t i, issues (.ssSeek d) n s = some t ∧ restartDone t s ∧ reg t d = (if d = 0#5 then 0 else BitVec.ofNat 64 i) ∧
      i ≤ xs.length ∧ (xs.length ≤ bits ox4 63 32 → i = xs.length) ∧ (bits ox4 63 32 < xs.length → bits ox4 63 32 ≤ i) ∧
      (∀ j, bits ox4 63 32 ≤ j → j < i → xs.getD j 0 < bits ox4 31 0) ∧ (i < xs.length → bits ox4 63 32 < xs.length →
        bits ox4 31 0 ≤ xs.getD i 0))

/-- In every state whose context nothing holds up and whose atomics have returned: KACC in modes 0 and 1, and KCNT
with the value 1, fold into each word of A or S that the active lanes select the values of those lanes in lane
order, rounded for FP32, wrapping for integers; KEXP puts the selected words in D and zero in the other lanes,
locally and, through global memory, lane by lane. In a hardware context mode 3 posts 4 bytes for each active lane
and sends their updates to the target's S. KACC and KCNT in mode 2 with a sound geometry and room in the bins append
the key and the value of every active lane to its bin, in lane order, and count them. KFLUSH of a bin that holds one
record of its range in one area adds the record's value to its key's word of the array, whose words may be read and
written, leaves the bin empty and puts 1 in D. (R270, R271, R272, R273, R274, R275, R276) -/
def Obligations.KeyIndexedInstructions : Prop :=
  (∀ s : State, calm s = true → ∀ (d a b : BitVec 5) (m : BitVec 2) (t : BitVec 1),
    let ga := reg s a
    let val := fun k => lane (vreg s d) 32 k
    let add := fun x y : BitVec 32 => if t = 0#1 then (add32 x y).1 else x + y
    (m.toNat < 2 → atomicsOut s = false → keysFree s (if m = 0#2 then 1 else 3) ga b →
      accumulates (.kacc d a b m t) s (if m = 0#2 then 1 else 3) ga b add val ∧
      accumulates (.kcnt a b m) s (if m = 0#2 then 1 else 3) ga b (· + ·) (fun _ => 1) ∧
      ∃ u x, exec (.kexp d a b m) s = .next u ∧ vreg u d = x ∧ ∀ k, k < 16 →
        lane x 32 k = if k ∈ active s b then localWord s (if m = 0#2 then 1 else 3) (keyOff s ga b k) else 0) ∧
    (m = 2#2 → ∀ (l : List Spot) (ls : List (Nat × Nat)) (u : State), l.length = (active s b).length →
      (∀ i, i < l.length → arrives s .load 4 4 (siteAt 0 (ga + BitVec.ofNat 64 (4 * (lane (vreg s b) 32
        ((active s b).getD i 0)).toNat))) = l[i]?) →
      readEach 4 s ((active s b).zip l) = some (ls, u) →
      ∃ x : V512, exec (.kexp d a b m) s = .next (done 4 (setV d x (aliasServed [] l u))) ∧ ∀ k, k < 16 →
        lane x 32 k = BitVec.ofNat 32 (((ls.find? fun p => p.1 = k).map (·.2)).getD 0)) ∧
    (m = 3#2 → s.ctx < 4 → active s b ≠ [] →
      let ox0 := oxOf (here s) 0
      let n := (active s b).length
      let cc : BitVec 4 := ox0.extractLsb' 16 4
      let k := counterOf (here s) cc
      let offs := (active s b).map fun j => ga.toNat + 4 * (lane (vreg s b) 32 j).toNat
      let posted := onHere (fun c => { c with cc := c.cc.set cc.toNat ⟨k.expect + BitVec.ofNat 32 (4 * n), k.done⟩ cc.isLt }) s
      bits ox0 63 20 = 0 → bits ox0 15 14 = 0 → ga.toNat % 4 = 0 → (∀ o, o ∈ offs → o < 0x8000) →
      (k.expect + BitVec.ofNat 32 (4 * n) - k.done).toNat ≤ 2 ^ 31 → atomicsOut s = false →
      exec (.kacc d a b m t) s = .next (done 4 (sendRemote posted ⟨whoOf (here s) s.core s.ctx, ox0.setWidth 14, true,
        if t = 0#1 then .accF32 else .accI32, 4, offs, (active s b).flatMap fun j => low 4 ((val j).setWidth 64), cc, 0, false, 0, false, 0⟩)) ∧
      exec (.kcnt a b m) s = .next (done 4 (sendRemote posted ⟨whoOf (here s) s.core s.ctx, ox0.setWidth 14, true,
        .accI32, 4, offs, (active s b).flatMap fun _ => low 4 1, cc, 0, false, 0, false, 0⟩))) ∧
    (m = 2#2 → cleanCache s → atomicsOut s = false → ∀ count hpa rpa : Nat → Nat, binsSound s ga b count hpa rpa →
      Claims.bins (.kacc d a b m t) s b val count hpa rpa ∧ Claims.bins (.kcnt a b m) s b (fun _ => 1) count hpa rpa)) ∧
  (∀ s : State, calm s = true → cleanCache s → atomicsOut s = false → ∀ (d a : BitVec 5) (t : BitVec 1) (area rec old hpa wpa : Nat),
    let g := oxOf (here s) 2
    let array := oxOf (here s) 0
    let r := bits (reg s a) 31 0
    let head := BitVec.ofNat 64 area + BitVec.ofNat 64 (r * (64 + 8 * bits g 47 32))
    let key := rec % 2 ^ 32
    let word := array + BitVec.ofNat 64 (4 * key)
    oxOf (here s) 3 = 1 → bits g 63 48 = 0 → bits g 15 5 = 0 → 0 < bits g 47 32 → bits g 4 0 ≤ 16 → r < bits g 31 16 →
    array.toNat % 4 = 0 → (oxOf (here s) 1).toNat % 8 = 0 → wordAt s 8 (oxOf (here s) 1) area → area % 64 = 0 →
    wordAt s 4 head 1 → globalAt s .store 4 head hpa → wordAt s 8 (head + 64) rec → key / 2 ^ bits g 4 0 = r →
    wordAt s 4 word old → globalAt s .store 4 word wpa → (hpa + 4 ≤ wpa ∨ wpa + 4 ≤ hpa) →
    (∀ j, j < 2 ^ bits g 4 0 → ∃ pa, globalAt s .store 4 (array + BitVec.ofNat 64 (4 * (r * 2 ^ bits g 4 0 + j))) pa ∧
      globalAt s .load 4 (array + BitVec.ofNat 64 (4 * (r * 2 ^ bits g 4 0 + j))) pa) →
    ∃ u, exec (.kflush d a t) s = .next u ∧ (here u).pc = (here s).pc + 4 ∧ reg u d = (if d = 0#5 then 0 else 1) ∧
      natOf (seenBytes u (clusterOf s.core) hpa 4) = 0 ∧
      BitVec.ofNat 32 (natOf (seenBytes u (clusterOf s.core) wpa 4)) =
        (if t = 0#1 then (add32 (BitVec.ofNat 32 old) (BitVec.ofNat 32 (rec / 2 ^ 32))).1
         else BitVec.ofNat 32 old + BitVec.ofNat 32 (rec / 2 ^ 32)))

namespace Sys2Proof.Claims

/-- Every piece of work that the current context has issued is complete (R23, R197), and it holds no object (R287). -/
def workOver (s : State) : Prop :=
  let c := getCluster s (clusterOf s.core)
  (here s).held = [] ∧
  flying s [.remoteAccessServe, .oneSidedReply, .queryResultLand, .scanSumLand, .amoApply, .amoReply, .alightWriteLand] = false ∧
  s.dies.any (fun p => p.2.wellQ.any fun q => isMine s q.who) = false ∧
  c.jobs.any (fun j => isMine s j.who && jobLive j) = false ∧ c.ringQ.any (fun r => isMine s r.who) = false ∧
  c.sfu.any (fun e => isMine s e.who) = false ∧ c.mtx.any (fun m => isMine s m.who) = false
/-- Nothing dirty is left in the cluster's cache, and nothing of the context is on its way: a release changes no memory. -/
def released (s : State) : Prop :=
  drained s ∧ ∀ l, l ∈ (getCluster s (clusterOf s.core)).cache → l.dirty = 0#64
/-- The join record at an address: the physical addresses of its two lines (R310, R314). -/
def joinAt (s : State) (base : W64) (p q : Nat) : Prop :=
  base.toNat % 64 = 0 ∧ ∃ l m, objectAt s base l ∧ objectAt s (base + 64) m ∧ p = leafPa l (base.setWidth 56) ∧
    q = leafPa m ((base + 64).setWidth 56) ∧ badAt s p = false ∧ badAt s q = false ∧ p % 64 = 0 ∧ q % 64 = 0 ∧ p ≠ q
/-- A strand's record as the current context stamps it (R309, R311, R312): its PC, the SUSP bit and reserved bits of zero, words 1 to 6, and the
domain, priority, context and core. -/
def recordIs (s : State) (bs : List Byte) (w0 : W64) (susp : Bool) (w : Nat → W64) : Prop :=
  let word := fun i => le8 (bs.drop (8 * i))
  word 0 = (w0 &&& 0x00FFFFFFFFFFFFFF ||| if susp = true then 0x0100000000000000 else 0) ∧
  (∀ i, 1 ≤ i → i ≤ 6 → word i = w i) ∧
  (word 7).toNat = ((here s).dom.toNat * 4 + (here s).prio.toNat) * 2 ^ 34 + s.ctx * 2 ^ 14 + s.core
/-- The deque of the current core has no overflow record, none reserved, waiting or carried, and `n` resident ones (R360). -/
def dequeHolds (s : State) (n : Nat) : Prop :=
  let d := (hereCore s).deque
  d.rCount = n ∧ d.oCount = 0 ∧ d.resv = false ∧ d.waits = [] ∧ d.carry = none
/-- The bytes of resident place `i` of a core's deque (R27). -/
def place (c : Core) (i : Nat) : List Byte := bytesGet c.s (0x7000 + 64 * (i % 64)) 64
/-- The context is free, and its PC where it was. -/
def freed (t s : State) : Prop :=
  (getCtx t s.core s.ctx).run = .free ∧ (getCtx t s.core s.ctx).pc = (here s).pc ∧ (getCtx t s.core s.ctx).trapMode = false

end Sys2Proof.Claims

/-- For a hardware context that nothing holds up, whose work is over and released, and a deque without overflow
records, its core's S port free: FORK without a join record pushes the stamped child record at the head and gives 0,
or gives 2 when the 64 places are taken and there is no overflow; with one it also raises COUNT. JOIN with COUNT 0
goes on; with another COUNT and no strand parked it stores the strand's record, sets PARKED and frees the context;
with one parked it traps 0x12. HALT, HALT.RET and HALT.H free the context, end its enrolments and set the retain tag
or clear it. HALTJ lowers COUNT and frees the context; with COUNT 1 and a parent parked the parent's record becomes
the newest of the deque and PARKED is cleared; with COUNT 0 it traps 0x12. YIELD puts the strand's record at the
tail and frees the context, or is a NOP when the deque is full. SUSPEND stores it at its address and frees the
context. (R308, R309, R310, R311, R312, R313, R314, R340, R341, R362) -/
def Obligations.StrandInstructions : Prop :=
  ∀ s : State, calmStrand s = true → workOver s → released s → ∀ (d a b : BitVec 5) (n : Nat), dequeHolds s n →
    portBusy (hereCore s) 3 (now s) = false →
    let k := hereCore s
    let first := k.deque.rFirst
    let r := vreg s b
    let own := fun i => reg s (BitVec.ofNat 5 i)
    let next := ((here s).pc + 4).setWidth 64
    let core := fun t => getCore t s.core
    let traps := fun i => exec i s = .next (takeTrap s s.core s.ctx 0x12 (addr56 (reg s a)) false)
    (n < 64 → ∃ t, exec (.fork d 0 b) s = .next t ∧ (d ≠ 0#5 → reg t d = 0) ∧ (here t).pc = (here s).pc + 4 ∧
      dequeHolds t (n + 1) ∧ recordIs s (place (core t) (first + n)) (lane r 64 0) false (fun i => lane r 64 i)) ∧
    (n = 64 → k.ovn = 0 → ∃ t, exec (.fork d 0 b) s = .next t ∧ (d ≠ 0#5 → reg t d = 2) ∧ dequeHolds t 64 ∧
      (here t).pc = (here s).pc + 4) ∧
    (∀ p q, joinAt s (reg s a) p q →
      let count := memWord s p
      let parked := (memWord s (p + 8)).getLsbD 0
      (a ≠ 0#5 → n < 64 → ∃ t, exec (.fork d a b) s = .next t ∧ (d ≠ 0#5 → reg t d = 0) ∧ dequeHolds t (n + 1) ∧
        memWord t p = count + 1) ∧
      (count = 0 → ∃ t, exec (.join a) s = .next t ∧ (here t).pc = (here s).pc + 4 ∧ (here t).run = (here s).run ∧
        t.mem = s.mem ∧ (getCluster t (clusterOf s.core)).cache = []) ∧
      (count ≠ 0 → parked = true → traps (.join a)) ∧
      (count ≠ 0 → parked = false → ∃ t, exec (.join a) s = .next t ∧ freed t s ∧ memWord t p = count ∧
        memWord t (p + 8) = memWord s (p + 8) ||| 1 ∧ recordIs s (memRead t q 64) next true own) ∧
      (count = 0 → traps (.haltj a)) ∧
      (count ≠ 0 → (count ≠ 1 ∨ parked = false) → ∃ t, exec (.haltj a) s = .next t ∧ freed t s ∧ memWord t p = count - 1 ∧
        dequeHolds t n) ∧
      (count = 1 → parked = true → n < 64 → ∃ t, exec (.haltj a) s = .next t ∧ freed t s ∧ memWord t p = 0 ∧
        (memWord t (p + 8)).getLsbD 0 = false ∧ dequeHolds t (n + 1) ∧ place (core t) (first + n) = memRead s q 64)) ∧
    (∀ rt : BitVec 1, ∃ t, exec (.halt rt a) s = .next t ∧ freed t s ∧
      (core t).retain = (if rt = 1#1 then some ((reg s a).setWidth 32) else none) ∧
      ∀ m, (barAt (core t) m).init = true → (barAt (core t) m).enrol.getLsbD s.ctx = false) ∧
    (∃ t, exec .haltH s = .next t ∧ freed t s ∧ (core t).retain = none) ∧
    (n < 64 → ∃ t, exec .yield s = .next t ∧ freed t s ∧ dequeHolds t (n + 1) ∧
      recordIs s (place (core t) (first + 63)) next true own) ∧
    (n = 64 → k.ovn = 0 → exec .yield s = .next (done 4 s)) ∧
    (∀ l, (reg s a).toNat % 64 = 0 → windowOf ((reg s a).setWidth 56) = none → leafHere s .store ((reg s a).setWidth 56) = some l →
      leafFmt l.entry = 0 → (homeDie (leafPa l ((reg s a).setWidth 56))).isSome = true →
      admitOk s .write (.phys ((reg s a).setWidth 56) (leafPa l ((reg s a).setWidth 56)) l) = true →
      ∃ t, exec (.suspend a) s = .next t ∧ freed t s ∧
        recordIs s (memRead t (leafPa l ((reg s a).setWidth 56)) 64) next true own)

/-- When dispatch of a core with one free context looks, its S port free, and its deque holds resident records
alone, the newest, with an even PC, is picked up: the context runs at the record's PC with words 1 to 6 in g1 to g6,
every other general register zero, from 6 cycles of the core on. A steal request at a core of the thief's domain,
its S port free, takes the oldest resident record and sends it back in half the round trip; at a core outside it the
answer carries none. A reply with a record is picked up by the lowest free context after 4 cycles of the core when
the banks are up. An expired wait of the current sequence of a core with a free context steps the LFSR and asks
another core of the cluster; one of an old sequence does nothing. The oldest overflow record that can be read
becomes the newest resident one, in a cycle without another operation and with the S port free. The banks of a core
that may power down lose all bytes. (R22, R31, R361, R363, R364, R365, R366, R367, R368) -/
def Obligations.QueueEngine : Prop :=
  (∀ (s : State) (core x n : Nat), s.arg = .num core 0 0 → x < 4 → freeCtxs s core = [x] →
    let d := (getCore s core).deque
    let r := place (getCore s core) (d.rFirst + n)
    let word := fun i => le8 (r.drop (8 * i))
    d.rCount = n + 1 → d.oCount = 0 → d.resv = false → d.hold = none → d.waits = [] → d.carry = none →
    (word 0).getLsbD 0 = false → portBusy (getCore s core) 3 (now s) = false →
    ∃ t, exec .contextDispatch s = .next t ∧ (getCore t core).deque.rCount = n ∧
      let c := getCtx t core x
      c.run = .running ∧ c.pc = (word 0).setWidth 56 ∧ c.nextIssue = after s core 6 ∧ c.prio = (word 7).extractLsb' 34 2 ∧
      ∀ i : BitVec 5, gOf c i = if 1 ≤ i.toNat ∧ i.toNat ≤ 6 then word i.toNat else 0) ∧
  (∀ (s : State) (victim thief n : Nat), s.arg = .num victim thief 0 →
    let d := (getCore s victim).deque
    let answer := fun (t : State) (r : Option V512) => ∃ e, e ∈ t.agenda ∧ e.ev = .stealReplyArrive ∧
      e.arg = .record thief r ∧ e.at_ = now s + (if clusterOf thief = clusterOf victim then 6
        else if dieOf thief = dieOf victim then 20 else 80)
    (inDomain s victim (coreLaunch s thief).dom = false → ∃ t, exec .stealRequestArrive s = .next t ∧ answer t none ∧
      t.cores = s.cores) ∧
    (inDomain s victim (coreLaunch s thief).dom = true → portBusy (getCore s victim) 3 (now s) = false → d.rCount = n + 1 → d.oCount = 0 → d.resv = false → d.waits = [] →
      d.carry = none → ∃ t r, exec .stealRequestArrive s = .next t ∧ answer t (some r) ∧
        vecBytes r = place (getCore s victim) d.rFirst ∧ (getCore t victim).deque.rCount = n)) ∧
  (∀ (s : State) (core x : Nat) (r : V512), s.arg = .record core (some r) → x < 4 → freeCtxs s core = [x] →
    (getCore s core).powered = true → (getCore s core).upAt ≤ now s → (lane r 64 0).getLsbD 0 = false →
    ∃ t, exec .stealReplyArrive s = .next t ∧ (getCtx t core x).run = .running ∧ (getCtx t core x).nextIssue = after s core 4 ∧
      (getCtx t core x).pc = (lane r 64 0).setWidth 56 ∧ gOf (getCtx t core x) 6 = lane r 64 6) ∧
  (∀ (s : State) (core seq round : Nat), s.arg = .num core seq round →
    let c := getCore s core
    let next := if c.lfsr.getLsbD 0 then (c.lfsr >>> 1) ^^^ 0xB400 else c.lfsr >>> 1
    (c.steal ≠ some ⟨seq, round, 0⟩ → exec .stealBackoffExpire s = .next s) ∧
    (c.steal = some ⟨seq, round, 0⟩ → next.toNat % 8 ≠ core % 8 →
      (∃ x, x < 4 ∧ (getCtx s core x).run = .free ∧ (getCtx s core x).bound = true) → ∃ t, exec .stealBackoffExpire s = .next t ∧
      (getCore t core).lfsr = next ∧ (getCore t core).steal = some ⟨seq, round, 1⟩ ∧
      ∃ e, e ∈ t.agenda ∧ e.ev = .stealRequestArrive ∧ e.arg = .num (core / 8 * 8 + next.toNat % 8) core 0 ∧
        e.at_ = now s + 6)) ∧
  (∀ (s : State) (core : Nat) (r : V512) (bad : Bool) (u : State), s.arg = .num core 0 0 →
    canMigrate (getCore s core).deque = true → (getCore s core).deque.busy ≠ now s + 1 →
    (getCore s core).deque.resv = false → portBusy (getCore s core) 3 (now s) = false →
    takeOldestOverflow core s = .ok (some (r, bad)) u →
    let d := (getCore u core).deque
    d.resv = false → d.waits = [] → d.carry = none → d.rCount < 64 → ∃ t, exec .dequeMigrate s = .next t ∧
      (getCore t core).deque.rCount = d.rCount + 1 ∧ place (getCore t core) (d.rFirst + d.rCount) = vecBytes r) ∧
  (∀ (s : State) (core : Nat), s.arg = .num core 0 0 →
    (mayPowerDown s core = true → ∃ t, exec .bankPowerDown s = .next t ∧ (getCore t core).powered = false ∧
      ∀ sp off, byteGet (spaceBytes (getCore t core) sp) off = 0) ∧
    (mayPowerDown s core = false → exec .bankPowerDown s = .next s))

namespace Sys2Proof.Claims

/-- Context `x` of a core has taken a trap: the three trap registers are written together, trap mode is set, and the PC
stands at its handler (R46, R47, R319). -/
def trapped (s t : State) (core x : Nat) (cause : BitVec 8) (pc : VA) (val : W64) : Prop :=
  let c := getCtx t core x
  c.trapCause = cause.setWidth 9 ∧ c.trapPc = pc ∧ c.trapVal = val ∧ c.trapMode = true ∧
  c.pc = (getCtx s core x).trapVec ++ 0#1 ∧ c.trapVec = (getCtx s core x).trapVec ∧ c.run = .running ∧
  c.g = (getCtx s core x).g ∧ c.v = (getCtx s core x).v ∧ c.k = (getCtx s core x).k ∧ c.ox = (getCtx s core x).ox
/-- The numbers of the system registers that SYSRD reads, and of those that SYSWR writes (R39, R40). -/
def readable12 (m : BitVec 12) : Prop := m.toNat / 256 = 1 ∨ m ∈ [0x000, 0x001, 0x002, 0x003, 0x004, 0x005, 0x006, 0x007, 0x010,
  0x011, 0x020, 0x021, 0x022, 0x023, 0x030, 0x040, 0x041, 0x042]
def writable12 (m : BitVec 12) : Prop := m ∈ [0x010, 0x011, 0x020, 0x021, 0x022, 0x023, 0x030, 0x040]
/-- The context may take a trap: it has a handler and is in none, and it is not part way in a restartable instruction (R86). -/
def canTrap (s : State) (core x : Nat) : Prop :=
  (getCtx s core x).trapVec ≠ 0 ∧ (getCtx s core x).trapMode = false ∧ (getCtx s core x).midway = false

end Sys2Proof.Claims

/-- In every state whose context nothing holds up: OXL replaces 16 bits of an ox register, OXM moves one whole in
either direction, OXLD and OXST move it from and to global memory when the access arrives; SYSRD puts each register
of R39 in D with its fields in their places, and traps 0x02 on every number that names none; SYSWR writes the trap
registers and STRAYSIG, clears the bits of FPSTAT and MXSTAT that are written as 1, sets the withheld columns and
clears SPV by a 1, and traps 0x02 on every read-only or unknown number; NOP changes the PC alone. SPILLMAP_WRITE
sets the columns of a core as SYSWR does. (R38, R39, R40, R46, R47, R48, R49, R50, R315, R316, R317, R318) -/
def Obligations.OperandExtensionAndSystemRegisters : Prop :=
  (∀ s : State, calm s = true → ∀ (d a : BitVec 5) (n : BitVec 3) (c : BitVec 2) (i : BitVec 16) (o : BitVec 12),
    let h := here s
    let k := hereCore s
    let v := reg s a
    let setOx := fun (x : W64) (u : State) => onHere (oxSet · n x) u
    let rd := fun (m : BitVec 12) (x : Nat) => writes (.sysrd d m) s 4 d (BitVec.ofNat 64 x)
    let wr := fun (m : BitVec 12) (f : Ctx → Ctx) => exec (.syswr a m) s = .next (done 4 (onHere f s))
    (∃ x : W64, x.extractLsb' (16 * c.toNat) 16 = i ∧ (∀ j, j < 4 → j ≠ c.toNat →
        x.extractLsb' (16 * j) 16 = (oxOf h n).extractLsb' (16 * j) 16) ∧ exec (.oxl n c i) s = .next (done 4 (setOx x s))) ∧
    exec (.oxm n a) s = .next (done 4 (setOx v s)) ∧ writes (.oxmToG d n) s 4 d (oxOf h n) ∧
    (∀ p, arrives s .load 8 8 (siteAt 0 (v + o.signExtend 64)) = some p → readable s 8 p = true →
      exec (.oxld n a o) s = .next (done 4 (setOx (le8 (spotBytes s 8 p)) (afterLoad s 8 p)))) ∧
    (∀ p, arrives s .store 8 8 (siteAt 0 (v + o.signExtend 64)) = some p → writable s 8 p = true →
      exec (.oxst a n o) s = .next (done 4 (afterStore s (low 8 (oxOf h n)) p))) ∧
    rd 0x000 s.cyc.toNat ∧ rd 0x001 s.core ∧ rd 0x002 (h.inst.toNat * 2 ^ 16 + s.ctx) ∧
    rd 0x003 (h.gangSize.toNat * 16 + h.gangIdx.toNat) ∧ rd 0x004 (h.dom.toNat * 2 ^ 16 + h.clcount.toNat) ∧
    rd 0x005 h.ltag.toNat ∧ rd 0x006 h.asid.toNat ∧ rd 0x007 h.prio.toNat ∧ rd 0x010 h.fpstat.toNat ∧
    rd 0x011 h.mxstat.toNat ∧ rd 0x020 h.trapCause.toNat ∧ rd 0x021 h.trapPc.toNat ∧ rd 0x022 h.trapVal.toNat ∧
    rd 0x023 (h.trapVec.toNat * 2) ∧ (k.parked = [] → rd 0x030 ((if k.spv then 2 ^ 40 else 0) + k.cfree.toNat)) ∧
    rd 0x040 k.straySig.toNat ∧ rd 0x041 k.lfsr.toNat ∧ rd 0x042 k.trcIdx.toNat ∧
    (∀ j : BitVec 8, rd (1#4 ++ j) (tabGet 0 k.trc j.toNat).toNat) ∧
    (∀ m : BitVec 12, ¬ readable12 m →
      exec (.sysrd d m) s = .next (takeTrap s s.core s.ctx 0x02 (insnWord (.sysrd d m)) false)) ∧
    wr 0x010 (fun q => { q with fpstat := q.fpstat &&& ~~~ v.extractLsb' 0 6 }) ∧
    wr 0x011 (fun q => { q with mxstat := q.mxstat &&& ~~~ v.extractLsb' 0 3 }) ∧
    wr 0x020 (fun q => { q with trapCause := v.extractLsb' 0 9 }) ∧ wr 0x021 (fun q => { q with trapPc := v.extractLsb' 0 56 }) ∧
    wr 0x022 (fun q => { q with trapVal := v }) ∧ wr 0x023 (fun q => { q with trapVec := v.extractLsb' 1 55 }) ∧
    exec (.syswr a 0x040) s = .next (done 4 (onCore (fun q => { q with straySig := v.extractLsb' 0 32 }) s)) ∧
    ((getCluster s (clusterOf s.core)).mtx.any (fun m => m.who.core.toNat = s.core) = false → ∃ t,
      exec (.syswr a 0x030) s = .next t ∧ (hereCore t).cfree = v.extractLsb' 0 32 ∧
      (hereCore t).spv = (k.spv && !v.getLsbD 40) ∧ (here t).pc = h.pc + 4) ∧
    (∀ m : BitVec 12, ¬ writable12 m →
      exec (.syswr a m) s = .next (takeTrap s s.core s.ctx 0x02 (insnWord (.syswr a m)) false)) ∧
    exec .nop s = .next (done 4 s) ∧ exec .nopH s = .next (done 2 s)) ∧
  (∀ (s : State) (v z : W64) (core : Nat), s.arg = .word v z core → ∃ t, exec .spillmapWrite s = .next t ∧
    (getCore t core).cfree = v.extractLsb' 0 32 ∧ (getCore t core).spv = ((getCore s core).spv && !v.getLsbD 40) ∧
    ∀ off, (getCore s core).cfree.getLsbD (off / 1024) = true → v.getLsbD (off / 1024) = false → off < 32768 →
      byteGet (getCore t core).c off = 0)

/-- For a context that nothing holds up, with a handler and in none: TRAP with a cause from 0x01 to 0x12 but 0x0F
takes that cause with b in TRAPVAL, BRK and BRK.H take cause 0x01 with their own address, each with the address
after the instruction in TRAPPC; TRAP with another cause, an illegal instruction and a fetch fault take their cause
with the instruction's own address in TRAPPC; of pending asynchronous traps the one with the lowest cause is taken
and taken off the list. The registers are kept and the PC stands at the handler; PROG is set when the trap finds a
restartable instruction part way, and clear otherwise. In trap mode an asynchronous trap stays pending, and ERET
leaves trap mode for an even TRAPPC; outside it ERET traps 0x02. A hardware context without a handler, or inside
one, that traps is killed: it is free with its instance tag moved on to the next that no saved context of its slot
has, which is the model's reading (R438 says only that it increments, R436 that a rebind skips such tags: log entry
57). HALT, JOIN, FORK, BAR.ARR and JW.CLOSE in the handler context trap 0x09 with their word in TRAPVAL. (R86, R46,
R47, R53, R78, R308, R318, R319, R320, R321, R436, R438) -/
def Obligations.TrapsAreTakenAndLeft : Prop :=
  (∀ s : State, calm s = true → ∀ (a b : BitVec 5),
    let h := here s
    let takes := fun i cause pc val => ∃ t, exec i s = .next t ∧ trapped s t s.core s.ctx cause pc val
    (canTrap s s.core s.ctx →
      (1 ≤ (reg s a).toNat → (reg s a).toNat ≤ 0x12 → reg s a ≠ 0x0F →
        takes (.trap a b) ((reg s a).extractLsb' 0 8) (h.pc + 4) (reg s b)) ∧
      ((reg s a = 0 ∨ reg s a = 0x0F ∨ 0x12 < (reg s a).toNat) → takes (.trap a b) 0x02 h.pc (insnWord (.trap a b))) ∧
      takes .brk 0x01 (h.pc + 4) (h.pc.setWidth 64) ∧ takes .brkH 0x01 (h.pc + 2) (h.pc.setWidth 64) ∧
      (∀ v z n, s.arg = .word v z n → takes .illegalInstruction 0x02 h.pc v ∧
        takes .fetchFault (v.extractLsb' 0 8) h.pc z) ∧
      takes .eret 0x02 h.pc (insnWord .eret) ∧
      (∀ c v, (c, v) ∈ h.pending → (∀ p, p ∈ h.pending → p ≠ (c, v) → c.toNat < p.1.toNat) →
        ∃ t, exec .asyncTrap s = .next t ∧ trapped s t s.core s.ctx c h.pc v ∧ (here t).pending = h.pending.erase (c, v))) ∧
    (h.trapMode = true → exec .asyncTrap s = .next s) ∧
    (h.trapMode = true → h.trapPc.getLsbD 0 = false → exec .eret s = .next (onHere (fun c => { c with
      trapMode := false, pc := c.trapPc, nextIssue := after s s.core 1, waitSince := none, walkFail := none, await := none
      midway := false }) s)) ∧
    (h.trapVec ≠ 0 → h.trapMode = false → h.midway = true → ∀ c v, h.pending = [(c, v)] → ∃ t, exec .asyncTrap s = .next t ∧
      (here t).trapCause = 1#1 ++ c ∧ (here t).trapPc = h.pc ∧ (here t).midway = false) ∧
    (s.ctx < 4 → (h.trapVec = 0 ∨ h.trapMode = true) → ∃ t, exec .brk s = .next t ∧ (getCtx t s.core s.ctx).run = .free ∧
      (getCtx t s.core s.ctx).inst = nextInst s s.core s.ctx h.inst) ∧
    (s.ctx = 4 → canTrap s s.core s.ctx → ∀ i, i ∈ [Instr.halt 0 0, .join a, .fork a b b, .barArr 0, .jwClose 0] →
      takes i 0x09 h.pc (insnWord i)))

namespace Sys2Proof.Claims

/-- The mailbox is served at once: the link is up, no command runs or waits, and the package is not in recovery mode (R446). -/
def cmdReady (s : State) : Prop :=
  s.link ≠ 0 ∧ s.cmd = none ∧ s.cmds = [] ∧ s.cmdGo = false ∧ s.recovery = false
/-- A command answered with its opcode, its K8J status and a number (R446). -/
def answered (s : State) (op status value : Nat) : State :=
  { s with mailbox := s.mailbox ++ [⟨op, status, value⟩], cmd := none }
/-- A board's header fits R403, and its region lies in first-tier memory that Scerix may read and write. -/
def boardFits (s : State) (pa : Nat) : Prop :=
  let w := memWord s pa
  let n := bits w 15 0
  pa % 256 = 0 ∧ bits w 63 48 = 0 ∧ bits w 31 16 = 0 ∧ (∃ k, 2 ≤ k ∧ k ≤ 12 ∧ n = 2 ^ k) ∧ bits w 47 32 ≠ 0xFFFF ∧
  served s pa = true ∧ admits s 2 0 .read pa 0 = true ∧ admits s 2 0 .write pa 0 = true ∧ badAt s pa = false ∧
  pa + 256 * (n + 1) ≤ 0x8000000000 ∧ served s (pa + 256 * (n + 1) - 1) = true
/-- Another launch holds a cluster or a well of a launch (R447). -/
def othersHold (s : State) (l : Launch) : Prop :=
  ∃ o, o ∈ s.launches ∧ o.holds = true ∧ o.dom ≠ l.dom ∧ ((∃ c, c ∈ l.clusters ∧ c ∈ o.clusters) ∨
    ∃ w, w ∈ l.wells ∧ w ∈ o.wells)
/-- The mailboxes of a launch's cores are idle: no handler runs, and no row or message waits (R439). -/
def quietCores (s : State) (l : Launch) : Prop :=
  ∀ core, core ∈ l.cores → (getCtx s core 4).run = .free ∧ (getCore s core).mail = [] ∧ (getCore s core).inbox = []
/-- No context of the package leads or follows a gang. -/
def noGangs (s : State) : Prop := ∀ core x, (getCtx s core x).gangSize = 0 ∧ (getCtx s core x).run ≠ .follower

end Sys2Proof.Claims

/-- When the mailbox serves at once: BOARD.REG of a board that fits R403 registers it under the lowest free number
with TAKEN 0, and gives status 2 when 64 are registered, 1 when its address is not aligned; BOARD.UNREG has a
registered board leave, which BOARD_REMOVE takes away once no launch of it is left; KILL of a launch of no gang
frees every context of it, marks it killed and leaves no message of it to arrive, and a waiting launch leaves as
killed; PREEMPT and RESUME give status 1 for an unknown tag or a misaligned area, PREEMPT begins for a running
launch, and ends, the launch pre-empted, when no bind record of it is left, its mailboxes are idle and no steal is
under way; RESUME gives 3 while another launch holds its clusters or wells and, every class masked and the mailboxes
idle, asks every context's restore from its image at area + 320 KiB x (4q + x), as PREEMPT, every class masked, does
for its saves; FW.LOAD stores an image that passes every check of R467 and gives status 1 otherwise; PEER.SET and
REGION.SET write a well-formed entry that is not in use and give 1 for a malformed one and 3 for one in use. In
recovery mode each but FW.LOAD gives status 4. That TAKEN is set to 0 at a registration (log entry 39), RESUME's 3
for wells that another launch holds and PREEMPT's 3 of a launch that does not run (log entry 44) are the model's
choices. (R403, R433, R438, R439, R446, R447, R450, R451, R467, R468) -/
def Obligations.MailboxCommands : Prop :=
  (∀ s : State, cmdReady s →
    (∀ pa x y, s.arg = .num pa x y →
      let w := memWord s pa
      (boardFits s pa → ∀ n, n < 64 → (∀ b, b ∈ s.boards → b.num ≠ n) → (∀ j, j < n → ∃ b, b ∈ s.boards ∧ b.num = j) →
        ∃ t, exec .boardReg s = .next t ∧ t.mailbox = s.mailbox ++ [⟨0xC001, 0, n⟩] ∧
          t.boards = s.boards ++ [⟨n, pa, w.extractLsb' 32 16, bits w 15 0, 0, false⟩] ∧ memWord t (pa + 8) = 0 ∧
          ∃ e, e ∈ t.agenda ∧ e.ev = .launchRecordTake ∧ e.arg = .num n 0 0) ∧
      (boardFits s pa → (∀ j, j < 64 → ∃ b, b ∈ s.boards ∧ b.num = j) →
        exec .boardReg s = .next (answered s 0xC001 2 0)) ∧
      (pa % 256 ≠ 0 → exec .boardReg s = .next (answered s 0xC001 1 0))) ∧
    (∀ n x y, s.arg = .num n x y →
      ((∃ b, b ∈ s.boards ∧ b.num = n ∧ b.leaving = false) → exec .boardUnreg s = .next (answered
        (later { s with boards := s.boards.map fun b => if b.num = n then { b with leaving := true } else b } 1
          .boardRemove (.num n 0 0)) 0xC002 0 0)) ∧
      ((∀ b, b ∈ s.boards → b.num ≠ n) → exec .boardUnreg s = .next (answered s 0xC002 1 0))) ∧
    (∀ tag area y, s.arg = .num tag area y →
      (launchOfTag s tag = none →
        ((∀ l, l ∈ s.launches → l.phase = .waiting → l.ltag.toNat ≠ tag) → exec .kill s = .next (answered s 0xC022 1 0)) ∧
        (∀ l, s.launches.find? (fun l => l.ltag.toNat = tag && l.phase = .waiting) = some l → ∃ t, exec .kill s = .next t ∧
          t.mailbox = s.mailbox ++ [⟨0xC022, 0, 0⟩] ∧ t.launches = s.launches.filter (· ≠ l)) ∧
        exec .preempt s = .next (answered s 0xC020 1 0) ∧ exec .resume s = .next (answered s 0xC021 1 0)) ∧
      (∀ l, launchOfTag s tag = some l →
        (noGangs s → ∃ t, exec .kill s = .next t ∧ t.mailbox = s.mailbox ++ [⟨0xC022, 0, 0⟩] ∧
          (∀ core x, core ∈ l.cores → x < 4 → (getCtx s core x).bound = true → (getCtx s core x).dom = l.dom →
            (getCtx t core x).run = .free) ∧
          (∀ m, m ∈ t.launches → m.dom = l.dom → m.phase ≠ .waiting → m.kill ≠ none) ∧
          ∀ e m st, e ∈ t.agenda → e.ev = .messageArrive → e.arg = .msg m st → m.who.dom ≠ l.dom) ∧
        (area % 65536 ≠ 0 → exec .preempt s = .next (answered s 0xC020 1 0) ∧
          exec .resume s = .next (answered s 0xC021 1 0)) ∧
        (area % 65536 = 0 → l.phase = .running → exec .preempt s =
          .next (sometime { s with cmd := some (.preempt l.dom.toNat area false) } .preempt .none)) ∧
        (area % 65536 = 0 → l.phase ≠ .running → exec .preempt s = .next (answered s 0xC020 3 0)) ∧
        (area % 65536 = 0 → l.phase = .preempted →
          (othersHold s l → exec .resume s = .next (answered s 0xC021 3 0)) ∧
          (¬ othersHold s l → exec .resume s =
            .next (sometime { s with cmd := some (.resume l.dom.toNat area) } .resume .none))))) ∧
    (∀ a x y, s.arg = .num a x y →
      exec .fwLoad s = .next (match loadedImage s a with
        | (some img, t) => answered { t with flash := img, flashBad := false } 0xC0F0 0 0
        | (none, t) => answered t 0xC0F0 1 0) ∧
      (loadedImage s a).2.mem = s.mem ∧ (loadedImage s a).2.mailbox = s.mailbox ∧ (loadedImage s a).2.flash = s.flash ∧
      ∀ img, (loadedImage s a).1 = some img → imageVerifies Config.keyHash s.minSvn img = true ∧
        img = memRead s (0x800000000000 + a) img.length) ∧
    (∀ ep n z e, s.arg = .row ep n z e →
      (ep < 8 → n < 1024 → badPeerEntry e = false →
        (peerUsed s ep n = true → exec .peerSet s = .next (answered s 0xC030 3 0)) ∧
        (peerUsed s ep n = false → exec .peerSet s =
          .next (answered (modDie s ep fun d => { d with peers := tabPut d.peers n e }) 0xC030 0 0))) ∧
      ((8 ≤ ep ∨ 1024 ≤ n ∨ badPeerEntry e = true) → exec .peerSet s = .next (answered s 0xC030 1 0)) ∧
      (ep < 8 → n < 256 → badRegion e = false →
        ((∃ c, c ∈ (getDie s ep).chunks ∧ c.1 = n) → exec .regionSet s = .next (answered s 0xC031 3 0)) ∧
        ((∀ c, c ∈ (getDie s ep).chunks → c.1 ≠ n) → exec .regionSet s =
          .next (answered (modDie s ep fun d => { d with regions := tabPut d.regions n e }) 0xC031 0 0))) ∧
      ((8 ≤ ep ∨ 256 ≤ n ∨ badRegion e = true) → exec .regionSet s = .next (answered s 0xC031 1 0)))) ∧
  (∀ (s : State) (n : Nat), s.arg = .num n 0 0 → (∀ l, l ∈ s.launches → l.board = n → l.phase = .done) →
    exec .boardRemove s = .next { s with boards := s.boards.filter fun b => !(b.num = n && b.leaving) }) ∧
  (∀ (s : State) (d area : Nat) (refused : Bool) (l : Launch), s.arg = .none → s.cmds = [] →
    s.cmd = some (.preempt d area refused) → launchOf s (BitVec.ofNat 12 d) = some l →
    (boundSlots s l = [] → refused = false → quietCores s l → stealsOut s l = false → ∃ t, exec .preempt s = .next t ∧ t.mailbox = s.mailbox ++ [⟨0xC020, 0, 0⟩] ∧ t.cmd = none ∧
      ∀ m, m ∈ t.launches → m.dom = l.dom → m.phase ≠ .waiting → m.phase = .preempted) ∧
    (boundSlots s l ≠ [] → refused = false → (∀ p, p ∈ boundSlots s l → (bindAt s p.1 p.2).act ≠ 3) →
      quietCores s l → ∃ t, exec .preempt s = .next t ∧ (∀ core, core ∈ l.cores → (getCore t core).classMask = 0xFF) ∧
        ∀ core x, (core, x) ∈ boundSlots s l →
          tableAdmits s (dieOf core * 8 + 6) (32 * (4 * (core % 2048) + x)) 2 0 .write = true →
          (bindAt t core x).act = 3 ∧ (bindAt t core x).wmap = 0xD ∧
          (bindAt t core x).lpb = BitVec.ofNat 64 (area + 0x50000 * (4 * l.cores.idxOf core + x)) ∧
          ∃ e, e ∈ t.agenda ∧ e.ev = .preemptSave ∧ e.arg = .num core x 0 ∧ e.at_ = now s + 1)) ∧
  (∀ (s : State) (d area : Nat), s.arg = .none → s.cmds = [] → s.cmd = some (.resume d area) →
    ∀ l, launchOf s (BitVec.ofNat 12 d) = some l →
      (l.phase = .preempted → ¬ othersHold s l → quietCores s l →
        ∃ t, exec .resume s = .next t ∧ t.cmd = some (.resume d area) ∧ t.mailbox = s.mailbox ∧
          (∀ core, core ∈ l.cores → (getCore t core).classMask = 0xFF) ∧
          ∀ core x, core ∈ l.cores → x < 4 →
            tableAdmits s (dieOf core * 8 + 6) (32 * (4 * (core % 2048) + x)) 2 0 .write = true →
            let b := bindAt t core x
            b.v = true ∧ b.act = 3 ∧ b.wmap = 0xE ∧ b.ltag = l.ltag ∧
            b.lpb = BitVec.ofNat 64 (area + 0x50000 * (4 * l.cores.idxOf core + x)) ∧
            ∃ e, e ∈ t.agenda ∧ e.ev = .preemptRestore ∧ e.arg = .num core x 0 ∧ e.at_ = now s + 1) ∧
      (l.phase ≠ .preempted →
        (∀ core x, core ∈ l.cores → x < 4 → (bindAt s core x).v = true ∧ (bindAt s core x).act ≠ 3) →
        ∃ t, exec .resume s = .next t ∧ t.mailbox = s.mailbox ++ [⟨0xC021, 0, 0⟩] ∧ t.cmd = none)) ∧
  (∀ (s : State) i op, (i, op) ∈ [(Instr.boardReg, 0xC001), (.boardUnreg, 0xC002), (.kill, 0xC022), (.peerSet, 0xC030),
      (.regionSet, 0xC031), (.asroot, 0xC010), (.inval, 0xC011), (.preempt, 0xC020), (.resume, 0xC021)] → s.arg ≠ .none →
    s.link ≠ 0 → s.cmd = none → s.cmds = [] → s.cmdGo = false → s.recovery = true →
    exec i s = .next (answered s op 4 0))

namespace Sys2Proof.Claims

/-- The words of a launch record fit R405. -/
def recordFits (w : Nat → W64) : Prop :=
  (w 1).extractLsb' 0 32 ≠ 0 ∧ bits (w 2) 63 31 = 0 ∧ (w 2).getLsbD 27 = false ∧ bits (w 2) 15 14 ≠ 3 ∧ bits (w 2) 13 12 = 0 ∧
  1 ≤ bits (w 2) 11 0 ∧ bits (w 2) 11 0 ≤ 2048 ∧ (w 3).getLsbD 31 = false ∧ bits (w 3) 30 16 ≤ 16384 ∧ bits (w 3) 15 0 = 0 ∧
  bits (w 5) 63 16 = 0 ∧ bits (w 5) 14 11 = 0 ∧ (w 6).toNat % 64 = 0 ∧
  ((List.range 8).map fun c => bits (w 7) (8 * c + 7) (8 * c)).sum ≤ 64 ∧ (w 8).getLsbD 0 = false ∧ (w 16).toNat % 64 = 0 ∧
  bits (w 17) 63 16 = 0 ∧ ∀ i, 19 ≤ i → i < 32 → w i = 0
/-- The place a completion record goes to (R405): CREC translates in the board's space to a writable raw page that admits the
management core's writes. -/
def crecAt (s : State) (asid : BitVec 16) (crec : W64) (pa : Nat) : Prop :=
  let va : VA := crec.setWidth 56
  crec ≠ 0 ∧ crec.toNat % 64 = 0 ∧ bits crec 63 56 = 0 ∧ windowOf va = none ∧ ∃ lf, walk s asid va = .leaf lf ∧
    leafW lf.entry = true ∧ leafFmt lf.entry = 0 ∧ pa = leafPa lf va ∧ served s pa = true ∧ admits s 2 0 .write pa 0 = true
/-- The placement and the wells of a record can be met (R406). -/
def placeable (s : State) (w : Nat → W64) : Prop :=
  let n := bits (w 2) 11 0
  let good := goodClusters s
  bits (w 3) 30 16 ≤ ((List.range 16384).filter fun k => !wellFenced s k).length ∧
  (bits (w 2) 15 14 = 0 → n ≤ good.length) ∧
  (bits (w 2) 15 14 = 1 → ∃ d, d < 8 ∧ n ≤ (good.filter fun c => dieOfCluster c = d).length) ∧
  (bits (w 2) 15 14 = 2 → bits (w 2) 26 16 + n ≤ 2048 ∧ ∀ i, i < n → clusterFenced s (bits (w 2) 26 16 + i) = false)
/-- The management core may write the bind record of a context (R410, R427). -/
def slotOpen (s : State) (core x : Nat) : Prop :=
  tableAdmits s (dieOf core * 8 + 6) (32 * (4 * (core % 2048) + x)) 2 0 .write = true
/-- An event stands on the agenda with its operands. -/
def due (t : State) (ev : Instr) (arg : EvArg) : Prop := ∃ e, e ∈ t.agenda ∧ e.ev = ev ∧ e.arg = arg

end Sys2Proof.Claims

/-- A record present on a registered board, every access table locked and the board open to the management core,
whose lines can be read and which fits R405, its completion record's place found, and no further record after it:
with its channel-geometry version current and its placement and wells possible, TAKEN rises and a waiting launch
with the record's 32 words joins the last; with another version nothing starts and its completion record has status
3. A board without the next record stays as it is. The head that is bound, once no head asks for more than there is
and the mailboxes of its cores are idle, is the first waiting launch of its board, to as many unfenced clusters as
it asks for and as many different unfenced wells, none of them held by another launch, and every hardware context's
bind record then carries its launch, every class of its cores masked; once every context is bound, the record of the
first cluster's core 0, context 0 has ACT 1. A record with V = 1 and ACT 0 for another launch resets its context,
with the instance tag moved on past those in the directory, and its core takes the launch's values, keeping its
banks' bytes only for the successor tag it retains for; for its own launch the context looks for work; with ACT 1
the free context runs the entry strand from 6 cycles on and the launch starts, unless it is killed: then it goes on
to its completion. That a stale version gives status 3 though a later status applies, that TAKEN is written as a
record is taken, and that no head is bound while a launch is done and not gone are the model's choices (log entry
39), as is the class mask of 0 that a rebound core has (log entry 40). (R209, R403, R404, R405, R406, R407, R408,
R409, R410, R411, R436, R439) -/
def Obligations.LaunchesAreTakenAndBound : Prop :=
  (∀ (s : State) (n : Nat) (b : Board), s.arg = .num n 0 0 → s.boards.find? (·.num = n) = some b →
    let slot := b.addr + 256 * (1 + (b.taken + 1) % b.nslot)
    let next := b.addr + 256 * (1 + (b.taken + 2) % b.nslot)
    let bound := fun pa : Nat => pa + 64 ≤ next ∨ next + 8 ≤ pa
    let w := fun i => memWord s (slot + 8 * i)
    let u := memPut s (b.addr + 8) (toBytes 8 (b.taken + 1))
    (w 0 ≠ BitVec.ofNat 64 (b.taken + 1) → b.leaving = false → ∃ t, exec .launchRecordTake s = .next t ∧ t.launches = s.launches ∧
      t.boards = s.boards ∧ t.mem = s.mem ∧ due t .launchRecordTake (.num n 0 0)) ∧
    (mayTake s b = true → w 0 = BitVec.ofNat 64 (b.taken + 1) → 0 < b.nslot → (∀ i, i < 4 → badAt s (slot + 64 * i) = false) →
      recordFits w → memWord u next ≠ BitVec.ofNat 64 (b.taken + 2) → ∀ pa, crecAt u b.asid (w 4) pa → bound pa →
      ((w 3).extractLsb' 32 32 = s.geo → placeable s w → ∃ t l, exec .launchRecordTake s = .next t ∧
        t.launches = s.launches ++ [l] ∧ l.board = n ∧ l.asid = b.asid ∧ l.phase = .waiting ∧ l.kill = none ∧
        (∀ i, i < 32 → l.words.getD i 0 = w i) ∧ memWord t (b.addr + 8) = w 0 ∧
        t.boards.find? (·.num = n) = some { b with taken := b.taken + 1 } ∧ due t .launchBind (.num 0 0 0)) ∧
      ((w 3).extractLsb' 32 32 ≠ s.geo → ∃ t, exec .launchRecordTake s = .next t ∧ t.launches = s.launches ∧
        memWord t pa = (w 1 <<< 32) + 3 ∧ memWord t (pa + 8) = w 0 ∧
        t.boards.find? (·.num = n) = some { b with taken := b.taken + 1 }))) ∧
  (∀ (s : State) (b : Board), nextSlot b = b.addr + 256 * (1 + (b.taken + 1) % b.nslot) ∧ (mayTake s b = true ↔
    (∀ d, d < 8 → ∀ k, k < 8 → isTarget (8 * d + k) = true → (8 * d + k) ∈ s.locked) ∧ b.leaving = false ∧
    s.recovery = false ∧ served s (nextSlot b) = true ∧ admits s 2 0 .read (nextSlot b) 0 = true ∧
    admits s 2 0 .write (b.addr + 8) 0 = true)) ∧
  (∀ s l cls ws, nextHead s = some (l, cls, ws) →
    l ∈ s.launches ∧ l.phase = .waiting ∧ cls.length = l.clcount ∧ ws.length = l.nwell ∧ ws.Nodup ∧
    (∀ c, c ∈ cls → clusterFenced s c = false ∧ ∀ o, o ∈ s.launches → o.holds = true → c ∉ o.clusters) ∧
    (∀ w, w ∈ ws → w < 16384 ∧ wellFenced s w = false ∧ ∀ o, o ∈ s.launches → o.holds = true → w ∉ o.wells) ∧
    (s.arg = .num 0 0 0 → s.recovery = false → (∀ d, d ∈ s.dies → d.2.fencedCh = 0) →
      (∀ o, o ∈ s.launches → o.phase ≠ .done) →
      (∀ n h, n < 64 → boardHead s n = some h → (∃ pa, crecAt s h.asid h.crec pa) ∧ recordStatus s h true = 0) →
      (∀ core, clusterOf core ∈ cls → mailIdle s core = true) → ∃ t m, exec .launchBind s = .next t ∧ m ∈ t.launches ∧ m.words = l.words ∧
        m.board = l.board ∧ (∀ core, core ∈ m.cores → (getCore t core).classMask = 0xFF) ∧ m.phase = .bound ∧ m.clusters = cls ∧ m.wells = ws ∧ due t .launchBind (.num (m.dom.toNat + 1) 0 0) ∧
        ∀ core x, core ∈ m.cores → x < 4 → slotOpen s core x → bindAt t core x = ⟨true, 0, l.prio, m.dom, l.asid, l.ltag,
          BitVec.ofNat 11 (cls.idxOf (clusterOf core)), BitVec.ofNat 12 l.clcount, l.lpb, l.wmap⟩ ∧
          due t .bindRecordRebind (.num core x 0))) ∧
  (∀ (s : State) (k : Nat) (l : Launch), s.arg = .num (k + 1) 0 0 → launchOf s (BitVec.ofNat 12 k) = some l → l.phase = .bound →
    let core := l.clusters.headD 0 * 8
    (l.kill ≠ none → ∃ t, exec .launchBind s = .next t ∧ t.slotTab = s.slotTab ∧ due t .launchComplete (.num l.dom.toNat 0 0)) ∧
    (l.kill = none → (∀ core x, core ∈ l.cores → x < 4 → ((getCtx s core x).bound = true ∧ (getCtx s core x).dom = l.dom) ∨
      clusterFenced s (clusterOf core) = true) → slotOpen s core 0 → ∃ t, exec .launchBind s = .next t ∧ (bindAt t core 0).v = true ∧ (bindAt t core 0).act = 1 ∧
      (bindAt t core 0).dom = l.dom ∧ due t .bindRecordEntry (.num core 0 0))) ∧
  (∀ (s : State) (core x : Nat), s.arg = .num core x 0 → core < 16384 → x < 4 →
    let b := bindAt s core x
    let c := getCtx s core x
    let k := getCore s core
    (b.v = false → exec .bindRecordRebind s = .next s ∧ exec .bindRecordRun s = .next s ∧ exec .bindRecordEntry s = .next s) ∧
    (b.v = true → b.act = 0 → (c.bound = false ∨ c.ltag ≠ b.ltag) → clusterFenced s (clusterOf core) = false →
      (getDie s (dieOf core)).dir.length ≤ 16384 →
      ∃ t i, exec .bindRecordRebind s = .next t ∧
        (∀ e, e ∈ (getDie s (dieOf core)).dir → e.core = core → e.ctx = x → e.inst ≠ i) ∧
        ((∀ e, e ∈ (getDie s (dieOf core)).dir → e.core = core → e.ctx = x → e.inst ≠ c.inst + 1) → i = c.inst + 1) ∧
        getCtx t core x = { Ctx.reset with
        bound := true, inst := i, dom := b.dom, clcount := b.clcount, rank := b.rank, ltag := b.ltag,
        asid := b.asid, prio := b.prio, lpb := b.lpb, wmap := b.wmap } ∧ due t .contextDispatch (.num core 0 0) ∧
      ∀ l, launchOf s b.dom = some l → l.kept = [] →
        ((getCtx s core 4).dom ≠ b.dom ∨ ((l.phase = .preempted ∨ clusterOf core ∉ l.clusters) ∧
          ∀ e, e ∈ (getDie s (dieOf core)).dir → e.core = core → e.ctxt.dom ≠ b.dom)) →
        (∀ y, y < 4 → (getCtx s core y).bound = true → (getCtx s core y).dom ≠ b.dom) →
        let n := getCore t core
        n.retain = none ∧ n.lfsr.toNat = 0x8000 + core ∧ n.mbcap = l.word 7 ∧ n.htab = l.word 6 ∧ n.ovfl = l.word 16 ∧
        n.ovn = (l.word 17).setWidth 16 ∧ n.ltag = b.ltag ∧ n.deque = ⟨0, 0, 0, 0, false, [], none, none, 0⟩ ∧
        n.classMask = 0 ∧
        (if l.succ ≠ 0 ∧ k.retain = some l.succ then n.a = k.a ∧ n.c = k.c ∧ n.s = k.s
          else n.a = [] ∧ n.c = [] ∧ n.s = [])) ∧
    (b.v = true → b.act = 0 → c.bound = true → c.ltag = b.ltag → exec .bindRecordRun s =
      .next (later s 0 .contextDispatch (.num core 0 0))) ∧
    (∀ l, b.v = true → b.act = 1 → c.run = .free → launchOf s b.dom = some l → clusterFenced s (clusterOf core) = false →
      l.kill = none → (l.word 8).getLsbD 0 = false → ∃ t, exec .bindRecordEntry s = .next t ∧ (bindAt t core x).act = 0 ∧
        due t .launchComplete (.num b.dom.toNat 0 0) ∧
        (∀ m, m ∈ t.launches → m.dom = b.dom → m.phase ≠ .waiting → m.phase = .running ∧ m.start = now s) ∧
        let e := getCtx t core x
        e.run = .running ∧ e.pc = (l.word 8).setWidth 56 ∧ e.prio = b.prio ∧ e.nextIssue = after s core 6 ∧ e.dom = b.dom ∧
        e.ltag = b.ltag ∧ e.asid = b.asid ∧
        ∀ i : BitVec 5, gOf e i = if 1 ≤ i.toNat ∧ i.toNat ≤ 6 then l.word (8 + i.toNat) else 0) ∧
    (∀ l, b.v = true → b.act = 1 → c.run = .free → launchOf s b.dom = some l → l.kill ≠ none →
      ∃ t, exec .bindRecordEntry s = .next t ∧ getCtx t core x = c ∧ due t .launchComplete (.num b.dom.toNat 0 0)))

/-- A running launch without work left is finishing: no ring slot of its domain stays boarded, its clusters'
combining buffers are empty, and it is looked at again in the next cycle; one with work left is looked at later. A
finishing launch whose reductions are applied and whose caches hold nothing dirty has every cache of its clusters
empty, ACT 2 in every bind record of it that may be written, and in memory, where CREC leads, its completion record:
its tag with status 0, or 1 when a context was killed, its sequence number, its start and the cycle; with MSIEN its
vector is sent then. ACT 2 asks the free context's slot to be cleared in this cycle, and clearing it sets V to 0 and
leaves the context bound to nothing; a launch that is done leaves once every bind record of it is clear. (R304,
R306, R330, R375, R409, R410, R411, R413, R414) -/
def Obligations.LaunchesCompleteAndLeave : Prop :=
  (∀ (s : State) (d : Nat) (l : Launch), s.arg = .num d 0 0 → launchOf s (BitVec.ofNat 12 d) = some l →
    (l.phase = .running → launchIdle s l = true → ∃ t, exec .launchComplete s = .next t ∧
      (∀ m, m ∈ t.launches → m.dom = l.dom → m.phase ≠ .waiting → m.phase = .finishing) ∧
      (∀ n w, (tabGet RingSlot.reset t.ring n).tag ≠ 0 → (tabGet RingSlot.reset t.ring n).who = some w → w.dom ≠ l.dom) ∧
      (∀ cl, cl ∈ l.clusters → (getCluster t cl).comb = []) ∧
      ∃ e, e ∈ t.agenda ∧ e.ev = .launchComplete ∧ e.arg = .num d 0 0 ∧ e.at_ = now s + 1) ∧
    (l.phase = .running → launchIdle s l = false → exec .launchComplete s = .next (sometime s .launchComplete (.num d 0 0))) ∧
    (l.phase = .finishing → reductionsLeft s l = false →
      (∀ cl q, cl ∈ l.clusters → q ∈ (getCluster s cl).cache → q.dirty = 0) → ∀ pa, crecAt s l.asid l.crec pa →
      ∃ t, exec .launchComplete s = .next t ∧ (∀ cl, cl ∈ l.clusters → (getCluster t cl).cache = []) ∧
        memWord t pa = (l.word 1 <<< 32) + (if l.kill = none then 0 else 1) ∧ memWord t (pa + 8) = l.word 0 ∧
        memWord t (pa + 16) = BitVec.ofNat 64 l.start ∧ memWord t (pa + 24) = s.cyc ∧
        (∀ m, m ∈ t.launches → m.dom = l.dom → m.phase ≠ .waiting → m.phase = .done) ∧
        ((l.word 5).getLsbD 15 = true → ∃ e, e ∈ t.agenda ∧ e.ev = .msixSend ∧ e.arg = .num (bits (l.word 5) 10 0) 0 0 ∧
          e.at_ = now s + 1) ∧
        ∀ core x, core ∈ l.cores → x < 4 → (bindAt s core x).v = true → (bindAt s core x).dom = l.dom → slotOpen s core x →
          bindAt t core x = { bindAt s core x with act := 2 } ∧ due t .bindRecordUnbind (.num core x 0))) ∧
  (∀ (s : State) (v : Nat), s.arg = .num v 0 0 → exec .msixSend s = .next { s with msix := s.msix ++ [BitVec.ofNat 11 v] }) ∧
  (∀ (s : State) (core x : Nat), s.arg = .num core x 0 → core < 16384 → x < 4 →
    let b := bindAt s core x
    (b.v = true → b.act = 2 → (getCtx s core x).run = .free →
      (∃ t, exec .bindRecordUnbind s = .next t ∧ t.slotTab = s.slotTab ∧
        ∃ e, e ∈ t.agenda ∧ e.ev = .unbindValidClear ∧ e.arg = .num core x 0 ∧ e.at_ = now s) ∧
      ∃ t, exec .unbindValidClear s = .next t ∧ (bindAt t core x).v = false ∧ (getCtx t core x).bound = false ∧
        (∀ i y, (i ≠ core ∨ y ≠ x) → y < 4 → bindAt t i y = bindAt s i y) ∧
        (∀ m, m ∈ t.launches ↔ m ∈ s.launches ∧ (m.phase = .done →
          ∃ i y, i ∈ m.cores ∧ y < 4 ∧ (bindAt t i y).v = true ∧ (bindAt t i y).dom = m.dom))) ∧
    ((b.v = false ∨ b.act ≠ 2 ∨ (getCtx s core x).run ≠ .free) → exec .unbindValidClear s = .next s))

namespace Sys2Proof.Claims

/-- A bind record after its operation: words 2 and 3 are the values latched before, and ACT is 0 (R433). -/
def operated (s : State) (core x : Nat) (b : BindRec) : Prop :=
  bindAt s core x = { b with act := 0 }
/-- What a bind record has after an operation on an image that may be used: V as given, and the words latched by the context that
is bound, else those held in the image (R433). -/
def operatedOn (s t : State) (core x : Nat) (v : Bool) : Prop :=
  let b := bindAt s core x
  let c := getCtx s core x
  operated t core x { b with
    v := v
    lpb := if c.bound = true then c.lpb else memWord s (b.lpb.toNat + 16)
    wmap := if c.bound = true then c.wmap else memWord s (b.lpb.toNat + 24) }
/-- A cycle of the core's clock in which the C port is free, so that parked registers may move (R8, R333). -/
def movesNow (s : State) (core : Nat) : Prop := onEdge s core = true ∧ portBusy (getCore s core) spC (now s) = false
/-- Parking is over: the registers go to the image, or have moved in the cycles that `k` counts (R332, R333). -/
def parkReady (s : State) (core x k : Nat) : Prop :=
  parkPlace s core x = none ∨ 10 < k ∨ (k = 10 ∧ movesNow s core ∧ ∃ cols, parkPlace s core x = some (some cols))
/-- An image's header bit of word 1 (R432). -/
def header (s : State) (image i : Nat) : Bool := (memWord s (image + 8)).getLsbD i
/-- The words of a context that an image holds at their places (R431): g1 to g31 unless they are parked, the control words,
and the header's launch values. -/
def imageHolds (s : State) (image : Nat) (c : Ctx) (core x : Nat) (parked : Bool) : Prop :=
  let w := fun o => memWord s (image + o)
  (w 0).extractLsb' 0 32 = c.ltag ∧ bits (w 0) 63 48 = 1 ∧ bits (w 8) 55 53 = x ∧ bits (w 8) 52 39 = core ∧
  (w 8).extractLsb' 23 16 = c.inst ∧ w 16 = c.lpb ∧ w 24 = c.wmap ∧ header s image 57 = c.trapMode ∧ header s image 56 = parked ∧
  (w 0x9C0 = c.pc.setWidth 64 ∧ w 0x9C8 = c.fpstat.setWidth 64 ∧ w 0x9D0 = c.mxstat.setWidth 64 ∧
    w 0x9D8 = c.qstat.setWidth 64 ∧ w 0x9E0 = c.rstat.setWidth 64 ∧ w 0x9E8 = c.prio.setWidth 64 ∧
    w 0x9F0 = c.trapCause.setWidth 64 ∧ w 0x9F8 = c.trapPc.setWidth 64 ∧ w 0xA00 = c.trapVal ∧
    w 0xA08 = BitVec.ofNat 64 (c.trapVec.toNat * 2)) ∧
  (parked = false → ∀ i : BitVec 5, (i ≠ 0 → w (0x40 + 8 * i.toNat) = gOf c i) ∧
    memRead s (image + 0x140 + 64 * i.toNat) 64 = vecBytes (vOf c i))
/-- The first kill of the launch of a domain is noted (R414). -/
def killNoted (s t : State) (dom : BitVec 12) (k : BitVec 8 × Nat × Nat × W64) : Prop :=
  ∀ m, m ∈ s.launches → m.dom = dom → m.kill = none → m.phase ≠ .waiting → m.phase ≠ .done →
    ∃ n, n ∈ t.launches ∧ n.words = m.words ∧ n.kill = some k

end Sys2Proof.Claims

/-- For a hardware context of no gang whose bind record has V = 1 and ACT 3 and no error: what the context waits in
is abandoned first (R434), unless its matrix work still holds it; a save into an image that may hold it, with room
in the directory, its buffers still where LOCAL asks for them, and its registers parked where they may be (12 cycles
to a free bank, 10 of the core's clock in which the C port is free to columns of C; which places they take is the
model's choice, log 56), writes the header with DONE, the control words, the registers unless they are parked, and
with LOCAL the bytes of A and S; the directory names it, V is 0 and the slot's context is reset with its instance
tag; a save with LOCAL whose buffers are not still is tried again in the next cycle; one that finds the directory
full leaves the context running with V = 1, ERR set and DONE 0. An operation 0 or with a reserved bit changes
nothing but ERR and the record. A restore of an image that is whole, of this slot and launch, gives the context its
registers, control words and instance, takes the image out of the directory and, with LOCAL, gives A its bytes back;
bit 0 of the image's PC is dropped (the model's choice, log 86); one without DONE, or killed, or with no directory
entry (the model's choice, log 34) leaves V = 0 and ERR set; a record's words 2 and 3 are those of the context that
is bound, else those in the image. A kill of a resident context frees it with its instance moved on to the next that
no saved context of the slot has (log 57); a kill of an image marks it KILLED and takes it out of the directory;
either is noted with cause 0x0F in the launch. After each the record has ACT 0. (R332, R333, R371, R414, R431, R432,
R433, R434, R436, R437, R438) -/
def Obligations.ContextsAreSavedRestoredKilled : Prop :=
  ∀ (s : State) (core x p : Nat), s.arg = .num core x p → core < 16384 → x < 4 →
    let b := bindAt s core x
    let c := getCtx s core x
    let k := getCore s core
    let image := b.lpb.toNat
    let dir := fun (u : State) => (getDie u (dieOf core)).dir
    let op := bits b.wmap 1 0
    let clean := bits b.wmap 63 4 = 0
    let u := abandon s core x
    let still := b.wmap.getLsbD 2 = true → buffersStill u core = true
    b.v = true → b.act = 3 → recIndex core x ∉ (getDie s (dieOf core)).dispBad → c.gangSize = 0 → c.run ≠ .follower →
    (op = 1 → clean → c.bound = true →
      (c.leaving = true → exec .preemptSave s = .next (later s 1 .preemptSave (.num core x 0))) ∧
      (c.leaving = false → ¬ still → exec .preemptSave s = .next (later u 1 .preemptSave (.num core x 0))) ∧
      (c.leaving = false → still →
        (parkPlace u core x = some none → p = 0 →
          exec .preemptSave s = .next (later u (after s core 12 - now s) .preemptSave (.num core x 100))) ∧
        (∀ cols, parkPlace u core x = some (some cols) → p < 10 →
          (¬ movesNow s core → exec .preemptSave s = .next (later u 1 .preemptSave (.num core x (max 1 p)))) ∧
          (movesNow s core → exec .preemptSave s =
            .next (later (modCore u core (usePort · spC (now s))) 1 .preemptSave (.num core x (max 1 p + 1)))))) ∧
      (c.leaving = false → still → imageOk s core image = true →
        parkReady u core x p →
        ((dir s).length < 16384 → ∃ t e, exec .preemptSave s = .next t ∧ e ∈ dir t ∧ e.core = core ∧ e.ctx = x ∧
          e.inst = c.inst ∧ e.image = image ∧ e.ctxt.h = c.h ∧ e.ctxt.cc = c.cc ∧ e.ctxt.held = c.held ∧
          imageHolds t image (notePart (getCtx u core x)) core x e.parked ∧
          e.parked = (parkPlace u core x).isSome ∧ header t image 63 = true ∧ header t image 62 = false ∧
          header t image 61 = false ∧ header t image 60 = b.wmap.getLsbD 2 ∧ header t image 59 = b.wmap.getLsbD 3 ∧
          (b.wmap.getLsbD 2 = true → (∀ i, i < 65536 → byteGet t.mem (image + 0x10000 + i) = byteGet k.a i) ∧
            ∀ i, i < 32768 → byteGet t.mem (image + 0x28000 + i) = byteGet k.s i) ∧
          getCtx t core x = { Ctx.reset with inst := c.inst } ∧
          operated t core x { b with v := false, lpb := c.lpb, wmap := c.wmap }) ∧
        ((dir s).length = 16384 → ∃ t, exec .preemptSave s = .next t ∧ getCtx t core x = getCtx u core x ∧ dir t = dir s ∧
          header t image 61 = true ∧ header t image 63 = false ∧
          operated t core x { b with lpb := c.lpb, wmap := c.wmap }))) ∧
    ((op = 0 ∨ ¬ clean) → imageOk s core image = true → ∀ i, i ∈ [Instr.preemptSave, .preemptRestore, .preemptKill] →
      ∃ t, exec i s = .next t ∧ t.cores = s.cores ∧ dir t = dir s ∧ header t image 61 = true ∧
        operatedOn s t core x true) ∧
    (op = 2 → clean → ∀ e, (dir s).find? (fun e => e.image = image) = some e → e.image = image →
      (header s image 63 = false ∨ header s image 62 = true → imageOk s core image = true →
        ∃ t, exec .preemptRestore s = .next t ∧ header t image 61 = true ∧ operatedOn s t core x false ∧ t.cores = s.cores) ∧
      (restoreRefused s core x b e = false → e.parked = true → parkedCols s e = none → p = 0 →
        (stillBound s core b.dom = true ∨ inDomain s core b.dom = true) → exec .preemptRestore s =
          .next (later s (after s core 12 - now s) .preemptRestore (.num core x 100))) ∧
      (header s image 63 = true → header s image 62 = false → e.core = core → e.ctx = x → e.inst = (memWord s (image + 8)).extractLsb' 23 16 →
        imageHolds s image { e.ctxt with ltag := b.ltag, inst := e.inst } core x e.parked →
        (∀ o, o ∈ dir s → o.core = core → o.ctxt.ltag = e.ctxt.ltag → o.barm = true → o.image = image) →
        (stillBound s core b.dom = true ∨ inDomain s core b.dom = true ∨
          (e.parked = false ∧ k.parked = [] ∧ ∀ o, o ∈ dir s → o.core = core → o.ctxt.dom ≠ (getCtx s core 4).dom)) →
        (e.parked = false ∨ 10 < p ∨ (p = 10 ∧ (∃ cols, parkedCols s e = some cols) ∧ movesNow s core)) →
        k.badC = [] → (∀ i, i < 59 → badAt s (image + 64 * i) = false) → (∀ p, p ∈ e.ctxt.pending → p.1 ≠ 0x08) →
        ∃ t, exec .preemptRestore s = .next t ∧ (∀ o, o ∈ dir t → ¬ (o.image = image ∧ o.inst = e.inst)) ∧
          operated t core x { b with v := true, lpb := memWord s (image + 16), wmap := memWord s (image + 24) } ∧
          due t .contextDispatch (.num core 0 0) ∧
          (e.held = true → ∀ i, i < 65536 → byteGet (getCore t core).a i = byteGet s.mem (image + 0x10000 + i)) ∧
          (e.parked = true → (getCtx t core x).nextIssue = now s) ∧
          let r := getCtx t core x
          r.bound = true ∧ r.run = e.ctxt.run ∧ r.inst = e.inst ∧ r.ltag = b.ltag ∧ r.dom = b.dom ∧ r.asid = b.asid ∧
          r.pc = e.ctxt.pc &&& ~~~ 1 ∧ r.trapMode = header s image 57 ∧ r.trapPc = e.ctxt.trapPc ∧ r.prio = e.ctxt.prio ∧
          ∀ i : BitVec 5, (i ≠ 0 → gOf r i = gOf e.ctxt i) ∧ vOf r i = vOf e.ctxt i)) ∧
    (op = 2 → clean → (dir s).find? (fun e => e.image = image) = none → imageOk s core image = true →
      ∃ t, exec .preemptRestore s = .next t ∧ header t image 61 = true ∧ operatedOn s t core x false ∧ t.cores = s.cores) ∧
    (op = 3 → clean →
      ((dir s).find? (fun e => e.image = image) = none → c.bound = true →
        ∃ t, exec .preemptKill s = .next t ∧ (getCtx t core x).run = .free ∧ (getCtx t core x).inst = nextInst s core x c.inst ∧
          (getCtx t core x).held = [] ∧ killNoted s t c.dom (0x0F, core, x, c.joinPtr) ∧
          operated t core x { b with v := true, lpb := c.lpb, wmap := c.wmap }) ∧
      (∀ e, dir s = [e] → e.image = image → e.core = core → e.ctxt.held = [] →
        imageOk s core image = true → (∀ r, r ∈ s.ring → r.2.tag = 0) → ∃ t, exec .preemptKill s = .next t ∧
          dir t = [] ∧ header t image 62 = true ∧ header t image 63 = true ∧
          killNoted s t e.ctxt.dom (0x0F, core, e.ctx, e.ctxt.joinPtr) ∧
          operated t core x { b with
            v := c.bound
            lpb := if c.bound = true then c.lpb else e.ctxt.lpb
            wmap := if c.bound = true then c.wmap else e.ctxt.wmap }))

namespace Sys2Proof.Claims

/-- The Ethernet engine of a die reaches byte `addr` of an address space at physical address `pa`: translated, writable unless
it reads, raw, served and admitted in class 4 (R428, R453, R455). -/
def reaches (s : State) (die : Nat) (asid : BitVec 16) (addr : Nat) (p : Perm) (pa : Nat) : Prop :=
  let va : VA := BitVec.ofNat 56 addr
  windowOf va = none ∧ ∃ l, walk s asid va = .leaf l ∧ (p = .read ∨ leafW l.entry = true) ∧ leafFmt l.entry = 0 ∧
    pa = leafPa l va ∧ served s pa = true ∧ admits s 4 asid.toNat p pa die = true
/-- A packet at an endpoint that is up matches a valid receive region there, and its bytes lie in one page of 64 KiB, at `pa`
(R451). -/
def matchesRegion (s : State) (p : Packet) (e : BitVec 256) (perm : Perm) (pa : Nat) : Prop :=
  p.ep < 8 ∧ endpointUp s p.ep = true ∧ tabGet 0 (getDie s p.ep).regions p.region.toNat = e ∧ regionValid e = true ∧
  regionJob e = p.job ∧ regionAsid e = p.asid ∧ 0 < p.count ∧ p.count ≤ 4096 ∧ p.offset + p.count ≤ regionLen e ∧
  (regionBase e + p.offset) % 65536 + p.count ≤ 65536 ∧ reaches s p.ep (regionAsid e) (regionBase e + p.offset) perm pa
/-- A packet was sent for the bytes that another carries or answers. -/
def sameSent (p r : Packet) : Prop :=
  r.cluster = p.cluster ∧ r.jobId = p.jobId ∧ r.piece ≤ p.piece ∧ p.piece < r.piece + max 1 r.count
/-- An address is in one of some ranges. -/
def covered (rs : List (Nat × Nat)) (x : Nat) : Prop := ∃ r, r ∈ rs ∧ r.1 ≤ x ∧ x < r.1 + r.2
/-- No two of some ranges overlap or meet. -/
def apart (rs : List (Nat × Nat)) : Prop := rs.Pairwise fun a b => a.1 + a.2 < b.1 ∨ b.1 + b.2 < a.1
/-- The ranges of a chunk that are placed already (R453). -/
def placed (s : State) (ep region chunk : Nat) : List (Nat × Nat) :=
  (((getDie s ep).chunks.find? fun c => c.1 = region && c.2.1 = chunk).map (·.2.2)).getD []

end Sys2Proof.Claims

/-- PACKET_RECEIVE and PEER_READ_REQUEST complete for every packet of one of the eight endpoints, and
ENDPOINT_LINK_DOWN and ENDPOINT_LINK_UP for every die: each answers a next state. A packet that matches a region of
an endpoint that is up, within one page and one chunk: its bytes stand in memory at the region's base plus its
offset, an acknowledgement is sent, and, while the chunk lacks bytes, no other byte of memory changes; when the
chunk's distinct placed bytes reach its size, its flag is one more than before and the chunk's count starts again.
One that the endpoint has placed before (by JOB, sender and number: the model's choice, log 48) is acknowledged and
places and counts nothing. The placed ranges with one more cover what they covered and its bytes, and stay apart. A
read request within one page without an error is answered with the bytes of memory and changes no memory, no core
and no record. A packet whose job or offset fits no valid region is refused and reported with FUNC 4; at a fenced
endpoint none is taken. A link that goes down has the endpoint's fence due 2^32 cycles later; one that comes up
again takes that fence off the agenda. (R428, R448, R451, R453, R454, R455, R456, R462) -/
def Obligations.PacketsAtAnEndpoint : Prop :=
  (∀ (s : State) (p : Packet) (z : Bool), s.arg = .packet p z → p.ep < 8 →
    (∃ t, exec .packetReceive s = .next t) ∧ ∃ t, exec .peerReadRequest s = .next t) ∧
  (∀ (s : State) (die : Nat), s.arg = .num die 0 0 → die < 8 →
    (∃ t, exec .endpointLinkDown s = .next t ∧ (getDie t die).linkUp = false) ∧
    ∃ t, exec .endpointLinkUp s = .next t ∧ (getDie t die).linkUp = true) ∧
  (∀ (s : State) (p : Packet) (z : Bool) (e : BitVec 256) (pa : Nat), s.arg = .packet p z →
    let chunk := p.offset / chunkSize e
    let bytes := p.data.take p.count
    let new := addRange (placed s p.ep p.region.toNat chunk) p.offset p.count
    let ack := fun (t : State) => t.sent = s.sent ++ [{ p with kind := .ack false, data := [] }]
    matchesRegion s p e .write pa → p.ident ∉ (getDie s p.ep).heard → p.data.length = p.count → p.offset % chunkSize e + p.count ≤ chunkSize e →
    ((new.map (·.2)).sum ≠ chunkSize e → ∃ t, exec .packetReceive s = .next t ∧ ack t ∧ memRead t pa p.count = bytes ∧
      placed t p.ep p.region.toNat chunk = new ∧ ∀ a, (a < pa ∨ pa + p.count ≤ a) → byteGet t.mem a = byteGet s.mem a) ∧
    ((new.map (·.2)).sum = chunkSize e → ∀ f, reaches (memPut s pa bytes) p.ep (regionAsid e) (regionFlags e + 8 * chunk) .sync f →
      (homeDie f).isSome = true → badAt (memPut s pa bytes) f = false → (f + 8 ≤ pa ∨ pa + p.count ≤ f) →
      (∀ c j, c ∈ s.clusters → j ∈ c.2.jobs → j.chunks = []) →
      ∃ t, exec .packetReceive s = .next t ∧ ack t ∧ memRead t pa p.count = bytes ∧ memWord t f = memWord s f + 1 ∧
        placed t p.ep p.region.toNat chunk = [])) ∧
  (∀ rs a n, (∀ x, covered (addRange rs a n) x ↔ covered rs x ∨ (a ≤ x ∧ x < a + n)) ∧ (apart rs → apart (addRange rs a n))) ∧
  (∀ (s : State) (p : Packet) (z : Bool) (e : BitVec 256) (pa : Nat), s.arg = .packet p z → matchesRegion s p e .read pa →
    (∀ k, k < p.count → badAt s (pa + k) = false) → ∃ t, exec .peerReadRequest s = .next t ∧
      t.sent = s.sent ++ [{ p with kind := .readReply, data := memRead s pa p.count }] ∧ t.mem = s.mem ∧ t.cores = s.cores ∧
      t.log = s.log) ∧
  (∀ (s : State) (p : Packet) (z : Bool), s.arg = .packet p z → p.ep < 8 →
    let e := tabGet 0 (getDie s p.ep).regions p.region.toNat
    (endpointUp s p.ep = false → exec .packetReceive s = .next s ∧ exec .peerReadRequest s = .next s) ∧
    (endpointUp s p.ep = true → (regionValid e = false ∨ regionJob e ≠ p.job ∨ regionAsid e ≠ p.asid ∨ p.count = 0 ∨
        4096 < p.count ∨ regionLen e < p.offset + p.count) →
      ∀ i, i ∈ [Instr.packetReceive, .peerReadRequest] → (i = .packetReceive → p.ident ∉ (getDie s p.ep).heard) →
      exec i s = .next { heardAt s p.ep with
        log := s.log ++ [⟨3, 4, p.ep, s.geo, 0, now s, 4, p.asid.toNat, 0⟩]
        sent := s.sent ++ [{ p with kind := .ack true, data := [] }] }) ∧
    (endpointUp s p.ep = true → p.ident ∈ (getDie s p.ep).heard → exec .packetReceive s = .next { heardAt s p.ep with
      sent := s.sent ++ [{ p with kind := .ack false, data := [] }] })) ∧
  (∀ (s : State) (die : Nat), s.arg = .num die 0 0 → die < 8 →
    ((getDie s die).linkUp = true → exec .endpointLinkDown s =
      .next (later (modDie s die fun d => { d with linkUp := false, linkDown := some (now s) }) 4294967296
        .functionFence (.num die 0 0))) ∧
    ((getDie s die).linkUp = false → exec .endpointLinkDown s = .next s) ∧
    ∃ t, exec .endpointLinkUp s = .next t ∧ (getDie t die).linkUp = true ∧ (getDie t die).linkDown = none ∧ t.mem = s.mem ∧
      ¬ due t .functionFence (.num die 0 0) ∧
      ∀ e, e ∈ t.agenda ↔ e ∈ s.agenda ∧ ¬ (e.ev = .functionFence ∧ e.arg = .num die 0 0))

/-- For a live peer job with the packet's piece unacknowledged: the acknowledgement of a write adds its bytes to
DONE; the answer to a read of a CP.GET into A lands in the cluster, from this cycle on, at 64 bytes a cycle when the
landing unit and the port are free, and each part puts its bytes in A and counts them; a refusal stops the job with
ERR 2 at the piece's address; a transport failure stops it with ERR 7, and it has failed once its issue is over, its
missing bytes counted; a retransmission sends the same packet again. For a lost chunk of at most 4,096 bytes the
member sends its own contribution, read again, with the chunk's entropy value, to every other member, each packet
with a number of its own, and the contributions folded in member-rank order stand at its own region. (R35, R240,
R452, R454, R457, R458) -/
def Obligations.PeerJobsAndReductions : Prop :=
  (∀ (s : State) (p : Packet) (refused : Bool) (j : Job) (q : Piece), s.arg = .packet p refused →
    jobOf s p.cluster p.jobId = some j → j.live = true → j.flying.find? (·.pos = p.piece) = some q → j.stopping = false →
    (∃ r, r ∈ s.sent ∧ sameSent p r) →
    resident s j.who = true → j.who.ctx.toNat < 5 →
    let core := j.who.core.toNat
    let x := j.who.ctx.toNat
    let counts := fun (t : State) (n : Nat) =>
      (counterOf (getCtx t core x) j.cc).done = (counterOf (getCtx s core x) j.cc).done + BitVec.ofNat 32 n
    (refused = false → j.kind = .put → ∃ t, exec .packetAck s = .next t ∧ counts t q.bytes ∧ t.mem = s.mem) ∧
    (refused = false → j.inward = true → exec .packetAck s =
      .next (later (heardAt s p.ep) 0 .copyPieceLand (.packet p false))) ∧
    (unitBusy s p.cluster j q = true → exec .copyPieceLand s = .next (later s 1 .copyPieceLand (.packet p false))) ∧
    (unitBusy s p.cluster j q = false → j.kind = .get → j.loc = .bufA → j.fmt = 0 → j.swz = false → 0 < j.rowLen →
      q.pos % j.rowLen + q.bytes ≤ j.rowLen → p.data.length = q.bytes → (getCore s core).powered = true →
      ∃ t, exec .copyPieceLand s = .next t ∧ counts t (min 64 q.bytes) ∧
        (64 < q.bytes → ∃ e, e ∈ t.agenda ∧ e.ev = .copyPieceLand ∧ e.at_ = now s + 1 ∧
          e.arg = .packet { p with piece := q.pos + 64, data := p.data.drop 64 } false) ∧ ∀ k, k < min 64 q.bytes →
        byteGet (getCore t core).a (j.lbase + q.pos / j.rowLen * j.pitch + q.pos % j.rowLen + k) = p.data.getD k 0) ∧
    (refused = true → ∃ t k, exec .packetAck s = .next t ∧ jobOf t p.cluster p.jobId = some k ∧ k.err = 2 ∧ k.fault = q.va ∧
      k.stopping = true) ∧
    ((∃ r, r ∈ s.sent ∧ sameSent p r ∧ now s < r.sentAt + 67108864) → exec .transportFailure s = .next s) ∧
    ((∀ r, r ∈ s.sent → sameSent p r → r.sentAt + 67108864 ≤ now s) → ∃ t k, exec .transportFailure s = .next t ∧ jobOf t p.cluster p.jobId = some k ∧ k.err = 7 ∧ k.fault = q.va ∧
      (j.issuing = false → k.state = 3 ∧ counts t j.left)) ∧
    (p ∈ s.sent → exec .packetRetransmit s = .next { s with sent := s.sent ++ [p] })) ∧
  (∀ (s : State) (p : Packet) (contribs : List (List Byte)) (j : Job) (r : BitVec 256) (pa : Nat), s.arg = .lost p contribs →
    jobOf s p.cluster p.jobId = some j → j.live = true → p.count ≤ 4096 →
    let e := peerEntry s p.ep p.peer
    let rank := bits (entryWord e 0) 55 49
    let members := bits (entryWord e 0) 48 42
    let own := localData s j (Piece.of p.piece p.count 0 0 0)
    let all := (contribs.take members).set rank own
    let mine : Packet := { p with
      kind := .reduce, data := own, entropy := entropyOf j.ox4 (chunkSize e) p.piece, asid := j.who.asid
      rop := j.ox2.extractLsb' 11 2, rtype := j.ox2.extractLsb' 9 2, sentAt := now s }
    contribs.length = members → rank < members → (∀ c, c ∈ contribs → c.length = p.count) → own.length = p.count → j.rtype ≠ 3 →
    p.count % 4 = 0 → matchesRegion s p r .write pa → p.offset % chunkSize r + p.count ≤ chunkSize r →
    ((addRange (placed s p.ep p.region.toNat (p.offset / chunkSize r)) p.offset p.count).map (·.2)).sum ≠ chunkSize r →
    ∃ t, exec .chunkLost s = .next t ∧ t.sent = s.sent ++ (List.range (members - 1)).map (fun i => { mine with seq := s.nextId + i }) ∧
      memRead t pa p.count = (all.drop 1).foldl (fun r x => (redCombine j r x).1) (all.headD []))

namespace Sys2Proof.Claims

/-- The mailbox of DOE holds a data object of a type of the PCI-SIG with a body, padded to a doubleword (R441). -/
def doeHolds (t : State) (type : BitVec 8) (body : List Byte) : Prop :=
  t.doe.take 4 = [0x01, 0x00, type, 0x00] ∧ (t.doe.drop 8).take body.length = body ∧
  t.doe.length = 8 + 4 * ((body.length + 3) / 4) ∧ le4 ((t.doe.drop 4).take 4) = BitVec.ofNat 32 (t.doe.length / 4)
/-- A host address that the decoder of first-tier memory, or of second-tier memory, sends to physical address `pa` (R442). -/
def hostReaches (s : State) (x pa : Nat) : Prop :=
  let a := s.hdm0.toNat
  let b := s.hdm1.toNat
  (s.hdmOn.getLsbD 0 = true ∧ a ≤ x ∧ x < a + 0x8000000000 ∧ pa = x - a) ∨
  (¬ (s.hdmOn.getLsbD 0 = true ∧ a ≤ x ∧ x < a + 0x8000000000) ∧
    s.hdmOn.getLsbD 1 = true ∧ b ≤ x ∧ x < b + 0x20000000000 ∧ pa = 0x20000000000 + (x - b))
/-- CXL.mem and CXL.io are offered (R441, R469). -/
def offered (s : State) : Prop := s.link ≠ 0 ∧ s.recovery = false

end Sys2Proof.Claims

/-- LINK_TRAINING of x16, x8 or x4 gives the link that width, of the features offered the supported ones being
agreed on (their numbers are log entry 76's), and any other width changes nothing; HDM_DECODER_SET sets the base of
its decoder, which then decodes, while CXL is offered. A host write within one line that a decoder sends to memory
that is served and admits class 3 puts its bytes there, changes no other byte, no cache and no core, and a whole
line clears that line's error; refused, it changes no byte and is logged with KIND 3, FUNC 1 and class 3; one that
no decoder takes goes to the host's own memory. A host read within one line of admitted memory without an error
returns the bytes of memory, and the host may hold the line; refused, or with an error, it returns poisoned zeros. A
snoop changes nothing. EVENT_LOG_CLEAR drops that many of the oldest of the records that the log has room for (how
many that is: the model's choice, log 80). (R417, R427, R428, R441, R442, R443, R444, R445, R460, R461) -/
def Obligations.HostAccessesAndLink : Prop :=
  (∀ (s : State) (w x y : Nat), s.arg = .num w x y →
    (s.poweredOff = false → (w = 16 ∨ w = 8 ∨ w = 4) → exec .linkTraining s = .next { s with link := w, features := BitVec.ofNat 16 x &&& 0x118 }) ∧
    (w ≠ 16 → w ≠ 8 → w ≠ 4 → exec .linkTraining s = .next s) ∧
    (offered s → exec .eventLogClear s = .next { s with log := (heldLog s).drop w })) ∧
  (∀ (s : State) (base v : W64), offered s →
    (s.arg = .word base v 0 → exec .hdmDecoderSet s = .next { s with hdm0 := base, hdmOn := s.hdmOn ||| 1 }) ∧
    (s.arg = .word base v 1 → exec .hdmDecoderSet s = .next { s with hdm1 := base, hdmOn := s.hdmOn ||| 2 })) ∧
  (∀ s : State, exec .hostSnoop s = .next s) ∧
  (∀ (s : State) (a : W64) (bs : List Byte), s.arg = .data a bs → 0 < bs.length → a.toNat % 64 + bs.length ≤ 64 →
    let x := a.toNat
    (∀ pa, hostReaches s x pa → offered s →
      (served s pa = true → admits s 3 0 .write pa 0 = true → ∃ t, exec .hostMemWrite s = .next t ∧
        memRead t pa bs.length = bs ∧ (∀ i, (i < pa ∨ pa + bs.length ≤ i) → byteGet t.mem i = byteGet s.mem i) ∧
        t.clusters = s.clusters ∧ t.cores = s.cores ∧ (bs.length = 64 → pa % 64 = 0 → badAt t pa = false) ∧
        (bs.length < 64 → t.badLines = s.badLines)) ∧
      ((served s pa = false ∨ admits s 3 0 .write pa 0 = false) → exec .hostMemWrite s = .next { s with
        log := s.log ++ [⟨3, 1, channelUnit s pa, s.geo, BitVec.ofNat 64 pa, now s, 3, 0, 0⟩] })) ∧
    ((∀ pa, ¬ hostReaches s x pa) → x < 0x800000000000 → ∃ t, exec .hostMemWrite s = .next t ∧
      memRead t (0x800000000000 + x) bs.length = bs ∧
      ∀ i, (i < 0x800000000000 + x ∨ 0x800000000000 + x + bs.length ≤ i) → byteGet t.mem i = byteGet s.mem i)) ∧
  (∀ (s : State) (x n y pa : Nat), s.arg = .num x n y → 0 < n → x % 64 + n ≤ 64 → hostReaches s x pa → offered s →
    (served s pa = true → admits s 3 0 .read pa 0 = true → badAt s pa = false → ∃ t, exec .hostMemRead s = .next t ∧
      t.hostRead = memRead s pa n ∧ t.hostBad = false ∧ pa / 64 ∈ t.hostHeld ∧ t.mem = s.mem ∧ t.log = s.log) ∧
    ((served s pa = false ∨ admits s 3 0 .read pa 0 = false ∨ badAt s pa = true) → ∃ t, exec .hostMemRead s = .next t ∧
      t.hostRead = List.replicate n 0 ∧ t.hostBad = true ∧ t.mem = s.mem ∧ t.log.length = s.log.length + 1))

/-- While the link is up: DOE discovery of index 0, 1 and any other answers with DOE discovery itself, CMA/SPDM and
none; GET_VERSION answers with SPDM 1.2 alone, GET_CAPABILITIES with certificates, challenges and signed
measurements; NEGOTIATE_ALGORITHMS takes RSASSA-3072 and SHA-256 when both are offered and answers an error else;
GET_DIGESTS gives the SHA-256 of the certificate chain of slot 0 and GET_CERTIFICATE the part of the chain asked
for, with the length that remains, and an error for another slot; CHALLENGE of slot 0 holds the digest of the chain,
GET_MEASUREMENTS of slot 0 has as many blocks as its operation asks for, and block 2 is the running image's digest
and SVN; CHALLENGE, and GET_MEASUREMENTS when it is asked to, sign the messages of the exchange with the identity
key; both answer an error for another slot. While the link is down none of them changes the DOE mailbox. The layouts
of the objects and messages are those of log entry 50. (R441, R467, R470) -/
def Obligations.AttestationAnswers : Prop :=
  (∀ s : State, s.link ≠ 0 →
    (∀ i x y, s.arg = .num i x y → ∃ t, exec .doeDiscovery s = .next t ∧ doeHolds t 0
      (if i = 0 then [0x01, 0x00, 0x00, 0x01] else if i = 1 then [0x01, 0x00, 0x01, 0x00] else [0xFF, 0xFF, 0x00, 0x00])) ∧
    (∃ t, exec .getVersion s = .next t ∧ doeHolds t 1 [0x10, 0x04, 0, 0, 0, 1, 0x00, 0x12]) ∧
    (∃ t m, exec .getCapabilities s = .next t ∧ doeHolds t 1 m ∧ m.length = 20 ∧ m.take 5 = [0x12, 0x61, 0, 0, 0] ∧
      (m.drop 8).take 4 = [0x16, 0, 0, 0]) ∧
    (∀ asym hash y, s.arg = .num asym hash y → ∃ t m, exec .negotiateAlgorithms s = .next t ∧ doeHolds t 1 m ∧
      (asym.testBit 2 = true → hash.testBit 0 = true → m.length = 36 ∧ m.take 8 = [0x12, 0x63, 0, 0, 36, 0, 1, 0] ∧
        (m.drop 12).take 8 = [4, 0, 0, 0, 1, 0, 0, 0]) ∧
      ((asym.testBit 2 = false ∨ hash.testBit 0 = false) → m = [0x12, 0x7F, 1, 0])) ∧
    (∃ t, exec .getDigests s = .next t ∧ doeHolds t 1 ([0x12, 0x01, 0, 1] ++ sha256 Config.certChain)) ∧
    (∀ slot off n, s.arg = .num slot off n → ∃ t m, exec .getCertificate s = .next t ∧ doeHolds t 1 m ∧
      (slot ≠ 0 → m = [0x12, 0x7F, 1, 0]) ∧
      (slot = 0 → off < Config.certChain.length → let part := (Config.certChain.drop off).take n
        m = [0x12, 0x02, 0, 0] ++ toBytes 2 part.length ++
          toBytes 2 (Config.certChain.length - off - part.length) ++ part)) ∧
    (∀ slot kind y, s.arg = .num slot kind y → ∃ t m, exec .challenge s = .next t ∧ doeHolds t 1 m ∧
      (slot ≠ 0 → m = [0x12, 0x7F, 1, 0]) ∧
      (slot = 0 → (kind = 0 ∨ kind = 1 ∨ kind = 0xFF) → m.take (4 + (sha256 Config.certChain).length) =
        [0x12, 0x03, 0, 1] ++ sha256 Config.certChain ∧
        ∃ asked body, m = body ++ identitySign "responder-challenge_auth signing" (s.spdmA ++ s.spdmB ++ asked ++ body) ∧
          asked.take 4 = [0x12, 0x83, 0, BitVec.ofNat 8 kind])) ∧
    (∀ op sign slot, s.arg = .num op sign slot → ∃ t m, exec .getMeasurements s = .next t ∧ doeHolds t 1 m ∧
      ((slot ≠ 0 ∨ (4 < op ∧ op ≠ 0xFF)) → m = [0x12, 0x7F, 1, 0]) ∧
      (slot = 0 → (op ≤ 4 ∨ op = 0xFF) → m.take 5 = [0x12, 0x60, if op = 0 then 4 else 0, 0,
        if op = 0 then 0 else if op = 0xFF then 4 else 1]) ∧
      (slot = 0 → (op ≤ 4 ∨ op = 0xFF) → sign = 1 → ∃ asked body,
        m = body ++ identitySign "responder-measurements signing" (s.spdmA ++ (s.spdmL ++ (asked ++ body))) ∧
        asked.take 4 = [0x12, 0xE0, 1, BitVec.ofNat 8 op]) ∧
      (slot = 0 → op = 2 → ∃ k, (m.drop 15).take k = imageDigest s.running ++ toBytes 4 (imageSvn s.running) ∧
        k = (imageDigest s.running).length + 4))) ∧
  (∀ (s : State) i, s.link = 0 → i ∈ [Instr.doeDiscovery, .getVersion, .getCapabilities, .negotiateAlgorithms, .getDigests,
      .getCertificate, .challenge, .getMeasurements] → ∃ t, exec i s = .next t ∧ t.doe = s.doe)

namespace Sys2Proof.Claims

/-- A record of KIND 2 or 1 of the scrubber entered in the event log (R459, R461). -/
def logged (s t : State) (kind func unit addr mnum : Nat) : Prop :=
  t.log = s.log ++ [⟨kind, func, unit, s.geo, BitVec.ofNat 64 addr, now s, 2, mnum, 0⟩]
/-- The uncorrectable errors of a function in the 2^32 cycles before now (R462). -/
def recent (s : State) (func unit : Nat) : Nat :=
  (s.badCount.filter fun p => p.1 = func && p.2.1 = unit && decide (now s < p.2.2 + 4294967296)).length

end Sys2Proof.Claims

/-- (Errors as the operands of PATROL_SCRUB, windows counted anew after a step and a die hot from 105 degrees for
one step are the model's choice: logs 51 and 79; so are what a reset keeps, log 49, and memory that reads zero, log
1.) PATROL_SCRUB of a line without an error changes nothing, of one with an error logs KIND 2; an error of one bit
is logged as corrected, of more marks the line, and is met by the patrol within 2^38 cycles when nothing reads the
line at once; an error of a synchronisation engine's SRAM has its die's fence due, and the sixteenth other
uncorrectable error of a first-tier channel within 2^32 cycles has its fence due, an earlier one has not; a word of
A struck is bad from then on. SELF_REFRESH_ENTER puts a channel in self-refresh, or waits while a request is queued
at one of its wells. A power window above 3,000 W lowers every die's clock by 100 MHz, at least to 400; the tenth
under 2,850 W in a row raises those of dies that are not hot, at most to 2,400; a hot die's falls; the next window
ends 24,000 cycles later. A die is hot from 105 degrees until it is below 100; a trip, or 115 degrees, powers the
package off and takes the link down. PACKAGE_RESET starts CYC at zero with no core's state, keeps flash, geometry
and host memory, is in recovery mode unless the image verifies and the flash has no uncorrectable error, and raises
the minimum security version to its own when it does. (R7, R459, R460, R461, R462, R465, R467, R468, R469, R472,
R473) -/
def Obligations.ScrubbingPowerAndReset : Prop :=
  (∀ (s : State) (pa x y : Nat), s.arg = .num pa x y → (homeDie pa).isSome = true →
    (badAt s pa = false → exec .patrolScrub s = .next s) ∧
    (badAt s pa = true → ∃ t, exec .patrolScrub s = .next t ∧ t.mem = s.mem ∧
      logged s t 2 1 (channelUnit s pa) (pa / 64 * 64) 0 ∧
      (∀ d, engineErrorAt s (pa / 64 * 64) = some d → due t .functionFence (.func .die d)) ∧
      (engineErrorAt s (pa / 64 * 64) = none → pa < 0x8000000000 → 15 ≤ recent s 1 (channelUnit s pa) → ∃ e, e ∈ t.agenda ∧ e.ev = .functionFence ∧
        e.arg = .func .channel (channelUnit s pa) ∧ e.at_ = now s) ∧
      (engineErrorAt s (pa / 64 * 64) = none → pa < 0x8000000000 → recent s 1 (channelUnit s pa) < 15 → t.agenda = s.agenda))) ∧
  (∀ (s : State) (pa : Nat), s.arg = .flag pa 1 true → (homeDie pa).isSome = true → badAt s pa = false →
    ∃ t e, exec .patrolScrub s = .next t ∧ t.mem = s.mem ∧ badAt t pa = true ∧ t.log = s.log ∧ e ∈ t.agenda ∧
      e.ev = .patrolScrub ∧ e.arg = .num pa 0 0 ∧ now s < e.at_ ∧ e.at_ ≤ now s + 2 ^ 38) ∧
  (∀ (s : State) (pa : Nat) (bad : Bool), s.arg = .flag pa 0 bad → (homeDie pa).isSome = true → badAt s pa = false →
    ∃ t, exec .patrolScrub s = .next t ∧ t.mem = s.mem ∧ badAt t pa = bad ∧
      logged s t (if bad then 2 else 1) 1 (channelUnit s pa) (pa / 64 * 64) 0) ∧
  (∀ (s : State) (core n : W64), s.arg = .word core n 1 → core.toNat < 16384 → n.toNat < 16384 →
    ∃ t, exec .patrolScrub s = .next t ∧ n.toNat ∈ (getCore t core.toNat).badA) ∧
  (∀ (s : State) (die ch : Nat), s.arg = .num die ch 0 → die < 8 → ch < 32 →
    ((∀ q, q ∈ (getDie s die).wellQ → q.well % 2048 / 64 ≠ ch) → ∃ t, exec .selfRefreshEnter s = .next t ∧
      (getDie t die).refresh.getLsbD ch = true ∧
      ∀ k, k ≠ ch → (getDie t die).refresh.getLsbD k = (getDie s die).refresh.getLsbD k) ∧
    ((∃ q, q ∈ (getDie s die).wellQ ∧ q.well % 2048 / 64 = ch) →
      exec .selfRefreshEnter s = .next (sometime s .selfRefreshEnter s.arg))) ∧
  (∀ s : State, let w := Config.modulePower s.tick
    ∃ t, exec .powerWindow s = .next t ∧ t.cores = s.cores ∧ t.mem = s.mem ∧
      t.winUnder = (if 2850 ≤ w ∨ 9 ≤ s.winUnder then 0 else s.winUnder + 1) ∧
      (∃ e, e ∈ t.agenda ∧ e.ev = .powerWindow ∧ e.at_ = now s + 24000) ∧
      ∀ d, d < 8 → let f := (getDie s d).clock
        (getDie t d).clock = if 3000 < w ∨ (getDie s d).hot = true then max 400 (f - 100)
          else if w < 2850 ∧ 9 ≤ s.winUnder then min 2400 (f + 100) else f) ∧
  (∀ (s : State) (die temp : Nat), s.arg = .num die temp 0 → die < 8 →
    (let u := modDie s die fun d => { d with hot := decide (105 ≤ temp) || (d.hot && decide (100 ≤ temp)) }
     exec .thermalThrottle s = .next (if 115 ≤ temp then { u with poweredOff := true, link := 0 } else u)) ∧
    exec .thermalTrip s = .next { s with poweredOff := true, link := 0 }) ∧
  (∀ s : State, let ok := imageVerifies Config.keyHash s.minSvn s.flash && !s.flashBad
    ∃ t, exec .packageReset s = .next t ∧ t.cyc = 0 ∧ t.cores = [] ∧ t.clusters = [] ∧ t.slotTab = [] ∧ t.launches = [] ∧
      t.access = [] ∧ t.locked = [] ∧ t.root = [] ∧ t.ring = [] ∧ t.poweredOff = false ∧ t.link = 0 ∧ t.flash = s.flash ∧
      t.geo = s.geo ∧ t.recovery = !ok ∧ t.running = (if ok then s.flash else []) ∧
      t.minSvn = (if ok then max s.minSvn (imageSvn s.flash) else s.minSvn) ∧
      ∀ a, byteGet t.mem a = if a < 0x800000000000 then 0 else byteGet s.mem a)

/-- A fence of a function that is fenced already changes nothing; of another it is logged with KIND 4, and: of a
cluster, it is fenced, every context of its cores is free and bound to nothing, its deques and mailboxes are empty
and its launch completes as killed; of a well, the well is fenced; of an endpoint, no packet passes it and its die's
live peer jobs stop with ERR 7; of a lane, it takes effect when its slot 0 next passes the origin; of a channel, its
retirement is on the agenda; of die 0 the package is in recovery mode with no core's state; of another die its
clusters are fenced and its stations leave the ring. CHANNEL_RETIRE waits while a launch holds clusters; else the
channel leaves L, the geometry version rises by one, its 64 wells are fenced, memory outside the die's interleaved
region keeps every byte, and the change is logged with KIND 5. (R18, R385, R413, R454, R461, R462, R463, R464, R469)
-/
def Obligations.FencingAndRetirement : Prop :=
  (∀ (s : State) (f : FencedKind) (u : Nat), s.arg = .func f u → u < funcCount f →
    (isFenced s f u = true → exec .functionFence s = .next s) ∧
    (isFenced s f u = false → ∃ t, exec .functionFence s = .next t ∧
      (⟨4, funcCode f, u, s.geo, 0, now s, 2, 0, 0⟩ : LogRec) ∈ t.log ∧
      (f = .cluster → clusterFenced t u = true ∧
        (∀ core x, core < 16384 → core / 8 = u → x < 5 → (getCtx t core x).run = .free ∧ (getCtx t core x).bound = false ∧
          (getCore t core).mail = [] ∧ (getCore t core).deque = ⟨0, 0, 0, 0, false, [], none, none, 0⟩) ∧
        ∀ l, l ∈ t.launches → u ∈ l.clusters → l.phase ≠ .waiting → l.phase ≠ .done → l.kill ≠ none) ∧
      (f = .well → wellFenced t u = true ∧ t.cores = s.cores ∧ t.clusters = s.clusters) ∧
      (f = .endpoint → endpointUp t u = false ∧ ∀ cl k j, cl / 256 = u → jobOf t cl k = some j → j.live = true →
        j.peer.isSome = true → j.err = 7 ∧ j.stopping = true) ∧
      (f = .lane → t.laneDue.getLsbD u = true ∧ t.lanesOff = s.lanesOff ∧ due t .ringOrigin (.num (u * 4096) 0 0)) ∧
      (f = .channel → (getDie t (u / 32)).fencedCh.getLsbD (u % 32) = true ∧ due t .channelRetire (.num (u / 32) (u % 32) 0)) ∧
      (f = .die → u = 0 → t.recovery = true ∧ t.cores = [] ∧ t.clusters = [] ∧ t.launches = [] ∧ t.mem = s.mem ∧ t.cyc = s.cyc) ∧
      (f = .die → u ≠ 0 → (getDie t u).fenced = true ∧ (getDie t u).bypassed = true ∧
        ∀ cl, cl / 256 = u → clusterFenced t cl = true ∧ (getCluster t cl).ringQ = []))) ∧
  (∀ (s : State) (die ch : Nat), s.arg = .num die ch 0 → die < 8 → ch < 32 →
    ((getDie s die).fencedCh.getLsbD ch = false → exec .channelRetire s = .next s) ∧
    ((getDie s die).fencedCh.getLsbD ch = true →
      ((∃ l, l ∈ s.launches ∧ l.holds = true) → exec .channelRetire s = .next (sometime s .channelRetire s.arg)) ∧
      ((∀ l, l ∈ s.launches → l.holds = false) → ∃ t, exec .channelRetire s = .next t ∧
        (∀ k, k < 32 → (getDie t die).chans.getLsbD k = ((getDie s die).chans.getLsbD k && decide (k ≠ ch))) ∧
        (getDie t die).fencedCh.getLsbD ch = false ∧ t.geo = s.geo + 1 ∧
        (∀ w, w < 64 → wellFenced t (die * 2048 + 64 * ch + w) = true) ∧
        (∀ a, (a < die * 0x1000000000 ∨ die * 0x1000000000 + bankBase ≤ a) → byteGet t.mem a = byteGet s.mem a) ∧
        t.log = s.log ++ [⟨5, 1, 32 * die + ch, s.geo + 1, 0, now s, 2, 0, 0⟩])))

namespace Sys2Proof.Claims

/-- A TLB entry that an invalidation takes away (R426, R446): of its ASID, of every one for 0xFFFF, or global, and of a page in its
range of pages of 64 KiB, all pages when the count is 0. -/
def taken (asid : BitVec 16) (first count : Nat) (e : TlbEntry) : Prop :=
  (asid = 0xFFFF ∨ e.asid = none ∨ e.asid = some asid) ∧
  (count = 0 ∨ (first * 65536 < e.base + 2 ^ e.bits ∧ e.base < (first + count) * 65536))
/-- A target of the package has an access table (R427): targets 0 to 6 of a die, eight dies. -/
def target (n : Nat) : Prop := n < 64 ∧ n % 8 < 7

end Sys2Proof.Claims

/-- A walk waits until it runs. One that ends in a leaf installs it in the TLB of the cluster that missed, which
then translates the page, and gives it to the contexts and the engines that wait; one that fails marks the contexts
and the engines that wait; one that an invalidation found running installs nothing. A prefetch of a page the TLB
holds, admitted, with room in its set, caches its line as memory holds it; one that is refused changes nothing. An
evicted line leaves its cache, its dirty bytes stand in memory and no other byte changes, unless the access tables
refuse its writer (the ASID of the last store to the line: the model's choice, log 61): then no byte changes and the
refusal is logged. A row written to an access table, its reserved bits zero, replaces that row until the table is
locked; then it is discarded and reported; so is a rate limit of the CXL port or of an endpoint, which is kept
within its bound (as numbers in the operand: the model's choice, log entry 77). ASROOT of a 64 KiB-aligned table in
the first or second tier sets the root entry, 0 clears it, and status 1 answers another and ASID 0xFFFF (the model's
choice, log 44). INVAL takes the matching leaves, and the global ones of its range, out of every TLB, keeps the
others, and gives up the walks that run and no others; it is complete, with status 0, once no walk is left that ran
and every access translated before has been performed, as translatedLeft counts them (by the ASID and page of their
leaf: the model's choice, log 45), and waits until then. (R149, R158, R330, R400, R420, R424, R425, R426, R427,
R429, R430, R446) -/
def Obligations.TranslationAndProtection : Prop :=
  (∀ (s : State) (die id : Nat) (w : Walk), s.arg = .num die id 0 → (getDie s die).walks.find? (·.id = id) = some w →
    w.prefetch = [] →
    ((getDie s die).walkRuns w = false → exec .tlbWalkComplete s = .next (sometime s .tlbWalkComplete (.num die id 0))) ∧
    ((getDie s die).walkRuns w = true →
    (w.stale = true → ∃ t, exec .tlbWalkComplete s = .next t ∧ t.clusters = s.clusters ∧
      ∀ v, v ∈ (getDie t die).walks ↔ v ∈ (getDie s die).walks ∧ v.id ≠ id) ∧
    (∀ l cl, w.stale = false → walk s w.asid w.va = .leaf l → w.clusters = [cl] → tlbHit (getCluster s cl) w.asid w.va = none →
      (getCluster s cl).tlb.length < 1024 → ∃ t, exec .tlbWalkComplete s = .next t ∧
        tlbHit (getCluster t cl) w.asid w.va = some l ∧ (∀ e, e ∈ (getCluster s cl).tlb → e ∈ (getCluster t cl).tlb) ∧
        (∀ k, k ≠ cl → getCluster t k = getCluster s k) ∧ t.mem = s.mem ∧
        ∀ p ls, p ∈ w.waiters → p.2 < 5 → (getCtx s p.1 p.2).await = some (.pages ls) →
          leafIn (leavesOf (getCtx t p.1 p.2)) w.asid w.va = some l) ∧
    (∀ l, w.stale = false → walk s w.asid w.va = .leaf l → ∃ t, exec .tlbWalkComplete s = .next t ∧ ∀ p, p ∈ w.engines →
      (p.2, w.asid, w.va.toNat / 65536, some (tlbEntry w.asid w.va l)) ∈ (getCluster t p.1).misses) ∧
    (w.stale = false → walk s w.asid w.va = .fail none → ∃ t, exec .tlbWalkComplete s = .next t ∧
      (∀ k, (getCluster t k).tlb = (getCluster s k).tlb) ∧ t.mem = s.mem ∧
      (∀ p, p ∈ w.engines → (p.2, w.asid, w.va.toNat / 65536, none) ∈ (getCluster t p.1).misses) ∧
      ∀ p, p ∈ w.waiters → p.2 < 5 → (getCtx t p.1 p.2).walkFail = some (w.va.toNat / 65536)))) ∧
  (∀ (s : State) (cl : Nat) (asid : BitVec 16) (va : VA) (l : Leaf), s.arg = .page cl asid va →
    tlbHit (getCluster s cl) asid va = some l →
    let pa := leafPa l va
    let ok := served s pa && admits s 0 asid.toNat .read pa (dieOfCluster cl)
    (ok = false → exec .prefetchFill s = .next s) ∧
    (ok = true → (∀ q, q ∈ (getCluster s cl).cache → q.line ≠ pa / 64) → badAt s pa = false →
      setCount (getCluster s cl) (pa / 64) < 16 → ∃ t q, exec .prefetchFill s = .next t ∧
        (getCluster t cl).cache = q :: (getCluster s cl).cache ∧ q.line = pa / 64 ∧ q.dirty = 0 ∧ q.failed = false ∧
        q.known = BitVec.allOnes 64 ∧ vecBytes q.data = memRead s (pa / 64 * 64) 64 ∧ t.mem = s.mem)) ∧
  (∀ (s : State) (cl line : Nat) (q : Line), s.arg = .num cl line 0 → cl < 2048 →
    (getCluster s cl).cache.find? (·.line = line) = some q → q.failed = false → q.dirty ≠ 0 → served s (line * 64) = true →
    (admits s 0 q.owner.toNat .write (line * 64) (dieOfCluster cl) = false → ∃ t, exec .cacheEvict s = .next t ∧ t.mem = s.mem ∧
      (getCluster t cl).cache = (getCluster s cl).cache.filter (·.line ≠ line) ∧
      t.log = s.log ++ [⟨3, 6, cl, s.geo, BitVec.ofNat 64 (line * 64), now s, 0, q.owner.toNat, 8 * cl⟩]) ∧
    (admits s 0 q.owner.toNat .write (line * 64) (dieOfCluster cl) = true →
    ∃ t, exec .cacheEvict s = .next t ∧ (∀ r, r ∈ (getCluster t cl).cache ↔ r ∈ (getCluster s cl).cache ∧ r.line ≠ line) ∧
      ∀ a, byteGet t.mem a = if a / 64 = line ∧ q.dirty.getLsbD (a % 64) = true then lane q.data 8 (a % 64)
        else byteGet s.mem a)) ∧
  (∀ (s : State) (tgt row x : Nat) (r : BitVec 256), s.arg = .row tgt row x r → target tgt → row < 256 →
    (tgt ∉ s.locked → exec .accessTableWrite s = .next { s with access := tabPut s.access (tgt * 256 + row) (r.setWidth 128 >>> 24 <<< 24) }) ∧
    (tgt ∈ s.locked → exec .accessTableWrite s = .next { s with
      log := s.log ++ [⟨3, 5, tgt / 8, s.geo, 0, now s, 2, tgt / 8, 0⟩] })) ∧
  (∀ (s : State) (tgt rate x : Nat), s.arg = .num tgt rate x → target tgt →
    (tgt ∈ s.locked → exec .accessTableWrite s = .next { s with
      log := s.log ++ [⟨7, 5, tgt / 8, s.geo, 0, now s, 2, tgt / 8, 0⟩] }) ∧
    (tgt ∉ s.locked → (tgt = 4 → exec .accessTableWrite s = .next { s with cxlLimit := min rate 128000 }) ∧
      (tgt % 8 = 5 → ∃ t, exec .accessTableWrite s = .next t ∧ (getDie t (tgt / 8)).epLimit = min rate 800000 ∧
        t.access = s.access))) ∧
  (∀ (s : State) (tgt : Nat), s.arg = .num tgt 0 0 → target tgt → ∃ t, exec .accessTableLock s = .next t ∧
    t.access = s.access ∧ ∀ n, n ∈ t.locked ↔ n ∈ s.locked ∨ n = tgt) ∧
  (∀ s : State, cmdReady s →
    (∀ asid table x, s.arg = .num asid table x →
      let tier := table < 0x8000000000 ∨ (0x20000000000 ≤ table ∧ table < 0x40000000000)
      (asid < 0xFFFF → table % 65536 = 0 → tier → exec .asroot s = .next (answered { s with
        root := tabPut s.root asid (if table = 0 then 0 else BitVec.ofNat 64 (2 ^ 63 + table)) } 0xC010 0 0)) ∧
      ((0xFFFF ≤ asid ∨ table % 65536 ≠ 0 ∨ ¬ tier) → exec .asroot s = .next (answered s 0xC010 1 0))) ∧
    (∀ (first count : W64) (asid : BitVec 16), s.arg = .word first count asid.toNat →
      first.toNat + count.toNat ≤ 2 ^ 40 → ∃ t, exec .inval s = .next t ∧
        t.cmd = some (.inval asid first.toNat count.toNat) ∧ t.mailbox = s.mailbox ∧ due t .invalidationComplete .none ∧
        (∀ cl e, e ∈ (getCluster t cl).tlb ↔
          e ∈ (getCluster s cl).tlb ∧ ¬ taken asid first.toNat count.toNat e) ∧
        ∀ d, (getDie t d).walks = (getDie s d).walks.map fun w => { w with stale := w.stale || (getDie s d).walkRuns w })) ∧
  (∀ (s : State) (asid : BitVec 16) (first count : Nat), s.arg = .none → s.cmds = [] → s.cmd = some (.inval asid first count) →
    let left := s.dies.any (fun d => d.2.walks.any (·.stale)) || translatedLeft s asid first count
    (left = false → ∃ t, exec .invalidationComplete s = .next t ∧ t.mailbox = s.mailbox ++ [⟨0xC011, 0, 0⟩] ∧ t.cmd = none ∧
      ∀ cl e, e ∈ (getCluster t cl).tlb ↔ e ∈ (getCluster s cl).tlb ∧ ¬ taken asid first count e) ∧
    (left = true → exec .invalidationComplete s = .next (sometime s .invalidationComplete .none)))

namespace Sys2Proof.Claims

/-- Where the fetch of the halfword at an address arrives: an executable raw page outside the S windows, admitted for reading
(R53, R474). -/
def fetchAt (s : State) (va : VA) : Option Spot :=
  match (if (windowOf va).isNone then leafHere s .fetch va else none) with
  | some l => if admitOk s .read (.phys va (leafPa l va) l) then some (.phys va (leafPa l va) l) else none
  | none => none
/-- The state in which a fetched instruction runs: its bytes stand as the operand that an illegal one is reported with. -/
def fetched (bs : List Byte) (s : State) : State := { s with arg := .word (wordOf bs) 0 0 }
/-- Whether the line of a fetched halfword is read without an uncorrectable error. -/
def fetchSound (s : State) : Spot → Bool
  | .phys _ pa _ => sound s (clusterOf s.core) pa
  | _ => false
/-- No core that is still to be asked in this cycle has a context with an instruction to issue (R415). -/
def noneIssues (s : State) : Prop := ∀ core x, core ∈ coresLeft s → issuable s core x = false

end Sys2Proof.Claims

/-- When no asynchronous trap is due, no work is to be re-injected and the PC is even, what a context does next is
exec of the instruction that the bytes at its PC decode to, one halfword or two by bit 0 of the first, in the state
that fetching them leaves, their bytes kept as the operand an illegal instruction is reported with; bytes that
decode to none run the illegal instruction. In a package of one listed core that is not fenced, of whose contexts
one alone can issue, leads no gang and does not stall, a step is what that context does next, with the core's
selection state noted and its contexts asked no more in the cycle. When no core still to be asked has one that can
issue, a step is exec of the event that takeDue names, with its operand; or, when none is due, what a context does
whose S-alias access the ports have still to serve, or the next cycle. A former follower of a gang whose work is
over is freed. (That an instruction is fetched as it issues, the order cores, events, cycle, and the turn of S-alias
accesses that wait for a port are the model's choice: logs 66, 7 and 9.) A package without power only waits for its
reset. (R29, R32, R52, R53, R77, R78, R186, R319, R415, R474) -/
def Obligations.StepRunsTheDecodedInstruction : Prop :=
  (∀ s : State, (here s).leaving = true → workDone s = .ok () s →
    attempt s = .next (freeCtx (dropAll s s.core s.ctx) s.core s.ctx)) ∧
  (∀ s : State, (here s).leaving = false → ((here s).pending = [] ∨ (here s).trapMode = true) → (here s).replay = [] →
    (here s).pc.getLsbD 0 = false → ∀ p, fetchAt s (here s).pc = some p → fetchSound s p = true →
    let b := spotBytes s 2 p
    let t := afterRead s 2 p
    ((le2 b).getLsbD 0 = false →
      (∀ i n, decodeBytes b = .ok (i, n) → attempt s = exec i (fetched b t)) ∧
      (∀ e, decodeBytes b = .error e → attempt s = exec .illegalInstruction (fetched b t))) ∧
    ((le2 b).getLsbD 0 = true → (le2 b).extractLsb' 1 6 ≠ 0x3F → ∀ q, fetchAt t ((here s).pc + 2) = some q → fetchSound t q = true →
      let w := b ++ spotBytes t 2 q
      (∀ i n, decodeBytes w = .ok (i, n) → attempt s = exec i (fetched w (afterRead t 2 q))) ∧
      (∀ e, decodeBytes w = .error e → attempt s = exec .illegalInstruction (fetched w (afterRead t 2 q))))) ∧
  (∀ (s : State) (n x : Nat) (k : Core), s.poweredOff = false → s.cores = [(n, k)] → s.scan ≤ n → x < 5 →
    (∀ y, issuable s n y = decide (y = x)) → (getCtx s n x).gangSize = 0 →
    let at_ := { s with core := n, ctx := x }
    let u := { modCore s n (fun c => if x = 4 then { c with hrun := 0 } else { c with last := BitVec.ofNat 2 x, hrun := 0 }) with
      core := n, ctx := x, scan := n + 1 }
    (∀ r, attempt at_ = .next r → r.stalled = false) →
    step s = match attempt u with
      | .next r => .next { r with stalled := false }
      | r => r) ∧
  (∀ s : State, s.poweredOff = false → noneIssues s →
    (∀ d rest, s.late = [] → takeDue (now s) s.agenda = some (d, rest) →
      d.at_ ≤ now s ∧ step s = exec d.ev { s with agenda := rest, arg := d.arg, scan := scanEnd }) ∧
    (∀ core x, s.late = [(core, x)] → takeDue (now s) s.agenda = none → issuable s core x = true →
      ∀ r, attempt { s with late := [], scan := scanEnd, core := core, ctx := x } = .next r →
        step s = .next { r with stalled := false }) ∧
    (s.late = [] → takeDue (now s) s.agenda = none → (∀ d, d ∈ s.agenda → now s < d.at_) ∧
      step s = .next { s with cyc := s.cyc + 1, scan := 0 })) ∧
  (∀ s : State, s.poweredOff = true → (∀ d, d ∈ s.agenda → d.ev ≠ .packageReset) → step s = .next s)

/-- The decoder reads TERN g3, g4, g5, 0xE8; FSHR, BEXT, JALR, JAL, BNE, STFL, LDWT, VLDX, VCMP, VCVT, MMA, CP.GATH,
HWAIT, KACC, AMOCAS, OXL and BNE.H from their words, with every operand; a word with a field that R79 leaves zero
set, and one of an unassigned major opcode, decode to none. (R59, R60, R61, R62, R63, R77, R79, R80, R81, R82) -/
def Obligations.WordsDecodeAsTheSpecWritesThem : Prop :=
  decodeTableWord 32 0xE80A4185 = some (.tern 3 4 5 0xE8) ∧
  decodeTableWord 32 0x18549407 = some (.fshr 8 9 10 12) ∧
  decodeTableWord 32 0x2C10B509 = some (.bext 10 11 8 11) ∧
  decodeTableWord 32 0x0010CF9D = some (.jalr 31 12 8) ∧
  decodeTableWord 32 0x00020F9B = some (.jal 31 0x20) ∧
  decodeTableWord 32 0xFE408D19 = some (.bne 8 0 (-6)) ∧
  decodeTableWord 32 0x010A982B = some (.stflS 9 5 0x10) ∧
  decodeTableWord 32 0xC016A4AD = some (.ldwt 9 10 11 3) ∧
  decodeTableWord 32 0x42C881AF = some (.vldx 3 8 4 1 1) ∧
  decodeTableWord 32 0x200C51B7 = some (.vcmp 3 5 6 0 2) ∧
  decodeTableWord 32 0x02007139 = some (.vcvt 2 7 0 1 0) ∧
  decodeTableWord 32 0x169421D1 = some (.mma 3 2 10 1 1 1) ∧
  decodeTableWord 32 0x0488365F = some (.cpGath 12 3 4 2) ∧
  decodeTableWord 32 0x3040015D = some (.hwait 2 3) ∧
  decodeTableWord 32 0x060892ED = some (.kacc 5 9 4 3 0) ∧
  decodeTableWord 32 0x12169571 = some (.amocas 10 9 11) ∧
  decodeTableWord 32 0x08634D7D = some (.oxl 2 3 0x1234) ∧
  decodeTableWord 16 0xE832 = some (.bneH 1 0 (-3)) ∧
  decodeTableWord 16 0x0000 = none ∧
  decodeTableWord 32 0x0018030F = none ∧
  decodeTableWord 32 0x004000C1 = none

/-- State.reset has CYC zero, memory in its canonical form, every context of every core free, bound to nothing, with
an instance tag of zero, every register zero and every handle unconfigured, barriers uninitialised, banks down,
weight slots empty, ring slots free, every channel in its die's list and no bind record, board, launch, root entry
or access-table row valid. (Register values the spec gives no reset for are the model's choice, log entry 2; so is
memory, and a well, that reads zero, log entry 1.) (R7, R19, R31, R42, R191, R228, R303, R403, R410, R463) -/
def Obligations.ResetLeavesTheStatedState : Prop :=
  memInv State.reset ∧ State.reset.cyc = 0 ∧ (∀ a, byteGet State.reset.mem a = 0) ∧
  (∀ core x, let c := getCtx State.reset core x
    c.run = .free ∧ c.bound = false ∧ c.inst = 0 ∧ c.trapMode = false ∧ c.trapVec = 0 ∧ (∀ r, gOf c r = 0) ∧ (∀ r, vOf c r = 0) ∧
    (∀ r, kOf c r = if r = 0 then BitVec.allOnes 64 else 0) ∧ (∀ r, oxOf c r = 0) ∧
    (∀ n, handleOfCtx c n = ⟨0, 0, 0, 0⟩) ∧ ∀ n, counterOf c n = ⟨0, 0⟩) ∧
  (∀ core n, (barAt (getCore State.reset core) n).init = false) ∧
  (∀ core, (getCore State.reset core).powered = false ∧ (getCore State.reset core).retain = none) ∧
  (∀ cl, (getCluster State.reset cl).cache = [] ∧ (getCluster State.reset cl).tlb = [] ∧ (getCluster State.reset cl).slots = [] ∧
    (getCluster State.reset cl).nextJob = 0) ∧
  (∀ n, (tabGet RingSlot.reset State.reset.ring n).tag = 0) ∧
  (∀ d, (getDie State.reset d).chans = 0xFFFFFFFF ∧ (getDie State.reset d).wells = []) ∧
  (∀ core x, (bindAt State.reset core x).v = false) ∧ State.reset.boards = [] ∧ State.reset.launches = [] ∧
  State.reset.root = [] ∧ State.reset.access = [] ∧ State.reset.locked = []

/-- For every instruction that is well formed and is no event, with every operand at every value, decoding the bytes
of its encoding gives the instruction and the number of its bytes. For every 32-bit word and every 16-bit word that
decodes, the encoding of the instruction read is that word, and the instruction is well formed: no two words have
one meaning and no bit of a word is dropped. (R52, R59, R60, R67, R77, R79, R80, R81, R82, R88) -/
def Obligations.DecodeInvertsEncode : Prop :=
  (∀ i : Instr, wellFormed i = true → encode i = .none_ ∨ decodeBytes (encode i).bytes = .ok (i, (encode i).bytes.length)) ∧
  (∀ (w : BitVec 32) i, w.getLsbD 0 = true → decode32 w = .ok i → wellFormed i = true ∧ encode i = .word (Fields.ofWord w) ∧
    (encode i).bytes = toBytes 4 w.toNat) ∧
  (∀ (w : BitVec 16) i, w.getLsbD 0 = false → decode16 w = .ok i → wellFormed i = true ∧ encode i = .half (Half.ofWord w) ∧
    (encode i).bytes = toBytes 2 w.toNat)

/-- Memory lists addresses strictly rising and lists none that holds what an unlisted address reads as. Every step
that answers a next state keeps this form: every store, write-back, atomic, reduction, landing piece, alighting,
image, host write, retirement and reset. (R149, R278, R417, R443) -/
def Obligations.StepKeepsMemoryCanonical : Prop :=
  ∀ s t : State, memInv s → step s = .next t → memInv t
end

