-- ==== Sys2Proof/Laws/State.lean ====
section
/-! SUPPORT. What each named update of the state, of a core and of a context leaves alone: one lemma per field and update,
true by rfl, so that no proof unfolds a record update. -/
namespace Sys2Proof.Machine
open Sys2Proof

/-! ## setCore -/

@[simp] theorem setCore_cyc (s : State) (n : Nat) (c : Core) : (setCore s n c).cyc = s.cyc := rfl
@[simp] theorem setCore_scan (s : State) (n : Nat) (c : Core) : (setCore s n c).scan = s.scan := rfl
@[simp] theorem setCore_late (s : State) (n : Nat) (c : Core) : (setCore s n c).late = s.late := rfl
@[simp] theorem setCore_gangUse (s : State) (n : Nat) (c : Core) : (setCore s n c).gangUse = s.gangUse := rfl
@[simp] theorem setCore_core (s : State) (n : Nat) (c : Core) : (setCore s n c).core = s.core := rfl
@[simp] theorem setCore_ctx (s : State) (n : Nat) (c : Core) : (setCore s n c).ctx = s.ctx := rfl
@[simp] theorem setCore_stalled (s : State) (n : Nat) (c : Core) : (setCore s n c).stalled = s.stalled := rfl
@[simp] theorem setCore_tick (s : State) (n : Nat) (c : Core) : (setCore s n c).tick = s.tick := rfl
@[simp] theorem setCore_nextId (s : State) (n : Nat) (c : Core) : (setCore s n c).nextId = s.nextId := rfl
@[simp] theorem setCore_clusters (s : State) (n : Nat) (c : Core) : (setCore s n c).clusters = s.clusters := rfl
@[simp] theorem setCore_dies (s : State) (n : Nat) (c : Core) : (setCore s n c).dies = s.dies := rfl
@[simp] theorem setCore_mem (s : State) (n : Nat) (c : Core) : (setCore s n c).mem = s.mem := rfl
@[simp] theorem setCore_badLines (s : State) (n : Nat) (c : Core) : (setCore s n c).badLines = s.badLines := rfl
@[simp] theorem setCore_badCount (s : State) (n : Nat) (c : Core) : (setCore s n c).badCount = s.badCount := rfl
@[simp] theorem setCore_uses (s : State) (n : Nat) (c : Core) : (setCore s n c).uses = s.uses := rfl
@[simp] theorem setCore_ring (s : State) (n : Nat) (c : Core) : (setCore s n c).ring = s.ring := rfl
@[simp] theorem setCore_lanesOff (s : State) (n : Nat) (c : Core) : (setCore s n c).lanesOff = s.lanesOff := rfl
@[simp] theorem setCore_laneDue (s : State) (n : Nat) (c : Core) : (setCore s n c).laneDue = s.laneDue := rfl
@[simp] theorem setCore_root (s : State) (n : Nat) (c : Core) : (setCore s n c).root = s.root := rfl
@[simp] theorem setCore_access (s : State) (n : Nat) (c : Core) : (setCore s n c).access = s.access := rfl
@[simp] theorem setCore_locked (s : State) (n : Nat) (c : Core) : (setCore s n c).locked = s.locked := rfl
@[simp] theorem setCore_slotTab (s : State) (n : Nat) (c : Core) : (setCore s n c).slotTab = s.slotTab := rfl
@[simp] theorem setCore_acqs (s : State) (n : Nat) (c : Core) : (setCore s n c).acqs = s.acqs := rfl
@[simp] theorem setCore_binds (s : State) (n : Nat) (c : Core) : (setCore s n c).binds = s.binds := rfl
@[simp] theorem setCore_rounds (s : State) (n : Nat) (c : Core) : (setCore s n c).rounds = s.rounds := rfl
@[simp] theorem setCore_boards (s : State) (n : Nat) (c : Core) : (setCore s n c).boards = s.boards := rfl
@[simp] theorem setCore_lastBoard (s : State) (n : Nat) (c : Core) : (setCore s n c).lastBoard = s.lastBoard := rfl
@[simp] theorem setCore_launches (s : State) (n : Nat) (c : Core) : (setCore s n c).launches = s.launches := rfl
@[simp] theorem setCore_agenda (s : State) (n : Nat) (c : Core) : (setCore s n c).agenda = s.agenda := rfl
@[simp] theorem setCore_arg (s : State) (n : Nat) (c : Core) : (setCore s n c).arg = s.arg := rfl
@[simp] theorem setCore_geo (s : State) (n : Nat) (c : Core) : (setCore s n c).geo = s.geo := rfl
@[simp] theorem setCore_recovery (s : State) (n : Nat) (c : Core) : (setCore s n c).recovery = s.recovery := rfl
@[simp] theorem setCore_poweredOff (s : State) (n : Nat) (c : Core) : (setCore s n c).poweredOff = s.poweredOff := rfl
@[simp] theorem setCore_flash (s : State) (n : Nat) (c : Core) : (setCore s n c).flash = s.flash := rfl
@[simp] theorem setCore_flashBad (s : State) (n : Nat) (c : Core) : (setCore s n c).flashBad = s.flashBad := rfl
@[simp] theorem setCore_minSvn (s : State) (n : Nat) (c : Core) : (setCore s n c).minSvn = s.minSvn := rfl
@[simp] theorem setCore_running (s : State) (n : Nat) (c : Core) : (setCore s n c).running = s.running := rfl
@[simp] theorem setCore_link (s : State) (n : Nat) (c : Core) : (setCore s n c).link = s.link := rfl
@[simp] theorem setCore_features (s : State) (n : Nat) (c : Core) : (setCore s n c).features = s.features := rfl
@[simp] theorem setCore_hdm0 (s : State) (n : Nat) (c : Core) : (setCore s n c).hdm0 = s.hdm0 := rfl
@[simp] theorem setCore_hdm1 (s : State) (n : Nat) (c : Core) : (setCore s n c).hdm1 = s.hdm1 := rfl
@[simp] theorem setCore_hdmOn (s : State) (n : Nat) (c : Core) : (setCore s n c).hdmOn = s.hdmOn := rfl
@[simp] theorem setCore_hostHeld (s : State) (n : Nat) (c : Core) : (setCore s n c).hostHeld = s.hostHeld := rfl
@[simp] theorem setCore_hostRead (s : State) (n : Nat) (c : Core) : (setCore s n c).hostRead = s.hostRead := rfl
@[simp] theorem setCore_hostBad (s : State) (n : Nat) (c : Core) : (setCore s n c).hostBad = s.hostBad := rfl
@[simp] theorem setCore_msix (s : State) (n : Nat) (c : Core) : (setCore s n c).msix = s.msix := rfl
@[simp] theorem setCore_mailbox (s : State) (n : Nat) (c : Core) : (setCore s n c).mailbox = s.mailbox := rfl
@[simp] theorem setCore_cmd (s : State) (n : Nat) (c : Core) : (setCore s n c).cmd = s.cmd := rfl
@[simp] theorem setCore_cmds (s : State) (n : Nat) (c : Core) : (setCore s n c).cmds = s.cmds := rfl
@[simp] theorem setCore_cmdGo (s : State) (n : Nat) (c : Core) : (setCore s n c).cmdGo = s.cmdGo := rfl
@[simp] theorem setCore_doe (s : State) (n : Nat) (c : Core) : (setCore s n c).doe = s.doe := rfl
@[simp] theorem setCore_spdmA (s : State) (n : Nat) (c : Core) : (setCore s n c).spdmA = s.spdmA := rfl
@[simp] theorem setCore_spdmB (s : State) (n : Nat) (c : Core) : (setCore s n c).spdmB = s.spdmB := rfl
@[simp] theorem setCore_spdmL (s : State) (n : Nat) (c : Core) : (setCore s n c).spdmL = s.spdmL := rfl
@[simp] theorem setCore_sent (s : State) (n : Nat) (c : Core) : (setCore s n c).sent = s.sent := rfl
@[simp] theorem setCore_log (s : State) (n : Nat) (c : Core) : (setCore s n c).log = s.log := rfl
@[simp] theorem setCore_winUnder (s : State) (n : Nat) (c : Core) : (setCore s n c).winUnder = s.winUnder := rfl
@[simp] theorem setCore_cxlLimit (s : State) (n : Nat) (c : Core) : (setCore s n c).cxlLimit = s.cxlLimit := rfl

/-! ## modCore -/

@[simp] theorem modCore_cyc (s : State) (n : Nat) (f : Core → Core) : (modCore s n f).cyc = s.cyc := rfl
@[simp] theorem modCore_scan (s : State) (n : Nat) (f : Core → Core) : (modCore s n f).scan = s.scan := rfl
@[simp] theorem modCore_late (s : State) (n : Nat) (f : Core → Core) : (modCore s n f).late = s.late := rfl
@[simp] theorem modCore_gangUse (s : State) (n : Nat) (f : Core → Core) : (modCore s n f).gangUse = s.gangUse := rfl
@[simp] theorem modCore_core (s : State) (n : Nat) (f : Core → Core) : (modCore s n f).core = s.core := rfl
@[simp] theorem modCore_ctx (s : State) (n : Nat) (f : Core → Core) : (modCore s n f).ctx = s.ctx := rfl
@[simp] theorem modCore_stalled (s : State) (n : Nat) (f : Core → Core) : (modCore s n f).stalled = s.stalled := rfl
@[simp] theorem modCore_tick (s : State) (n : Nat) (f : Core → Core) : (modCore s n f).tick = s.tick := rfl
@[simp] theorem modCore_nextId (s : State) (n : Nat) (f : Core → Core) : (modCore s n f).nextId = s.nextId := rfl
@[simp] theorem modCore_clusters (s : State) (n : Nat) (f : Core → Core) : (modCore s n f).clusters = s.clusters := rfl
@[simp] theorem modCore_dies (s : State) (n : Nat) (f : Core → Core) : (modCore s n f).dies = s.dies := rfl
@[simp] theorem modCore_mem (s : State) (n : Nat) (f : Core → Core) : (modCore s n f).mem = s.mem := rfl
@[simp] theorem modCore_badLines (s : State) (n : Nat) (f : Core → Core) : (modCore s n f).badLines = s.badLines := rfl
@[simp] theorem modCore_badCount (s : State) (n : Nat) (f : Core → Core) : (modCore s n f).badCount = s.badCount := rfl
@[simp] theorem modCore_uses (s : State) (n : Nat) (f : Core → Core) : (modCore s n f).uses = s.uses := rfl
@[simp] theorem modCore_ring (s : State) (n : Nat) (f : Core → Core) : (modCore s n f).ring = s.ring := rfl
@[simp] theorem modCore_lanesOff (s : State) (n : Nat) (f : Core → Core) : (modCore s n f).lanesOff = s.lanesOff := rfl
@[simp] theorem modCore_laneDue (s : State) (n : Nat) (f : Core → Core) : (modCore s n f).laneDue = s.laneDue := rfl
@[simp] theorem modCore_root (s : State) (n : Nat) (f : Core → Core) : (modCore s n f).root = s.root := rfl
@[simp] theorem modCore_access (s : State) (n : Nat) (f : Core → Core) : (modCore s n f).access = s.access := rfl
@[simp] theorem modCore_locked (s : State) (n : Nat) (f : Core → Core) : (modCore s n f).locked = s.locked := rfl
@[simp] theorem modCore_slotTab (s : State) (n : Nat) (f : Core → Core) : (modCore s n f).slotTab = s.slotTab := rfl
@[simp] theorem modCore_acqs (s : State) (n : Nat) (f : Core → Core) : (modCore s n f).acqs = s.acqs := rfl
@[simp] theorem modCore_binds (s : State) (n : Nat) (f : Core → Core) : (modCore s n f).binds = s.binds := rfl
@[simp] theorem modCore_rounds (s : State) (n : Nat) (f : Core → Core) : (modCore s n f).rounds = s.rounds := rfl
@[simp] theorem modCore_boards (s : State) (n : Nat) (f : Core → Core) : (modCore s n f).boards = s.boards := rfl
@[simp] theorem modCore_lastBoard (s : State) (n : Nat) (f : Core → Core) : (modCore s n f).lastBoard = s.lastBoard := rfl
@[simp] theorem modCore_launches (s : State) (n : Nat) (f : Core → Core) : (modCore s n f).launches = s.launches := rfl
@[simp] theorem modCore_agenda (s : State) (n : Nat) (f : Core → Core) : (modCore s n f).agenda = s.agenda := rfl
@[simp] theorem modCore_arg (s : State) (n : Nat) (f : Core → Core) : (modCore s n f).arg = s.arg := rfl
@[simp] theorem modCore_geo (s : State) (n : Nat) (f : Core → Core) : (modCore s n f).geo = s.geo := rfl
@[simp] theorem modCore_recovery (s : State) (n : Nat) (f : Core → Core) : (modCore s n f).recovery = s.recovery := rfl
@[simp] theorem modCore_poweredOff (s : State) (n : Nat) (f : Core → Core) : (modCore s n f).poweredOff = s.poweredOff := rfl
@[simp] theorem modCore_flash (s : State) (n : Nat) (f : Core → Core) : (modCore s n f).flash = s.flash := rfl
@[simp] theorem modCore_flashBad (s : State) (n : Nat) (f : Core → Core) : (modCore s n f).flashBad = s.flashBad := rfl
@[simp] theorem modCore_minSvn (s : State) (n : Nat) (f : Core → Core) : (modCore s n f).minSvn = s.minSvn := rfl
@[simp] theorem modCore_running (s : State) (n : Nat) (f : Core → Core) : (modCore s n f).running = s.running := rfl
@[simp] theorem modCore_link (s : State) (n : Nat) (f : Core → Core) : (modCore s n f).link = s.link := rfl
@[simp] theorem modCore_features (s : State) (n : Nat) (f : Core → Core) : (modCore s n f).features = s.features := rfl
@[simp] theorem modCore_hdm0 (s : State) (n : Nat) (f : Core → Core) : (modCore s n f).hdm0 = s.hdm0 := rfl
@[simp] theorem modCore_hdm1 (s : State) (n : Nat) (f : Core → Core) : (modCore s n f).hdm1 = s.hdm1 := rfl
@[simp] theorem modCore_hdmOn (s : State) (n : Nat) (f : Core → Core) : (modCore s n f).hdmOn = s.hdmOn := rfl
@[simp] theorem modCore_hostHeld (s : State) (n : Nat) (f : Core → Core) : (modCore s n f).hostHeld = s.hostHeld := rfl
@[simp] theorem modCore_hostRead (s : State) (n : Nat) (f : Core → Core) : (modCore s n f).hostRead = s.hostRead := rfl
@[simp] theorem modCore_hostBad (s : State) (n : Nat) (f : Core → Core) : (modCore s n f).hostBad = s.hostBad := rfl
@[simp] theorem modCore_msix (s : State) (n : Nat) (f : Core → Core) : (modCore s n f).msix = s.msix := rfl
@[simp] theorem modCore_mailbox (s : State) (n : Nat) (f : Core → Core) : (modCore s n f).mailbox = s.mailbox := rfl
@[simp] theorem modCore_cmd (s : State) (n : Nat) (f : Core → Core) : (modCore s n f).cmd = s.cmd := rfl
@[simp] theorem modCore_cmds (s : State) (n : Nat) (f : Core → Core) : (modCore s n f).cmds = s.cmds := rfl
@[simp] theorem modCore_cmdGo (s : State) (n : Nat) (f : Core → Core) : (modCore s n f).cmdGo = s.cmdGo := rfl
@[simp] theorem modCore_doe (s : State) (n : Nat) (f : Core → Core) : (modCore s n f).doe = s.doe := rfl
@[simp] theorem modCore_spdmA (s : State) (n : Nat) (f : Core → Core) : (modCore s n f).spdmA = s.spdmA := rfl
@[simp] theorem modCore_spdmB (s : State) (n : Nat) (f : Core → Core) : (modCore s n f).spdmB = s.spdmB := rfl
@[simp] theorem modCore_spdmL (s : State) (n : Nat) (f : Core → Core) : (modCore s n f).spdmL = s.spdmL := rfl
@[simp] theorem modCore_sent (s : State) (n : Nat) (f : Core → Core) : (modCore s n f).sent = s.sent := rfl
@[simp] theorem modCore_log (s : State) (n : Nat) (f : Core → Core) : (modCore s n f).log = s.log := rfl
@[simp] theorem modCore_winUnder (s : State) (n : Nat) (f : Core → Core) : (modCore s n f).winUnder = s.winUnder := rfl
@[simp] theorem modCore_cxlLimit (s : State) (n : Nat) (f : Core → Core) : (modCore s n f).cxlLimit = s.cxlLimit := rfl

/-! ## setCtx -/

@[simp] theorem setCtx_cyc (s : State) (n x : Nat) (k : Ctx) : (setCtx s n x k).cyc = s.cyc := rfl
@[simp] theorem setCtx_scan (s : State) (n x : Nat) (k : Ctx) : (setCtx s n x k).scan = s.scan := rfl
@[simp] theorem setCtx_late (s : State) (n x : Nat) (k : Ctx) : (setCtx s n x k).late = s.late := rfl
@[simp] theorem setCtx_gangUse (s : State) (n x : Nat) (k : Ctx) : (setCtx s n x k).gangUse = s.gangUse := rfl
@[simp] theorem setCtx_core (s : State) (n x : Nat) (k : Ctx) : (setCtx s n x k).core = s.core := rfl
@[simp] theorem setCtx_ctx (s : State) (n x : Nat) (k : Ctx) : (setCtx s n x k).ctx = s.ctx := rfl
@[simp] theorem setCtx_stalled (s : State) (n x : Nat) (k : Ctx) : (setCtx s n x k).stalled = s.stalled := rfl
@[simp] theorem setCtx_tick (s : State) (n x : Nat) (k : Ctx) : (setCtx s n x k).tick = s.tick := rfl
@[simp] theorem setCtx_nextId (s : State) (n x : Nat) (k : Ctx) : (setCtx s n x k).nextId = s.nextId := rfl
@[simp] theorem setCtx_clusters (s : State) (n x : Nat) (k : Ctx) : (setCtx s n x k).clusters = s.clusters := rfl
@[simp] theorem setCtx_dies (s : State) (n x : Nat) (k : Ctx) : (setCtx s n x k).dies = s.dies := rfl
@[simp] theorem setCtx_mem (s : State) (n x : Nat) (k : Ctx) : (setCtx s n x k).mem = s.mem := rfl
@[simp] theorem setCtx_badLines (s : State) (n x : Nat) (k : Ctx) : (setCtx s n x k).badLines = s.badLines := rfl
@[simp] theorem setCtx_badCount (s : State) (n x : Nat) (k : Ctx) : (setCtx s n x k).badCount = s.badCount := rfl
@[simp] theorem setCtx_uses (s : State) (n x : Nat) (k : Ctx) : (setCtx s n x k).uses = s.uses := rfl
@[simp] theorem setCtx_ring (s : State) (n x : Nat) (k : Ctx) : (setCtx s n x k).ring = s.ring := rfl
@[simp] theorem setCtx_lanesOff (s : State) (n x : Nat) (k : Ctx) : (setCtx s n x k).lanesOff = s.lanesOff := rfl
@[simp] theorem setCtx_laneDue (s : State) (n x : Nat) (k : Ctx) : (setCtx s n x k).laneDue = s.laneDue := rfl
@[simp] theorem setCtx_root (s : State) (n x : Nat) (k : Ctx) : (setCtx s n x k).root = s.root := rfl
@[simp] theorem setCtx_access (s : State) (n x : Nat) (k : Ctx) : (setCtx s n x k).access = s.access := rfl
@[simp] theorem setCtx_locked (s : State) (n x : Nat) (k : Ctx) : (setCtx s n x k).locked = s.locked := rfl
@[simp] theorem setCtx_slotTab (s : State) (n x : Nat) (k : Ctx) : (setCtx s n x k).slotTab = s.slotTab := rfl
@[simp] theorem setCtx_acqs (s : State) (n x : Nat) (k : Ctx) : (setCtx s n x k).acqs = s.acqs := rfl
@[simp] theorem setCtx_binds (s : State) (n x : Nat) (k : Ctx) : (setCtx s n x k).binds = s.binds := rfl
@[simp] theorem setCtx_rounds (s : State) (n x : Nat) (k : Ctx) : (setCtx s n x k).rounds = s.rounds := rfl
@[simp] theorem setCtx_boards (s : State) (n x : Nat) (k : Ctx) : (setCtx s n x k).boards = s.boards := rfl
@[simp] theorem setCtx_lastBoard (s : State) (n x : Nat) (k : Ctx) : (setCtx s n x k).lastBoard = s.lastBoard := rfl
@[simp] theorem setCtx_launches (s : State) (n x : Nat) (k : Ctx) : (setCtx s n x k).launches = s.launches := rfl
@[simp] theorem setCtx_agenda (s : State) (n x : Nat) (k : Ctx) : (setCtx s n x k).agenda = s.agenda := rfl
@[simp] theorem setCtx_arg (s : State) (n x : Nat) (k : Ctx) : (setCtx s n x k).arg = s.arg := rfl
@[simp] theorem setCtx_geo (s : State) (n x : Nat) (k : Ctx) : (setCtx s n x k).geo = s.geo := rfl
@[simp] theorem setCtx_recovery (s : State) (n x : Nat) (k : Ctx) : (setCtx s n x k).recovery = s.recovery := rfl
@[simp] theorem setCtx_poweredOff (s : State) (n x : Nat) (k : Ctx) : (setCtx s n x k).poweredOff = s.poweredOff := rfl
@[simp] theorem setCtx_flash (s : State) (n x : Nat) (k : Ctx) : (setCtx s n x k).flash = s.flash := rfl
@[simp] theorem setCtx_flashBad (s : State) (n x : Nat) (k : Ctx) : (setCtx s n x k).flashBad = s.flashBad := rfl
@[simp] theorem setCtx_minSvn (s : State) (n x : Nat) (k : Ctx) : (setCtx s n x k).minSvn = s.minSvn := rfl
@[simp] theorem setCtx_running (s : State) (n x : Nat) (k : Ctx) : (setCtx s n x k).running = s.running := rfl
@[simp] theorem setCtx_link (s : State) (n x : Nat) (k : Ctx) : (setCtx s n x k).link = s.link := rfl
@[simp] theorem setCtx_features (s : State) (n x : Nat) (k : Ctx) : (setCtx s n x k).features = s.features := rfl
@[simp] theorem setCtx_hdm0 (s : State) (n x : Nat) (k : Ctx) : (setCtx s n x k).hdm0 = s.hdm0 := rfl
@[simp] theorem setCtx_hdm1 (s : State) (n x : Nat) (k : Ctx) : (setCtx s n x k).hdm1 = s.hdm1 := rfl
@[simp] theorem setCtx_hdmOn (s : State) (n x : Nat) (k : Ctx) : (setCtx s n x k).hdmOn = s.hdmOn := rfl
@[simp] theorem setCtx_hostHeld (s : State) (n x : Nat) (k : Ctx) : (setCtx s n x k).hostHeld = s.hostHeld := rfl
@[simp] theorem setCtx_hostRead (s : State) (n x : Nat) (k : Ctx) : (setCtx s n x k).hostRead = s.hostRead := rfl
@[simp] theorem setCtx_hostBad (s : State) (n x : Nat) (k : Ctx) : (setCtx s n x k).hostBad = s.hostBad := rfl
@[simp] theorem setCtx_msix (s : State) (n x : Nat) (k : Ctx) : (setCtx s n x k).msix = s.msix := rfl
@[simp] theorem setCtx_mailbox (s : State) (n x : Nat) (k : Ctx) : (setCtx s n x k).mailbox = s.mailbox := rfl
@[simp] theorem setCtx_cmd (s : State) (n x : Nat) (k : Ctx) : (setCtx s n x k).cmd = s.cmd := rfl
@[simp] theorem setCtx_cmds (s : State) (n x : Nat) (k : Ctx) : (setCtx s n x k).cmds = s.cmds := rfl
@[simp] theorem setCtx_cmdGo (s : State) (n x : Nat) (k : Ctx) : (setCtx s n x k).cmdGo = s.cmdGo := rfl
@[simp] theorem setCtx_doe (s : State) (n x : Nat) (k : Ctx) : (setCtx s n x k).doe = s.doe := rfl
@[simp] theorem setCtx_spdmA (s : State) (n x : Nat) (k : Ctx) : (setCtx s n x k).spdmA = s.spdmA := rfl
@[simp] theorem setCtx_spdmB (s : State) (n x : Nat) (k : Ctx) : (setCtx s n x k).spdmB = s.spdmB := rfl
@[simp] theorem setCtx_spdmL (s : State) (n x : Nat) (k : Ctx) : (setCtx s n x k).spdmL = s.spdmL := rfl
@[simp] theorem setCtx_sent (s : State) (n x : Nat) (k : Ctx) : (setCtx s n x k).sent = s.sent := rfl
@[simp] theorem setCtx_log (s : State) (n x : Nat) (k : Ctx) : (setCtx s n x k).log = s.log := rfl
@[simp] theorem setCtx_winUnder (s : State) (n x : Nat) (k : Ctx) : (setCtx s n x k).winUnder = s.winUnder := rfl
@[simp] theorem setCtx_cxlLimit (s : State) (n x : Nat) (k : Ctx) : (setCtx s n x k).cxlLimit = s.cxlLimit := rfl

/-! ## modCtx -/

@[simp] theorem modCtx_cyc (s : State) (n x : Nat) (f : Ctx → Ctx) : (modCtx s n x f).cyc = s.cyc := rfl
@[simp] theorem modCtx_scan (s : State) (n x : Nat) (f : Ctx → Ctx) : (modCtx s n x f).scan = s.scan := rfl
@[simp] theorem modCtx_late (s : State) (n x : Nat) (f : Ctx → Ctx) : (modCtx s n x f).late = s.late := rfl
@[simp] theorem modCtx_gangUse (s : State) (n x : Nat) (f : Ctx → Ctx) : (modCtx s n x f).gangUse = s.gangUse := rfl
@[simp] theorem modCtx_core (s : State) (n x : Nat) (f : Ctx → Ctx) : (modCtx s n x f).core = s.core := rfl
@[simp] theorem modCtx_ctx (s : State) (n x : Nat) (f : Ctx → Ctx) : (modCtx s n x f).ctx = s.ctx := rfl
@[simp] theorem modCtx_stalled (s : State) (n x : Nat) (f : Ctx → Ctx) : (modCtx s n x f).stalled = s.stalled := rfl
@[simp] theorem modCtx_tick (s : State) (n x : Nat) (f : Ctx → Ctx) : (modCtx s n x f).tick = s.tick := rfl
@[simp] theorem modCtx_nextId (s : State) (n x : Nat) (f : Ctx → Ctx) : (modCtx s n x f).nextId = s.nextId := rfl
@[simp] theorem modCtx_clusters (s : State) (n x : Nat) (f : Ctx → Ctx) : (modCtx s n x f).clusters = s.clusters := rfl
@[simp] theorem modCtx_dies (s : State) (n x : Nat) (f : Ctx → Ctx) : (modCtx s n x f).dies = s.dies := rfl
@[simp] theorem modCtx_mem (s : State) (n x : Nat) (f : Ctx → Ctx) : (modCtx s n x f).mem = s.mem := rfl
@[simp] theorem modCtx_badLines (s : State) (n x : Nat) (f : Ctx → Ctx) : (modCtx s n x f).badLines = s.badLines := rfl
@[simp] theorem modCtx_badCount (s : State) (n x : Nat) (f : Ctx → Ctx) : (modCtx s n x f).badCount = s.badCount := rfl
@[simp] theorem modCtx_uses (s : State) (n x : Nat) (f : Ctx → Ctx) : (modCtx s n x f).uses = s.uses := rfl
@[simp] theorem modCtx_ring (s : State) (n x : Nat) (f : Ctx → Ctx) : (modCtx s n x f).ring = s.ring := rfl
@[simp] theorem modCtx_lanesOff (s : State) (n x : Nat) (f : Ctx → Ctx) : (modCtx s n x f).lanesOff = s.lanesOff := rfl
@[simp] theorem modCtx_laneDue (s : State) (n x : Nat) (f : Ctx → Ctx) : (modCtx s n x f).laneDue = s.laneDue := rfl
@[simp] theorem modCtx_root (s : State) (n x : Nat) (f : Ctx → Ctx) : (modCtx s n x f).root = s.root := rfl
@[simp] theorem modCtx_access (s : State) (n x : Nat) (f : Ctx → Ctx) : (modCtx s n x f).access = s.access := rfl
@[simp] theorem modCtx_locked (s : State) (n x : Nat) (f : Ctx → Ctx) : (modCtx s n x f).locked = s.locked := rfl
@[simp] theorem modCtx_slotTab (s : State) (n x : Nat) (f : Ctx → Ctx) : (modCtx s n x f).slotTab = s.slotTab := rfl
@[simp] theorem modCtx_acqs (s : State) (n x : Nat) (f : Ctx → Ctx) : (modCtx s n x f).acqs = s.acqs := rfl
@[simp] theorem modCtx_binds (s : State) (n x : Nat) (f : Ctx → Ctx) : (modCtx s n x f).binds = s.binds := rfl
@[simp] theorem modCtx_rounds (s : State) (n x : Nat) (f : Ctx → Ctx) : (modCtx s n x f).rounds = s.rounds := rfl
@[simp] theorem modCtx_boards (s : State) (n x : Nat) (f : Ctx → Ctx) : (modCtx s n x f).boards = s.boards := rfl
@[simp] theorem modCtx_lastBoard (s : State) (n x : Nat) (f : Ctx → Ctx) : (modCtx s n x f).lastBoard = s.lastBoard := rfl
@[simp] theorem modCtx_launches (s : State) (n x : Nat) (f : Ctx → Ctx) : (modCtx s n x f).launches = s.launches := rfl
@[simp] theorem modCtx_agenda (s : State) (n x : Nat) (f : Ctx → Ctx) : (modCtx s n x f).agenda = s.agenda := rfl
@[simp] theorem modCtx_arg (s : State) (n x : Nat) (f : Ctx → Ctx) : (modCtx s n x f).arg = s.arg := rfl
@[simp] theorem modCtx_geo (s : State) (n x : Nat) (f : Ctx → Ctx) : (modCtx s n x f).geo = s.geo := rfl
@[simp] theorem modCtx_recovery (s : State) (n x : Nat) (f : Ctx → Ctx) : (modCtx s n x f).recovery = s.recovery := rfl
@[simp] theorem modCtx_poweredOff (s : State) (n x : Nat) (f : Ctx → Ctx) : (modCtx s n x f).poweredOff = s.poweredOff := rfl
@[simp] theorem modCtx_flash (s : State) (n x : Nat) (f : Ctx → Ctx) : (modCtx s n x f).flash = s.flash := rfl
@[simp] theorem modCtx_flashBad (s : State) (n x : Nat) (f : Ctx → Ctx) : (modCtx s n x f).flashBad = s.flashBad := rfl
@[simp] theorem modCtx_minSvn (s : State) (n x : Nat) (f : Ctx → Ctx) : (modCtx s n x f).minSvn = s.minSvn := rfl
@[simp] theorem modCtx_running (s : State) (n x : Nat) (f : Ctx → Ctx) : (modCtx s n x f).running = s.running := rfl
@[simp] theorem modCtx_link (s : State) (n x : Nat) (f : Ctx → Ctx) : (modCtx s n x f).link = s.link := rfl
@[simp] theorem modCtx_features (s : State) (n x : Nat) (f : Ctx → Ctx) : (modCtx s n x f).features = s.features := rfl
@[simp] theorem modCtx_hdm0 (s : State) (n x : Nat) (f : Ctx → Ctx) : (modCtx s n x f).hdm0 = s.hdm0 := rfl
@[simp] theorem modCtx_hdm1 (s : State) (n x : Nat) (f : Ctx → Ctx) : (modCtx s n x f).hdm1 = s.hdm1 := rfl
@[simp] theorem modCtx_hdmOn (s : State) (n x : Nat) (f : Ctx → Ctx) : (modCtx s n x f).hdmOn = s.hdmOn := rfl
@[simp] theorem modCtx_hostHeld (s : State) (n x : Nat) (f : Ctx → Ctx) : (modCtx s n x f).hostHeld = s.hostHeld := rfl
@[simp] theorem modCtx_hostRead (s : State) (n x : Nat) (f : Ctx → Ctx) : (modCtx s n x f).hostRead = s.hostRead := rfl
@[simp] theorem modCtx_hostBad (s : State) (n x : Nat) (f : Ctx → Ctx) : (modCtx s n x f).hostBad = s.hostBad := rfl
@[simp] theorem modCtx_msix (s : State) (n x : Nat) (f : Ctx → Ctx) : (modCtx s n x f).msix = s.msix := rfl
@[simp] theorem modCtx_mailbox (s : State) (n x : Nat) (f : Ctx → Ctx) : (modCtx s n x f).mailbox = s.mailbox := rfl
@[simp] theorem modCtx_cmd (s : State) (n x : Nat) (f : Ctx → Ctx) : (modCtx s n x f).cmd = s.cmd := rfl
@[simp] theorem modCtx_cmds (s : State) (n x : Nat) (f : Ctx → Ctx) : (modCtx s n x f).cmds = s.cmds := rfl
@[simp] theorem modCtx_cmdGo (s : State) (n x : Nat) (f : Ctx → Ctx) : (modCtx s n x f).cmdGo = s.cmdGo := rfl
@[simp] theorem modCtx_doe (s : State) (n x : Nat) (f : Ctx → Ctx) : (modCtx s n x f).doe = s.doe := rfl
@[simp] theorem modCtx_spdmA (s : State) (n x : Nat) (f : Ctx → Ctx) : (modCtx s n x f).spdmA = s.spdmA := rfl
@[simp] theorem modCtx_spdmB (s : State) (n x : Nat) (f : Ctx → Ctx) : (modCtx s n x f).spdmB = s.spdmB := rfl
@[simp] theorem modCtx_spdmL (s : State) (n x : Nat) (f : Ctx → Ctx) : (modCtx s n x f).spdmL = s.spdmL := rfl
@[simp] theorem modCtx_sent (s : State) (n x : Nat) (f : Ctx → Ctx) : (modCtx s n x f).sent = s.sent := rfl
@[simp] theorem modCtx_log (s : State) (n x : Nat) (f : Ctx → Ctx) : (modCtx s n x f).log = s.log := rfl
@[simp] theorem modCtx_winUnder (s : State) (n x : Nat) (f : Ctx → Ctx) : (modCtx s n x f).winUnder = s.winUnder := rfl
@[simp] theorem modCtx_cxlLimit (s : State) (n x : Nat) (f : Ctx → Ctx) : (modCtx s n x f).cxlLimit = s.cxlLimit := rfl

/-! ## setCluster -/

@[simp] theorem setCluster_cyc (s : State) (n : Nat) (c : Cluster) : (setCluster s n c).cyc = s.cyc := rfl
@[simp] theorem setCluster_scan (s : State) (n : Nat) (c : Cluster) : (setCluster s n c).scan = s.scan := rfl
@[simp] theorem setCluster_late (s : State) (n : Nat) (c : Cluster) : (setCluster s n c).late = s.late := rfl
@[simp] theorem setCluster_gangUse (s : State) (n : Nat) (c : Cluster) : (setCluster s n c).gangUse = s.gangUse := rfl
@[simp] theorem setCluster_core (s : State) (n : Nat) (c : Cluster) : (setCluster s n c).core = s.core := rfl
@[simp] theorem setCluster_ctx (s : State) (n : Nat) (c : Cluster) : (setCluster s n c).ctx = s.ctx := rfl
@[simp] theorem setCluster_stalled (s : State) (n : Nat) (c : Cluster) : (setCluster s n c).stalled = s.stalled := rfl
@[simp] theorem setCluster_tick (s : State) (n : Nat) (c : Cluster) : (setCluster s n c).tick = s.tick := rfl
@[simp] theorem setCluster_nextId (s : State) (n : Nat) (c : Cluster) : (setCluster s n c).nextId = s.nextId := rfl
@[simp] theorem setCluster_cores (s : State) (n : Nat) (c : Cluster) : (setCluster s n c).cores = s.cores := rfl
@[simp] theorem setCluster_dies (s : State) (n : Nat) (c : Cluster) : (setCluster s n c).dies = s.dies := rfl
@[simp] theorem setCluster_mem (s : State) (n : Nat) (c : Cluster) : (setCluster s n c).mem = s.mem := rfl
@[simp] theorem setCluster_badLines (s : State) (n : Nat) (c : Cluster) : (setCluster s n c).badLines = s.badLines := rfl
@[simp] theorem setCluster_badCount (s : State) (n : Nat) (c : Cluster) : (setCluster s n c).badCount = s.badCount := rfl
@[simp] theorem setCluster_uses (s : State) (n : Nat) (c : Cluster) : (setCluster s n c).uses = s.uses := rfl
@[simp] theorem setCluster_ring (s : State) (n : Nat) (c : Cluster) : (setCluster s n c).ring = s.ring := rfl
@[simp] theorem setCluster_lanesOff (s : State) (n : Nat) (c : Cluster) : (setCluster s n c).lanesOff = s.lanesOff := rfl
@[simp] theorem setCluster_laneDue (s : State) (n : Nat) (c : Cluster) : (setCluster s n c).laneDue = s.laneDue := rfl
@[simp] theorem setCluster_root (s : State) (n : Nat) (c : Cluster) : (setCluster s n c).root = s.root := rfl
@[simp] theorem setCluster_access (s : State) (n : Nat) (c : Cluster) : (setCluster s n c).access = s.access := rfl
@[simp] theorem setCluster_locked (s : State) (n : Nat) (c : Cluster) : (setCluster s n c).locked = s.locked := rfl
@[simp] theorem setCluster_slotTab (s : State) (n : Nat) (c : Cluster) : (setCluster s n c).slotTab = s.slotTab := rfl
@[simp] theorem setCluster_acqs (s : State) (n : Nat) (c : Cluster) : (setCluster s n c).acqs = s.acqs := rfl
@[simp] theorem setCluster_binds (s : State) (n : Nat) (c : Cluster) : (setCluster s n c).binds = s.binds := rfl
@[simp] theorem setCluster_rounds (s : State) (n : Nat) (c : Cluster) : (setCluster s n c).rounds = s.rounds := rfl
@[simp] theorem setCluster_boards (s : State) (n : Nat) (c : Cluster) : (setCluster s n c).boards = s.boards := rfl
@[simp] theorem setCluster_lastBoard (s : State) (n : Nat) (c : Cluster) : (setCluster s n c).lastBoard = s.lastBoard := rfl
@[simp] theorem setCluster_launches (s : State) (n : Nat) (c : Cluster) : (setCluster s n c).launches = s.launches := rfl
@[simp] theorem setCluster_agenda (s : State) (n : Nat) (c : Cluster) : (setCluster s n c).agenda = s.agenda := rfl
@[simp] theorem setCluster_arg (s : State) (n : Nat) (c : Cluster) : (setCluster s n c).arg = s.arg := rfl
@[simp] theorem setCluster_geo (s : State) (n : Nat) (c : Cluster) : (setCluster s n c).geo = s.geo := rfl
@[simp] theorem setCluster_recovery (s : State) (n : Nat) (c : Cluster) : (setCluster s n c).recovery = s.recovery := rfl
@[simp] theorem setCluster_poweredOff (s : State) (n : Nat) (c : Cluster) : (setCluster s n c).poweredOff = s.poweredOff := rfl
@[simp] theorem setCluster_flash (s : State) (n : Nat) (c : Cluster) : (setCluster s n c).flash = s.flash := rfl
@[simp] theorem setCluster_flashBad (s : State) (n : Nat) (c : Cluster) : (setCluster s n c).flashBad = s.flashBad := rfl
@[simp] theorem setCluster_minSvn (s : State) (n : Nat) (c : Cluster) : (setCluster s n c).minSvn = s.minSvn := rfl
@[simp] theorem setCluster_running (s : State) (n : Nat) (c : Cluster) : (setCluster s n c).running = s.running := rfl
@[simp] theorem setCluster_link (s : State) (n : Nat) (c : Cluster) : (setCluster s n c).link = s.link := rfl
@[simp] theorem setCluster_features (s : State) (n : Nat) (c : Cluster) : (setCluster s n c).features = s.features := rfl
@[simp] theorem setCluster_hdm0 (s : State) (n : Nat) (c : Cluster) : (setCluster s n c).hdm0 = s.hdm0 := rfl
@[simp] theorem setCluster_hdm1 (s : State) (n : Nat) (c : Cluster) : (setCluster s n c).hdm1 = s.hdm1 := rfl
@[simp] theorem setCluster_hdmOn (s : State) (n : Nat) (c : Cluster) : (setCluster s n c).hdmOn = s.hdmOn := rfl
@[simp] theorem setCluster_hostHeld (s : State) (n : Nat) (c : Cluster) : (setCluster s n c).hostHeld = s.hostHeld := rfl
@[simp] theorem setCluster_hostRead (s : State) (n : Nat) (c : Cluster) : (setCluster s n c).hostRead = s.hostRead := rfl
@[simp] theorem setCluster_hostBad (s : State) (n : Nat) (c : Cluster) : (setCluster s n c).hostBad = s.hostBad := rfl
@[simp] theorem setCluster_msix (s : State) (n : Nat) (c : Cluster) : (setCluster s n c).msix = s.msix := rfl
@[simp] theorem setCluster_mailbox (s : State) (n : Nat) (c : Cluster) : (setCluster s n c).mailbox = s.mailbox := rfl
@[simp] theorem setCluster_cmd (s : State) (n : Nat) (c : Cluster) : (setCluster s n c).cmd = s.cmd := rfl
@[simp] theorem setCluster_cmds (s : State) (n : Nat) (c : Cluster) : (setCluster s n c).cmds = s.cmds := rfl
@[simp] theorem setCluster_cmdGo (s : State) (n : Nat) (c : Cluster) : (setCluster s n c).cmdGo = s.cmdGo := rfl
@[simp] theorem setCluster_doe (s : State) (n : Nat) (c : Cluster) : (setCluster s n c).doe = s.doe := rfl
@[simp] theorem setCluster_spdmA (s : State) (n : Nat) (c : Cluster) : (setCluster s n c).spdmA = s.spdmA := rfl
@[simp] theorem setCluster_spdmB (s : State) (n : Nat) (c : Cluster) : (setCluster s n c).spdmB = s.spdmB := rfl
@[simp] theorem setCluster_spdmL (s : State) (n : Nat) (c : Cluster) : (setCluster s n c).spdmL = s.spdmL := rfl
@[simp] theorem setCluster_sent (s : State) (n : Nat) (c : Cluster) : (setCluster s n c).sent = s.sent := rfl
@[simp] theorem setCluster_log (s : State) (n : Nat) (c : Cluster) : (setCluster s n c).log = s.log := rfl
@[simp] theorem setCluster_winUnder (s : State) (n : Nat) (c : Cluster) : (setCluster s n c).winUnder = s.winUnder := rfl
@[simp] theorem setCluster_cxlLimit (s : State) (n : Nat) (c : Cluster) : (setCluster s n c).cxlLimit = s.cxlLimit := rfl

/-! ## modCluster -/

@[simp] theorem modCluster_cyc (s : State) (n : Nat) (f : Cluster → Cluster) : (modCluster s n f).cyc = s.cyc := rfl
@[simp] theorem modCluster_scan (s : State) (n : Nat) (f : Cluster → Cluster) : (modCluster s n f).scan = s.scan := rfl
@[simp] theorem modCluster_late (s : State) (n : Nat) (f : Cluster → Cluster) : (modCluster s n f).late = s.late := rfl
@[simp] theorem modCluster_gangUse (s : State) (n : Nat) (f : Cluster → Cluster) : (modCluster s n f).gangUse = s.gangUse := rfl
@[simp] theorem modCluster_core (s : State) (n : Nat) (f : Cluster → Cluster) : (modCluster s n f).core = s.core := rfl
@[simp] theorem modCluster_ctx (s : State) (n : Nat) (f : Cluster → Cluster) : (modCluster s n f).ctx = s.ctx := rfl
@[simp] theorem modCluster_stalled (s : State) (n : Nat) (f : Cluster → Cluster) : (modCluster s n f).stalled = s.stalled := rfl
@[simp] theorem modCluster_tick (s : State) (n : Nat) (f : Cluster → Cluster) : (modCluster s n f).tick = s.tick := rfl
@[simp] theorem modCluster_nextId (s : State) (n : Nat) (f : Cluster → Cluster) : (modCluster s n f).nextId = s.nextId := rfl
@[simp] theorem modCluster_cores (s : State) (n : Nat) (f : Cluster → Cluster) : (modCluster s n f).cores = s.cores := rfl
@[simp] theorem modCluster_dies (s : State) (n : Nat) (f : Cluster → Cluster) : (modCluster s n f).dies = s.dies := rfl
@[simp] theorem modCluster_mem (s : State) (n : Nat) (f : Cluster → Cluster) : (modCluster s n f).mem = s.mem := rfl
@[simp] theorem modCluster_badLines (s : State) (n : Nat) (f : Cluster → Cluster) : (modCluster s n f).badLines = s.badLines := rfl
@[simp] theorem modCluster_badCount (s : State) (n : Nat) (f : Cluster → Cluster) : (modCluster s n f).badCount = s.badCount := rfl
@[simp] theorem modCluster_uses (s : State) (n : Nat) (f : Cluster → Cluster) : (modCluster s n f).uses = s.uses := rfl
@[simp] theorem modCluster_ring (s : State) (n : Nat) (f : Cluster → Cluster) : (modCluster s n f).ring = s.ring := rfl
@[simp] theorem modCluster_lanesOff (s : State) (n : Nat) (f : Cluster → Cluster) : (modCluster s n f).lanesOff = s.lanesOff := rfl
@[simp] theorem modCluster_laneDue (s : State) (n : Nat) (f : Cluster → Cluster) : (modCluster s n f).laneDue = s.laneDue := rfl
@[simp] theorem modCluster_root (s : State) (n : Nat) (f : Cluster → Cluster) : (modCluster s n f).root = s.root := rfl
@[simp] theorem modCluster_access (s : State) (n : Nat) (f : Cluster → Cluster) : (modCluster s n f).access = s.access := rfl
@[simp] theorem modCluster_locked (s : State) (n : Nat) (f : Cluster → Cluster) : (modCluster s n f).locked = s.locked := rfl
@[simp] theorem modCluster_slotTab (s : State) (n : Nat) (f : Cluster → Cluster) : (modCluster s n f).slotTab = s.slotTab := rfl
@[simp] theorem modCluster_acqs (s : State) (n : Nat) (f : Cluster → Cluster) : (modCluster s n f).acqs = s.acqs := rfl
@[simp] theorem modCluster_binds (s : State) (n : Nat) (f : Cluster → Cluster) : (modCluster s n f).binds = s.binds := rfl
@[simp] theorem modCluster_rounds (s : State) (n : Nat) (f : Cluster → Cluster) : (modCluster s n f).rounds = s.rounds := rfl
@[simp] theorem modCluster_boards (s : State) (n : Nat) (f : Cluster → Cluster) : (modCluster s n f).boards = s.boards := rfl
@[simp] theorem modCluster_lastBoard (s : State) (n : Nat) (f : Cluster → Cluster) : (modCluster s n f).lastBoard = s.lastBoard := rfl
@[simp] theorem modCluster_launches (s : State) (n : Nat) (f : Cluster → Cluster) : (modCluster s n f).launches = s.launches := rfl
@[simp] theorem modCluster_agenda (s : State) (n : Nat) (f : Cluster → Cluster) : (modCluster s n f).agenda = s.agenda := rfl
@[simp] theorem modCluster_arg (s : State) (n : Nat) (f : Cluster → Cluster) : (modCluster s n f).arg = s.arg := rfl
@[simp] theorem modCluster_geo (s : State) (n : Nat) (f : Cluster → Cluster) : (modCluster s n f).geo = s.geo := rfl
@[simp] theorem modCluster_recovery (s : State) (n : Nat) (f : Cluster → Cluster) : (modCluster s n f).recovery = s.recovery := rfl
@[simp] theorem modCluster_poweredOff (s : State) (n : Nat) (f : Cluster → Cluster) : (modCluster s n f).poweredOff = s.poweredOff := rfl
@[simp] theorem modCluster_flash (s : State) (n : Nat) (f : Cluster → Cluster) : (modCluster s n f).flash = s.flash := rfl
@[simp] theorem modCluster_flashBad (s : State) (n : Nat) (f : Cluster → Cluster) : (modCluster s n f).flashBad = s.flashBad := rfl
@[simp] theorem modCluster_minSvn (s : State) (n : Nat) (f : Cluster → Cluster) : (modCluster s n f).minSvn = s.minSvn := rfl
@[simp] theorem modCluster_running (s : State) (n : Nat) (f : Cluster → Cluster) : (modCluster s n f).running = s.running := rfl
@[simp] theorem modCluster_link (s : State) (n : Nat) (f : Cluster → Cluster) : (modCluster s n f).link = s.link := rfl
@[simp] theorem modCluster_features (s : State) (n : Nat) (f : Cluster → Cluster) : (modCluster s n f).features = s.features := rfl
@[simp] theorem modCluster_hdm0 (s : State) (n : Nat) (f : Cluster → Cluster) : (modCluster s n f).hdm0 = s.hdm0 := rfl
@[simp] theorem modCluster_hdm1 (s : State) (n : Nat) (f : Cluster → Cluster) : (modCluster s n f).hdm1 = s.hdm1 := rfl
@[simp] theorem modCluster_hdmOn (s : State) (n : Nat) (f : Cluster → Cluster) : (modCluster s n f).hdmOn = s.hdmOn := rfl
@[simp] theorem modCluster_hostHeld (s : State) (n : Nat) (f : Cluster → Cluster) : (modCluster s n f).hostHeld = s.hostHeld := rfl
@[simp] theorem modCluster_hostRead (s : State) (n : Nat) (f : Cluster → Cluster) : (modCluster s n f).hostRead = s.hostRead := rfl
@[simp] theorem modCluster_hostBad (s : State) (n : Nat) (f : Cluster → Cluster) : (modCluster s n f).hostBad = s.hostBad := rfl
@[simp] theorem modCluster_msix (s : State) (n : Nat) (f : Cluster → Cluster) : (modCluster s n f).msix = s.msix := rfl
@[simp] theorem modCluster_mailbox (s : State) (n : Nat) (f : Cluster → Cluster) : (modCluster s n f).mailbox = s.mailbox := rfl
@[simp] theorem modCluster_cmd (s : State) (n : Nat) (f : Cluster → Cluster) : (modCluster s n f).cmd = s.cmd := rfl
@[simp] theorem modCluster_cmds (s : State) (n : Nat) (f : Cluster → Cluster) : (modCluster s n f).cmds = s.cmds := rfl
@[simp] theorem modCluster_cmdGo (s : State) (n : Nat) (f : Cluster → Cluster) : (modCluster s n f).cmdGo = s.cmdGo := rfl
@[simp] theorem modCluster_doe (s : State) (n : Nat) (f : Cluster → Cluster) : (modCluster s n f).doe = s.doe := rfl
@[simp] theorem modCluster_spdmA (s : State) (n : Nat) (f : Cluster → Cluster) : (modCluster s n f).spdmA = s.spdmA := rfl
@[simp] theorem modCluster_spdmB (s : State) (n : Nat) (f : Cluster → Cluster) : (modCluster s n f).spdmB = s.spdmB := rfl
@[simp] theorem modCluster_spdmL (s : State) (n : Nat) (f : Cluster → Cluster) : (modCluster s n f).spdmL = s.spdmL := rfl
@[simp] theorem modCluster_sent (s : State) (n : Nat) (f : Cluster → Cluster) : (modCluster s n f).sent = s.sent := rfl
@[simp] theorem modCluster_log (s : State) (n : Nat) (f : Cluster → Cluster) : (modCluster s n f).log = s.log := rfl
@[simp] theorem modCluster_winUnder (s : State) (n : Nat) (f : Cluster → Cluster) : (modCluster s n f).winUnder = s.winUnder := rfl
@[simp] theorem modCluster_cxlLimit (s : State) (n : Nat) (f : Cluster → Cluster) : (modCluster s n f).cxlLimit = s.cxlLimit := rfl

/-! ## setDie -/

@[simp] theorem setDie_cyc (s : State) (n : Nat) (d : Die) : (setDie s n d).cyc = s.cyc := rfl
@[simp] theorem setDie_scan (s : State) (n : Nat) (d : Die) : (setDie s n d).scan = s.scan := rfl
@[simp] theorem setDie_late (s : State) (n : Nat) (d : Die) : (setDie s n d).late = s.late := rfl
@[simp] theorem setDie_gangUse (s : State) (n : Nat) (d : Die) : (setDie s n d).gangUse = s.gangUse := rfl
@[simp] theorem setDie_core (s : State) (n : Nat) (d : Die) : (setDie s n d).core = s.core := rfl
@[simp] theorem setDie_ctx (s : State) (n : Nat) (d : Die) : (setDie s n d).ctx = s.ctx := rfl
@[simp] theorem setDie_stalled (s : State) (n : Nat) (d : Die) : (setDie s n d).stalled = s.stalled := rfl
@[simp] theorem setDie_tick (s : State) (n : Nat) (d : Die) : (setDie s n d).tick = s.tick := rfl
@[simp] theorem setDie_nextId (s : State) (n : Nat) (d : Die) : (setDie s n d).nextId = s.nextId := rfl
@[simp] theorem setDie_cores (s : State) (n : Nat) (d : Die) : (setDie s n d).cores = s.cores := rfl
@[simp] theorem setDie_clusters (s : State) (n : Nat) (d : Die) : (setDie s n d).clusters = s.clusters := rfl
@[simp] theorem setDie_mem (s : State) (n : Nat) (d : Die) : (setDie s n d).mem = s.mem := rfl
@[simp] theorem setDie_badLines (s : State) (n : Nat) (d : Die) : (setDie s n d).badLines = s.badLines := rfl
@[simp] theorem setDie_badCount (s : State) (n : Nat) (d : Die) : (setDie s n d).badCount = s.badCount := rfl
@[simp] theorem setDie_uses (s : State) (n : Nat) (d : Die) : (setDie s n d).uses = s.uses := rfl
@[simp] theorem setDie_ring (s : State) (n : Nat) (d : Die) : (setDie s n d).ring = s.ring := rfl
@[simp] theorem setDie_lanesOff (s : State) (n : Nat) (d : Die) : (setDie s n d).lanesOff = s.lanesOff := rfl
@[simp] theorem setDie_laneDue (s : State) (n : Nat) (d : Die) : (setDie s n d).laneDue = s.laneDue := rfl
@[simp] theorem setDie_root (s : State) (n : Nat) (d : Die) : (setDie s n d).root = s.root := rfl
@[simp] theorem setDie_access (s : State) (n : Nat) (d : Die) : (setDie s n d).access = s.access := rfl
@[simp] theorem setDie_locked (s : State) (n : Nat) (d : Die) : (setDie s n d).locked = s.locked := rfl
@[simp] theorem setDie_slotTab (s : State) (n : Nat) (d : Die) : (setDie s n d).slotTab = s.slotTab := rfl
@[simp] theorem setDie_acqs (s : State) (n : Nat) (d : Die) : (setDie s n d).acqs = s.acqs := rfl
@[simp] theorem setDie_binds (s : State) (n : Nat) (d : Die) : (setDie s n d).binds = s.binds := rfl
@[simp] theorem setDie_rounds (s : State) (n : Nat) (d : Die) : (setDie s n d).rounds = s.rounds := rfl
@[simp] theorem setDie_boards (s : State) (n : Nat) (d : Die) : (setDie s n d).boards = s.boards := rfl
@[simp] theorem setDie_lastBoard (s : State) (n : Nat) (d : Die) : (setDie s n d).lastBoard = s.lastBoard := rfl
@[simp] theorem setDie_launches (s : State) (n : Nat) (d : Die) : (setDie s n d).launches = s.launches := rfl
@[simp] theorem setDie_agenda (s : State) (n : Nat) (d : Die) : (setDie s n d).agenda = s.agenda := rfl
@[simp] theorem setDie_arg (s : State) (n : Nat) (d : Die) : (setDie s n d).arg = s.arg := rfl
@[simp] theorem setDie_geo (s : State) (n : Nat) (d : Die) : (setDie s n d).geo = s.geo := rfl
@[simp] theorem setDie_recovery (s : State) (n : Nat) (d : Die) : (setDie s n d).recovery = s.recovery := rfl
@[simp] theorem setDie_poweredOff (s : State) (n : Nat) (d : Die) : (setDie s n d).poweredOff = s.poweredOff := rfl
@[simp] theorem setDie_flash (s : State) (n : Nat) (d : Die) : (setDie s n d).flash = s.flash := rfl
@[simp] theorem setDie_flashBad (s : State) (n : Nat) (d : Die) : (setDie s n d).flashBad = s.flashBad := rfl
@[simp] theorem setDie_minSvn (s : State) (n : Nat) (d : Die) : (setDie s n d).minSvn = s.minSvn := rfl
@[simp] theorem setDie_running (s : State) (n : Nat) (d : Die) : (setDie s n d).running = s.running := rfl
@[simp] theorem setDie_link (s : State) (n : Nat) (d : Die) : (setDie s n d).link = s.link := rfl
@[simp] theorem setDie_features (s : State) (n : Nat) (d : Die) : (setDie s n d).features = s.features := rfl
@[simp] theorem setDie_hdm0 (s : State) (n : Nat) (d : Die) : (setDie s n d).hdm0 = s.hdm0 := rfl
@[simp] theorem setDie_hdm1 (s : State) (n : Nat) (d : Die) : (setDie s n d).hdm1 = s.hdm1 := rfl
@[simp] theorem setDie_hdmOn (s : State) (n : Nat) (d : Die) : (setDie s n d).hdmOn = s.hdmOn := rfl
@[simp] theorem setDie_hostHeld (s : State) (n : Nat) (d : Die) : (setDie s n d).hostHeld = s.hostHeld := rfl
@[simp] theorem setDie_hostRead (s : State) (n : Nat) (d : Die) : (setDie s n d).hostRead = s.hostRead := rfl
@[simp] theorem setDie_hostBad (s : State) (n : Nat) (d : Die) : (setDie s n d).hostBad = s.hostBad := rfl
@[simp] theorem setDie_msix (s : State) (n : Nat) (d : Die) : (setDie s n d).msix = s.msix := rfl
@[simp] theorem setDie_mailbox (s : State) (n : Nat) (d : Die) : (setDie s n d).mailbox = s.mailbox := rfl
@[simp] theorem setDie_cmd (s : State) (n : Nat) (d : Die) : (setDie s n d).cmd = s.cmd := rfl
@[simp] theorem setDie_cmds (s : State) (n : Nat) (d : Die) : (setDie s n d).cmds = s.cmds := rfl
@[simp] theorem setDie_cmdGo (s : State) (n : Nat) (d : Die) : (setDie s n d).cmdGo = s.cmdGo := rfl
@[simp] theorem setDie_doe (s : State) (n : Nat) (d : Die) : (setDie s n d).doe = s.doe := rfl
@[simp] theorem setDie_spdmA (s : State) (n : Nat) (d : Die) : (setDie s n d).spdmA = s.spdmA := rfl
@[simp] theorem setDie_spdmB (s : State) (n : Nat) (d : Die) : (setDie s n d).spdmB = s.spdmB := rfl
@[simp] theorem setDie_spdmL (s : State) (n : Nat) (d : Die) : (setDie s n d).spdmL = s.spdmL := rfl
@[simp] theorem setDie_sent (s : State) (n : Nat) (d : Die) : (setDie s n d).sent = s.sent := rfl
@[simp] theorem setDie_log (s : State) (n : Nat) (d : Die) : (setDie s n d).log = s.log := rfl
@[simp] theorem setDie_winUnder (s : State) (n : Nat) (d : Die) : (setDie s n d).winUnder = s.winUnder := rfl
@[simp] theorem setDie_cxlLimit (s : State) (n : Nat) (d : Die) : (setDie s n d).cxlLimit = s.cxlLimit := rfl

/-! ## modDie -/

@[simp] theorem modDie_cyc (s : State) (n : Nat) (f : Die → Die) : (modDie s n f).cyc = s.cyc := rfl
@[simp] theorem modDie_scan (s : State) (n : Nat) (f : Die → Die) : (modDie s n f).scan = s.scan := rfl
@[simp] theorem modDie_late (s : State) (n : Nat) (f : Die → Die) : (modDie s n f).late = s.late := rfl
@[simp] theorem modDie_gangUse (s : State) (n : Nat) (f : Die → Die) : (modDie s n f).gangUse = s.gangUse := rfl
@[simp] theorem modDie_core (s : State) (n : Nat) (f : Die → Die) : (modDie s n f).core = s.core := rfl
@[simp] theorem modDie_ctx (s : State) (n : Nat) (f : Die → Die) : (modDie s n f).ctx = s.ctx := rfl
@[simp] theorem modDie_stalled (s : State) (n : Nat) (f : Die → Die) : (modDie s n f).stalled = s.stalled := rfl
@[simp] theorem modDie_tick (s : State) (n : Nat) (f : Die → Die) : (modDie s n f).tick = s.tick := rfl
@[simp] theorem modDie_nextId (s : State) (n : Nat) (f : Die → Die) : (modDie s n f).nextId = s.nextId := rfl
@[simp] theorem modDie_cores (s : State) (n : Nat) (f : Die → Die) : (modDie s n f).cores = s.cores := rfl
@[simp] theorem modDie_clusters (s : State) (n : Nat) (f : Die → Die) : (modDie s n f).clusters = s.clusters := rfl
@[simp] theorem modDie_mem (s : State) (n : Nat) (f : Die → Die) : (modDie s n f).mem = s.mem := rfl
@[simp] theorem modDie_badLines (s : State) (n : Nat) (f : Die → Die) : (modDie s n f).badLines = s.badLines := rfl
@[simp] theorem modDie_badCount (s : State) (n : Nat) (f : Die → Die) : (modDie s n f).badCount = s.badCount := rfl
@[simp] theorem modDie_uses (s : State) (n : Nat) (f : Die → Die) : (modDie s n f).uses = s.uses := rfl
@[simp] theorem modDie_ring (s : State) (n : Nat) (f : Die → Die) : (modDie s n f).ring = s.ring := rfl
@[simp] theorem modDie_lanesOff (s : State) (n : Nat) (f : Die → Die) : (modDie s n f).lanesOff = s.lanesOff := rfl
@[simp] theorem modDie_laneDue (s : State) (n : Nat) (f : Die → Die) : (modDie s n f).laneDue = s.laneDue := rfl
@[simp] theorem modDie_root (s : State) (n : Nat) (f : Die → Die) : (modDie s n f).root = s.root := rfl
@[simp] theorem modDie_access (s : State) (n : Nat) (f : Die → Die) : (modDie s n f).access = s.access := rfl
@[simp] theorem modDie_locked (s : State) (n : Nat) (f : Die → Die) : (modDie s n f).locked = s.locked := rfl
@[simp] theorem modDie_slotTab (s : State) (n : Nat) (f : Die → Die) : (modDie s n f).slotTab = s.slotTab := rfl
@[simp] theorem modDie_acqs (s : State) (n : Nat) (f : Die → Die) : (modDie s n f).acqs = s.acqs := rfl
@[simp] theorem modDie_binds (s : State) (n : Nat) (f : Die → Die) : (modDie s n f).binds = s.binds := rfl
@[simp] theorem modDie_rounds (s : State) (n : Nat) (f : Die → Die) : (modDie s n f).rounds = s.rounds := rfl
@[simp] theorem modDie_boards (s : State) (n : Nat) (f : Die → Die) : (modDie s n f).boards = s.boards := rfl
@[simp] theorem modDie_lastBoard (s : State) (n : Nat) (f : Die → Die) : (modDie s n f).lastBoard = s.lastBoard := rfl
@[simp] theorem modDie_launches (s : State) (n : Nat) (f : Die → Die) : (modDie s n f).launches = s.launches := rfl
@[simp] theorem modDie_agenda (s : State) (n : Nat) (f : Die → Die) : (modDie s n f).agenda = s.agenda := rfl
@[simp] theorem modDie_arg (s : State) (n : Nat) (f : Die → Die) : (modDie s n f).arg = s.arg := rfl
@[simp] theorem modDie_geo (s : State) (n : Nat) (f : Die → Die) : (modDie s n f).geo = s.geo := rfl
@[simp] theorem modDie_recovery (s : State) (n : Nat) (f : Die → Die) : (modDie s n f).recovery = s.recovery := rfl
@[simp] theorem modDie_poweredOff (s : State) (n : Nat) (f : Die → Die) : (modDie s n f).poweredOff = s.poweredOff := rfl
@[simp] theorem modDie_flash (s : State) (n : Nat) (f : Die → Die) : (modDie s n f).flash = s.flash := rfl
@[simp] theorem modDie_flashBad (s : State) (n : Nat) (f : Die → Die) : (modDie s n f).flashBad = s.flashBad := rfl
@[simp] theorem modDie_minSvn (s : State) (n : Nat) (f : Die → Die) : (modDie s n f).minSvn = s.minSvn := rfl
@[simp] theorem modDie_running (s : State) (n : Nat) (f : Die → Die) : (modDie s n f).running = s.running := rfl
@[simp] theorem modDie_link (s : State) (n : Nat) (f : Die → Die) : (modDie s n f).link = s.link := rfl
@[simp] theorem modDie_features (s : State) (n : Nat) (f : Die → Die) : (modDie s n f).features = s.features := rfl
@[simp] theorem modDie_hdm0 (s : State) (n : Nat) (f : Die → Die) : (modDie s n f).hdm0 = s.hdm0 := rfl
@[simp] theorem modDie_hdm1 (s : State) (n : Nat) (f : Die → Die) : (modDie s n f).hdm1 = s.hdm1 := rfl
@[simp] theorem modDie_hdmOn (s : State) (n : Nat) (f : Die → Die) : (modDie s n f).hdmOn = s.hdmOn := rfl
@[simp] theorem modDie_hostHeld (s : State) (n : Nat) (f : Die → Die) : (modDie s n f).hostHeld = s.hostHeld := rfl
@[simp] theorem modDie_hostRead (s : State) (n : Nat) (f : Die → Die) : (modDie s n f).hostRead = s.hostRead := rfl
@[simp] theorem modDie_hostBad (s : State) (n : Nat) (f : Die → Die) : (modDie s n f).hostBad = s.hostBad := rfl
@[simp] theorem modDie_msix (s : State) (n : Nat) (f : Die → Die) : (modDie s n f).msix = s.msix := rfl
@[simp] theorem modDie_mailbox (s : State) (n : Nat) (f : Die → Die) : (modDie s n f).mailbox = s.mailbox := rfl
@[simp] theorem modDie_cmd (s : State) (n : Nat) (f : Die → Die) : (modDie s n f).cmd = s.cmd := rfl
@[simp] theorem modDie_cmds (s : State) (n : Nat) (f : Die → Die) : (modDie s n f).cmds = s.cmds := rfl
@[simp] theorem modDie_cmdGo (s : State) (n : Nat) (f : Die → Die) : (modDie s n f).cmdGo = s.cmdGo := rfl
@[simp] theorem modDie_doe (s : State) (n : Nat) (f : Die → Die) : (modDie s n f).doe = s.doe := rfl
@[simp] theorem modDie_spdmA (s : State) (n : Nat) (f : Die → Die) : (modDie s n f).spdmA = s.spdmA := rfl
@[simp] theorem modDie_spdmB (s : State) (n : Nat) (f : Die → Die) : (modDie s n f).spdmB = s.spdmB := rfl
@[simp] theorem modDie_spdmL (s : State) (n : Nat) (f : Die → Die) : (modDie s n f).spdmL = s.spdmL := rfl
@[simp] theorem modDie_sent (s : State) (n : Nat) (f : Die → Die) : (modDie s n f).sent = s.sent := rfl
@[simp] theorem modDie_log (s : State) (n : Nat) (f : Die → Die) : (modDie s n f).log = s.log := rfl
@[simp] theorem modDie_winUnder (s : State) (n : Nat) (f : Die → Die) : (modDie s n f).winUnder = s.winUnder := rfl
@[simp] theorem modDie_cxlLimit (s : State) (n : Nat) (f : Die → Die) : (modDie s n f).cxlLimit = s.cxlLimit := rfl

/-! ## later -/

@[simp] theorem later_cyc (s : State) (n : Nat) (ev : Instr) (arg : EvArg) : (later s n ev arg).cyc = s.cyc := rfl
@[simp] theorem later_scan (s : State) (n : Nat) (ev : Instr) (arg : EvArg) : (later s n ev arg).scan = s.scan := rfl
@[simp] theorem later_late (s : State) (n : Nat) (ev : Instr) (arg : EvArg) : (later s n ev arg).late = s.late := rfl
@[simp] theorem later_gangUse (s : State) (n : Nat) (ev : Instr) (arg : EvArg) : (later s n ev arg).gangUse = s.gangUse := rfl
@[simp] theorem later_core (s : State) (n : Nat) (ev : Instr) (arg : EvArg) : (later s n ev arg).core = s.core := rfl
@[simp] theorem later_ctx (s : State) (n : Nat) (ev : Instr) (arg : EvArg) : (later s n ev arg).ctx = s.ctx := rfl
@[simp] theorem later_stalled (s : State) (n : Nat) (ev : Instr) (arg : EvArg) : (later s n ev arg).stalled = s.stalled := rfl
@[simp] theorem later_tick (s : State) (n : Nat) (ev : Instr) (arg : EvArg) : (later s n ev arg).tick = s.tick := rfl
@[simp] theorem later_nextId (s : State) (n : Nat) (ev : Instr) (arg : EvArg) : (later s n ev arg).nextId = s.nextId := rfl
@[simp] theorem later_cores (s : State) (n : Nat) (ev : Instr) (arg : EvArg) : (later s n ev arg).cores = s.cores := rfl
@[simp] theorem later_clusters (s : State) (n : Nat) (ev : Instr) (arg : EvArg) : (later s n ev arg).clusters = s.clusters := rfl
@[simp] theorem later_dies (s : State) (n : Nat) (ev : Instr) (arg : EvArg) : (later s n ev arg).dies = s.dies := rfl
@[simp] theorem later_mem (s : State) (n : Nat) (ev : Instr) (arg : EvArg) : (later s n ev arg).mem = s.mem := rfl
@[simp] theorem later_badLines (s : State) (n : Nat) (ev : Instr) (arg : EvArg) : (later s n ev arg).badLines = s.badLines := rfl
@[simp] theorem later_badCount (s : State) (n : Nat) (ev : Instr) (arg : EvArg) : (later s n ev arg).badCount = s.badCount := rfl
@[simp] theorem later_uses (s : State) (n : Nat) (ev : Instr) (arg : EvArg) : (later s n ev arg).uses = s.uses := rfl
@[simp] theorem later_ring (s : State) (n : Nat) (ev : Instr) (arg : EvArg) : (later s n ev arg).ring = s.ring := rfl
@[simp] theorem later_lanesOff (s : State) (n : Nat) (ev : Instr) (arg : EvArg) : (later s n ev arg).lanesOff = s.lanesOff := rfl
@[simp] theorem later_laneDue (s : State) (n : Nat) (ev : Instr) (arg : EvArg) : (later s n ev arg).laneDue = s.laneDue := rfl
@[simp] theorem later_root (s : State) (n : Nat) (ev : Instr) (arg : EvArg) : (later s n ev arg).root = s.root := rfl
@[simp] theorem later_access (s : State) (n : Nat) (ev : Instr) (arg : EvArg) : (later s n ev arg).access = s.access := rfl
@[simp] theorem later_locked (s : State) (n : Nat) (ev : Instr) (arg : EvArg) : (later s n ev arg).locked = s.locked := rfl
@[simp] theorem later_slotTab (s : State) (n : Nat) (ev : Instr) (arg : EvArg) : (later s n ev arg).slotTab = s.slotTab := rfl
@[simp] theorem later_acqs (s : State) (n : Nat) (ev : Instr) (arg : EvArg) : (later s n ev arg).acqs = s.acqs := rfl
@[simp] theorem later_binds (s : State) (n : Nat) (ev : Instr) (arg : EvArg) : (later s n ev arg).binds = s.binds := rfl
@[simp] theorem later_rounds (s : State) (n : Nat) (ev : Instr) (arg : EvArg) : (later s n ev arg).rounds = s.rounds := rfl
@[simp] theorem later_boards (s : State) (n : Nat) (ev : Instr) (arg : EvArg) : (later s n ev arg).boards = s.boards := rfl
@[simp] theorem later_lastBoard (s : State) (n : Nat) (ev : Instr) (arg : EvArg) : (later s n ev arg).lastBoard = s.lastBoard := rfl
@[simp] theorem later_launches (s : State) (n : Nat) (ev : Instr) (arg : EvArg) : (later s n ev arg).launches = s.launches := rfl
@[simp] theorem later_arg (s : State) (n : Nat) (ev : Instr) (arg : EvArg) : (later s n ev arg).arg = s.arg := rfl
@[simp] theorem later_geo (s : State) (n : Nat) (ev : Instr) (arg : EvArg) : (later s n ev arg).geo = s.geo := rfl
@[simp] theorem later_recovery (s : State) (n : Nat) (ev : Instr) (arg : EvArg) : (later s n ev arg).recovery = s.recovery := rfl
@[simp] theorem later_poweredOff (s : State) (n : Nat) (ev : Instr) (arg : EvArg) : (later s n ev arg).poweredOff = s.poweredOff := rfl
@[simp] theorem later_flash (s : State) (n : Nat) (ev : Instr) (arg : EvArg) : (later s n ev arg).flash = s.flash := rfl
@[simp] theorem later_flashBad (s : State) (n : Nat) (ev : Instr) (arg : EvArg) : (later s n ev arg).flashBad = s.flashBad := rfl
@[simp] theorem later_minSvn (s : State) (n : Nat) (ev : Instr) (arg : EvArg) : (later s n ev arg).minSvn = s.minSvn := rfl
@[simp] theorem later_running (s : State) (n : Nat) (ev : Instr) (arg : EvArg) : (later s n ev arg).running = s.running := rfl
@[simp] theorem later_link (s : State) (n : Nat) (ev : Instr) (arg : EvArg) : (later s n ev arg).link = s.link := rfl
@[simp] theorem later_features (s : State) (n : Nat) (ev : Instr) (arg : EvArg) : (later s n ev arg).features = s.features := rfl
@[simp] theorem later_hdm0 (s : State) (n : Nat) (ev : Instr) (arg : EvArg) : (later s n ev arg).hdm0 = s.hdm0 := rfl
@[simp] theorem later_hdm1 (s : State) (n : Nat) (ev : Instr) (arg : EvArg) : (later s n ev arg).hdm1 = s.hdm1 := rfl
@[simp] theorem later_hdmOn (s : State) (n : Nat) (ev : Instr) (arg : EvArg) : (later s n ev arg).hdmOn = s.hdmOn := rfl
@[simp] theorem later_hostHeld (s : State) (n : Nat) (ev : Instr) (arg : EvArg) : (later s n ev arg).hostHeld = s.hostHeld := rfl
@[simp] theorem later_hostRead (s : State) (n : Nat) (ev : Instr) (arg : EvArg) : (later s n ev arg).hostRead = s.hostRead := rfl
@[simp] theorem later_hostBad (s : State) (n : Nat) (ev : Instr) (arg : EvArg) : (later s n ev arg).hostBad = s.hostBad := rfl
@[simp] theorem later_msix (s : State) (n : Nat) (ev : Instr) (arg : EvArg) : (later s n ev arg).msix = s.msix := rfl
@[simp] theorem later_mailbox (s : State) (n : Nat) (ev : Instr) (arg : EvArg) : (later s n ev arg).mailbox = s.mailbox := rfl
@[simp] theorem later_cmd (s : State) (n : Nat) (ev : Instr) (arg : EvArg) : (later s n ev arg).cmd = s.cmd := rfl
@[simp] theorem later_cmds (s : State) (n : Nat) (ev : Instr) (arg : EvArg) : (later s n ev arg).cmds = s.cmds := rfl
@[simp] theorem later_cmdGo (s : State) (n : Nat) (ev : Instr) (arg : EvArg) : (later s n ev arg).cmdGo = s.cmdGo := rfl
@[simp] theorem later_doe (s : State) (n : Nat) (ev : Instr) (arg : EvArg) : (later s n ev arg).doe = s.doe := rfl
@[simp] theorem later_spdmA (s : State) (n : Nat) (ev : Instr) (arg : EvArg) : (later s n ev arg).spdmA = s.spdmA := rfl
@[simp] theorem later_spdmB (s : State) (n : Nat) (ev : Instr) (arg : EvArg) : (later s n ev arg).spdmB = s.spdmB := rfl
@[simp] theorem later_spdmL (s : State) (n : Nat) (ev : Instr) (arg : EvArg) : (later s n ev arg).spdmL = s.spdmL := rfl
@[simp] theorem later_sent (s : State) (n : Nat) (ev : Instr) (arg : EvArg) : (later s n ev arg).sent = s.sent := rfl
@[simp] theorem later_log (s : State) (n : Nat) (ev : Instr) (arg : EvArg) : (later s n ev arg).log = s.log := rfl
@[simp] theorem later_winUnder (s : State) (n : Nat) (ev : Instr) (arg : EvArg) : (later s n ev arg).winUnder = s.winUnder := rfl
@[simp] theorem later_cxlLimit (s : State) (n : Nat) (ev : Instr) (arg : EvArg) : (later s n ev arg).cxlLimit = s.cxlLimit := rfl

/-! ## sometime -/

@[simp] theorem sometime_cyc (s : State) (ev : Instr) (arg : EvArg) : (sometime s ev arg).cyc = s.cyc := rfl
@[simp] theorem sometime_scan (s : State) (ev : Instr) (arg : EvArg) : (sometime s ev arg).scan = s.scan := rfl
@[simp] theorem sometime_late (s : State) (ev : Instr) (arg : EvArg) : (sometime s ev arg).late = s.late := rfl
@[simp] theorem sometime_gangUse (s : State) (ev : Instr) (arg : EvArg) : (sometime s ev arg).gangUse = s.gangUse := rfl
@[simp] theorem sometime_core (s : State) (ev : Instr) (arg : EvArg) : (sometime s ev arg).core = s.core := rfl
@[simp] theorem sometime_ctx (s : State) (ev : Instr) (arg : EvArg) : (sometime s ev arg).ctx = s.ctx := rfl
@[simp] theorem sometime_stalled (s : State) (ev : Instr) (arg : EvArg) : (sometime s ev arg).stalled = s.stalled := rfl
@[simp] theorem sometime_nextId (s : State) (ev : Instr) (arg : EvArg) : (sometime s ev arg).nextId = s.nextId := rfl
@[simp] theorem sometime_cores (s : State) (ev : Instr) (arg : EvArg) : (sometime s ev arg).cores = s.cores := rfl
@[simp] theorem sometime_clusters (s : State) (ev : Instr) (arg : EvArg) : (sometime s ev arg).clusters = s.clusters := rfl
@[simp] theorem sometime_dies (s : State) (ev : Instr) (arg : EvArg) : (sometime s ev arg).dies = s.dies := rfl
@[simp] theorem sometime_mem (s : State) (ev : Instr) (arg : EvArg) : (sometime s ev arg).mem = s.mem := rfl
@[simp] theorem sometime_badLines (s : State) (ev : Instr) (arg : EvArg) : (sometime s ev arg).badLines = s.badLines := rfl
@[simp] theorem sometime_badCount (s : State) (ev : Instr) (arg : EvArg) : (sometime s ev arg).badCount = s.badCount := rfl
@[simp] theorem sometime_uses (s : State) (ev : Instr) (arg : EvArg) : (sometime s ev arg).uses = s.uses := rfl
@[simp] theorem sometime_ring (s : State) (ev : Instr) (arg : EvArg) : (sometime s ev arg).ring = s.ring := rfl
@[simp] theorem sometime_lanesOff (s : State) (ev : Instr) (arg : EvArg) : (sometime s ev arg).lanesOff = s.lanesOff := rfl
@[simp] theorem sometime_laneDue (s : State) (ev : Instr) (arg : EvArg) : (sometime s ev arg).laneDue = s.laneDue := rfl
@[simp] theorem sometime_root (s : State) (ev : Instr) (arg : EvArg) : (sometime s ev arg).root = s.root := rfl
@[simp] theorem sometime_access (s : State) (ev : Instr) (arg : EvArg) : (sometime s ev arg).access = s.access := rfl
@[simp] theorem sometime_locked (s : State) (ev : Instr) (arg : EvArg) : (sometime s ev arg).locked = s.locked := rfl
@[simp] theorem sometime_slotTab (s : State) (ev : Instr) (arg : EvArg) : (sometime s ev arg).slotTab = s.slotTab := rfl
@[simp] theorem sometime_acqs (s : State) (ev : Instr) (arg : EvArg) : (sometime s ev arg).acqs = s.acqs := rfl
@[simp] theorem sometime_binds (s : State) (ev : Instr) (arg : EvArg) : (sometime s ev arg).binds = s.binds := rfl
@[simp] theorem sometime_rounds (s : State) (ev : Instr) (arg : EvArg) : (sometime s ev arg).rounds = s.rounds := rfl
@[simp] theorem sometime_boards (s : State) (ev : Instr) (arg : EvArg) : (sometime s ev arg).boards = s.boards := rfl
@[simp] theorem sometime_lastBoard (s : State) (ev : Instr) (arg : EvArg) : (sometime s ev arg).lastBoard = s.lastBoard := rfl
@[simp] theorem sometime_launches (s : State) (ev : Instr) (arg : EvArg) : (sometime s ev arg).launches = s.launches := rfl
@[simp] theorem sometime_arg (s : State) (ev : Instr) (arg : EvArg) : (sometime s ev arg).arg = s.arg := rfl
@[simp] theorem sometime_geo (s : State) (ev : Instr) (arg : EvArg) : (sometime s ev arg).geo = s.geo := rfl
@[simp] theorem sometime_recovery (s : State) (ev : Instr) (arg : EvArg) : (sometime s ev arg).recovery = s.recovery := rfl
@[simp] theorem sometime_poweredOff (s : State) (ev : Instr) (arg : EvArg) : (sometime s ev arg).poweredOff = s.poweredOff := rfl
@[simp] theorem sometime_flash (s : State) (ev : Instr) (arg : EvArg) : (sometime s ev arg).flash = s.flash := rfl
@[simp] theorem sometime_flashBad (s : State) (ev : Instr) (arg : EvArg) : (sometime s ev arg).flashBad = s.flashBad := rfl
@[simp] theorem sometime_minSvn (s : State) (ev : Instr) (arg : EvArg) : (sometime s ev arg).minSvn = s.minSvn := rfl
@[simp] theorem sometime_running (s : State) (ev : Instr) (arg : EvArg) : (sometime s ev arg).running = s.running := rfl
@[simp] theorem sometime_link (s : State) (ev : Instr) (arg : EvArg) : (sometime s ev arg).link = s.link := rfl
@[simp] theorem sometime_features (s : State) (ev : Instr) (arg : EvArg) : (sometime s ev arg).features = s.features := rfl
@[simp] theorem sometime_hdm0 (s : State) (ev : Instr) (arg : EvArg) : (sometime s ev arg).hdm0 = s.hdm0 := rfl
@[simp] theorem sometime_hdm1 (s : State) (ev : Instr) (arg : EvArg) : (sometime s ev arg).hdm1 = s.hdm1 := rfl
@[simp] theorem sometime_hdmOn (s : State) (ev : Instr) (arg : EvArg) : (sometime s ev arg).hdmOn = s.hdmOn := rfl
@[simp] theorem sometime_hostHeld (s : State) (ev : Instr) (arg : EvArg) : (sometime s ev arg).hostHeld = s.hostHeld := rfl
@[simp] theorem sometime_hostRead (s : State) (ev : Instr) (arg : EvArg) : (sometime s ev arg).hostRead = s.hostRead := rfl
@[simp] theorem sometime_hostBad (s : State) (ev : Instr) (arg : EvArg) : (sometime s ev arg).hostBad = s.hostBad := rfl
@[simp] theorem sometime_msix (s : State) (ev : Instr) (arg : EvArg) : (sometime s ev arg).msix = s.msix := rfl
@[simp] theorem sometime_mailbox (s : State) (ev : Instr) (arg : EvArg) : (sometime s ev arg).mailbox = s.mailbox := rfl
@[simp] theorem sometime_cmd (s : State) (ev : Instr) (arg : EvArg) : (sometime s ev arg).cmd = s.cmd := rfl
@[simp] theorem sometime_cmds (s : State) (ev : Instr) (arg : EvArg) : (sometime s ev arg).cmds = s.cmds := rfl
@[simp] theorem sometime_cmdGo (s : State) (ev : Instr) (arg : EvArg) : (sometime s ev arg).cmdGo = s.cmdGo := rfl
@[simp] theorem sometime_doe (s : State) (ev : Instr) (arg : EvArg) : (sometime s ev arg).doe = s.doe := rfl
@[simp] theorem sometime_spdmA (s : State) (ev : Instr) (arg : EvArg) : (sometime s ev arg).spdmA = s.spdmA := rfl
@[simp] theorem sometime_spdmB (s : State) (ev : Instr) (arg : EvArg) : (sometime s ev arg).spdmB = s.spdmB := rfl
@[simp] theorem sometime_spdmL (s : State) (ev : Instr) (arg : EvArg) : (sometime s ev arg).spdmL = s.spdmL := rfl
@[simp] theorem sometime_sent (s : State) (ev : Instr) (arg : EvArg) : (sometime s ev arg).sent = s.sent := rfl
@[simp] theorem sometime_log (s : State) (ev : Instr) (arg : EvArg) : (sometime s ev arg).log = s.log := rfl
@[simp] theorem sometime_winUnder (s : State) (ev : Instr) (arg : EvArg) : (sometime s ev arg).winUnder = s.winUnder := rfl
@[simp] theorem sometime_cxlLimit (s : State) (ev : Instr) (arg : EvArg) : (sometime s ev arg).cxlLimit = s.cxlLimit := rfl

/-! ## Core and context -/

@[simp] theorem coreSetCtx_a (c : Core) (x : Nat) (k : Ctx) : (coreSetCtx c x k).a = c.a := rfl
@[simp] theorem coreSetCtx_c (c : Core) (x : Nat) (k : Ctx) : (coreSetCtx c x k).c = c.c := rfl
@[simp] theorem coreSetCtx_s (c : Core) (x : Nat) (k : Ctx) : (coreSetCtx c x k).s = c.s := rfl
@[simp] theorem coreSetCtx_emptyA (c : Core) (x : Nat) (k : Ctx) : (coreSetCtx c x k).emptyA = c.emptyA := rfl
@[simp] theorem coreSetCtx_emptyS (c : Core) (x : Nat) (k : Ctx) : (coreSetCtx c x k).emptyS = c.emptyS := rfl
@[simp] theorem coreSetCtx_badA (c : Core) (x : Nat) (k : Ctx) : (coreSetCtx c x k).badA = c.badA := rfl
@[simp] theorem coreSetCtx_badC (c : Core) (x : Nat) (k : Ctx) : (coreSetCtx c x k).badC = c.badC := rfl
@[simp] theorem coreSetCtx_badS (c : Core) (x : Nat) (k : Ctx) : (coreSetCtx c x k).badS = c.badS := rfl
@[simp] theorem coreSetCtx_powered (c : Core) (x : Nat) (k : Ctx) : (coreSetCtx c x k).powered = c.powered := rfl
@[simp] theorem coreSetCtx_upAt (c : Core) (x : Nat) (k : Ctx) : (coreSetCtx c x k).upAt = c.upAt := rfl
@[simp] theorem coreSetCtx_retain (c : Core) (x : Nat) (k : Ctx) : (coreSetCtx c x k).retain = c.retain := rfl
@[simp] theorem coreSetCtx_keeps (c : Core) (x : Nat) (k : Ctx) : (coreSetCtx c x k).keeps = c.keeps := rfl
@[simp] theorem coreSetCtx_bars (c : Core) (x : Nat) (k : Ctx) : (coreSetCtx c x k).bars = c.bars := rfl
@[simp] theorem coreSetCtx_spv (c : Core) (x : Nat) (k : Ctx) : (coreSetCtx c x k).spv = c.spv := rfl
@[simp] theorem coreSetCtx_cfree (c : Core) (x : Nat) (k : Ctx) : (coreSetCtx c x k).cfree = c.cfree := rfl
@[simp] theorem coreSetCtx_parked (c : Core) (x : Nat) (k : Ctx) : (coreSetCtx c x k).parked = c.parked := rfl
@[simp] theorem coreSetCtx_straySig (c : Core) (x : Nat) (k : Ctx) : (coreSetCtx c x k).straySig = c.straySig := rfl
@[simp] theorem coreSetCtx_lfsr (c : Core) (x : Nat) (k : Ctx) : (coreSetCtx c x k).lfsr = c.lfsr := rfl
@[simp] theorem coreSetCtx_trcIdx (c : Core) (x : Nat) (k : Ctx) : (coreSetCtx c x k).trcIdx = c.trcIdx := rfl
@[simp] theorem coreSetCtx_trc (c : Core) (x : Nat) (k : Ctx) : (coreSetCtx c x k).trc = c.trc := rfl
@[simp] theorem coreSetCtx_last (c : Core) (x : Nat) (k : Ctx) : (coreSetCtx c x k).last = c.last := rfl
@[simp] theorem coreSetCtx_hrun (c : Core) (x : Nat) (k : Ctx) : (coreSetCtx c x k).hrun = c.hrun := rfl
@[simp] theorem coreSetCtx_classMask (c : Core) (x : Nat) (k : Ctx) : (coreSetCtx c x k).classMask = c.classMask := rfl
@[simp] theorem coreSetCtx_mbcap (c : Core) (x : Nat) (k : Ctx) : (coreSetCtx c x k).mbcap = c.mbcap := rfl
@[simp] theorem coreSetCtx_htab (c : Core) (x : Nat) (k : Ctx) : (coreSetCtx c x k).htab = c.htab := rfl
@[simp] theorem coreSetCtx_ovfl (c : Core) (x : Nat) (k : Ctx) : (coreSetCtx c x k).ovfl = c.ovfl := rfl
@[simp] theorem coreSetCtx_ovn (c : Core) (x : Nat) (k : Ctx) : (coreSetCtx c x k).ovn = c.ovn := rfl
@[simp] theorem coreSetCtx_ltag (c : Core) (x : Nat) (k : Ctx) : (coreSetCtx c x k).ltag = c.ltag := rfl
@[simp] theorem coreSetCtx_inbox (c : Core) (x : Nat) (k : Ctx) : (coreSetCtx c x k).inbox = c.inbox := rfl
@[simp] theorem coreSetCtx_mail (c : Core) (x : Nat) (k : Ctx) : (coreSetCtx c x k).mail = c.mail := rfl
@[simp] theorem coreSetCtx_deque (c : Core) (x : Nat) (k : Ctx) : (coreSetCtx c x k).deque = c.deque := rfl
@[simp] theorem coreSetCtx_steal (c : Core) (x : Nat) (k : Ctx) : (coreSetCtx c x k).steal = c.steal := rfl
@[simp] theorem coreSetCtx_ports (c : Core) (x : Nat) (k : Ctx) : (coreSetCtx c x k).ports = c.ports := rfl
@[simp] theorem vSet_run (c : Ctx) (r : BitVec 5) (x : V512) : (vSet c r x).run = c.run := rfl
@[simp] theorem oxSet_run (c : Ctx) (r : BitVec 3) (x : W64) : (oxSet c r x).run = c.run := rfl
@[simp] theorem unlock_run (c : Ctx) (r : RegId) : (unlock c r).run = c.run := rfl
@[simp] theorem gSet_run (c : Ctx) (r : BitVec 5) (x : W64) : (gSet c r x).run = c.run := by
  unfold gSet; split <;> rfl
@[simp] theorem kSet_run (c : Ctx) (r : BitVec 3) (x : W64) : (kSet c r x).run = c.run := by
  unfold kSet; split <;> rfl
@[simp] theorem vSet_bound (c : Ctx) (r : BitVec 5) (x : V512) : (vSet c r x).bound = c.bound := rfl
@[simp] theorem oxSet_bound (c : Ctx) (r : BitVec 3) (x : W64) : (oxSet c r x).bound = c.bound := rfl
@[simp] theorem unlock_bound (c : Ctx) (r : RegId) : (unlock c r).bound = c.bound := rfl
@[simp] theorem gSet_bound (c : Ctx) (r : BitVec 5) (x : W64) : (gSet c r x).bound = c.bound := by
  unfold gSet; split <;> rfl
@[simp] theorem kSet_bound (c : Ctx) (r : BitVec 3) (x : W64) : (kSet c r x).bound = c.bound := by
  unfold kSet; split <;> rfl
@[simp] theorem vSet_g (c : Ctx) (r : BitVec 5) (x : V512) : (vSet c r x).g = c.g := rfl
@[simp] theorem oxSet_g (c : Ctx) (r : BitVec 3) (x : W64) : (oxSet c r x).g = c.g := rfl
@[simp] theorem unlock_g (c : Ctx) (r : RegId) : (unlock c r).g = c.g := rfl
@[simp] theorem kSet_g (c : Ctx) (r : BitVec 3) (x : W64) : (kSet c r x).g = c.g := by
  unfold kSet; split <;> rfl
@[simp] theorem oxSet_v (c : Ctx) (r : BitVec 3) (x : W64) : (oxSet c r x).v = c.v := rfl
@[simp] theorem unlock_v (c : Ctx) (r : RegId) : (unlock c r).v = c.v := rfl
@[simp] theorem gSet_v (c : Ctx) (r : BitVec 5) (x : W64) : (gSet c r x).v = c.v := by
  unfold gSet; split <;> rfl
@[simp] theorem kSet_v (c : Ctx) (r : BitVec 3) (x : W64) : (kSet c r x).v = c.v := by
  unfold kSet; split <;> rfl
@[simp] theorem vSet_k (c : Ctx) (r : BitVec 5) (x : V512) : (vSet c r x).k = c.k := rfl
@[simp] theorem oxSet_k (c : Ctx) (r : BitVec 3) (x : W64) : (oxSet c r x).k = c.k := rfl
@[simp] theorem unlock_k (c : Ctx) (r : RegId) : (unlock c r).k = c.k := rfl
@[simp] theorem gSet_k (c : Ctx) (r : BitVec 5) (x : W64) : (gSet c r x).k = c.k := by
  unfold gSet; split <;> rfl
@[simp] theorem vSet_ox (c : Ctx) (r : BitVec 5) (x : V512) : (vSet c r x).ox = c.ox := rfl
@[simp] theorem unlock_ox (c : Ctx) (r : RegId) : (unlock c r).ox = c.ox := rfl
@[simp] theorem gSet_ox (c : Ctx) (r : BitVec 5) (x : W64) : (gSet c r x).ox = c.ox := by
  unfold gSet; split <;> rfl
@[simp] theorem kSet_ox (c : Ctx) (r : BitVec 3) (x : W64) : (kSet c r x).ox = c.ox := by
  unfold kSet; split <;> rfl
@[simp] theorem vSet_h (c : Ctx) (r : BitVec 5) (x : V512) : (vSet c r x).h = c.h := rfl
@[simp] theorem oxSet_h (c : Ctx) (r : BitVec 3) (x : W64) : (oxSet c r x).h = c.h := rfl
@[simp] theorem unlock_h (c : Ctx) (r : RegId) : (unlock c r).h = c.h := rfl
@[simp] theorem gSet_h (c : Ctx) (r : BitVec 5) (x : W64) : (gSet c r x).h = c.h := by
  unfold gSet; split <;> rfl
@[simp] theorem kSet_h (c : Ctx) (r : BitVec 3) (x : W64) : (kSet c r x).h = c.h := by
  unfold kSet; split <;> rfl
@[simp] theorem vSet_cc (c : Ctx) (r : BitVec 5) (x : V512) : (vSet c r x).cc = c.cc := rfl
@[simp] theorem oxSet_cc (c : Ctx) (r : BitVec 3) (x : W64) : (oxSet c r x).cc = c.cc := rfl
@[simp] theorem unlock_cc (c : Ctx) (r : RegId) : (unlock c r).cc = c.cc := rfl
@[simp] theorem gSet_cc (c : Ctx) (r : BitVec 5) (x : W64) : (gSet c r x).cc = c.cc := by
  unfold gSet; split <;> rfl
@[simp] theorem kSet_cc (c : Ctx) (r : BitVec 3) (x : W64) : (kSet c r x).cc = c.cc := by
  unfold kSet; split <;> rfl
@[simp] theorem vSet_grp (c : Ctx) (r : BitVec 5) (x : V512) : (vSet c r x).grp = c.grp := rfl
@[simp] theorem oxSet_grp (c : Ctx) (r : BitVec 3) (x : W64) : (oxSet c r x).grp = c.grp := rfl
@[simp] theorem unlock_grp (c : Ctx) (r : RegId) : (unlock c r).grp = c.grp := rfl
@[simp] theorem gSet_grp (c : Ctx) (r : BitVec 5) (x : W64) : (gSet c r x).grp = c.grp := by
  unfold gSet; split <;> rfl
@[simp] theorem kSet_grp (c : Ctx) (r : BitVec 3) (x : W64) : (kSet c r x).grp = c.grp := by
  unfold kSet; split <;> rfl
@[simp] theorem vSet_pc (c : Ctx) (r : BitVec 5) (x : V512) : (vSet c r x).pc = c.pc := rfl
@[simp] theorem oxSet_pc (c : Ctx) (r : BitVec 3) (x : W64) : (oxSet c r x).pc = c.pc := rfl
@[simp] theorem unlock_pc (c : Ctx) (r : RegId) : (unlock c r).pc = c.pc := rfl
@[simp] theorem gSet_pc (c : Ctx) (r : BitVec 5) (x : W64) : (gSet c r x).pc = c.pc := by
  unfold gSet; split <;> rfl
@[simp] theorem kSet_pc (c : Ctx) (r : BitVec 3) (x : W64) : (kSet c r x).pc = c.pc := by
  unfold kSet; split <;> rfl
@[simp] theorem vSet_fpstat (c : Ctx) (r : BitVec 5) (x : V512) : (vSet c r x).fpstat = c.fpstat := rfl
@[simp] theorem oxSet_fpstat (c : Ctx) (r : BitVec 3) (x : W64) : (oxSet c r x).fpstat = c.fpstat := rfl
@[simp] theorem unlock_fpstat (c : Ctx) (r : RegId) : (unlock c r).fpstat = c.fpstat := rfl
@[simp] theorem gSet_fpstat (c : Ctx) (r : BitVec 5) (x : W64) : (gSet c r x).fpstat = c.fpstat := by
  unfold gSet; split <;> rfl
@[simp] theorem kSet_fpstat (c : Ctx) (r : BitVec 3) (x : W64) : (kSet c r x).fpstat = c.fpstat := by
  unfold kSet; split <;> rfl
@[simp] theorem vSet_mxstat (c : Ctx) (r : BitVec 5) (x : V512) : (vSet c r x).mxstat = c.mxstat := rfl
@[simp] theorem oxSet_mxstat (c : Ctx) (r : BitVec 3) (x : W64) : (oxSet c r x).mxstat = c.mxstat := rfl
@[simp] theorem unlock_mxstat (c : Ctx) (r : RegId) : (unlock c r).mxstat = c.mxstat := rfl
@[simp] theorem gSet_mxstat (c : Ctx) (r : BitVec 5) (x : W64) : (gSet c r x).mxstat = c.mxstat := by
  unfold gSet; split <;> rfl
@[simp] theorem kSet_mxstat (c : Ctx) (r : BitVec 3) (x : W64) : (kSet c r x).mxstat = c.mxstat := by
  unfold kSet; split <;> rfl
@[simp] theorem vSet_qstat (c : Ctx) (r : BitVec 5) (x : V512) : (vSet c r x).qstat = c.qstat := rfl
@[simp] theorem oxSet_qstat (c : Ctx) (r : BitVec 3) (x : W64) : (oxSet c r x).qstat = c.qstat := rfl
@[simp] theorem unlock_qstat (c : Ctx) (r : RegId) : (unlock c r).qstat = c.qstat := rfl
@[simp] theorem gSet_qstat (c : Ctx) (r : BitVec 5) (x : W64) : (gSet c r x).qstat = c.qstat := by
  unfold gSet; split <;> rfl
@[simp] theorem kSet_qstat (c : Ctx) (r : BitVec 3) (x : W64) : (kSet c r x).qstat = c.qstat := by
  unfold kSet; split <;> rfl
@[simp] theorem vSet_rstat (c : Ctx) (r : BitVec 5) (x : V512) : (vSet c r x).rstat = c.rstat := rfl
@[simp] theorem oxSet_rstat (c : Ctx) (r : BitVec 3) (x : W64) : (oxSet c r x).rstat = c.rstat := rfl
@[simp] theorem unlock_rstat (c : Ctx) (r : RegId) : (unlock c r).rstat = c.rstat := rfl
@[simp] theorem gSet_rstat (c : Ctx) (r : BitVec 5) (x : W64) : (gSet c r x).rstat = c.rstat := by
  unfold gSet; split <;> rfl
@[simp] theorem kSet_rstat (c : Ctx) (r : BitVec 3) (x : W64) : (kSet c r x).rstat = c.rstat := by
  unfold kSet; split <;> rfl
@[simp] theorem vSet_trapCause (c : Ctx) (r : BitVec 5) (x : V512) : (vSet c r x).trapCause = c.trapCause := rfl
@[simp] theorem oxSet_trapCause (c : Ctx) (r : BitVec 3) (x : W64) : (oxSet c r x).trapCause = c.trapCause := rfl
@[simp] theorem unlock_trapCause (c : Ctx) (r : RegId) : (unlock c r).trapCause = c.trapCause := rfl
@[simp] theorem gSet_trapCause (c : Ctx) (r : BitVec 5) (x : W64) : (gSet c r x).trapCause = c.trapCause := by
  unfold gSet; split <;> rfl
@[simp] theorem kSet_trapCause (c : Ctx) (r : BitVec 3) (x : W64) : (kSet c r x).trapCause = c.trapCause := by
  unfold kSet; split <;> rfl
@[simp] theorem vSet_trapPc (c : Ctx) (r : BitVec 5) (x : V512) : (vSet c r x).trapPc = c.trapPc := rfl
@[simp] theorem oxSet_trapPc (c : Ctx) (r : BitVec 3) (x : W64) : (oxSet c r x).trapPc = c.trapPc := rfl
@[simp] theorem unlock_trapPc (c : Ctx) (r : RegId) : (unlock c r).trapPc = c.trapPc := rfl
@[simp] theorem gSet_trapPc (c : Ctx) (r : BitVec 5) (x : W64) : (gSet c r x).trapPc = c.trapPc := by
  unfold gSet; split <;> rfl
@[simp] theorem kSet_trapPc (c : Ctx) (r : BitVec 3) (x : W64) : (kSet c r x).trapPc = c.trapPc := by
  unfold kSet; split <;> rfl
@[simp] theorem vSet_trapVal (c : Ctx) (r : BitVec 5) (x : V512) : (vSet c r x).trapVal = c.trapVal := rfl
@[simp] theorem oxSet_trapVal (c : Ctx) (r : BitVec 3) (x : W64) : (oxSet c r x).trapVal = c.trapVal := rfl
@[simp] theorem unlock_trapVal (c : Ctx) (r : RegId) : (unlock c r).trapVal = c.trapVal := rfl
@[simp] theorem gSet_trapVal (c : Ctx) (r : BitVec 5) (x : W64) : (gSet c r x).trapVal = c.trapVal := by
  unfold gSet; split <;> rfl
@[simp] theorem kSet_trapVal (c : Ctx) (r : BitVec 3) (x : W64) : (kSet c r x).trapVal = c.trapVal := by
  unfold kSet; split <;> rfl
@[simp] theorem vSet_trapVec (c : Ctx) (r : BitVec 5) (x : V512) : (vSet c r x).trapVec = c.trapVec := rfl
@[simp] theorem oxSet_trapVec (c : Ctx) (r : BitVec 3) (x : W64) : (oxSet c r x).trapVec = c.trapVec := rfl
@[simp] theorem unlock_trapVec (c : Ctx) (r : RegId) : (unlock c r).trapVec = c.trapVec := rfl
@[simp] theorem gSet_trapVec (c : Ctx) (r : BitVec 5) (x : W64) : (gSet c r x).trapVec = c.trapVec := by
  unfold gSet; split <;> rfl
@[simp] theorem kSet_trapVec (c : Ctx) (r : BitVec 3) (x : W64) : (kSet c r x).trapVec = c.trapVec := by
  unfold kSet; split <;> rfl
@[simp] theorem vSet_trapMode (c : Ctx) (r : BitVec 5) (x : V512) : (vSet c r x).trapMode = c.trapMode := rfl
@[simp] theorem oxSet_trapMode (c : Ctx) (r : BitVec 3) (x : W64) : (oxSet c r x).trapMode = c.trapMode := rfl
@[simp] theorem unlock_trapMode (c : Ctx) (r : RegId) : (unlock c r).trapMode = c.trapMode := rfl
@[simp] theorem gSet_trapMode (c : Ctx) (r : BitVec 5) (x : W64) : (gSet c r x).trapMode = c.trapMode := by
  unfold gSet; split <;> rfl
@[simp] theorem kSet_trapMode (c : Ctx) (r : BitVec 3) (x : W64) : (kSet c r x).trapMode = c.trapMode := by
  unfold kSet; split <;> rfl
@[simp] theorem vSet_pending (c : Ctx) (r : BitVec 5) (x : V512) : (vSet c r x).pending = c.pending := rfl
@[simp] theorem oxSet_pending (c : Ctx) (r : BitVec 3) (x : W64) : (oxSet c r x).pending = c.pending := rfl
@[simp] theorem unlock_pending (c : Ctx) (r : RegId) : (unlock c r).pending = c.pending := rfl
@[simp] theorem gSet_pending (c : Ctx) (r : BitVec 5) (x : W64) : (gSet c r x).pending = c.pending := by
  unfold gSet; split <;> rfl
@[simp] theorem kSet_pending (c : Ctx) (r : BitVec 3) (x : W64) : (kSet c r x).pending = c.pending := by
  unfold kSet; split <;> rfl
@[simp] theorem vSet_inst (c : Ctx) (r : BitVec 5) (x : V512) : (vSet c r x).inst = c.inst := rfl
@[simp] theorem oxSet_inst (c : Ctx) (r : BitVec 3) (x : W64) : (oxSet c r x).inst = c.inst := rfl
@[simp] theorem unlock_inst (c : Ctx) (r : RegId) : (unlock c r).inst = c.inst := rfl
@[simp] theorem gSet_inst (c : Ctx) (r : BitVec 5) (x : W64) : (gSet c r x).inst = c.inst := by
  unfold gSet; split <;> rfl
@[simp] theorem kSet_inst (c : Ctx) (r : BitVec 3) (x : W64) : (kSet c r x).inst = c.inst := by
  unfold kSet; split <;> rfl
@[simp] theorem vSet_gangSize (c : Ctx) (r : BitVec 5) (x : V512) : (vSet c r x).gangSize = c.gangSize := rfl
@[simp] theorem oxSet_gangSize (c : Ctx) (r : BitVec 3) (x : W64) : (oxSet c r x).gangSize = c.gangSize := rfl
@[simp] theorem unlock_gangSize (c : Ctx) (r : RegId) : (unlock c r).gangSize = c.gangSize := rfl
@[simp] theorem gSet_gangSize (c : Ctx) (r : BitVec 5) (x : W64) : (gSet c r x).gangSize = c.gangSize := by
  unfold gSet; split <;> rfl
@[simp] theorem kSet_gangSize (c : Ctx) (r : BitVec 3) (x : W64) : (kSet c r x).gangSize = c.gangSize := by
  unfold kSet; split <;> rfl
@[simp] theorem vSet_gangIdx (c : Ctx) (r : BitVec 5) (x : V512) : (vSet c r x).gangIdx = c.gangIdx := rfl
@[simp] theorem oxSet_gangIdx (c : Ctx) (r : BitVec 3) (x : W64) : (oxSet c r x).gangIdx = c.gangIdx := rfl
@[simp] theorem unlock_gangIdx (c : Ctx) (r : RegId) : (unlock c r).gangIdx = c.gangIdx := rfl
@[simp] theorem gSet_gangIdx (c : Ctx) (r : BitVec 5) (x : W64) : (gSet c r x).gangIdx = c.gangIdx := by
  unfold gSet; split <;> rfl
@[simp] theorem kSet_gangIdx (c : Ctx) (r : BitVec 3) (x : W64) : (kSet c r x).gangIdx = c.gangIdx := by
  unfold kSet; split <;> rfl
@[simp] theorem vSet_gangLead (c : Ctx) (r : BitVec 5) (x : V512) : (vSet c r x).gangLead = c.gangLead := rfl
@[simp] theorem oxSet_gangLead (c : Ctx) (r : BitVec 3) (x : W64) : (oxSet c r x).gangLead = c.gangLead := rfl
@[simp] theorem unlock_gangLead (c : Ctx) (r : RegId) : (unlock c r).gangLead = c.gangLead := rfl
@[simp] theorem gSet_gangLead (c : Ctx) (r : BitVec 5) (x : W64) : (gSet c r x).gangLead = c.gangLead := by
  unfold gSet; split <;> rfl
@[simp] theorem kSet_gangLead (c : Ctx) (r : BitVec 3) (x : W64) : (kSet c r x).gangLead = c.gangLead := by
  unfold kSet; split <;> rfl
@[simp] theorem vSet_dom (c : Ctx) (r : BitVec 5) (x : V512) : (vSet c r x).dom = c.dom := rfl
@[simp] theorem oxSet_dom (c : Ctx) (r : BitVec 3) (x : W64) : (oxSet c r x).dom = c.dom := rfl
@[simp] theorem unlock_dom (c : Ctx) (r : RegId) : (unlock c r).dom = c.dom := rfl
@[simp] theorem gSet_dom (c : Ctx) (r : BitVec 5) (x : W64) : (gSet c r x).dom = c.dom := by
  unfold gSet; split <;> rfl
@[simp] theorem kSet_dom (c : Ctx) (r : BitVec 3) (x : W64) : (kSet c r x).dom = c.dom := by
  unfold kSet; split <;> rfl
@[simp] theorem vSet_clcount (c : Ctx) (r : BitVec 5) (x : V512) : (vSet c r x).clcount = c.clcount := rfl
@[simp] theorem oxSet_clcount (c : Ctx) (r : BitVec 3) (x : W64) : (oxSet c r x).clcount = c.clcount := rfl
@[simp] theorem unlock_clcount (c : Ctx) (r : RegId) : (unlock c r).clcount = c.clcount := rfl
@[simp] theorem gSet_clcount (c : Ctx) (r : BitVec 5) (x : W64) : (gSet c r x).clcount = c.clcount := by
  unfold gSet; split <;> rfl
@[simp] theorem kSet_clcount (c : Ctx) (r : BitVec 3) (x : W64) : (kSet c r x).clcount = c.clcount := by
  unfold kSet; split <;> rfl
@[simp] theorem vSet_rank (c : Ctx) (r : BitVec 5) (x : V512) : (vSet c r x).rank = c.rank := rfl
@[simp] theorem oxSet_rank (c : Ctx) (r : BitVec 3) (x : W64) : (oxSet c r x).rank = c.rank := rfl
@[simp] theorem unlock_rank (c : Ctx) (r : RegId) : (unlock c r).rank = c.rank := rfl
@[simp] theorem gSet_rank (c : Ctx) (r : BitVec 5) (x : W64) : (gSet c r x).rank = c.rank := by
  unfold gSet; split <;> rfl
@[simp] theorem kSet_rank (c : Ctx) (r : BitVec 3) (x : W64) : (kSet c r x).rank = c.rank := by
  unfold kSet; split <;> rfl
@[simp] theorem vSet_ltag (c : Ctx) (r : BitVec 5) (x : V512) : (vSet c r x).ltag = c.ltag := rfl
@[simp] theorem oxSet_ltag (c : Ctx) (r : BitVec 3) (x : W64) : (oxSet c r x).ltag = c.ltag := rfl
@[simp] theorem unlock_ltag (c : Ctx) (r : RegId) : (unlock c r).ltag = c.ltag := rfl
@[simp] theorem gSet_ltag (c : Ctx) (r : BitVec 5) (x : W64) : (gSet c r x).ltag = c.ltag := by
  unfold gSet; split <;> rfl
@[simp] theorem kSet_ltag (c : Ctx) (r : BitVec 3) (x : W64) : (kSet c r x).ltag = c.ltag := by
  unfold kSet; split <;> rfl
@[simp] theorem vSet_asid (c : Ctx) (r : BitVec 5) (x : V512) : (vSet c r x).asid = c.asid := rfl
@[simp] theorem oxSet_asid (c : Ctx) (r : BitVec 3) (x : W64) : (oxSet c r x).asid = c.asid := rfl
@[simp] theorem unlock_asid (c : Ctx) (r : RegId) : (unlock c r).asid = c.asid := rfl
@[simp] theorem gSet_asid (c : Ctx) (r : BitVec 5) (x : W64) : (gSet c r x).asid = c.asid := by
  unfold gSet; split <;> rfl
@[simp] theorem kSet_asid (c : Ctx) (r : BitVec 3) (x : W64) : (kSet c r x).asid = c.asid := by
  unfold kSet; split <;> rfl
@[simp] theorem vSet_prio (c : Ctx) (r : BitVec 5) (x : V512) : (vSet c r x).prio = c.prio := rfl
@[simp] theorem oxSet_prio (c : Ctx) (r : BitVec 3) (x : W64) : (oxSet c r x).prio = c.prio := rfl
@[simp] theorem unlock_prio (c : Ctx) (r : RegId) : (unlock c r).prio = c.prio := rfl
@[simp] theorem gSet_prio (c : Ctx) (r : BitVec 5) (x : W64) : (gSet c r x).prio = c.prio := by
  unfold gSet; split <;> rfl
@[simp] theorem kSet_prio (c : Ctx) (r : BitVec 3) (x : W64) : (kSet c r x).prio = c.prio := by
  unfold kSet; split <;> rfl
@[simp] theorem vSet_lpb (c : Ctx) (r : BitVec 5) (x : V512) : (vSet c r x).lpb = c.lpb := rfl
@[simp] theorem oxSet_lpb (c : Ctx) (r : BitVec 3) (x : W64) : (oxSet c r x).lpb = c.lpb := rfl
@[simp] theorem unlock_lpb (c : Ctx) (r : RegId) : (unlock c r).lpb = c.lpb := rfl
@[simp] theorem gSet_lpb (c : Ctx) (r : BitVec 5) (x : W64) : (gSet c r x).lpb = c.lpb := by
  unfold gSet; split <;> rfl
@[simp] theorem kSet_lpb (c : Ctx) (r : BitVec 3) (x : W64) : (kSet c r x).lpb = c.lpb := by
  unfold kSet; split <;> rfl
@[simp] theorem vSet_wmap (c : Ctx) (r : BitVec 5) (x : V512) : (vSet c r x).wmap = c.wmap := rfl
@[simp] theorem oxSet_wmap (c : Ctx) (r : BitVec 3) (x : W64) : (oxSet c r x).wmap = c.wmap := rfl
@[simp] theorem unlock_wmap (c : Ctx) (r : RegId) : (unlock c r).wmap = c.wmap := rfl
@[simp] theorem gSet_wmap (c : Ctx) (r : BitVec 5) (x : W64) : (gSet c r x).wmap = c.wmap := by
  unfold gSet; split <;> rfl
@[simp] theorem kSet_wmap (c : Ctx) (r : BitVec 3) (x : W64) : (kSet c r x).wmap = c.wmap := by
  unfold kSet; split <;> rfl
@[simp] theorem vSet_oneSided (c : Ctx) (r : BitVec 5) (x : V512) : (vSet c r x).oneSided = c.oneSided := rfl
@[simp] theorem oxSet_oneSided (c : Ctx) (r : BitVec 3) (x : W64) : (oxSet c r x).oneSided = c.oneSided := rfl
@[simp] theorem unlock_oneSided (c : Ctx) (r : RegId) : (unlock c r).oneSided = c.oneSided := rfl
@[simp] theorem gSet_oneSided (c : Ctx) (r : BitVec 5) (x : W64) : (gSet c r x).oneSided = c.oneSided := by
  unfold gSet; split <;> rfl
@[simp] theorem kSet_oneSided (c : Ctx) (r : BitVec 3) (x : W64) : (kSet c r x).oneSided = c.oneSided := by
  unfold kSet; split <;> rfl
@[simp] theorem vSet_held (c : Ctx) (r : BitVec 5) (x : V512) : (vSet c r x).held = c.held := rfl
@[simp] theorem oxSet_held (c : Ctx) (r : BitVec 3) (x : W64) : (oxSet c r x).held = c.held := rfl
@[simp] theorem unlock_held (c : Ctx) (r : RegId) : (unlock c r).held = c.held := rfl
@[simp] theorem gSet_held (c : Ctx) (r : BitVec 5) (x : W64) : (gSet c r x).held = c.held := by
  unfold gSet; split <;> rfl
@[simp] theorem kSet_held (c : Ctx) (r : BitVec 3) (x : W64) : (kSet c r x).held = c.held := by
  unfold kSet; split <;> rfl
@[simp] theorem vSet_sends (c : Ctx) (r : BitVec 5) (x : V512) : (vSet c r x).sends = c.sends := rfl
@[simp] theorem oxSet_sends (c : Ctx) (r : BitVec 3) (x : W64) : (oxSet c r x).sends = c.sends := rfl
@[simp] theorem unlock_sends (c : Ctx) (r : RegId) : (unlock c r).sends = c.sends := rfl
@[simp] theorem gSet_sends (c : Ctx) (r : BitVec 5) (x : W64) : (gSet c r x).sends = c.sends := by
  unfold gSet; split <;> rfl
@[simp] theorem kSet_sends (c : Ctx) (r : BitVec 3) (x : W64) : (kSet c r x).sends = c.sends := by
  unfold kSet; split <;> rfl
@[simp] theorem vSet_walkers (c : Ctx) (r : BitVec 5) (x : V512) : (vSet c r x).walkers = c.walkers := rfl
@[simp] theorem oxSet_walkers (c : Ctx) (r : BitVec 3) (x : W64) : (oxSet c r x).walkers = c.walkers := rfl
@[simp] theorem unlock_walkers (c : Ctx) (r : RegId) : (unlock c r).walkers = c.walkers := rfl
@[simp] theorem gSet_walkers (c : Ctx) (r : BitVec 5) (x : W64) : (gSet c r x).walkers = c.walkers := by
  unfold gSet; split <;> rfl
@[simp] theorem kSet_walkers (c : Ctx) (r : BitVec 3) (x : W64) : (kSet c r x).walkers = c.walkers := by
  unfold kSet; split <;> rfl
@[simp] theorem vSet_locks (c : Ctx) (r : BitVec 5) (x : V512) : (vSet c r x).locks = c.locks := rfl
@[simp] theorem oxSet_locks (c : Ctx) (r : BitVec 3) (x : W64) : (oxSet c r x).locks = c.locks := rfl
@[simp] theorem gSet_locks (c : Ctx) (r : BitVec 5) (x : W64) : (gSet c r x).locks = c.locks := by
  unfold gSet; split <;> rfl
@[simp] theorem kSet_locks (c : Ctx) (r : BitVec 3) (x : W64) : (kSet c r x).locks = c.locks := by
  unfold kSet; split <;> rfl
@[simp] theorem vSet_nextIssue (c : Ctx) (r : BitVec 5) (x : V512) : (vSet c r x).nextIssue = c.nextIssue := rfl
@[simp] theorem oxSet_nextIssue (c : Ctx) (r : BitVec 3) (x : W64) : (oxSet c r x).nextIssue = c.nextIssue := rfl
@[simp] theorem unlock_nextIssue (c : Ctx) (r : RegId) : (unlock c r).nextIssue = c.nextIssue := rfl
@[simp] theorem gSet_nextIssue (c : Ctx) (r : BitVec 5) (x : W64) : (gSet c r x).nextIssue = c.nextIssue := by
  unfold gSet; split <;> rfl
@[simp] theorem kSet_nextIssue (c : Ctx) (r : BitVec 3) (x : W64) : (kSet c r x).nextIssue = c.nextIssue := by
  unfold kSet; split <;> rfl
@[simp] theorem vSet_waitSince (c : Ctx) (r : BitVec 5) (x : V512) : (vSet c r x).waitSince = c.waitSince := rfl
@[simp] theorem oxSet_waitSince (c : Ctx) (r : BitVec 3) (x : W64) : (oxSet c r x).waitSince = c.waitSince := rfl
@[simp] theorem unlock_waitSince (c : Ctx) (r : RegId) : (unlock c r).waitSince = c.waitSince := rfl
@[simp] theorem gSet_waitSince (c : Ctx) (r : BitVec 5) (x : W64) : (gSet c r x).waitSince = c.waitSince := by
  unfold gSet; split <;> rfl
@[simp] theorem kSet_waitSince (c : Ctx) (r : BitVec 3) (x : W64) : (kSet c r x).waitSince = c.waitSince := by
  unfold kSet; split <;> rfl
@[simp] theorem vSet_grpWait (c : Ctx) (r : BitVec 5) (x : V512) : (vSet c r x).grpWait = c.grpWait := rfl
@[simp] theorem oxSet_grpWait (c : Ctx) (r : BitVec 3) (x : W64) : (oxSet c r x).grpWait = c.grpWait := rfl
@[simp] theorem unlock_grpWait (c : Ctx) (r : RegId) : (unlock c r).grpWait = c.grpWait := rfl
@[simp] theorem gSet_grpWait (c : Ctx) (r : BitVec 5) (x : W64) : (gSet c r x).grpWait = c.grpWait := by
  unfold gSet; split <;> rfl
@[simp] theorem kSet_grpWait (c : Ctx) (r : BitVec 3) (x : W64) : (kSet c r x).grpWait = c.grpWait := by
  unfold kSet; split <;> rfl
@[simp] theorem vSet_tqOut (c : Ctx) (r : BitVec 5) (x : V512) : (vSet c r x).tqOut = c.tqOut := rfl
@[simp] theorem oxSet_tqOut (c : Ctx) (r : BitVec 3) (x : W64) : (oxSet c r x).tqOut = c.tqOut := rfl
@[simp] theorem unlock_tqOut (c : Ctx) (r : RegId) : (unlock c r).tqOut = c.tqOut := rfl
@[simp] theorem gSet_tqOut (c : Ctx) (r : BitVec 5) (x : W64) : (gSet c r x).tqOut = c.tqOut := by
  unfold gSet; split <;> rfl
@[simp] theorem kSet_tqOut (c : Ctx) (r : BitVec 3) (x : W64) : (kSet c r x).tqOut = c.tqOut := by
  unfold kSet; split <;> rfl
@[simp] theorem vSet_scans (c : Ctx) (r : BitVec 5) (x : V512) : (vSet c r x).scans = c.scans := rfl
@[simp] theorem oxSet_scans (c : Ctx) (r : BitVec 3) (x : W64) : (oxSet c r x).scans = c.scans := rfl
@[simp] theorem unlock_scans (c : Ctx) (r : RegId) : (unlock c r).scans = c.scans := rfl
@[simp] theorem gSet_scans (c : Ctx) (r : BitVec 5) (x : W64) : (gSet c r x).scans = c.scans := by
  unfold gSet; split <;> rfl
@[simp] theorem kSet_scans (c : Ctx) (r : BitVec 3) (x : W64) : (kSet c r x).scans = c.scans := by
  unfold kSet; split <;> rfl
@[simp] theorem vSet_replay (c : Ctx) (r : BitVec 5) (x : V512) : (vSet c r x).replay = c.replay := rfl
@[simp] theorem oxSet_replay (c : Ctx) (r : BitVec 3) (x : W64) : (oxSet c r x).replay = c.replay := rfl
@[simp] theorem unlock_replay (c : Ctx) (r : RegId) : (unlock c r).replay = c.replay := rfl
@[simp] theorem gSet_replay (c : Ctx) (r : BitVec 5) (x : W64) : (gSet c r x).replay = c.replay := by
  unfold gSet; split <;> rfl
@[simp] theorem kSet_replay (c : Ctx) (r : BitVec 3) (x : W64) : (kSet c r x).replay = c.replay := by
  unfold kSet; split <;> rfl
@[simp] theorem vSet_walkFail (c : Ctx) (r : BitVec 5) (x : V512) : (vSet c r x).walkFail = c.walkFail := rfl
@[simp] theorem oxSet_walkFail (c : Ctx) (r : BitVec 3) (x : W64) : (oxSet c r x).walkFail = c.walkFail := rfl
@[simp] theorem unlock_walkFail (c : Ctx) (r : RegId) : (unlock c r).walkFail = c.walkFail := rfl
@[simp] theorem gSet_walkFail (c : Ctx) (r : BitVec 5) (x : W64) : (gSet c r x).walkFail = c.walkFail := by
  unfold gSet; split <;> rfl
@[simp] theorem kSet_walkFail (c : Ctx) (r : BitVec 3) (x : W64) : (kSet c r x).walkFail = c.walkFail := by
  unfold kSet; split <;> rfl
@[simp] theorem vSet_await (c : Ctx) (r : BitVec 5) (x : V512) : (vSet c r x).await = c.await := rfl
@[simp] theorem oxSet_await (c : Ctx) (r : BitVec 3) (x : W64) : (oxSet c r x).await = c.await := rfl
@[simp] theorem unlock_await (c : Ctx) (r : RegId) : (unlock c r).await = c.await := rfl
@[simp] theorem gSet_await (c : Ctx) (r : BitVec 5) (x : W64) : (gSet c r x).await = c.await := by
  unfold gSet; split <;> rfl
@[simp] theorem kSet_await (c : Ctx) (r : BitVec 3) (x : W64) : (kSet c r x).await = c.await := by
  unfold kSet; split <;> rfl
@[simp] theorem vSet_midway (c : Ctx) (r : BitVec 5) (x : V512) : (vSet c r x).midway = c.midway := rfl
@[simp] theorem oxSet_midway (c : Ctx) (r : BitVec 3) (x : W64) : (oxSet c r x).midway = c.midway := rfl
@[simp] theorem unlock_midway (c : Ctx) (r : RegId) : (unlock c r).midway = c.midway := rfl
@[simp] theorem gSet_midway (c : Ctx) (r : BitVec 5) (x : W64) : (gSet c r x).midway = c.midway := by
  unfold gSet; split <;> rfl
@[simp] theorem kSet_midway (c : Ctx) (r : BitVec 3) (x : W64) : (kSet c r x).midway = c.midway := by
  unfold kSet; split <;> rfl
@[simp] theorem vSet_leaving (c : Ctx) (r : BitVec 5) (x : V512) : (vSet c r x).leaving = c.leaving := rfl
@[simp] theorem oxSet_leaving (c : Ctx) (r : BitVec 3) (x : W64) : (oxSet c r x).leaving = c.leaving := rfl
@[simp] theorem unlock_leaving (c : Ctx) (r : RegId) : (unlock c r).leaving = c.leaving := rfl
@[simp] theorem gSet_leaving (c : Ctx) (r : BitVec 5) (x : W64) : (gSet c r x).leaving = c.leaving := by
  unfold gSet; split <;> rfl
@[simp] theorem kSet_leaving (c : Ctx) (r : BitVec 3) (x : W64) : (kSet c r x).leaving = c.leaving := by
  unfold kSet; split <;> rfl
@[simp] theorem vSet_joinPtr (c : Ctx) (r : BitVec 5) (x : V512) : (vSet c r x).joinPtr = c.joinPtr := rfl
@[simp] theorem oxSet_joinPtr (c : Ctx) (r : BitVec 3) (x : W64) : (oxSet c r x).joinPtr = c.joinPtr := rfl
@[simp] theorem unlock_joinPtr (c : Ctx) (r : RegId) : (unlock c r).joinPtr = c.joinPtr := rfl
@[simp] theorem gSet_joinPtr (c : Ctx) (r : BitVec 5) (x : W64) : (gSet c r x).joinPtr = c.joinPtr := by
  unfold gSet; split <;> rfl
@[simp] theorem kSet_joinPtr (c : Ctx) (r : BitVec 3) (x : W64) : (kSet c r x).joinPtr = c.joinPtr := by
  unfold kSet; split <;> rfl
@[simp] theorem vSet_mailRow (c : Ctx) (r : BitVec 5) (x : V512) : (vSet c r x).mailRow = c.mailRow := rfl
@[simp] theorem oxSet_mailRow (c : Ctx) (r : BitVec 3) (x : W64) : (oxSet c r x).mailRow = c.mailRow := rfl
@[simp] theorem unlock_mailRow (c : Ctx) (r : RegId) : (unlock c r).mailRow = c.mailRow := rfl
@[simp] theorem gSet_mailRow (c : Ctx) (r : BitVec 5) (x : W64) : (gSet c r x).mailRow = c.mailRow := by
  unfold gSet; split <;> rfl
@[simp] theorem kSet_mailRow (c : Ctx) (r : BitVec 3) (x : W64) : (kSet c r x).mailRow = c.mailRow := by
  unfold kSet; split <;> rfl

end Sys2Proof.Machine
end

