-- ==== Sys2Proof/Laws/Tables.lean ====
section
/-! SUPPORT. The laws of the sparse tables and of memory's canonical form: read after write, and that every write keeps the
form. -/
namespace Sys2Proof.Machine
open Sys2Proof

@[simp] theorem tabGet_tabPut_same {α : Type} (d : α) (t : Tab α) (n : Nat) (x : α) :
    tabGet d (tabPut t n x) n = x := by
  induction t with
  | nil => simp [tabPut, tabGet]
  | cons p t ih =>
    obtain ⟨k, y⟩ := p
    simp only [tabPut]
    split
    · simp [tabGet]
    · split
      · simp [tabGet]
      · next h _ => simp [tabGet, h, ih]

theorem tabGet_tabPut_other {α : Type} (d : α) (t : Tab α) (n m : Nat) (x : α) (h : m ≠ n) :
    tabGet d (tabPut t n x) m = tabGet d t m := by
  induction t with
  | nil => simp [tabPut, tabGet, Ne.symm h]
  | cons p t ih =>
    obtain ⟨k, y⟩ := p
    simp only [tabPut]
    split
    · next e => subst e; simp [tabGet, Ne.symm h]
    · split
      · simp [tabGet, Ne.symm h]
      · simp [tabGet, ih]

theorem tabGet_tabPut {α : Type} (d : α) (t : Tab α) (n m : Nat) (x : α) :
    tabGet d (tabPut t n x) m = if m = n then x else tabGet d t m := by
  split
  · next h => subst h; simp
  · next h => exact tabGet_tabPut_other d t n m x h

theorem tabGet_filter {α : Type} (d : α) (t : Tab α) (p : Nat → Bool) (m : Nat) (h : p m = true) :
    tabGet d (t.filter fun e => p e.1) m = tabGet d t m := by
  induction t with
  | nil => rfl
  | cons q t ih =>
    obtain ⟨k, y⟩ := q
    simp only [List.filter_cons]
    split
    · simp [tabGet, ih]
    · next hk =>
      have : k ≠ m := fun e => hk (by simpa [e] using h)
      simp [tabGet, this, ih]

theorem tabGet_filter_out {α : Type} (d : α) (t : Tab α) (p : Nat → Bool) (m : Nat) (h : p m = false) :
    tabGet d (t.filter fun e => p e.1) m = d := by
  induction t with
  | nil => rfl
  | cons q t ih =>
    obtain ⟨k, y⟩ := q
    simp only [List.filter_cons]
    split
    · next hk =>
      have : k ≠ m := fun e => by simp [e, h] at hk
      simp [tabGet, this, ih]
    · exact ih

theorem byteGet_byteSet (t : Tab Byte) (a m : Nat) (b : Byte) :
    byteGet (byteSet t a b) m = if m = a then b else byteGet t m := by
  unfold byteGet byteSet
  split
  · next hb =>
    unfold tabDel
    split
    · next h =>
      rw [h, hb]
      have := tabGet_filter_out (0#8) t (fun k => decide (k ≠ a)) a (by simp)
      simpa using this
    · next h =>
      have := tabGet_filter (0#8) t (fun k => decide (k ≠ a)) m (by simpa using h)
      simpa using this
  · exact tabGet_tabPut _ _ _ _ _

@[simp] theorem byteGet_byteSet_same (t : Tab Byte) (a : Nat) (b : Byte) : byteGet (byteSet t a b) a = b := by
  simp [byteGet_byteSet]

theorem byteGet_bytesSet (t : Tab Byte) (a m : Nat) (bs : List Byte) :
    byteGet (bytesSet t a bs) m = if a ≤ m ∧ m < a + bs.length then bs.getD (m - a) 0 else byteGet t m := by
  induction bs generalizing t a with
  | nil =>
    have : ¬ (a ≤ m ∧ m < a + ([] : List Byte).length) := by simp
    rw [if_neg this]; rfl
  | cons b bs ih =>
    simp only [bytesSet, ih, byteGet_byteSet, List.length_cons]
    by_cases h1 : m = a
    · subst h1
      rw [if_neg (by omega), if_pos rfl, if_pos (by omega)]
      simp
    · rw [if_neg h1]
      by_cases h2 : a + 1 ≤ m ∧ m < a + 1 + bs.length
      · rw [if_pos h2, if_pos (by omega)]
        obtain ⟨k, hk⟩ : ∃ k, m - a = k + 1 := ⟨m - a - 1, by omega⟩
        have : m - (a + 1) = k := by omega
        rw [this, hk]; simp
      · rw [if_neg h2, if_neg (by omega)]

/-! ## The canonical form -/

/-- Every key of a table is above a bound. -/
theorem rising_cons {α : Type} (k : Nat) (y : α) (t : Tab α) :
    rising ((k, y) :: t) = true ↔ (∀ p ∈ t, k < p.1) ∧ rising t = true := by
  induction t generalizing k y with
  | nil => simp [rising]
  | cons q t ih =>
    obtain ⟨m, z⟩ := q
    simp only [rising, Bool.and_eq_true, decide_eq_true_eq, List.mem_cons, forall_eq_or_imp]
    constructor
    · rintro ⟨h1, h2⟩
      have := (ih m z).1 h2
      exact ⟨⟨h1, fun p hp => Nat.lt_trans h1 (this.1 p hp)⟩, h2⟩
    · rintro ⟨⟨h1, _⟩, h2⟩
      exact ⟨h1, h2⟩

theorem mem_tabPut {α : Type} (t : Tab α) (n : Nat) (x : α) (p : Nat × α) (h : p ∈ tabPut t n x) :
    p = (n, x) ∨ p ∈ t := by
  induction t with
  | nil => simpa [tabPut] using h
  | cons q t ih =>
    obtain ⟨k, y⟩ := q
    simp only [tabPut] at h
    split at h
    · rcases List.mem_cons.1 h with h | h
      · exact .inl h
      · exact .inr (List.mem_cons_of_mem _ h)
    · split at h
      · rcases List.mem_cons.1 h with h | h
        · exact .inl h
        · exact .inr h
      · rcases List.mem_cons.1 h with h | h
        · exact .inr (by simp [h])
        · exact (ih h).imp_right (List.mem_cons_of_mem _)

theorem rising_tabPut {α : Type} (t : Tab α) (n : Nat) (x : α) (h : rising t = true) :
    rising (tabPut t n x) = true := by
  induction t with
  | nil => rfl
  | cons q t ih =>
    obtain ⟨k, y⟩ := q
    obtain ⟨h1, h2⟩ := (rising_cons k y t).1 h
    simp only [tabPut]
    split
    · next e => subst e; exact (rising_cons _ _ _).2 ⟨h1, h2⟩
    · split
      · next _ hlt =>
        refine (rising_cons _ _ _).2 ⟨?_, h⟩
        intro p hp
        rcases List.mem_cons.1 hp with hp | hp
        · simpa [hp] using hlt
        · exact Nat.lt_trans hlt (h1 p hp)
      · next hne hnlt =>
        refine (rising_cons _ _ _).2 ⟨?_, ih h2⟩
        intro p hp
        rcases mem_tabPut t n x p hp with hp | hp
        · rw [hp]; omega
        · exact h1 p hp

theorem rising_filter {α : Type} (t : Tab α) (p : Nat × α → Bool) (h : rising t = true) :
    rising (t.filter p) = true := by
  induction t with
  | nil => rfl
  | cons q t ih =>
    obtain ⟨k, y⟩ := q
    obtain ⟨h1, h2⟩ := (rising_cons k y t).1 h
    simp only [List.filter_cons]
    split
    · exact (rising_cons _ _ _).2 ⟨fun r hr => h1 r (List.mem_filter.1 hr).1, ih h2⟩
    · exact ih h2

theorem bytesWf_filter (t : Tab Byte) (p : Nat × Byte → Bool) (h : bytesWf t = true) : bytesWf (t.filter p) = true := by
  simp only [bytesWf, Bool.and_eq_true, List.all_eq_true] at *
  exact ⟨rising_filter t p h.1, fun q hq => h.2 q (List.mem_filter.1 hq).1⟩

theorem bytesWf_byteSet (t : Tab Byte) (a : Nat) (b : Byte) (h : bytesWf t = true) : bytesWf (byteSet t a b) = true := by
  unfold byteSet
  split
  · exact bytesWf_filter t _ h
  · next hb =>
    simp only [bytesWf, Bool.and_eq_true, List.all_eq_true] at *
    refine ⟨rising_tabPut t a b h.1, fun q hq => ?_⟩
    rcases mem_tabPut t a b q hq with hq | hq
    · simpa [hq] using hb
    · exact h.2 q hq

theorem bytesWf_bytesSet (t : Tab Byte) (a : Nat) (bs : List Byte) (h : bytesWf t = true) :
    bytesWf (bytesSet t a bs) = true := by
  induction bs generalizing t a with
  | nil => exact h
  | cons b bs ih => exact ih _ _ (bytesWf_byteSet t a b h)

theorem bytesWf_bytesClear (t : Tab Byte) (a n : Nat) (h : bytesWf t = true) : bytesWf (bytesClear t a n) = true :=
  bytesWf_filter t _ h

end Sys2Proof.Machine
end

