-- ==== Sys2Proof/Laws/Ops.lean ====
section
/-! SUPPORT. The laws of the shared operations: the parts of the package read after a write, registers, interlocks, and
what an instruction's run comes to. -/
namespace Sys2Proof.Machine
open Sys2Proof

/-! ## Parts of the package -/

@[simp] theorem getCore_setCore (s : State) (n : Nat) (c : Core) : getCore (setCore s n c) n = c := by
  simp [getCore, setCore]
theorem getCore_setCore_other (s : State) (n m : Nat) (c : Core) (h : m ≠ n) :
    getCore (setCore s n c) m = getCore s m := tabGet_tabPut_other _ _ _ _ _ h
@[simp] theorem getCluster_setCluster (s : State) (n : Nat) (c : Cluster) : getCluster (setCluster s n c) n = c := by
  simp [getCluster, setCluster]
theorem getCluster_setCluster_other (s : State) (n m : Nat) (c : Cluster) (h : m ≠ n) :
    getCluster (setCluster s n c) m = getCluster s m := tabGet_tabPut_other _ _ _ _ _ h
@[simp] theorem getDie_setDie (s : State) (n : Nat) (d : Die) : getDie (setDie s n d) n = d := by
  simp [getDie, setDie]
theorem getDie_setDie_other (s : State) (n m : Nat) (d : Die) (h : m ≠ n) :
    getDie (setDie s n d) m = getDie s m := tabGet_tabPut_other _ _ _ _ _ h
@[simp] theorem getCluster_setCore (s : State) (n m : Nat) (c : Core) :
    getCluster (setCore s n c) m = getCluster s m := rfl
@[simp] theorem getDie_setCore (s : State) (n m : Nat) (c : Core) : getDie (setCore s n c) m = getDie s m := rfl
@[simp] theorem getCore_setCluster (s : State) (n m : Nat) (c : Cluster) :
    getCore (setCluster s n c) m = getCore s m := rfl
@[simp] theorem getDie_setCluster (s : State) (n m : Nat) (c : Cluster) : getDie (setCluster s n c) m = getDie s m := rfl
@[simp] theorem getCore_setDie (s : State) (n m : Nat) (d : Die) : getCore (setDie s n d) m = getCore s m := rfl
@[simp] theorem getCluster_setDie (s : State) (n m : Nat) (d : Die) :
    getCluster (setDie s n d) m = getCluster s m := rfl
@[simp] theorem getCore_modCore (s : State) (n : Nat) (f : Core → Core) : getCore (modCore s n f) n = f (getCore s n) := by
  simp [modCore]
@[simp] theorem getCluster_modCluster (s : State) (n : Nat) (f : Cluster → Cluster) :
    getCluster (modCluster s n f) n = f (getCluster s n) := by
  simp [modCluster]
@[simp] theorem getDie_modDie (s : State) (n : Nat) (f : Die → Die) : getDie (modDie s n f) n = f (getDie s n) := by
  simp [modDie]

theorem coreCtx_coreSetCtx (c : Core) (x y : Nat) (k : Ctx) (h : x < 5) :
    coreCtx (coreSetCtx c x k) y = if y = x then k else coreCtx c y := by
  unfold coreCtx coreSetCtx
  split
  · next e => subst e; simp [h]
  · next e => simp [Ne.symm e]

theorem getCtx_setCtx (s : State) (n x : Nat) (k : Ctx) (h : x < 5) : getCtx (setCtx s n x k) n x = k := by
  simp [getCtx, setCtx, coreCtx_coreSetCtx, h]
theorem getCtx_modCtx (s : State) (n x : Nat) (f : Ctx → Ctx) (h : x < 5) :
    getCtx (modCtx s n x f) n x = f (getCtx s n x) := getCtx_setCtx s n x _ h
theorem getCtx_modCtx_other (s : State) (n x m y : Nat) (f : Ctx → Ctx) (hx : x < 5) (h : ¬(m = n ∧ y = x)) :
    getCtx (modCtx s n x f) m y = getCtx s m y := by
  unfold modCtx setCtx getCtx
  by_cases e : m = n
  · subst e
    simp [coreCtx_coreSetCtx, hx, show y ≠ x from fun h' => h ⟨rfl, h'⟩]
  · rw [getCore_setCore_other _ _ _ _ e]

/-- Two changes of one context are one. -/
theorem modCtx_modCtx (s : State) (n x : Nat) (f g : Ctx → Ctx) (h : x < 5) :
    modCtx (modCtx s n x f) n x g = modCtx s n x fun c => g (f c) := by
  have h1 : getCtx (modCtx s n x f) n x = f (getCtx s n x) := getCtx_modCtx s n x f h
  unfold modCtx at *
  rw [h1]
  have h2 : getCore (setCtx s n x (f (getCtx s n x))) n = coreSetCtx (getCore s n) x (f (getCtx s n x)) := by
    simp [setCtx]
  unfold setCtx at *
  rw [h2]
  simp only [setCore, coreSetCtx, Vector.setIfInBounds_setIfInBounds]
  congr 1
  have : ∀ (t : Tab Core) (a b : Core), tabPut (tabPut t n a) n b = tabPut t n b := by
    intro t a b
    induction t with
    | nil => simp [tabPut]
    | cons p t ih =>
      obtain ⟨k, y⟩ := p
      by_cases hk : k = n
      · simp [tabPut, hk]
      · by_cases hl : n < k
        · simp [tabPut, hk, hl]
        · simp [tabPut, hk, hl, ih]
  exact this _ _ _

@[simp] theorem now_modCtx (s : State) (n x : Nat) (f : Ctx → Ctx) : now (modCtx s n x f) = now s := rfl
@[simp] theorem now_modCore (s : State) (n : Nat) (f : Core → Core) : now (modCore s n f) = now s := rfl
@[simp] theorem now_modCluster (s : State) (n : Nat) (f : Cluster → Cluster) : now (modCluster s n f) = now s := rfl

/-! ## Registers (R19, R20) -/

@[simp] theorem gOf_zero (c : Ctx) : gOf c 0#5 = 0 := rfl
@[simp] theorem gSet_zero (c : Ctx) (x : W64) : gSet c 0#5 x = c := rfl
theorem gOf_gSet (c : Ctx) (r q : BitVec 5) (x : W64) :
    gOf (gSet c r x) q = if q = r ∧ r ≠ 0#5 then x else gOf c q := by
  unfold gOf gSet
  by_cases hr : r = 0#5
  · simp [hr]
  · by_cases hq : q = r
    · subst hq; simp [hr]
    · by_cases h0 : q = 0#5
      · have hr' : (0#5 : BitVec 5) ≠ r := fun e => hr e.symm
        simp [h0, hr, hr']
      · have : r.toNat ≠ q.toNat := fun e => hq (BitVec.eq_of_toNat_eq e.symm)
        simp [hr, hq, h0, this]

/-! ## Interlocks (R125) -/

theorem lockedAt_of_unlocked (c : Ctx) (t : Nat) (r : RegId) (h : unlocked c t = true) : lockedAt c r t = false := by
  unfold unlocked at h
  unfold lockedAt
  rw [List.all_eq_true] at h
  rw [List.any_eq_false]
  intro l hl
  have := h l hl
  cases ht : l.till with
  | none => simp [ht] at this
  | some u => simp [ht] at this ⊢; intro _; omega

theorem calm_core {s : State} (h : calm s = true) : s.core < 16384 := by
  simp [calm] at h; exact h.1.1.1
theorem calm_ctx {s : State} (h : calm s = true) : s.ctx < 5 := by
  simp [calm] at h; exact h.1.1.2
theorem calm_leads {s : State} (h : calm s = true) : leads s = false := by
  simp [calm] at h; simpa using h.1.2
theorem calm_unlocked {s : State} (h : calm s = true) : unlocked (here s) (now s) = true := by
  simp [calm] at h; exact h.2
theorem calm_free {s : State} (h : calm s = true) (r : RegId) :
    lockedAt (getCtx s s.core s.ctx) r (now s) = false :=
  lockedAt_of_unlocked _ _ r (calm_unlocked h)

theorem free_ok {s : State} (r : RegId) (h : lockedAt (getCtx s s.core s.ctx) r (now s) = false) :
    free r s = .ok () s := by simp [free, h]
theorem rg_ok {s : State} (r : BitVec 5) (h : lockedAt (getCtx s s.core s.ctx) (.g r) (now s) = false) :
    rg r s = .ok (gOf (getCtx s s.core s.ctx) r) s := by
  simp [rg, free_ok _ h, cur, bind, EStateM.bind, pure, EStateM.pure]
theorem rv_ok {s : State} (r : BitVec 5) (h : lockedAt (getCtx s s.core s.ctx) (.v r) (now s) = false) :
    rv r s = .ok (vOf (getCtx s s.core s.ctx) r) s := by
  simp [rv, free_ok _ h, cur, bind, EStateM.bind, pure, EStateM.pure]
theorem rk_ok {s : State} (r : BitVec 3) (h : lockedAt (getCtx s s.core s.ctx) (.k r) (now s) = false) :
    rk r s = .ok (kOf (getCtx s s.core s.ctx) r) s := by
  simp [rk, free_ok _ h, cur, bind, EStateM.bind, pure, EStateM.pure]
/-- An unlocked register is written at once: no operation of the ring has still to write it. -/
theorem claim_ok {s : State} (r : RegId) (h : lockedAt (getCtx s s.core s.ctx) r (now s) = false) :
    claim r s = .ok () s := by simp [claim, h]
theorem wg_ok {s : State} (r : BitVec 5) (x : W64) (h : lockedAt (getCtx s s.core s.ctx) (.g r) (now s) = false) :
    wg r x s = .ok () (setG r x s) := by
  simp [wg, claim_ok _ h, bind, EStateM.bind, modCur, setG, onHere]
theorem wv_ok {s : State} (r : BitVec 5) (x : V512) (h : lockedAt (getCtx s s.core s.ctx) (.v r) (now s) = false) :
    wv r x s = .ok () (setV r x s) := by
  simp [wv, claim_ok _ h, bind, EStateM.bind, modCur, setV, onHere]
theorem wk_ok {s : State} (r : BitVec 3) (x : W64) (h : lockedAt (getCtx s s.core s.ctx) (.k r) (now s) = false) :
    wk r x s = .ok () (setK r x s) := by
  simp [wk, free_ok _ h, bind, EStateM.bind, modCur, setK, onHere]

/-! ## Runs -/

theorem bind_ok {α β : Type} {m : M α} {f : α → M β} {s t : State} {a : α} (h : m s = .ok a t) :
    (m >>= f) s = f a t := by
  simp [bind, EStateM.bind, h]
theorem bind_error {α β : Type} {m : M α} {f : α → M β} {s t : State} {e : Stop} (h : m s = .error e t) :
    (m >>= f) s = .error e t := by
  simp [bind, EStateM.bind, h]

theorem advance_ok (len : Nat) (s : State) : advance len s = .ok () (done len s) := rfl
theorem goTo_ok (pc : VA) (s : State) : goTo pc s = .ok () (jumped pc s) := rfl

/-- An allowed instruction outside a gang: its effect, then the PC past it. -/
theorem instrG_ok {len : Nat} {m : M Unit} {s t : State} (hl : leads s = false) (h : m s = .ok () t) :
    instrG len m s = .next (done len t) := by
  simp [instrG, hl, runOne, bind, EStateM.bind, h, advance_ok]
/-- The same for an instruction a gang may not execute. -/
theorem instr_ok {len : Nat} {m : M Unit} {s t : State} (hl : leads s = false) (h : m s = .ok () t) :
    instr len m s = .next (done len t) := by
  simp [instr, gangBar, hl, runOne, bind, EStateM.bind, h, advance_ok]
theorem instrRaw_ok {m : M Unit} {s t : State} (hl : leads s = false) (h : m s = .ok () t) :
    instrRaw m s = .next t := by
  simp [instrRaw, gangBar, hl, runOne, h]
theorem branchG_taken {len : Nat} {m : M (Option VA)} {s t : State} {pc : VA} (hl : leads s = false)
    (h : m s = .ok (some pc) t) : branchG len m s = .next (jumped pc t) := by
  simp [branchG, hl, runOne, bind, EStateM.bind, h, goTo_ok]
theorem branchG_not {len : Nat} {m : M (Option VA)} {s t : State} (hl : leads s = false)
    (h : m s = .ok none t) : branchG len m s = .next (done len t) := by
  simp [branchG, hl, runOne, bind, EStateM.bind, h, advance_ok]
/-- A precise trap outside a gang (R78): nothing but the reports to the management core stands. -/
theorem instrG_trap {len : Nat} {m : M Unit} {s t : State} {cause : BitVec 8} {val : W64} {prog : Bool}
    (hl : leads s = false) (h : m s = .error (.trap cause val prog false) t) :
    instrG len m s = .next (takeTrap (keepReports s t) s.core s.ctx cause val prog) := by
  simp [instrG, hl, runOne, bind, EStateM.bind, h, stopped]
theorem event_ok {ev : Instr} {m : M Unit} {s t : State} (h : m s = .ok () t) : event ev m s = .next t := by
  simp [event, h]

end Sys2Proof.Machine
end

