-- ==== Sys2Proof/Laws/Memory.lean ====
section
/-! SUPPORT. What the shared operations do to physical memory: a read after a write, and that memory keeps its canonical
form under every one of them, through taking a trap, killing a context and the ways an instruction or an event runs. -/
namespace Sys2Proof.Machine
open Sys2Proof

/-! ## Operations that leave memory alone -/

@[simp] theorem mem_setCore (s : State) (n : Nat) (c : Core) : (setCore s n c).mem = s.mem := rfl
@[simp] theorem mem_setCluster (s : State) (n : Nat) (c : Cluster) : (setCluster s n c).mem = s.mem := rfl
@[simp] theorem mem_setDie (s : State) (n : Nat) (d : Die) : (setDie s n d).mem = s.mem := rfl
@[simp] theorem mem_modCore (s : State) (n : Nat) (f : Core → Core) : (modCore s n f).mem = s.mem := rfl
@[simp] theorem mem_modCluster (s : State) (n : Nat) (f : Cluster → Cluster) : (modCluster s n f).mem = s.mem := rfl
@[simp] theorem mem_modDie (s : State) (n : Nat) (f : Die → Die) : (modDie s n f).mem = s.mem := rfl
@[simp] theorem mem_setCtx (s : State) (n x : Nat) (k : Ctx) : (setCtx s n x k).mem = s.mem := rfl
@[simp] theorem mem_modCtx (s : State) (n x : Nat) (f : Ctx → Ctx) : (modCtx s n x f).mem = s.mem := rfl
@[simp] theorem mem_later (s : State) (n : Nat) (e : Instr) (a : EvArg) : (later s n e a).mem = s.mem := rfl
@[simp] theorem mem_sometime (s : State) (e : Instr) (a : EvArg) : (sometime s e a).mem = s.mem := rfl
@[simp] theorem mem_laterAfter (s : State) (e : Instr) (a : EvArg) (p : Due → Bool) :
    (laterAfter s e a p).mem = s.mem := rfl
@[simp] theorem mem_dispatch (s : State) (n : Nat) : (dispatch s n).mem = s.mem := rfl
@[simp] theorem mem_countError (s : State) (f : FencedKind) (a b c d : Nat) : (countError s f a b c d).mem = s.mem := by
  unfold countError; dsimp only; split <;> rfl
@[simp] theorem mem_touch (s : State) (pa u : Nat) : (touch s pa u).mem = s.mem := by
  unfold touch; split <;> rfl
@[simp] theorem mem_wakeChannel (s : State) (d ch : Nat) : (wakeChannel s d ch).mem = s.mem := by
  unfold wakeChannel; split <;> rfl
@[simp] theorem mem_wake (s : State) (pa : Nat) : (wake s pa).mem = s.mem := by
  unfold wake; dsimp only; split <;> simp
@[simp] theorem mem_useKey (s : State) (k u : Nat) : (useKey s k u).mem = s.mem := rfl
@[simp] theorem mem_linkUse (s : State) (a b : Nat) : (linkUse s a b).mem = s.mem := by
  unfold linkUse; split <;> rfl
@[simp] theorem mem_wakeFrom (s : State) (d pa : Nat) : (wakeFrom s d pa).mem = s.mem := by
  unfold wakeFrom; rw [mem_wake]; split <;> rfl
@[simp] theorem mem_errorMet (s : State) (a b c : Nat) : (errorMet s a b c).mem = s.mem := by
  unfold errorMet; dsimp only; (repeat' split) <;> simp
/-- A report enters the log and may have a function fenced; it leaves memory. -/
@[simp] theorem mem_report (s : State) (a b c d e f g : Nat) : (report s a b c d e f g).mem = s.mem := by
  unfold report; dsimp only; split <;> simp
/-- A fold of steps that leave memory leaves memory. -/
theorem mem_foldl {α : Type} (f : State → α → State) (h : ∀ s a, (f s a).mem = s.mem) (l : List α) (s : State) :
    (l.foldl f s).mem = s.mem := by
  induction l generalizing s with
  | nil => rfl
  | cons a l ih => rw [List.foldl_cons, ih, h]
@[simp] theorem mem_keepReports (s t : State) : (keepReports s t).mem = s.mem := by
  unfold keepReports; exact mem_foldl _ (fun _ _ => mem_report _ _ _ _ _ _ _ _) _ s
@[simp] theorem mem_walkWakes (s : State) (a : BitVec 16) (va : VA) : (walkWakes s a va).mem = s.mem := by
  unfold walkWakes; dsimp only; split
  · rfl
  · exact mem_foldl _ (fun _ _ => mem_wake _ _) _ s
@[simp] theorem mem_healLine (s : State) (l : Nat) : (healLine s l).mem = s.mem := by
  unfold healLine; dsimp only; split <;> rfl
@[simp] theorem mem_backInvalidate (s : State) (pa : Nat) : (backInvalidate s pa).mem = s.mem := by
  unfold backInvalidate; split <;> rfl
@[simp] theorem mem_reportWalk (s : State) (b : Option Nat) : (reportWalk s b).mem = s.mem := by
  unfold reportWalk; split <;> simp
@[simp] theorem mem_tlbInstall (s : State) (cl : Nat) (a : BitVec 16) (va : VA) (l : Leaf) :
    (tlbInstall s cl a va l).mem = s.mem := by
  unfold tlbInstall; dsimp only; (repeat' split) <;> rfl
@[simp] theorem mem_engineLeaf (s : State) (cl : Nat) (e : Engine) (a : BitVec 16) (va : VA) :
    (engineLeaf s cl e a va).2.mem = s.mem := by
  unfold engineLeaf; dsimp only; (repeat' split) <;> rfl
@[simp] theorem mem_startWalk (s : State) (cl : Nat) (a : BitVec 16) (va : VA) (m : Missed) :
    (startWalk s cl a va m).mem = s.mem := by
  unfold startWalk; dsimp only; (repeat' split) <;> rfl
@[simp] theorem mem_forgetEngines (s : State) (p : Engine → Bool) : (forgetEngines s p).mem = s.mem := by
  unfold forgetEngines; dsimp only; (repeat' split) <;> rfl
@[simp] theorem mem_forgetMiss (s : State) (n x : Nat) : (forgetMiss s n x).mem = s.mem := by
  unfold forgetMiss; dsimp only; rw [mem_modCtx, mem_forgetEngines]; split <;> rfl
@[simp] theorem mem_dropLines (s : State) (cl : Nat) (p : Nat → Bool) : (dropLines s cl p).mem = s.mem := rfl
@[simp] theorem mem_trace (s : State) (t c : Nat) (b : Bool) (o : Nat) : (trace s t c b o).mem = s.mem := rfl
@[simp] theorem mem_powerUp (s : State) (n : Nat) : (powerUp s n).mem = s.mem := rfl
@[simp] theorem mem_putRound (s : State) (r : Round) : (putRound s r).mem = s.mem := rfl
@[simp] theorem mem_freeSlot (s : State) (n : Nat) : (freeSlot s n).mem = s.mem := rfl
@[simp] theorem mem_noteKill (s : State) (t : BitVec 12) (c : BitVec 8) (n x : Nat) (j : W64) :
    (noteKill s t c n x j).mem = s.mem := rfl
@[simp] theorem mem_pushSfu (s : State) (e : SfuEntry) : (pushSfu s e).mem = s.mem := rfl
@[simp] theorem mem_takeSfu (s : State) (n x : Nat) : (takeSfu s n x).2.mem = s.mem := by
  unfold takeSfu; dsimp only; split <;> rfl
@[simp] theorem mem_keepReplay (s : State) (n x : Nat) : (keepReplay s n x).mem = s.mem := by
  unfold keepReplay; dsimp only; rw [mem_modCtx, mem_takeSfu]
@[simp] theorem mem_waitTimer (s : State) (n x : Nat) (e : Instr) (v : W64) (r : Bool) :
    (waitTimer s n x e v r).mem = s.mem := by
  unfold waitTimer; dsimp only; split
  · rfl
  · split <;> rfl
@[simp] theorem mem_contribute (s : State) (d : BitVec 12) (g : BitVec 6) (n : Nat) (v : Option (W64 × Who))
    (b : Option Nat) : (contribute s d g n v b).mem = s.mem := by
  unfold contribute; dsimp only; split
  · split <;> rfl
  · rfl

@[simp] theorem mem_flushComb (s : State) (cl : Nat) (p : Comb → Bool) : (flushComb s cl p).mem = s.mem := by
  unfold flushComb; dsimp only
  refine (mem_foldl _ ?_ _ _).trans rfl
  intros; rfl
@[simp] theorem mem_settleBars (s : State) (n : Nat) : (settleBars s n).mem = s.mem := by
  unfold settleBars
  refine mem_foldl _ (fun s a => ?_) _ s
  dsimp only; split
  · split <;> simp
  · rfl
@[simp] theorem mem_dropAll (s : State) (n x : Nat) : (dropAll s n x).mem = s.mem := by
  unfold dropAll; simp
@[simp] theorem mem_endGather (s : State) (n x : Nat) (i : BitVec 16) : (endGather s n x i).mem = s.mem := by
  unfold endGather; dsimp only
  split
  · rw [mem_modCluster]
    refine mem_foldl _ ?_ _ _
    intros; rfl
  · refine mem_foldl _ ?_ _ _
    intros; rfl
@[simp] theorem mem_freeCtx (s : State) (n x : Nat) : (freeCtx s n x).mem = s.mem := by
  unfold freeCtx; dsimp only
  rw [mem_dispatch, mem_modCtx, mem_forgetMiss, mem_endGather]
  split <;> rfl
@[simp] theorem mem_withdraw (s : State) (n x : Nat) (i : BitVec 16) : (withdraw s n x i).mem = s.mem := by
  unfold withdraw; dsimp only
  refine (mem_foldl _ ?_ _ _).trans rfl
  intros; rfl
@[simp] theorem mem_endGang (s : State) (n x : Nat) : (endGang s n x).mem = s.mem := by
  unfold endGang; dsimp only
  rw [mem_modCtx]
  refine mem_foldl _ ?_ _ _
  intros; simp
/-- What a stalled instruction leaves behind leaves memory. -/
@[simp] theorem mem_noteStall (w : Wait) (s : State) : (noteStall w s).mem = s.mem := by
  unfold noteStall; dsimp only
  cases w <;> dsimp only <;> (repeat' split) <;> simp

/-! ## A read after a write -/

@[simp] theorem mem_memWrite (s : State) (pa : Nat) (bs : List Byte) : (memWrite s pa bs).mem = bytesSet s.mem pa bs := by
  unfold memWrite; dsimp only; split <;> simp
@[simp] theorem mem_hostPut (s : State) (pa : Nat) (bs : List Byte) : (hostPut s pa bs).mem = bytesSet s.mem pa bs := by
  unfold hostPut; dsimp only; split <;> simp

/-- One line's device write, byte by byte. -/
theorem byteGet_memWrite (s : State) (pa a : Nat) (bs : List Byte) :
    byteGet (memWrite s pa bs).mem a = if pa ≤ a ∧ a < pa + bs.length then bs.getD (a - pa) 0 else byteGet s.mem a := by
  simp [byteGet_bytesSet]

/-- A device write of any length, byte by byte. -/
theorem byteGet_memWriteAll (f : Nat) (s : State) (pa a : Nat) (bs : List Byte) (h : bs.length < f) :
    byteGet (memWriteAll s pa bs f).mem a =
      if pa ≤ a ∧ a < pa + bs.length then bs.getD (a - pa) 0 else byteGet s.mem a := by
  induction f generalizing s pa bs with
  | zero => omega
  | succ f ih =>
    unfold memWriteAll
    cases bs with
    | nil =>
      have hn : ¬ (pa ≤ a ∧ a < pa + ([] : List Byte).length) := by simp only [List.length_nil]; omega
      rw [if_neg hn]; rfl
    | cons b bs =>
      simp only [List.isEmpty_cons, Bool.false_eq_true, if_false]
      generalize hk : min (b :: bs).length (64 - pa % 64) = k
      have hk1 : 1 ≤ k := by simp at hk; omega
      have hk2 : k ≤ (b :: bs).length := by omega
      rw [ih _ _ _ (by simp only [List.length_drop]; omega), byteGet_memWrite]
      simp only [List.length_drop, List.length_take, Nat.min_eq_left hk2]
      by_cases h1 : pa + k ≤ a ∧ a < pa + k + ((b :: bs).length - k)
      · rw [if_pos h1, if_pos (by omega), List.getD_eq_getElem?_getD, List.getD_eq_getElem?_getD, List.getElem?_drop]
        congr 2; omega
      · rw [if_neg h1]
        by_cases h2 : pa ≤ a ∧ a < pa + k
        · rw [if_pos h2, if_pos (by omega), List.getD_eq_getElem?_getD, List.getD_eq_getElem?_getD,
            List.getElem?_take_of_lt (by omega)]
        · rw [if_neg h2, if_neg (by omega)]

/-- What memory holds after a device write: the bytes written where they were written, and every other byte as before. -/
theorem byteGet_memPut (s : State) (pa a : Nat) (bs : List Byte) :
    byteGet (memPut s pa bs).mem a = if pa ≤ a ∧ a < pa + bs.length then bs.getD (a - pa) 0 else byteGet s.mem a :=
  byteGet_memWriteAll _ s pa a bs (Nat.lt_succ_self _)

/-! ## The canonical form -/

theorem memInv_of_eq {s t : State} (h : memInv s) (e : t.mem = s.mem) : memInv t := by unfold memInv at *; rw [e]; exact h
/-- Reset's memory lists nothing. -/
theorem memory_wf_reset : Memory.wf State.reset.mem = true := rfl
theorem memInv_memWrite {s : State} (pa : Nat) (bs : List Byte) (h : memInv s) : memInv (memWrite s pa bs) := by
  unfold memInv Memory.wf at *
  rw [mem_memWrite]; exact bytesWf_bytesSet _ _ _ h
theorem memInv_memWriteMask {s : State} (line : Nat) (d : V512) (m : BitVec 64) (h : memInv s) :
    memInv (memWriteMask s line d m) := by
  unfold memInv Memory.wf memWriteMask at *
  dsimp only
  have : ∀ (l : List Nat) (t : Tab Byte), bytesWf t = true → bytesWf (l.foldl (fun t i =>
      if m.getLsbD i then byteSet t (line * 64 + i) (lane d 8 i) else t) t) = true := by
    intro l
    induction l with
    | nil => exact fun _ h => h
    | cons i l ih =>
      intro t ht
      rw [List.foldl_cons]
      refine ih _ ?_
      by_cases hi : m.getLsbD i
      · rw [if_pos hi]; exact bytesWf_byteSet _ _ _ ht
      · rw [if_neg hi]; exact ht
  exact this _ _ (by simpa using h)
theorem memInv_memWriteAll (f : Nat) {s : State} (pa : Nat) (bs : List Byte) (h : memInv s) :
    memInv (memWriteAll s pa bs f) := by
  induction f generalizing s pa bs with
  | zero => exact h
  | succ f ih =>
    unfold memWriteAll; split
    · exact h
    · exact ih _ _ (memInv_memWrite _ _ h)
theorem memInv_memPut {s : State} (pa : Nat) (bs : List Byte) (h : memInv s) : memInv (memPut s pa bs) :=
  memInv_memWriteAll _ _ _ h
/-- The host's writes keep the form as the package's do. -/
theorem memInv_hostPut {s : State} (pa : Nat) (bs : List Byte) (h : memInv s) : memInv (hostPut s pa bs) := by
  unfold memInv Memory.wf at *
  rw [mem_hostPut]; exact bytesWf_bytesSet _ _ _ h
theorem memInv_resetPackage {s : State} (h : memInv s) : memInv (resetPackage s) := bytesWf_filter _ _ h
theorem memInv_loseInterleaved {s : State} (d : Nat) (h : memInv s) : memInv (loseInterleaved s d) := bytesWf_filter _ _ h

theorem memInv_foldl {α : Type} (f : State → α → State) (h : ∀ s a, memInv s → memInv (f s a)) (l : List α) {s : State}
    (hs : memInv s) : memInv (l.foldl f s) := by
  induction l generalizing s with
  | nil => exact hs
  | cons a l ih => exact ih (h _ _ hs)

theorem memInv_writeBack {s : State} (cl : Nat) (l : Line) (h : memInv s) : memInv (writeBack cl s l) := by
  unfold writeBack; split
  · exact h
  · split
    · exact memInv_memWriteMask _ _ _ (memInv_of_eq h (by simp))
    · exact memInv_of_eq h (by simp)
theorem memInv_evict {s : State} (cl line : Nat) (h : memInv s) : memInv (evict s cl line) := by
  unfold evict; dsimp only; split
  · exact h
  · exact memInv_writeBack _ _ (memInv_of_eq h rfl)
theorem memInv_cacheInsert {s : State} (cl : Nat) (l : Line) (h : memInv s) : memInv (cacheInsert s cl l) := by
  unfold cacheInsert; dsimp only
  refine memInv_of_eq (s := if _ then _ else _) ?_ (mem_modCluster _ _ _)
  split
  · exact h
  · split
    · exact memInv_evict _ _ h
    · exact h
theorem memInv_cacheRead {s : State} (cl pa n : Nat) (h : memInv s) : memInv (cacheRead s cl pa n).2 := by
  unfold cacheRead; dsimp only; split
  · split
    · exact memInv_of_eq h (by simp)
    · split
      · exact memInv_cacheInsert _ _ h
      · split
        · exact memInv_of_eq h (by simp)
        · exact memInv_cacheInsert _ _ (memInv_of_eq h (by simp))
  · split
    · exact memInv_of_eq h (by simp)
    · exact memInv_cacheInsert _ _ (memInv_of_eq h (by simp))
theorem memInv_cacheWrite {s : State} (cl pa : Nat) (bs : List Byte) (h : memInv s) : memInv (cacheWrite s cl pa bs).2 := by
  unfold cacheWrite; dsimp only; split
  · split
    · exact memInv_of_eq h (by simp)
    · exact memInv_cacheInsert _ _ h
  · split
    · exact memInv_cacheInsert _ _ h
    · exact memInv_cacheInsert _ _ (memInv_of_eq h (by simp))
theorem memInv_cleanLines {s : State} (cl : Nat) (p : Nat → Bool) (h : memInv s) : memInv (cleanLines s cl p) := by
  unfold cleanLines; dsimp only
  exact memInv_of_eq (memInv_foldl _ (fun _ _ h => memInv_writeBack _ _ h) _ h) (mem_modCluster _ _ _)
theorem memInv_refreshImage {s : State} (e : Saved) (old : List (Nat × List Byte)) (h : memInv s) :
    memInv (refreshImage s e old) :=
  memInv_foldl _ (fun _ _ h => memInv_memPut _ _ h) _ h
theorem memInv_putSaved {s : State} (e : Saved) (h : memInv s) : memInv (putSaved s e) := by
  unfold putSaved; dsimp only
  exact memInv_refreshImage e _ (memInv_of_eq h (mem_modDie _ _ _))
/-- A reply delivered, to a resident context or to a saved one and its image. -/
theorem memInv_deliver {s : State} (w : Who) (f : Ctx → Ctx) (h : memInv s) : memInv (deliver s w f) := by
  unfold deliver; split
  · exact memInv_of_eq h (mem_modCtx _ _ _ _)
  · split
    · exact memInv_putSaved _ h
    · exact h
theorem memInv_objectDead {s : State} (d : Nat) (a : BitVec 16) (o : W64) (h : memInv s) : memInv (objectDead s d a o) := by
  unfold objectDead; split
  · exact memInv_of_eq h (by simp)
  · dsimp only; split
    · exact memInv_of_eq h (by simp)
    · exact memInv_of_eq (memInv_memPut _ _ (memInv_of_eq h (mem_walkWakes _ _ _))) (mem_later _ _ _ _)
theorem memInv_alightSlot {s : State} (d n : Nat) (h : memInv s) : memInv (alightSlot s d n) := by
  unfold alightSlot; dsimp only
  refine memInv_of_eq (s := if _ then _ else _) ?_ (mem_freeSlot _ _)
  split
  · exact h
  · split
    · exact memInv_memPut _ _ h
    · exact memInv_of_eq h (by simp)
theorem memInv_alightIf {s : State} (p : RingSlot → Bool) (h : memInv s) : memInv (alightIf s p) :=
  memInv_foldl _ (fun _ _ h => memInv_alightSlot _ _ h) _ h
theorem memInv_alightAll {s : State} (n x : Nat) (i : BitVec 16) (h : memInv s) : memInv (alightAll s n x i) :=
  memInv_alightIf _ h
theorem memInv_destroyBoarder {s : State} (n x : Nat) (i : BitVec 16) (h : memInv s) : memInv (destroyBoarder s n x i) := by
  unfold destroyBoarder; split
  · exact h
  · exact memInv_alightAll _ _ _ h
theorem memInv_killCtx {s : State} (n x : Nat) (c : BitVec 8) (h : memInv s) : memInv (killCtx s n x c) := by
  unfold killCtx; dsimp only; split
  · exact memInv_of_eq h (by simp)
  · rw [show ∀ t : State, memInv t ↔ Memory.wf t.mem = true from fun _ => Iff.rfl]
    simp only [mem_freeCtx, mem_modCtx, mem_noteKill, mem_endGather, mem_takeSfu]
    exact memInv_destroyBoarder _ _ _ (memInv_foldl _ (fun _ _ h => memInv_objectDead _ _ _ h) _ (memInv_of_eq h (by simp)))
/-- Taking a trap keeps memory's form, whether the handler is entered or the context is killed. -/
theorem memInv_takeTrap {s : State} (n x : Nat) (c : BitVec 8) (v : W64) (p : Bool) (h : memInv s) :
    memInv (takeTrap s n x c v p) := by
  unfold takeTrap; dsimp only; split
  · exact memInv_killCtx _ _ _ h
  · exact memInv_of_eq h (by simp)

/-! ## Pieces of a meaning -/

/-- A piece of a meaning that keeps memory's form, whether it ends or stops. -/
def MemKeeps {α : Type} (m : M α) : Prop :=
  ∀ s, memInv s → match m s with
    | .ok _ t => memInv t
    | .error _ t => memInv t

/-- An outcome whose next state, if there is one, has memory in its form. -/
def OutKeeps (o : Out) : Prop := ∀ t, o = .next t → memInv t

theorem MemKeeps.pure {α : Type} (a : α) : MemKeeps (Pure.pure a : M α) := fun _ h => h
theorem MemKeeps.throw {α : Type} (e : Stop) : MemKeeps (throw e : M α) := fun _ h => h
theorem MemKeeps.ask : MemKeeps ask := fun _ h => h
theorem MemKeeps.cur : MemKeeps cur := fun _ h => h
theorem MemKeeps.curCore : MemKeeps curCore := fun _ h => h
theorem MemKeeps.curCluster : MemKeeps curCluster := fun _ h => h
theorem MemKeeps.modCur (f : Ctx → Ctx) : MemKeeps (modCur f) := fun _ h => h
theorem MemKeeps.modCurCore (f : Core → Core) : MemKeeps (modCurCore f) := fun _ h => h
theorem MemKeeps.modCurCluster (f : Cluster → Cluster) : MemKeeps (modCurCluster f) := fun _ h => h
theorem MemKeeps.update {f : State → State} (hf : ∀ s, memInv s → memInv (f s)) : MemKeeps (update f) := hf
theorem MemKeeps.whoNow : MemKeeps whoNow := fun _ h => h
theorem MemKeeps.isHandler : MemKeeps isHandler := fun _ h => h
theorem MemKeeps.fresh : MemKeeps fresh := fun _ h => h
theorem MemKeeps.addLock (r : RegId) (n : Nat) : MemKeeps (addLock r n) := fun _ h => h
theorem MemKeeps.free (r : RegId) : MemKeeps (free r) := by
  intro s h
  unfold Machine.free
  split
  · next e => split at e <;> cases e; exact h
  · next e => split at e <;> cases e; exact h
theorem MemKeeps.claim (r : RegId) : MemKeeps (claim r) := by
  intro s h
  unfold Machine.claim
  dsimp only
  split
  all_goals
    next e =>
    split at e
    · cases e; try exact h
    · split at e
      · cases e; try exact h
      · cases e; try exact h
theorem MemKeeps.bind {α β : Type} {m : M α} {f : α → M β} (hm : MemKeeps m) (hf : ∀ a, MemKeeps (f a)) :
    MemKeeps (m >>= f) := by
  intro s h
  have h1 := hm s h
  cases e : m s with
  | ok a t =>
    rw [bind_ok e]
    rw [e] at h1
    exact hf a t h1
  | error x t =>
    rw [bind_error e]
    rw [e] at h1
    exact h1
theorem MemKeeps.ite {α : Type} {c : Prop} [Decidable c] {a b : M α} (ha : MemKeeps a) (hb : MemKeeps b) :
    MemKeeps (if c then a else b) := by
  split
  · exact ha
  · exact hb
theorem MemKeeps.trapM {α : Type} (c : BitVec 8) (v : W64) : MemKeeps (trapM c v : M α) := fun _ h => h
theorem MemKeeps.waitM {α : Type} : MemKeeps (waitM : M α) := fun _ h => h
theorem MemKeeps.waitUntil (c : Bool) : MemKeeps (waitUntil c) := .ite (.pure _) .waitM
theorem MemKeeps.trapIf (b : Bool) (c : BitVec 8) (v : W64) : MemKeeps (trapIf b c v) := .ite (.trapM _ _) (.pure _)
theorem MemKeeps.each {α : Type} {f : α → M Unit} (hf : ∀ a, MemKeeps (f a)) (l : List α) : MemKeeps (each f l) := by
  induction l with
  | nil => exact .pure _
  | cons a l ih => exact .bind (hf a) fun _ => ih
theorem MemKeeps.gather {α β : Type} {f : α → M β} (hf : ∀ a, MemKeeps (f a)) (l : List α) : MemKeeps (gather f l) := by
  induction l with
  | nil => exact .pure _
  | cons a l ih => exact .bind (hf a) fun _ => .bind ih fun _ => .pure _
theorem MemKeeps.rg (r : BitVec 5) : MemKeeps (rg r) := .bind (.free _) fun _ => .bind .cur fun _ => .pure _
theorem MemKeeps.wg (r : BitVec 5) (x : W64) : MemKeeps (wg r x) := .bind (.claim _) fun _ => .modCur _
theorem MemKeeps.rv (r : BitVec 5) : MemKeeps (rv r) := .bind (.free _) fun _ => .bind .cur fun _ => .pure _
theorem MemKeeps.wv (r : BitVec 5) (x : V512) : MemKeeps (wv r x) := .bind (.claim _) fun _ => .modCur _
theorem MemKeeps.rk (r : BitVec 3) : MemKeeps (rk r) := .bind (.free _) fun _ => .bind .cur fun _ => .pure _
theorem MemKeeps.wk (r : BitVec 3) (x : W64) : MemKeeps (wk r x) := .bind (.free _) fun _ => .modCur _
theorem MemKeeps.rox (r : BitVec 3) : MemKeeps (rox r) := .bind .cur fun _ => .pure _
theorem MemKeeps.wox (r : BitVec 3) (x : W64) : MemKeeps (wox r x) := .modCur _
theorem MemKeeps.post (n : Nat) (c : BitVec 4) : MemKeeps (post n c) :=
  .bind .cur fun _ => .bind (.waitUntil _) fun _ => .modCur _
theorem MemKeeps.leafFor (va : VA) (a : Acc) : MemKeeps (leafFor va a) := by
  unfold Machine.leafFor
  refine .bind .ask fun s => .bind .cur fun c => ?_
  split
  · exact .bind (.trapIf _ _ _) fun _ => .pure _
  · exact .ite (.bind (.modCur _) fun _ => .trapM _ _) (.throw _)
theorem MemKeeps.advance (n : Nat) : MemKeeps (advance n) := fun _ h => h
theorem MemKeeps.goOnMidway : MemKeeps goOnMidway := fun _ h => h
theorem MemKeeps.goTo (pc : VA) : MemKeeps (goTo pc) := fun _ h => h
theorem MemKeeps.leaveTrap (w : W64) : MemKeeps (leaveTrap w) :=
  .bind .cur fun _ => .bind (.trapIf _ _ _) fun _ => .bind (.trapIf _ _ _) fun _ => .modCur _

/-! ## Runs -/

theorem outKeeps_next {t : State} (h : memInv t) : OutKeeps (.next t) := fun _ e => by cases e; exact h
theorem outKeeps_fault (f : Fault) : OutKeeps (.fault f) := fun _ e => by cases e

theorem memInv_foldModCtx (l : List (Nat × Nat)) (f : Nat × Nat → Ctx → Ctx) {s : State} (h : memInv s) :
    memInv (l.foldl (fun s p => modCtx s p.1 p.2 (f p)) s) :=
  memInv_foldl _ (fun _ _ h => memInv_of_eq h (mem_modCtx _ _ _ _)) l h

theorem outKeeps_stopped {s s' : State} (h : memInv s) (h' : memInv s') (e : Stop) : OutKeeps (stopped s s' e) := by
  cases e with
  | trap c v p k =>
    refine outKeeps_next (memInv_takeTrap _ _ _ _ _ ?_)
    cases k
    · exact memInv_of_eq h (mem_keepReports _ _)
    · exact h'
  | wait w => exact outKeeps_next (memInv_of_eq h (by simp))
  | fault f => exact outKeeps_fault f
theorem outKeeps_runOne {m : M Unit} (hm : MemKeeps m) {s : State} (h : memInv s) : OutKeeps (runOne m s) := by
  unfold runOne
  have h1 := hm s h
  split
  · next e => rw [e] at h1; exact outKeeps_next h1
  · next e => rw [e] at h1; exact outKeeps_stopped h h1 _
@[simp] theorem mem_noteStalls (l : List ((Nat × Nat) × Wait)) (s : State) : (noteStalls l s).mem = s.mem := by
  unfold noteStalls
  exact mem_foldl _ (fun t p => by simp) l s
theorem outKeeps_gangEnds {s : State} (h : memInv s) (l : List ((Nat × Nat) × W64)) (c : BitVec 8) (v : W64) :
    OutKeeps (gangEnds s l c v) := by
  unfold gangEnds
  split
  · exact outKeeps_next (memInv_of_eq h (by simp))
  · exact outKeeps_next (memInv_takeTrap _ _ _ _ _ (memInv_of_eq (memInv_foldModCtx _ _ h) (mem_endGang _ _ _)))
theorem outKeeps_gangTrap {s : State} (h : memInv s) (c : BitVec 8) (v : W64) : OutKeeps (gangTrap s c v) :=
  outKeeps_gangEnds h [] c v
theorem outKeeps_gangFails {s : State} (h : memInv s) (p : Nat × Nat) (c : BitVec 8) (v : W64) :
    OutKeeps (gangFails s p c v) := by
  unfold gangFails
  split <;> exact outKeeps_gangTrap h _ _
theorem memInv_runMembers {m : M Unit} (hm : MemKeeps m) (l : List (Nat × Nat)) {s : State} (h : memInv s) :
    match runMembers m l s with
    | .ok t => memInv t
    | .error r => memInv r.2.1 := by
  induction l generalizing s with
  | nil => exact h
  | cons p l ih =>
    have h1 := hm { s with core := p.1, ctx := p.2 } h
    unfold runMembers runMember
    cases e : m { s with core := p.1, ctx := p.2 } with
    | ok a t => rw [e] at h1; exact ih h1
    | error x t => rw [e] at h1; exact h1
theorem outKeeps_gangEffects {m : M Unit} (hm : MemKeeps m) {s : State} (h : memInv s) : OutKeeps (gangEffects m s) := by
  have h1 := memInv_runMembers hm (members s) (s := { s with gangUse := [] }) h
  unfold gangEffects
  split
  · next e =>
    rw [e] at h1
    dsimp only
    split
    · exact outKeeps_next h1
    · exact outKeeps_gangEnds h _ _ _
  · exact outKeeps_next (memInv_of_eq h (by simp))
  · exact outKeeps_gangFails (memInv_of_eq h (mem_keepReports _ _)) _ _ _
  · exact outKeeps_fault _
theorem outKeeps_runGang {m : M Unit} (hm : MemKeeps m) {s : State} (h : memInv s) : OutKeeps (runGang m s) := by
  have ht : ∀ l : List ((Nat × Nat) × State × BitVec 8 × W64 × Bool), memInv (l.foldl (fun t f =>
      keepReports t { f.2.1 with log := t.log ++ f.2.1.log.drop s.log.length }) s) := fun l =>
    memInv_of_eq h (mem_foldl _ (fun _ _ => mem_keepReports _ _) l s)
  unfold runGang
  dsimp only
  split
  · exact outKeeps_next (memInv_of_eq h (by simp))
  · split
    · exact outKeeps_next (memInv_of_eq h (by simp))
    · split
      · refine outKeeps_gangFails ?_ _ _ _
        split
        · exact memInv_of_eq (ht _) (mem_modCtx _ _ _ _)
        · exact ht _
      · split
        · exact outKeeps_gangEffects hm h
        · exact outKeeps_next (memInv_of_eq h (by simp))
theorem outKeeps_instrG {n : Nat} {m : M Unit} (hm : MemKeeps m) {s : State} (h : memInv s) : OutKeeps (instrG n m s) := by
  unfold instrG
  have := MemKeeps.bind hm fun _ => MemKeeps.advance n
  dsimp only
  split
  · exact outKeeps_runGang this h
  · exact outKeeps_runOne this h
theorem outKeeps_branchG {n : Nat} {m : M (Option VA)} (hm : MemKeeps m) {s : State} (h : memInv s) :
    OutKeeps (branchG n m s) := by
  have : MemKeeps (do
      let t ← m
      match t with
      | some pc => Machine.goTo pc
      | none => Machine.advance n) := .bind hm fun t => by
    cases t with
    | none => exact .advance _
    | some pc => exact .goTo _
  unfold branchG
  dsimp only
  split
  · exact outKeeps_runGang this h
  · exact outKeeps_runOne this h
theorem outKeeps_gangBar {m : M Unit} (hm : MemKeeps m) {s : State} (h : memInv s) : OutKeeps (gangBar m s) := by
  unfold gangBar
  split
  · exact outKeeps_gangTrap h _ _
  · exact outKeeps_runOne hm h
theorem outKeeps_instr {n : Nat} {m : M Unit} (hm : MemKeeps m) {s : State} (h : memInv s) : OutKeeps (instr n m s) :=
  outKeeps_gangBar (.bind hm fun _ => .advance n) h
theorem outKeeps_instrRaw {m : M Unit} (hm : MemKeeps m) {s : State} (h : memInv s) : OutKeeps (instrRaw m s) :=
  outKeeps_gangBar hm h
theorem outKeeps_restartable {n : Nat} {m : M Bool} (hm : MemKeeps m) {s : State} (h : memInv s) :
    OutKeeps (restartable n m s) :=
  outKeeps_instrRaw (.bind hm fun _ => .ite (.advance n) .goOnMidway) h
theorem outKeeps_event {ev : Instr} {m : M Unit} (hm : MemKeeps m) {s : State} (h : memInv s) : OutKeeps (event ev m s) := by
  unfold event
  have h1 := hm s h
  split
  · next e => rw [e] at h1; exact outKeeps_next h1
  · refine outKeeps_next (memInv_of_eq h ?_)
    rw [mem_sometime]
    split <;> simp
  · exact outKeeps_next h
  · exact outKeeps_fault _

end Sys2Proof.Machine
end

