-- ==== Sys2Proof/Tests/Slice0.lean ====
section
/-! SUPPORT. The package's own tests: the decoder on a word of every encoded instruction, written out from the encoding tables
of 03_opcode_map.md R79 to R83, and on the spec's own worked words; an ill-formed term for each check of WellFormed; single
steps with results taken from the spec's worked examples; and, for each statement put to the provers that has hypotheses,
concrete states that meet them. -/
namespace Sys2Proof.Tests
set_option Elab.async false
open Sys2Proof Sys2Proof.Machine Sys2Proof.Claims

/-! ## A small laboratory -/

/-- A hardware context of a launch in address space 1, domain 1, running at PC 0x100. -/
def ctx0 : Ctx := { Ctx.reset with
  run := .running, bound := true, inst := 5, dom := 1, asid := 1, ltag := 7, clcount := 1, pc := 0x100 }
/-- Registers of a context set by number. -/
def gs (l : List (Nat × Nat)) (c : Ctx) : Ctx := l.foldl (fun c p => gSet c (BitVec.ofNat 5 p.1) (BitVec.ofNat 64 p.2)) c
def vs (l : List (Nat × Nat)) (c : Ctx) : Ctx := l.foldl (fun c p => vSet c (BitVec.ofNat 5 p.1) (BitVec.ofNat 512 p.2)) c
def oxs (l : List (Nat × Nat)) (c : Ctx) : Ctx := l.foldl (fun c p => oxSet c (BitVec.ofNat 3 p.1) (BitVec.ofNat 64 p.2)) c
/-- Pages of 64 KiB of address space 1 in a TLB: 0 raw, writable and executable; 1 raw and writable; 2 to 5 of formats 1
to 4; 6 and 7 raw and writable. Page n stands at physical 0x20_0000 + 0x1_0000 × n. -/
def pages : List TlbEntry :=
  [⟨0, 16, some 1, 0xC300000000200001⟩, ⟨0x10000, 16, some 1, 0xC200000000210001⟩,
   ⟨0x20000, 16, some 1, 0xCA00000000220001⟩, ⟨0x30000, 16, some 1, 0xD200000000230001⟩,
   ⟨0x40000, 16, some 1, 0xDA00000000240001⟩, ⟨0x50000, 16, some 1, 0xE201000000250001⟩,
   ⟨0x60000, 16, some 1, 0xC200000000260001⟩, ⟨0x70000, 16, some 1, 0xC200000000270001⟩]
/-- Rows that admit every class but the Ethernet's to the whole of a target. -/
def rows (tgt : Nat) : Tab (BitVec 128) :=
  [(tgt * 256, 0x00008000_00000000_F00000FFFF000000#128), (tgt * 256 + 1, 0x00008000_00000000_F10000FFFF000000#128),
   (tgt * 256 + 2, 0x00008000_00000000_F20000FFFF000000#128), (tgt * 256 + 3, 0x00008000_00000000_F30000FFFF000000#128),
   (tgt * 256 + 4, 0x00008000_00000000_F40000FFFF000000#128)]
/-- Context 0 of core 0 of a package whose die 0 has its access tables open, the context as changed. -/
def lab (f : Ctx → Ctx) : State := { State.reset with
  cores := [(0, coreSetCtx { Core.reset with powered := true } 0 (f ctx0))]
  clusters := [(0, { Cluster.reset with tlb := pages })]
  access := rows 0 ++ rows 1 ++ rows 2 ++ rows 3 ++ rows 6
  arg := .none, nextId := 3, cyc := 1000 }
/-- Its context is whoever issued a piece of work. -/
def who0 : Who := ⟨0, 0, 5, 1, 1, 7⟩
/-- The laboratory with an event's operand. -/
def on (s : State) (a : EvArg) : State := { s with arg := a }
/-- Its core, its cluster, its die changed. -/
def onC (f : Core → Core) (s : State) : State := modCore s 0 f
def onCl (f : Cluster → Cluster) (s : State) : State := modCluster s 0 f
def onD (f : Die → Die) (s : State) : State := modDie s 0 f
/-- What a step leaves, when it answers a next state. -/
def after (o : Out) : State := match o with
  | .next t => t
  | _ => State.reset
/-- Whether a step answers a next state. -/
def goes (o : Out) : Bool := match o with
  | .next _ => true
  | _ => false

/-! ## The decoder on a word of every encoded instruction, its fields where R79 to R83 and R59 to R63 place them -/

theorem test_decode_half_0 :
    decodeTableWord 16 0x2382 = some (.addiH 4 3 4) ∧
    decodeTableWord 16 0x2B44 = some (.addH 2 3 5) ∧
    decodeTableWord 16 0x55A4 = some (.subH 5 5 2) ∧
    decodeTableWord 16 0x97C4 = some (.andH 6 7 2) ∧
    decodeTableWord 16 0xFF64 = some (.orH 3 7 7) ∧
    decodeTableWord 16 0x31E6 = some (.xorH 7 1 6) ∧
    decodeTableWord 16 0x4DC6 = some (.shlH 6 5 1) ∧
    decodeTableWord 16 0x8A26 = some (.shrH 1 2 1) ∧
    decodeTableWord 16 0xEDA6 = some (.shaH 5 5 5) ∧
    decodeTableWord 16 0x5FA8 = some (.ldwH 5 7 11) ∧
    decodeTableWord 16 0x1B6A = some (.lddH 3 3 3) ∧
    decodeTableWord 16 0xA16C = some (.stwH 3 1 20) ∧
    decodeTableWord 16 0x52EE = some (.stdH 7 2 10) ∧
    decodeTableWord 16 0xA4B0 = some (.beqH 5 4 20) ∧
    decodeTableWord 16 0x75F2 = some (.bneH 7 5 14) ∧
    decodeTableWord 16 0xB3D4 = some (.sltiH 6 3 22) ∧
    decodeTableWord 16 0xEBF6 = some (.andiH 7 3 29) ∧
    decodeTableWord 16 0x001E = some .nopH ∧
    decodeTableWord 16 0x081E = some .haltH ∧
    decodeTableWord 16 0x101E = some .brkH := by decide +kernel
theorem test_decode_maj_00 :
    decodeTableWord 32 0x0017F281 = some (.add 5 31 11) ∧
    decodeTableWord 32 0x02174101 = some (.sub 2 20 11) ∧
    decodeTableWord 32 0x00724881 = some (.and 17 4 25) ∧
    decodeTableWord 32 0x02475C01 = some (.or 24 21 3) ∧
    decodeTableWord 32 0x045AAC01 = some (.xor 24 10 13) ∧
    decodeTableWord 32 0x00951F81 = some (.shl 31 17 10) ∧
    decodeTableWord 32 0x02A88581 = some (.shr 11 8 20) ∧
    decodeTableWord 32 0x04A26F01 = some (.sha 30 6 17) ∧
    decodeTableWord 32 0x00CAAA01 = some (.mul 20 10 5) ∧
    decodeTableWord 32 0x02F59A81 = some (.mulh 21 25 26) ∧
    decodeTableWord 32 0x04EB7201 = some (.mulhn 4 23 21) ∧
    decodeTableWord 32 0x06E54E01 = some (.div 28 20 18) ∧
    decodeTableWord 32 0x08FFCD81 = some (.divn 27 28 31) ∧
    decodeTableWord 32 0x0ACC2F81 = some (.rem 31 2 6) ∧
    decodeTableWord 32 0x0CC2EF01 = some (.remn 30 14 1) ∧
    decodeTableWord 32 0x0136FA01 = some (.min 20 15 27) ∧
    decodeTableWord 32 0x032B3A01 = some (.max 20 19 21) ∧
    decodeTableWord 32 0x051B4881 = some (.minn 17 20 13) ∧
    decodeTableWord 32 0x072EA081 = some (.maxn 1 10 23) ∧
    decodeTableWord 32 0x09258201 = some (.slt 4 24 18) ∧
    decodeTableWord 32 0x0B2E2F01 = some (.sltn 30 2 23) ∧
    decodeTableWord 32 0x01412801 = some (.clz 16 18) ∧
    decodeTableWord 32 0x03419301 = some (.ctz 6 25) ∧
    decodeTableWord 32 0x0540D881 = some (.popc 17 13) := by decide +kernel
theorem test_decode_maj_01 :
    decodeTableWord 32 0x6E0D5A03 = some (.addi 20 21 1766) ∧
    decodeTableWord 32 0xA857B483 = some (.andi 9 27 2699) ∧
    decodeTableWord 32 0x9EBB1203 = some (.ori 4 17 2557) ∧
    decodeTableWord 32 0xACE44903 = some (.xori 18 4 2770) ∧
    decodeTableWord 32 0xAF143F03 = some (.slti 30 3 2794) ∧
    decodeTableWord 32 0x0342D383 = some (.shli 7 13 33) ∧
    decodeTableWord 32 0x03B61D83 = some (.shri 27 1 59) ∧
    decodeTableWord 32 0x03E78483 = some (.shai 9 24 51) := by decide +kernel
theorem test_decode_maj_02 :
    decodeTableWord 32 0x9C349A05 = some (.tern 20 9 26 156) := by decide +kernel
theorem test_decode_maj_03 :
    decodeTableWord 32 0x1A357787 = some (.fshl 15 23 26 13) ∧
    decodeTableWord 32 0x6671CD87 = some (.fshr 27 28 24 51) := by decide +kernel
theorem test_decode_maj_04 :
    decodeTableWord 32 0xA4316E09 = some (.bext 28 22 24 41) ∧
    decodeTableWord 32 0x5E53C689 = some (.bins 13 28 41 23) := by decide +kernel
theorem test_decode_maj_05 :
    decodeTableWord 32 0x283C638B = some (.csel 7 6 30 20) := by decide +kernel
theorem test_decode_maj_0A :
    decodeTableWord 32 0x49DFF715 = some (.lui 14 302591) := by decide +kernel
theorem test_decode_maj_0B :
    decodeTableWord 32 0x5E723097 = some (.addpc 1 386851) := by decide +kernel
theorem test_decode_maj_0C :
    decodeTableWord 32 0x9E3A8319 = some (.beq 8 29 2534) ∧
    decodeTableWord 32 0x4065A599 = some (.bne 26 18 1035) ∧
    decodeTableWord 32 0x66951E19 = some (.blt 17 10 1660) ∧
    decodeTableWord 32 0x3CC33D19 = some (.bge 19 1 986) ∧
    decodeTableWord 32 0x8B11E899 = some (.bltn 30 8 2225) ∧
    decodeTableWord 32 0x49558219 = some (.bgen 24 10 1156) := by decide +kernel
theorem test_decode_maj_0D :
    decodeTableWord 32 0xC2517D1B = some (.jal 26 795927) := by decide +kernel
theorem test_decode_maj_0E :
    decodeTableWord 32 0x02311E9D = some (.jalr 29 17 56) := by decide +kernel
theorem test_decode_maj_10 :
    decodeTableWord 32 0xCC2DD2A1 = some (.ldb 5 29 3286) ∧
    decodeTableWord 32 0x8E707321 = some (.ldbn 6 7 2296) ∧
    decodeTableWord 32 0x4CB4D2A1 = some (.ldh 5 13 1242) ∧
    decodeTableWord 32 0x0ED018A1 = some (.ldhn 17 1 232) ∧
    decodeTableWord 32 0xCB34D821 = some (.ldw 16 13 3258) ∧
    decodeTableWord 32 0x0B53C5A1 = some (.ldwn 11 28 169) ∧
    decodeTableWord 32 0xC5BCC421 = some (.ldd 8 12 3166) := by decide +kernel
theorem test_decode_maj_11 :
    decodeTableWord 32 0x0A036EA3 = some (.stb 22 1 189) ∧
    decodeTableWord 32 0x867DBBA3 = some (.sth 27 30 2167) ∧
    decodeTableWord 32 0x66976223 = some (.stw 22 11 1636) ∧
    decodeTableWord 32 0x6EE94623 = some (.std 20 20 1772) := by decide +kernel
theorem test_decode_maj_12 :
    decodeTableWord 32 0x220900A5 = some (.ldbA 1 16 548) ∧
    decodeTableWord 32 0x2261B525 = some (.ldbnA 10 27 560) ∧
    decodeTableWord 32 0xFE9F1F25 = some (.ldhA 30 17 4079) ∧
    decodeTableWord 32 0x46FFDB25 = some (.ldhnA 22 29 1151) ∧
    decodeTableWord 32 0x9F043BA5 = some (.ldwA 23 3 2530) ∧
    decodeTableWord 32 0x09617CA5 = some (.ldwnA 25 23 144) ∧
    decodeTableWord 32 0xCF8587A5 = some (.lddA 15 24 3298) := by decide +kernel
theorem test_decode_maj_13 :
    decodeTableWord 32 0x700363A7 = some (.stbA 22 1 1799) ∧
    decodeTableWord 32 0x1A78B127 = some (.sthA 11 28 418) ∧
    decodeTableWord 32 0xB684CE27 = some (.stwA 12 2 2940) ∧
    decodeTableWord 32 0x8CC46DA7 = some (.stdA 6 2 2267) ∧
    decodeTableWord 32 0x633B2D27 = some (.stflA 18 29 1594) ∧
    decodeTableWord 32 0x27402C27 = some (.clreA 2 632) := by decide +kernel
theorem test_decode_maj_14 :
    decodeTableWord 32 0xCC3BC5A9 = some (.ldbS 11 28 3293) ∧
    decodeTableWord 32 0xA440DF29 = some (.ldbnS 30 13 2624) ∧
    decodeTableWord 32 0x9EB6BBA9 = some (.ldhS 23 11 2555) ∧
    decodeTableWord 32 0xC6EC2EA9 = some (.ldhnS 29 2 3190) ∧
    decodeTableWord 32 0x5D3486A9 = some (.ldwS 13 8 1498) ∧
    decodeTableWord 32 0x5D5DA729 = some (.ldwnS 14 26 1486) ∧
    decodeTableWord 32 0xCDA38829 = some (.lddS 16 24 3281) := by decide +kernel
theorem test_decode_maj_15 :
    decodeTableWord 32 0xC63E7F2B = some (.stbS 7 31 3198) ∧
    decodeTableWord 32 0xE85033AB = some (.sthS 3 8 3719) ∧
    decodeTableWord 32 0x7093712B = some (.stwS 23 9 1794) ∧
    decodeTableWord 32 0xB6F7D4AB = some (.stdS 29 27 2921) ∧
    decodeTableWord 32 0x4711B52B = some (.stflS 27 8 1130) ∧
    decodeTableWord 32 0xEB41202B = some (.clreS 18 3744) := by decide +kernel
theorem test_decode_maj_16 :
    decodeTableWord 32 0x403DD92D = some (.ldwt 18 29 30 1) ∧
    decodeTableWord 32 0xC05B3B2D = some (.tstf 22 19 13 3) ∧
    decodeTableWord 32 0x009D422D = some (.lde 4 20 14) ∧
    decodeTableWord 32 0x00D1162D = some (.ste 12 17 8) ∧
    decodeTableWord 32 0x0103902D = some (.pf 25 1) := by decide +kernel
theorem test_decode_maj_17 :
    decodeTableWord 32 0xC00AA82F = some (.vld 16 10 5 3) ∧
    decodeTableWord 32 0x406D18AF = some (.vst 17 17 22 1) ∧
    decodeTableWord 32 0xC2A70E2F = some (.vlds 28 16 19 1 3) ∧
    decodeTableWord 32 0xC2FF232F = some (.vldx 6 18 31 1 3) ∧
    decodeTableWord 32 0x43364A2F = some (.vstx 20 4 27 1 1) ∧
    decodeTableWord 32 0xC56C772F = some (.vlde 14 7 22 2 3) ∧
    decodeTableWord 32 0x479BE8AF = some (.vste 17 30 13 3 1) := by decide +kernel
theorem test_decode_maj_18 :
    decodeTableWord 32 0x04194A31 = some (.vadd 20 20 12 2) ∧
    decodeTableWord 32 0x1C3A2DB1 = some (.vsub 27 2 29 6) ∧
    decodeTableWord 32 0x2E381E31 = some (.vmul 28 1 28 7) ∧
    decodeTableWord 32 0x3A0EB731 = some (.vmin 14 11 7 5) ∧
    decodeTableWord 32 0x4E31E0B1 = some (.vmax 1 30 24 7) ∧
    decodeTableWord 32 0x5E00AFB1 = some (.vabs 31 10 7) ∧
    decodeTableWord 32 0x0C651B31 = some (.vfma 22 17 18 6) ∧
    decodeTableWord 32 0x1C679EB1 = some (.vfms 29 25 19 6) := by decide +kernel
theorem test_decode_maj_19 :
    decodeTableWord 32 0x04395BB3 = some (.vand 23 21 28 2) ∧
    decodeTableWord 32 0x1A38D1B3 = some (.vor 3 13 28 5) ∧
    decodeTableWord 32 0x2E3A90B3 = some (.vxor 1 9 29 7) ∧
    decodeTableWord 32 0x0C7D7AB3 = some (.vshl 21 23 30 6) ∧
    decodeTableWord 32 0x1657E0B3 = some (.vshr 1 30 11 3) ∧
    decodeTableWord 32 0x26647433 = some (.vsha 8 7 18 3) ∧
    decodeTableWord 32 0x3860D433 = some (.vfshl 8 13 16 4) ∧
    decodeTableWord 32 0x4C7B62B3 = some (.vfshr 5 22 29 6) := by decide +kernel
theorem test_decode_maj_1A :
    decodeTableWord 32 0xCF261C35 = some (.vtern 24 1 19 207) := by decide +kernel
theorem test_decode_maj_1B :
    decodeTableWord 32 0x621B20B7 = some (.vcmp 1 18 13 1 6) ∧
    decodeTableWord 32 0x2C6EC0B7 = some (.vsel 1 12 23 6 2) := by decide +kernel
theorem test_decode_maj_1C :
    decodeTableWord 32 0x02007139 = some (.vcvt 2 7 0 1 0) := by decide +kernel
theorem test_decode_maj_1D :
    decodeTableWord 32 0x5400D9BB = some (.vred 19 13 2 5) ∧
    decodeTableWord 32 0x5A40D53B = some (.vscan 10 13 5 5) := by decide +kernel
theorem test_decode_maj_1E :
    decodeTableWord 32 0x021AACBD = some (.vperm 25 10 13 1) ∧
    decodeTableWord 32 0x0241D1BD = some (.vbcast 3 29 1) ∧
    decodeTableWord 32 0x04BEBE3D = some (.vext 28 11 31 2) ∧
    decodeTableWord 32 0x02DFA33D = some (.vins 6 26 15 1) ∧
    decodeTableWord 32 0x030DC53D = some (.vpack 10 28 6 1) ∧
    decodeTableWord 32 0x134106BD = some (.vunpk 13 16 1 1) ∧
    decodeTableWord 32 0x0B81F73D = some (.vpopc 14 31 5) := by decide +kernel
theorem test_decode_maj_1F :
    decodeTableWord 32 0x000410BF = some (.kand 1 1 2) ∧
    decodeTableWord 32 0x1006333F = some (.kor 6 3 3) ∧
    decodeTableWord 32 0x2000423F = some (.knot 4 4) ∧
    decodeTableWord 32 0x3000613F = some (.kmov 2 6) ∧
    decodeTableWord 32 0x3201B1BF = some (.kmovKg 3 27) ∧
    decodeTableWord 32 0x3400193F = some (.kmovGk 18 1) := by decide +kernel
theorem test_decode_maj_20 :
    decodeTableWord 32 0x02000741 = some (.gang 14 1) ∧
    decodeTableWord 32 0x00400041 = some .disband := by decide +kernel
theorem test_decode_maj_28 :
    decodeTableWord 32 0x000002D1 = some (.mzero 5) ∧
    decodeTableWord 32 0x264C9CD1 = some (.mldb 25 9 6 1 1 2) ∧
    decodeTableWord 32 0xC6A4E3D1 = some (.mma 7 14 18 1 1 12) ∧
    decodeTableWord 32 0x0ECEAED1 = some (.mdrain 13 1 10 7 1 1 1) ∧
    decodeTableWord 32 0x07360551 = some (.mscale 10 27 1 1) ∧
    decodeTableWord 32 0x03408AD1 = some (.mstat 21 8 1) ∧
    decodeTableWord 32 0xA78A5251 = some (.mtr 4 5 5 1 1 10) := by decide +kernel
theorem test_decode_maj_2C :
    decodeTableWord 32 0x0004BFD9 = some (.tqLd 31 11 2) ∧
    decodeTableWord 32 0x02522AD9 = some (.tqQ 21 2 9 1) ∧
    decodeTableWord 32 0x04BA4ED9 = some (.tqQs 29 4 29 2) ∧
    decodeTableWord 32 0x00C004D9 = some (.tqScan 9) ∧
    decodeTableWord 32 0x01000AD9 = some (.tqWait 21) := by decide +kernel
theorem test_decode_maj_2D :
    decodeTableWord 32 0x00002CDB = some (.sfRcp 25 2) ∧
    decodeTableWord 32 0x0201BDDB = some (.sfRsq 27 27) ∧
    decodeTableWord 32 0x0400665B = some (.sfSqrt 12 6) ∧
    decodeTableWord 32 0x0601DBDB = some (.sfExp2 23 29) ∧
    decodeTableWord 32 0x0801355B = some (.sfLog2 10 19) := by decide +kernel
theorem test_decode_maj_2E :
    decodeTableWord 32 0x0001345D = some (.hset 8 19) ∧
    decodeTableWord 32 0xA040055D = some (.hwait 10 10) ∧
    decodeTableWord 32 0x00A8075D = some (.hadv 14 20) ∧
    decodeTableWord 32 0x00DA045D = some (.hpub 8 13) ∧
    decodeTableWord 32 0x030072DD = some (.hstat 5 7 1) := by decide +kernel
theorem test_decode_maj_2F :
    decodeTableWord 32 0x06018CDF = some (.cpGet 25 24 3) ∧
    decodeTableWord 32 0x02417DDF = some (.cpPut 27 23 1) ∧
    decodeTableWord 32 0x02AF83DF = some (.cpGath 7 24 23 1) ∧
    decodeTableWord 32 0x02D2AFDF = some (.cpScat 31 10 9 1) ∧
    decodeTableWord 32 0x0301F35F = some (.cpRed 6 31 1) ∧
    decodeTableWord 32 0x03410C5F = some (.cpStat 24 16 1) ∧
    decodeTableWord 32 0x01817F5F = some (.cpWait 30 23) := by decide +kernel
theorem test_decode_maj_30 :
    decodeTableWord 32 0x000057E1 = some (.ccSet 15 5) ∧
    decodeTableWord 32 0x004033E1 = some (.ccWait 7 3) ∧
    decodeTableWord 32 0x00815061 = some (.sleepP 21) ∧
    decodeTableWord 32 0x00C0C061 = some (.sleepC 12) := by decide +kernel
theorem test_decode_maj_31 :
    decodeTableWord 32 0x02341063 = some (.pget 1 26 1) ∧
    decodeTableWord 32 0x0278E063 = some (.pput 14 28 1) := by decide +kernel
theorem test_decode_maj_32 :
    decodeTableWord 32 0x003DB065 = some (.ctrb 27 30) ∧
    decodeTableWord 32 0x02540965 = some (.grd 18 42) ∧
    decodeTableWord 32 0x008C2065 = some (.grpset 2 6) := by decide +kernel
theorem test_decode_maj_34 :
    decodeTableWord 32 0x02000B69 = some (.ssIsect 22 1) ∧
    decodeTableWord 32 0x02400769 = some (.ssUnion 14 1) ∧
    decodeTableWord 32 0x02800A69 = some (.ssMerge 20 1) ∧
    decodeTableWord 32 0x02C00CE9 = some (.ssDiff 25 1) ∧
    decodeTableWord 32 0x01000AE9 = some (.ssSeek 21) := by decide +kernel
theorem test_decode_maj_35 :
    decodeTableWord 32 0x000130EB = some (.jwOpen 1 19) ∧
    decodeTableWord 32 0x0042186B = some (.jwNext 16 1 1) ∧
    decodeTableWord 32 0x0083CCEB = some (.jwCnt 25 28 1) ∧
    decodeTableWord 32 0x00C000EB = some (.jwClose 1) := by decide +kernel
theorem test_decode_maj_36 :
    decodeTableWord 32 0x0E0EF1ED = some (.kacc 3 15 7 3 1) ∧
    decodeTableWord 32 0x047D126D = some (.kexp 4 17 30 2) ∧
    decodeTableWord 32 0x0880D26D = some (.kflush 4 13 1) ∧
    decodeTableWord 32 0x06C9906D = some (.kcnt 25 4 3) := by decide +kernel
theorem test_decode_maj_38 :
    decodeTableWord 32 0x0034CCF1 = some (.amoadd 25 12 26) ∧
    decodeTableWord 32 0x022EAF71 = some (.amoand 30 10 23) ∧
    decodeTableWord 32 0x040E9DF1 = some (.amoor 27 9 7) ∧
    decodeTableWord 32 0x0623E4F1 = some (.amoxor 9 30 17) ∧
    decodeTableWord 32 0x083099F1 = some (.amomin 19 9 24) ∧
    decodeTableWord 32 0x0A250AF1 = some (.amomax 21 16 18) ∧
    decodeTableWord 32 0x0C37E371 = some (.amominn 6 30 27) ∧
    decodeTableWord 32 0x0E14BFF1 = some (.amomaxn 31 11 10) ∧
    decodeTableWord 32 0x10279F71 = some (.amoswp 30 25 19) ∧
    decodeTableWord 32 0x121B89F1 = some (.amocas 19 24 13) ∧
    decodeTableWord 32 0x14385D71 = some (.amofadd 26 5 28) := by decide +kernel
theorem test_decode_maj_39 :
    decodeTableWord 32 0x001C2073 = some (.redadd 2 14) ∧
    decodeTableWord 32 0x0236A073 = some (.redmin 10 27) ∧
    decodeTableWord 32 0x04093073 = some (.redmax 19 4) ∧
    decodeTableWord 32 0x063A2073 = some (.redfadd 2 29) ∧
    decodeTableWord 32 0x08301073 = some (.redor 1 24) := by decide +kernel
theorem test_decode_maj_3A :
    decodeTableWord 32 0x002B6CF5 = some (.bind 25 22 21) ∧
    decodeTableWord 32 0x0216E275 = some (.unbind 4 14 11) ∧
    decodeTableWord 32 0x0240D875 = some (.acq 16 13 1) ∧
    decodeTableWord 32 0x0081A075 = some (.rel 26) ∧
    decodeTableWord 32 0x24C00075 = some (.fence 2 2) := by decide +kernel
theorem test_decode_maj_3B :
    decodeTableWord 32 0x120031F7 = some (.barInit 3 291) ∧
    decodeTableWord 32 0x1E4008F7 = some (.barEnrol 497) ∧
    decodeTableWord 32 0x1A800EF7 = some (.barArr 445) ∧
    decodeTableWord 32 0x0EC008F7 = some (.barWait 241) ∧
    decodeTableWord 32 0x150061F7 = some (.barSig 6 323) ∧
    decodeTableWord 32 0x1D400F77 = some (.barDrop 478) ∧
    decodeTableWord 32 0x23B80DF7 = some (.barGrel 59 60) := by decide +kernel
theorem test_decode_maj_3C :
    decodeTableWord 32 0x0033FAF9 = some (.msgSend 21 31 25) ∧
    decodeTableWord 32 0x00592279 = some (.msgSendw 4 18 12) ∧
    decodeTableWord 32 0x0080E379 = some (.msgStat 6 14) ∧
    decodeTableWord 32 0x00C11079 = some (.msgMask 17) ∧
    decodeTableWord 32 0x01019079 = some (.msgUnmask 25) ∧
    decodeTableWord 32 0x01400079 = some .msgRet := by decide +kernel
theorem test_decode_maj_3D :
    decodeTableWord 32 0x0001A77B = some (.swRd 14 26) ∧
    decodeTableWord 32 0x0256137B = some (.swAdd 6 1 11 1) ∧
    decodeTableWord 32 0x029F49FB = some (.swMax 19 20 15 1) ∧
    decodeTableWord 32 0x00F9F6FB = some (.swSwap 13 31 28) ∧
    decodeTableWord 32 0x012E79FB = some (.swCas 19 7 23) ∧
    decodeTableWord 32 0x014CD4FB = some (.swBoard 9 13 6) ∧
    decodeTableWord 32 0x0180207B = some (.swAlight 2) ∧
    decodeTableWord 32 0x01C0047B = some (.swWait 8) := by decide +kernel
theorem test_decode_maj_3E :
    decodeTableWord 32 0x002B1EFD = some (.fork 29 17 21) ∧
    decodeTableWord 32 0x0201907D = some (.join 25) ∧
    decodeTableWord 32 0x040140FD = some (.halt 1 20) ∧
    decodeTableWord 32 0x0600907D = some (.haltj 9) ∧
    decodeTableWord 32 0x0A01E07D = some (.suspend 30) ∧
    decodeTableWord 32 0x486C0E7D = some (.oxl 4 3 37568) ∧
    decodeTableWord 32 0x0080A1FD = some (.oxm 3 10) ∧
    decodeTableWord 32 0x028042FD = some (.oxmToG 5 4) ∧
    decodeTableWord 32 0x38FEF1FD = some (.oxld 3 15 927) ∧
    decodeTableWord 32 0x230538FD = some (.oxst 19 2 561) ∧
    decodeTableWord 32 0xFB4404FD = some (.sysrd 9 4002) ∧
    decodeTableWord 32 0x65B5707D = some (.syswr 23 1626) ∧
    decodeTableWord 32 0x01E9107D = some (.trap 17 20) ∧
    decodeTableWord 32 0x0800007D = some .yield ∧
    decodeTableWord 32 0x03C0007D = some .eret ∧
    decodeTableWord 32 0x05C0007D = some .brk ∧
    decodeTableWord 32 0x07C0007D = some .nop := by decide +kernel
theorem test_decode_maj_3F :
    decodeTableWord 32 0x00095E7F = some (.vpfx 4 1 3 1 18) := by decide +kernel
/-! ## The spec's own worked words -/

/-- 02_assembly_and_formats.md: add, sub, addi g7, g7, -3, ldw s: and global, std s:, bne -6, jal, lui, vadd.f32 and .bf16. -/
theorem test_decode_worked_02 :
    decodeTableWord 32 0x000A4181 = some (.add 3 4 5) ∧
    decodeTableWord 32 0x020A4181 = some (.sub 3 4 5) ∧
    decodeTableWord 32 0xFE3A7383 = some (.addi 7 7 (-3)) ∧
    decodeTableWord 32 0x130092A9 = some (.ldwS 5 9 0x120) ∧
    decodeTableWord 32 0x130092A1 = some (.ldw 5 9 0x120) ∧
    decodeTableWord 32 0x04CC142B = some (.stdS 1 6 0x48) ∧
    decodeTableWord 32 0xFE408D19 = some (.bne 8 0 (-6)) ∧
    decodeTableWord 32 0x00020F9B = some (.jal 31 0x20) ∧
    decodeTableWord 32 0x12345395 = some (.lui 7 0x12345) ∧
    decodeTableWord 32 0x000620B1 = some (.vadd 1 2 3 0) ∧
    decodeTableWord 32 0x020620B1 = some (.vadd 1 2 3 1) := by decide +kernel
/-- 03_opcode_map.md: VPFX forms and the VFMA after them. -/
theorem test_decode_worked_03 :
    decodeTableWord 32 0x0003D57F = some (.vpfx 2 1 2 1 7) ∧
    decodeTableWord 32 0x004C5231 = some (.vfma 4 5 6 0) ∧
    decodeTableWord 32 0x0003D17F = some (.vpfx 2 0 2 1 7) ∧
    decodeTableWord 32 0x0003C57F = some (.vpfx 2 1 0 1 7) := by decide +kernel
/-- 05_integer_control.md: TERN, FSHR, FSHL, BEXT, BINS, JALR. -/
theorem test_decode_worked_05 :
    decodeTableWord 32 0xE80A4185 = some (.tern 3 4 5 0xE8) ∧
    decodeTableWord 32 0x960A4185 = some (.tern 3 4 5 0x96) ∧
    decodeTableWord 32 0x18549407 = some (.fshr 8 9 10 12) ∧
    decodeTableWord 32 0x18149407 = some (.fshl 8 9 10 12) ∧
    decodeTableWord 32 0x2C10B509 = some (.bext 10 11 8 11) ∧
    decodeTableWord 32 0x2C50B509 = some (.bins 10 11 8 11) ∧
    decodeTableWord 32 0x0001F01D = some (.jalr 0 31 0) ∧
    decodeTableWord 32 0x0010CF9D = some (.jalr 31 12 8) := by decide +kernel
/-- 06_memory_access.md: STFL, CLRE, LDWT, TSTF, VLDX.W and .D. -/
theorem test_decode_worked_06 :
    decodeTableWord 32 0x010A982B = some (.stflS 9 5 0x10) ∧
    decodeTableWord 32 0x0140982B = some (.clreS 9 0x10) ∧
    decodeTableWord 32 0xC016A4AD = some (.ldwt 9 10 11 3) ∧
    decodeTableWord 32 0xC056A4AD = some (.tstf 9 10 11 3) ∧
    decodeTableWord 32 0x40C881AF = some (.vldx 3 8 4 0 1) ∧
    decodeTableWord 32 0x42C881AF = some (.vldx 3 8 4 1 1) := by decide +kernel
/-- 07_vector.md: VCMP, VCVT, GANG, DISBAND, the reductions of its program. -/
theorem test_decode_worked_07 :
    decodeTableWord 32 0x200C51B7 = some (.vcmp 3 5 6 0 2) ∧
    decodeTableWord 32 0x240C51B7 = some (.vcmp 3 5 6 2 2) ∧
    decodeTableWord 32 0x02007139 = some (.vcvt 2 7 0 1 0) ∧
    decodeTableWord 32 0x00407139 = some (.vcvt 2 7 0 8 0) ∧
    decodeTableWord 32 0x04000441 = some (.gang 8 2) ∧
    decodeTableWord 32 0x06000441 = some (.gang 8 3) ∧
    decodeTableWord 32 0x00400041 = some .disband ∧
    decodeTableWord 32 0x3200B0BF = some (.kmovKg 1 11) ∧
    decodeTableWord 32 0x0000113B = some (.vred 2 1 0 0) ∧
    decodeTableWord 32 0x004011BB = some (.vscan 3 1 0 0) ∧
    decodeTableWord 32 0x009434BD = some (.vext 9 3 10 0) := by decide +kernel
/-- 08_matrix.md: MMA, MLDB, MDRAIN, MSCALE, MSTAT, MZERO. -/
theorem test_decode_worked_08 :
    decodeTableWord 32 0x009491D1 = some (.mma 3 9 10 0 0 0) ∧
    decodeTableWord 32 0x169421D1 = some (.mma 3 2 10 1 1 1) ∧
    decodeTableWord 32 0x00409551 = some (.mldb 10 9 0 0 0 0) ∧
    decodeTableWord 32 0x26483551 = some (.mldb 10 3 4 1 1 2) ∧
    decodeTableWord 32 0x00C0B1D1 = some (.mdrain 3 0 11 0 0 0 0) ∧
    decodeTableWord 32 0x0CD8B9D1 = some (.mdrain 3 1 11 12 0 1 1) ∧
    decodeTableWord 32 0x011801D1 = some (.mscale 3 12 0 0) ∧
    decodeTableWord 32 0x031801D1 = some (.mscale 3 12 1 0) ∧
    decodeTableWord 32 0x051A0051 = some (.mscale 0 13 0 1) ∧
    decodeTableWord 32 0x014006D1 = some (.mstat 13 0 0) ∧
    decodeTableWord 32 0x0340A6D1 = some (.mstat 13 10 1) ∧
    decodeTableWord 32 0x00000051 = some (.mzero 0) := by decide +kernel
/-- 09_wells_sfu.md: the table queries and two special functions. -/
theorem test_decode_worked_09 :
    decodeTableWord 32 0x00542459 = some (.tqQ 8 2 10 0) ∧
    decodeTableWord 32 0x02542459 = some (.tqQ 8 2 10 1) ∧
    decodeTableWord 32 0x00942459 = some (.tqQs 8 2 10 0) ∧
    decodeTableWord 32 0x02942459 = some (.tqQs 8 2 10 1) ∧
    decodeTableWord 32 0x00169559 = some (.tqLd 10 9 11) ∧
    decodeTableWord 32 0x00C00559 = some (.tqScan 10) ∧
    decodeTableWord 32 0x01000659 = some (.tqWait 12) ∧
    decodeTableWord 32 0x000041DB = some (.sfRcp 3 4) ∧
    decodeTableWord 32 0x060041DB = some (.sfExp2 3 4) := by decide +kernel
/-- 10_engines.md: handles, copies, counters, one-sided accesses, groups. -/
theorem test_decode_worked_10 :
    decodeTableWord 32 0x0000915D = some (.hset 2 9) ∧
    decodeTableWord 32 0x3040015D = some (.hwait 2 3) ∧
    decodeTableWord 32 0x0088015D = some (.hadv 2 4) ∧
    decodeTableWord 32 0x00C8015D = some (.hpub 2 4) ∧
    decodeTableWord 32 0x010015DD = some (.hstat 11 1 0) ∧
    decodeTableWord 32 0x0088965F = some (.cpGath 12 9 4 0) ∧
    decodeTableWord 32 0x0288965F = some (.cpGath 12 9 4 1) ∧
    decodeTableWord 32 0x0488365F = some (.cpGath 12 3 4 2) ∧
    decodeTableWord 32 0x0400175F = some (.cpGet 14 1 2) ∧
    decodeTableWord 32 0x0180E65F = some (.cpWait 12 14) ∧
    decodeTableWord 32 0x004026E1 = some (.ccWait 13 2) ∧
    decodeTableWord 32 0x0000D161 = some (.ccSet 2 13) ∧
    decodeTableWord 32 0x02448063 = some (.pput 8 2 1) ∧
    decodeTableWord 32 0x00048063 = some (.pget 8 2 0) ∧
    decodeTableWord 32 0x000A9065 = some (.ctrb 9 5) ∧
    decodeTableWord 32 0x020A9065 = some (.ctrb 9 37) ∧
    decodeTableWord 32 0x004A0565 = some (.grd 10 5) := by decide +kernel
/-- 11_join_sparse.md: join walkers, sorted streams, key-indexed instructions. -/
theorem test_decode_worked_11 :
    decodeTableWord 32 0x0042246B = some (.jwNext 8 2 1) ∧
    decodeTableWord 32 0x0040246B = some (.jwNext 8 2 0) ∧
    decodeTableWord 32 0x0000906B = some (.jwOpen 0 9) ∧
    decodeTableWord 32 0x0080A66B = some (.jwCnt 12 10 0) ∧
    decodeTableWord 32 0x00C0006B = some (.jwClose 0) ∧
    decodeTableWord 32 0x00000569 = some (.ssIsect 10 0) ∧
    decodeTableWord 32 0x02000569 = some (.ssIsect 10 1) ∧
    decodeTableWord 32 0x00400569 = some (.ssUnion 10 0) ∧
    decodeTableWord 32 0x010005E9 = some (.ssSeek 11) ∧
    decodeTableWord 32 0x020892ED = some (.kacc 5 9 4 1 0) ∧
    decodeTableWord 32 0x0A0892ED = some (.kacc 5 9 4 1 1) ∧
    decodeTableWord 32 0x060892ED = some (.kacc 5 9 4 3 0) ∧
    decodeTableWord 32 0x0248936D = some (.kexp 6 9 4 1) ∧
    decodeTableWord 32 0x02C8906D = some (.kcnt 9 4 1) ∧
    decodeTableWord 32 0x008095ED = some (.kflush 11 9 0) := by decide +kernel
/-- 12_sync_ring.md: atomics, reductions, objects, fences, barriers, messages, the swift ring. -/
theorem test_decode_worked_12 :
    decodeTableWord 32 0x00169571 = some (.amoadd 10 9 11) ∧
    decodeTableWord 32 0x12169571 = some (.amocas 10 9 11) ∧
    decodeTableWord 32 0x00169073 = some (.redadd 9 11) ∧
    decodeTableWord 32 0x06169073 = some (.redfadd 9 11) ∧
    decodeTableWord 32 0x00409675 = some (.acq 12 9 0) ∧
    decodeTableWord 32 0x02409675 = some (.acq 12 9 1) ∧
    decodeTableWord 32 0x04C00075 = some (.fence 2 0) ∧
    decodeTableWord 32 0x14C00075 = some (.fence 2 1) ∧
    decodeTableWord 32 0x028002F7 = some (.barArr 37) ∧
    decodeTableWord 32 0x02C002F7 = some (.barWait 37) ∧
    decodeTableWord 32 0x00089679 = some (.msgSend 12 9 4) ∧
    decodeTableWord 32 0x00489679 = some (.msgSendw 12 9 4) ∧
    decodeTableWord 32 0x004C92FB = some (.swAdd 5 9 6 0) ∧
    decodeTableWord 32 0x024C92FB = some (.swAdd 5 9 6 1) := by decide +kernel
/-- 13_strand_system.md: every row of its table that prints a word. -/
theorem test_decode_worked_13 :
    decodeTableWord 32 0x0006647D = some (.fork 8 6 3) ∧
    decodeTableWord 32 0x0200607D = some (.join 6) ∧
    decodeTableWord 32 0x0400007D = some (.halt 0 0) ∧
    decodeTableWord 32 0x040090FD = some (.halt 1 9) ∧
    decodeTableWord 32 0x0600607D = some (.haltj 6) ∧
    decodeTableWord 32 0x0800007D = some .yield ∧
    decodeTableWord 32 0x0A00907D = some (.suspend 9) ∧
    decodeTableWord 32 0x0080907D = some (.oxm 0 9) ∧
    decodeTableWord 32 0x028004FD = some (.oxmToG 9 0) ∧
    decodeTableWord 32 0x00E0137D = some (.oxld 6 1 0x10) ∧
    decodeTableWord 32 0x010C187D = some (.oxst 1 6 0x10) ∧
    decodeTableWord 32 0x01A0907D = some (.syswr 9 0x10) ∧
    decodeTableWord 32 0x01D4907D = some (.trap 9 10) ∧
    decodeTableWord 32 0x03C0007D = some .eret ∧
    decodeTableWord 32 0x05C0007D = some .brk ∧
    decodeTableWord 32 0x07C0007D = some .nop ∧
    decodeTableWord 32 0x08634D7D = some (.oxl 2 3 0x1234) ∧
    decodeTableWord 32 0x0863417D = some (.oxl 2 0 0x1234) ∧
    decodeTableWord 32 0x0142057D = some (.sysrd 10 1) := by decide +kernel
/-- 15, 17, 21, 23: VLDS, FENCE, SW.BOARD, SW.ALIGHT, SW.RD, SW.WAIT, KEXP, VSEL, KMOV, KAND. -/
theorem test_decode_worked_21 :
    decodeTableWord 32 0x0096A22F = some (.vlds 4 10 11 0 0) ∧
    decodeTableWord 32 0x24C00075 = some (.fence 2 2) ∧
    decodeTableWord 32 0x02C00075 = some (.fence 1 0) ∧
    decodeTableWord 32 0x015A277B = some (.swBoard 14 2 13) ∧
    decodeTableWord 32 0x0180207B = some (.swAlight 2) ∧
    decodeTableWord 32 0x0000257B = some (.swRd 10 2) ∧
    decodeTableWord 32 0x01C007FB = some (.swWait 15) ∧
    decodeTableWord 32 0x0451196D = some (.kexp 18 17 8 2) ∧
    decodeTableWord 32 0x247E8437 = some (.vsel 8 8 31 2 2) ∧
    decodeTableWord 32 0x34005ABF = some (.kmovGk 21 5) ∧
    decodeTableWord 32 0x000832BF = some (.kand 5 3 4) ∧
    decodeTableWord 32 0x014007FD = some (.sysrd 15 0) := by decide +kernel
/-! ## An ill-formed term for each check of WellFormed -/

theorem test_refuses_space : malformed (.ldwt 1 2 3 0) = some .space ∧ malformed (.tstf 1 2 3 2) = some .space ∧
    malformed (.vlds 1 2 3 0 2) = some .space ∧ malformed (.ldwt 1 2 3 3) = none := by decide
theorem test_refuses_elementFormat : malformed (.vlde 1 2 3 1 0) = some .elementFormat ∧ malformed (.vste 1 2 3 0 1) = some .elementFormat ∧
    malformed (.vlde 1 2 3 5 3) = some .elementFormat ∧ malformed (.vlde 1 2 3 4 3) = none := by decide
theorem test_refuses_elementType : malformed (.vand 1 2 3 1) = some .elementType ∧ malformed (.vcmp 1 2 3 2 6) = some .elementType ∧
    malformed (.vred 1 2 0 3) = some .elementType ∧ malformed (.vpack 1 2 3 2) = some .elementType ∧ malformed (.vcmp 1 2 3 1 7) = none := by decide
theorem test_refuses_conversion : malformed (.vcvt 1 2 0 3 3) = some .conversion ∧ malformed (.vcvt 1 2 0 11 0) = some .conversion ∧
    malformed (.vcvt 1 2 0 10 1) = some .conversion := by decide
theorem test_refuses_gangSize : malformed (.gang 8 0) = some .gangSize ∧ malformed (.gang 8 1) = none := by decide
theorem test_refuses_handleForm : malformed (.mma 3 16 10 1 0 1) = some .handleForm ∧ malformed (.mma 3 2 10 1 0 0) = some .handleForm ∧
    malformed (.mma 3 2 10 0 0 1) = some .handleForm ∧ malformed (.cpGet 1 16 2) = some .handleForm := by decide
theorem test_refuses_unusedField : malformed (.mstat 1 2 0) = some .unusedField ∧ malformed (.halt 0 1) = some .unusedField ∧
    malformed (.vcvt 1 2 3 1 0) = some .unusedField ∧ malformed (.halt 1 1) = none := by decide
theorem test_refuses_groupCode : malformed (.tqQs 1 2 3 3) = some .groupCode ∧ malformed (.tqQs 1 2 3 2) = none := by decide
theorem test_refuses_zeroCount : malformed (.hwait 1 0) = some .zeroCount ∧ malformed (.hadv 1 0) = some .zeroCount ∧
    malformed (.hpub 1 0) = some .zeroCount ∧ malformed (.hpub 1 1) = none := by decide
theorem test_refuses_copyForm : malformed (.cpGath 1 2 3 3) = some .copyForm ∧ malformed (.cpStat 1 2 3) = some .copyForm := by decide
theorem test_refuses_maskZero : malformed (.jwNext 1 0 0) = some .maskZero ∧ malformed (.jwNext 1 7 0) = none := by decide
theorem test_refuses_keyMode : malformed (.kexp 1 2 3 3) = some .keyMode ∧ malformed (.kexp 1 2 3 2) = none := by decide
theorem test_refuses_fenceForm : malformed (.fence 5 0) = some .fenceForm ∧ malformed (.fence 0 3) = some .fenceForm ∧
    malformed (.fence 4 2) = none := by decide
theorem test_refuses_prefixField : malformed (.vpfx 0 1 0 0 0) = some .prefixField ∧ malformed (.vpfx 1 0 6 0 0) = some .prefixField ∧
    malformed (.vpfx 1 0 0 0 1) = some .prefixField ∧ malformed (.vpfx 1 1 5 1 31) = none := by decide
theorem test_refuses_not_wellFormed : wellFormed (.fence 5 0) = false ∧ wellFormed (.fence 4 2) = true := by decide
/-! ## Single steps, with results from the spec's worked examples -/

/-- What an instruction leaves in a general register, and in a vector register, of the laboratory's context. -/
def gAfter (i : Instr) (s : State) (r : BitVec 5) : W64 := reg (after (exec i s)) r
def vAfter (i : Instr) (s : State) (r : BitVec 5) : V512 := vOf (here (after (exec i s))) r
/-- TERN's majority and exclusive or (05_integer_control.md, R132). -/
theorem test_tern_majority : gAfter (.tern 3 4 5 0xE8) (lab (gs [(3, 9), (4, 12), (5, 10)])) 3 = 8 := by decide +kernel
theorem test_tern_xor : gAfter (.tern 3 4 5 0x96) (lab (gs [(3, 9), (4, 12), (5, 10)])) 3 = 15 := by decide +kernel
/-- The program add128: 2^64 − 1 + 2 wraps to 1, SLTN finds the carry and SLT does not. -/
theorem test_add_wraps : gAfter (.add 12 2 4) (lab (gs [(2, 2 ^ 64 - 1), (4, 2)])) 12 = 1 := by decide +kernel
theorem test_sltn_carry : gAfter (.sltn 14 12 2) (lab (gs [(2, 2 ^ 64 - 1), (12, 1)])) 14 = 1 := by decide +kernel
theorem test_slt_no_carry : gAfter (.slt 14 12 2) (lab (gs [(2, 2 ^ 64 - 1), (12, 1)])) 14 = 0 := by decide +kernel
/-- A division by zero gives all ones and goes on (R129). -/
theorem test_div_by_zero : gAfter (.div 3 4 5) (lab (gs [(4, 7)])) 3 = BitVec.allOnes 64 := by decide +kernel
/-- An amount of 64 shifts by 0 and an amount of −1 by 63 (R127). -/
theorem test_shl_by_64 : gAfter (.shl 3 4 5) (lab (gs [(4, 7), (5, 64)])) 3 = 7 := by decide +kernel
theorem test_sha_by_minus_one : gAfter (.sha 3 4 5) (lab (gs [(4, 2 ^ 63), (5, 2 ^ 64 - 1)])) 3 = BitVec.allOnes 64 := by decide +kernel
/-- A rotation by 12 (R133). -/
theorem test_fshr_rotates : gAfter (.fshr 8 9 9 12) (lab (gs [(9, 0x123)])) 8 = 0x1230000000000000 := by decide +kernel
/-- The bit field of the worked example, and one that runs past bit 63 (R134). -/
theorem test_bext_field : gAfter (.bext 10 11 8 11) (lab (gs [(11, 0xABCD12)])) 10 = 0xBCD := by decide +kernel
theorem test_bext_past_63 : gAfter (.bext 10 11 60 7) (lab (gs [(11, 0xA000000000000001)])) 10 = 0xA := by decide +kernel
theorem test_bins_field : gAfter (.bins 10 11 8 11) (lab (gs [(11, 0xABCD12)])) 10 = 0xD1200 := by decide +kernel
/-- JALR reads g31 before it writes the link (R139). -/
theorem test_jalr_reads_first : let t := after (exec (.jalr 31 31 0) (lab (gs [(31, 0x200)])))
    (here t).pc = 0x200 ∧ reg t 31 = 0x104 := by decide +kernel
/-- A branch of −2 halfwords, taken and not (R137). -/
theorem test_bne_taken : (here (after (exec (.bne 8 0 (-2)) (lab (gs [(8, 1)]))))).pc = 0xFC := by decide +kernel
theorem test_bne_not_taken : (here (after (exec (.bne 8 0 (-2)) (lab id)))).pc = 0x104 := by decide +kernel
/-- Element 5 of the line of the E2M1 example is −8.0 (06_memory_access.md). -/
def e2m1Line : State :=
  memPut (memPut (memPut (lab (gs [(6, 0x50000), (7, 5)])) 0x250002 [0xE0]) 0x250030 [0x60]) 0x25003C [0x00, 0x40]
theorem test_lde_e2m1 : gAfter (.lde 5 6 7) e2m1Line 5 = 0xC1000000 := by decide +kernel
/-- A doubleword stored at the end of page 1 is read back, and its lowest byte is its first (R51). -/
theorem test_std_read_back : let t := after (exec (.std 8 9 0) (lab (gs [(8, 0x1FFF8), (9, 0x1122334455667788)])))
    gAfter (.ldd 5 8 0) t 5 = 0x1122334455667788 ∧ gAfter (.ldb 5 8 0) t 5 = 0xFFFFFFFFFFFFFF88 := by decide +kernel
/-- VCVT.BF16.F32 of 0x3F80_8000 is 0x3F80, and NX is set (R97). -/
theorem test_vcvt_ties_to_even : let t := after (exec (.vcvt 2 7 0 1 0) (lab (vs [(7, 0x3F808000)])))
    lane (vOf (here t) 2) 16 0 = 0x3F80 ∧ (here t).fpstat.getLsbD 0 = true := by decide +kernel
/-- −1.0 is below 1.0 as a number, and above −2.0 (07_vector.md, VCMP.LT). -/
theorem test_vcmp_lt_f32 :
    (kOf (here (after (exec (.vcmp 3 5 6 0 2) (lab (vs [(5, 0xBF800000), (6, 0x3F800000)]))))) 3).getLsbD 0 = true ∧
    (kOf (here (after (exec (.vcmp 3 5 6 0 2) (lab (vs [(5, 0xBF800000), (6, 0xC0000000)]))))) 3).getLsbD 0 = false := by decide +kernel
theorem test_vcmp_lt_i32 :
    (kOf (here (after (exec (.vcmp 3 5 6 2 2) (lab (vs [(5, 0xBF800000), (6, 0xC0000000)]))))) 3).getLsbD 0 = true := by decide +kernel
/-- OXL puts its halfword where W says (R315). -/
theorem test_oxl_halfword : oxOf (here (after (exec (.oxl 2 3 0x1234) (lab (oxs [(2, 5)]))))) 2 = 0x1234000000000005 := by decide +kernel
/-- LDWT waits at an empty word, with its context where it was (R155). -/
theorem test_ldwt_waits :
    let s := onC (fun c => { c with emptyA := [4] }) (lab (gs [(10, 16)]))
    after (exec (.ldwt 9 10 0 1) s) |>.stalled = true := by decide +kernel
/-- TRAP enters the handler with the cause, the next PC and the value saved (R46, R318, R319). -/
theorem test_trap_enters : let t := after (exec (.trap 9 10) (lab fun c => { gs [(9, 3), (10, 77)] c with trapVec := 0x80 }))
    (here t).trapPc = 0x104 ∧ (here t).trapVal = 77 ∧ (here t).trapCause.toNat % 256 = 3 ∧ (here t).pc = 0x100 ∧ (here t).trapMode = true := by
  decide +kernel
/-- ERET goes back to TRAPPC. -/
theorem test_eret_returns : let t := after (exec .eret (lab fun c => { c with trapMode := true, trapPc := 0x300 }))
    (here t).pc = 0x300 ∧ (here t).trapMode = false := by decide +kernel
/-- A misaligned load takes cause 0x03 at the instruction, with the address (R147). -/
theorem test_ldw_misaligned : let t := after (exec (.ldw 5 9 1) (lab fun c => { gs [(9, 0x10000)] c with trapVec := 0x80 }))
    (here t).trapMode = true ∧ (here t).trapCause = 3 ∧ (here t).trapPc = 0x100 ∧ (here t).trapVal = 0x10001 := by decide +kernel
/-! ## Witnesses: states that meet the hypotheses of the statements -/

/-- Hardware contexts 0 and 3, the handler and the last core of the package, none held up (every statement over calm or
calmStrand states). -/
theorem test_meets_calm : calmStrand (lab id) = true ∧ calmStrand { lab id with ctx := 3 } = true ∧
    calm { lab id with ctx := 4 } = true ∧ calmStrand { lab id with core := 16383 } = true := by decide +kernel
/-- An interlock that has run out holds nothing up; one still running does. -/
theorem test_meets_calm_locks : calm (lab fun c => { c with locks := [⟨.g 8, some 1000⟩] }) = true ∧
    calm (lab fun c => { c with locks := [⟨.g 8, some 1001⟩] }) = false := by decide +kernel
/-- The laboratory once every core has been asked for an instruction: the ports serve the accesses through S windows. -/
def served0 : State := { lab id with scan := scanEnd }
/-- Loads: at the last doubleword of A, at the last of S outside the mailbox, in a page and in an S window. -/
theorem test_meets_loads :
    (arrives (lab id) .load 8 8 (siteAt 1 0xFFF8) = some (.loc 1 0xFFF8) ∧ readable (lab id) 8 (.loc 1 0xFFF8) = true) ∧
    (arrives (lab id) .load 1 1 (siteAt 3 0x7FFF) = some (.loc 3 0x7FFF) ∧ readable (lab id) 1 (.loc 3 0x7FFF) = true) ∧
    (arrives (lab id) .load 8 8 (siteAt 0 0x1FFF8) = some (.phys 0x1FFF8 0x21FFF8 ⟨0xC200000000210001, 16⟩) ∧
      readable (lab id) 8 (.phys 0x1FFF8 0x21FFF8 ⟨0xC200000000210001, 16⟩) = true) ∧
    (arrives served0 .load 4 4 (siteAt 0 0x40000000000008) = some (.window 0 8) ∧
      readable served0 4 (.window 0 8) = true) := by decide +kernel
/-- Stores: the last doubleword of S below the mailbox, the last byte of A, and a page's last word. -/
theorem test_meets_stores :
    (arrives (lab id) .store 8 8 (siteAt 3 0x5FF8) = some (.loc 3 0x5FF8) ∧ writable (lab id) 8 (.loc 3 0x5FF8) = true) ∧
    (arrives (lab id) .store 1 1 (siteAt 1 0xFFFF) = some (.loc 1 0xFFFF) ∧ writable (lab id) 1 (.loc 1 0xFFFF) = true) ∧
    (arrives (lab id) .store 4 4 (siteAt 0 0x1FFFC) = some (.phys 0x1FFFC 0x21FFFC ⟨0xC200000000210001, 16⟩) ∧
      writable (lab id) 4 (.phys 0x1FFFC 0x21FFFC ⟨0xC200000000210001, 16⟩) = true) ∧
    (arrives served0 .store 2 2 (siteAt 0 0x40000000000008) = some (.window 0 8) ∧
      writable served0 2 (.window 0 8) = true) := by decide +kernel
/-- The full-empty forms at the last word of A, full and empty, with no access or atomic out; an LDWT that waits, alone and beside
its writer, and one that has observed a value. -/
theorem test_meets_FullEmptyInstructions :
    let s := lab (gs [(8, 0xFFFC)])
    let e := onC (fun c => setEmpty c 1 0xFFFC) s
    let w : State := onC (fun c => coreSetCtx c 2 { ctx0 with await := some (.word 1 0xFFFC none) }) s
    (flying s [.remoteAccessServe] = false ∧ atomicsOut s = false ∧ (here s).await = none ∧ s.ctx < 4 ∧ readable s 4 (.loc 1 0xFFFC) = true) ∧
    (calm w = true ∧ (getCtx w 0 2).await = some (.word 1 0xFFFC none)) ∧
    (here (lab fun c => { c with await := some (.word 1 0xFFFC (some 7)) })).await = some (.word 1 0xFFFC (some 7)) ∧
    (matrixBefore s 1 0xFFFC 4 = false ∧ arrives s .store 4 4 (siteAt 1 (reg s 8 + (0 : BitVec 12).signExtend 64)) = some (.loc 1 0xFFFC) ∧
      arrives s .load 4 4 (siteAt 1 (reg s 8 + reg s 0)) = some (.loc 1 0xFFFC) ∧
      spaceFails (hereCore s) 1 0xFFFC 4 = false ∧ isFull (hereCore s) 1 0xFFFC = true) ∧
    (arrives e .load 4 4 (siteAt 1 (reg e 8 + reg e 0)) = some (.loc 1 0xFFFC) ∧
      spaceFails (hereCore e) 1 0xFFFC 4 = false ∧ isFull (hereCore e) 1 0xFFFC = false) := by decide +kernel
/-- Elements of a BF16 array, of an E2M1 array, to load and to store; a prefetch that hits and one that misses. -/
theorem test_meets_ElementAccessesAndPrefetch :
    let l : Leaf := ⟨0xCA00000000220001, 16⟩
    let m : Leaf := ⟨0xE201000000250001, 16⟩
    let s := lab (gs [(8, 0x20000), (9, 0x7FFF), (10, 0x50000), (11, 95)])
    (leafFmt l.entry = 1 ∧ windowOf 0x20000 = none ∧ elemAddr 1 (reg s 8) (reg s 9).toNat = 0x2FFFE ∧ (0x20000 : VA).toNat % elemAlign 1 = 0 ∧
      leafHere s .load 0x20000 = some l ∧ leafHere s .load 0x2FFFE = some l ∧
      admitOk s .read (.phys 0x2FFFE (leafPa l 0x2FFFE) l) = true ∧ sound s 0 (leafPa l 0x2FFFE) = true ∧
      leafHere s .store 0x20000 = some l ∧ leafHere s .store 0x2FFFE = some l ∧
      admitOk s .write (.phys 0x2FFFE (leafPa l 0x2FFFE) l) = true ∧
      writable s (elemSpan 1) (.phys 0x2FFFE (leafPa l 0x2FFFE) l) = true) ∧
    (leafFmt m.entry = 4 ∧ elemAddr 4 (reg s 10) (reg s 11).toNat = 0x50000 ∧ (0x50000 : VA).toNat % elemAlign 4 = 0 ∧
      leafHere s .load 0x50000 = some m ∧ leafHere s .store 0x50000 = some m ∧
      admitOk s .read (.phys 0x50000 (leafPa m 0x50000) m) = true ∧
      admitOk s .write (.phys 0x50000 (leafPa m 0x50000) m) = true ∧ sound s 0 (leafPa m 0x50000) = true) ∧
    (tlbHit (getCluster s 0) (here s).asid 0x10000).isSome = true ∧ windowOf 0x90000 = none ∧ (windowOf 0x40000000000008).isSome = true ∧
    (tlbHit (getCluster s 0) (here s).asid 0x90000).isSome = false ∧ walkFull s 0 (here s).asid 0x90000 = false ∧
    walkFull (onD (fun q => { q with walks := (List.range 16).map fun n => ⟨n, 9, BitVec.ofNat 56 (0x10000 * n), 900, [0], [], [], [], false⟩ }) s)
      0 (here s).asid 0x90000 = true := by decide +kernel
/-- Addresses at each edge of the checks: 0x7FFF is in range and misaligned, 0x8000 out of range; 0x5FFE just below the
mailbox, 0x6000, 0x6FFE, 0x7000 and 0x7FFE in the two regions. -/
theorem test_meets_MemoryChecksTrap :
    let off := fun n => (reg (lab (gs [(8, n)])) 8 + (0 : BitVec 12).signExtend 64).toNat % 65536
    0x8000 ≤ off 0x8000 ∧ (off 0x7FFF < 0x8000 ∧ off 0x7FFF % 2 ≠ 0) ∧ (off 0x6000 % 8 = 0 ∧ 0x6000 ≤ off 0x6000 ∧ off 0x6000 < 0x7000) ∧
    (off 0x6FFE % 2 = 0 ∧ off 0x6FFE < 0x7000) ∧ (off 0x7000 % 8 = 0 ∧ 0x7000 ≤ off 0x7000) ∧ (off 0x7FFE % 2 = 0 ∧ off 0x7FFE < 0x8000) := by
  decide +kernel
/-- A store of the last byte of a line that the cache takes. -/
theorem test_meets_StoreIsSeenAndNothingElse :
    (0x20003F % 64 + 1 ≤ 64) ∧ (cacheWrite (lab id) 0 0x20003F [0xAB]).1 = some () ∧
    lineOf 0x200000 = lineOf 0x20003F ∧ sound (lab id) 0 0x20003F = true ∧
    lruOf (getCluster (lab id) 0) (lineOf 0x20003F) = none := by decide +kernel
/-- The types of integers and of floating point, at their edges. -/
theorem test_meets_VectorArithmetic : 2 ≤ (2 : BitVec 3).toNat ∧ 2 ≤ (7 : BitVec 3).toNat ∧ (0 : BitVec 3).toNat < 2 ∧
    (1 : BitVec 3).toNat < 2 := by decide
theorem test_meets_VectorLogicAndMasks : 2 ≤ (2 : BitVec 3).toNat ∧ (5 : BitVec 4).toNat < 6 := by decide
theorem test_meets_VectorConversionsAndReductions : ((9 : BitVec 4) ≠ 10#4) ∧ ((10 : BitVec 4) = 10#4) ∧ 4 ≤ (4 : BitVec 3).toNat := by decide
/-- A vector load and store of the last 64 bytes of A, and of a page: every lane arrives and is read or written. -/
theorem test_meets_VectorLoadsAndStoresComplete :
    let s := lab (gs [(8, 0xFFC0), (9, 0x10040), (10, 4)])
    let la := (List.range 16).map fun k => Spot.loc 1 (0xFFC0 + 4 * k)
    let lg := (List.range 16).map fun k => Spot.phys (0x10040 + BitVec.ofNat 56 (4 * k)) (0x210040 + 4 * k) ⟨0xC200000000210001, 16⟩
    (alignedTo 64 (siteAt 1 (reg s 8 + reg s 0)) = true ∧ la.length = 16 ∧
      (∀ k, k < 16 → arrives s .load 4 4 (siteAt 1 (reg s 8 + reg s 0 + BitVec.ofNat 64 (4 * k))) = la[k]?) ∧
      (∀ k, k < 16 → arrives s .store 4 4 (siteAt 1 (reg s 8 + reg s 0 + BitVec.ofNat 64 (4 * k))) = la[k]?) ∧
      (readEach 4 s ((List.range 16).zip la)).isSome = true ∧
      (writeEach s (((List.range 16).map fun k => toBytes 4 (lane (vreg s 3) 32 k).toNat).zip la)).isSome = true) ∧
    (alignedTo 64 (siteAt 0 (reg s 9 + reg s 0)) = true ∧
      (∀ k, k < 16 → arrives s .load 4 4 (siteAt 0 (reg s 9 + reg s 0 + BitVec.ofNat 64 (4 * k))) = lg[k]?) ∧
      (readEach 4 s ((List.range 16).zip lg)).isSome = true) ∧
    ((∀ k, k < 16 → arrives s .load 4 4 (siteAt 1 (reg s 8 + BitVec.ofNat 64 k * reg s 10)) = la[k]?) ∧
      (∀ k, k < 16 → arrives (lab (vs [(2, 0)])) .load 4 4 (siteAt 1 (reg (lab id) 0 +
        (lane (vreg (lab (vs [(2, 0)])) 2) 32 k).signExtend 64 * 4)) = some (.loc 1 0))) := by decide +kernel
/-- Sixteen BF16 elements of A from index 1 on. -/
theorem test_meets_VectorElementAccesses :
    let s := lab (gs [(8, 0x40), (9, 1)])
    let l := (List.range 16).map fun k => Spot.loc 1 (0x42 + 2 * k)
    l.length = 16 ∧ (∀ k, k < 16 → arrives s .load 2 (elemAlign 1) (siteAt 1 (elemAddr 1 (reg s 8) ((reg s 9).toNat + k))) = l[k]?) ∧
    (readEach 2 s ((List.range 16).zip l)).isSome = true ∧
    (∀ k, k < 16 → arrives s .store 2 (elemAlign 1) (siteAt 1 (elemAddr 1 (reg s 8) ((reg s 9).toNat + k))) = l[k]?) ∧
    (writeEach s (((List.range 16).map fun k => (elemPut 1 (lane (vreg s 3) 32 k)).1).zip l)).isSome = true := by decide +kernel
/-- The VADD.i32 v3, v1, v2 that stands after a VPFX at 0x100, in the line the cache holds. -/
def unitLab : State := onCl (fun c => { c with cache := [⟨0x200100 / 64, 0x0404233100000000#512,
  BitVec.allOnes 64, 0, false, 1⟩] }) (lab id)
set_option maxRecDepth 20000 in
/-- The four bytes after a prefix at 0x100 are fetched and leave the state as it is; they decode, and accept a mask and
not a rounding. -/
theorem test_meets_PrefixUnit : calm unitLab = true ∧ unitBytes unitLab = .ok [0x31, 0x23, 0x04, 0x04] unitLab ∧
    unitInstr [0x31, 0x23, 0x04, 0x04] = some (.vadd 6 2 2 2) ∧
    (prefixed ⟨1, true, 0, none⟩ (.vadd 6 2 2 2)).isSome = true ∧ (prefixed ⟨0, false, 3, none⟩ (.vadd 6 2 2 2)).isNone = true :=
  ⟨by decide +kernel, by with_unfolding_all rfl, by decide +kernel, by decide +kernel, by decide +kernel⟩
/-- A gang of two: core 0 leads, context 0 of core 1 follows. -/
def gangLab (f l : Ctx → Ctx) : State := setCore (lab fun c => l { c with gangSize := 1 }) 1 (coreSetCtx { Core.reset with powered := true } 0
  (f { ctx0 with run := .follower, gangIdx := 1, gangLead := 0 }))
/-- Two cores whose second has a free context. -/
def pairLab : State := setCore (lab id) 1 (coreSetCtx Core.reset 2 { ctx0 with run := .free })
/-- GANG on a core of odd index; with no free follower; with one; DISBAND by a leader and outside a gang. -/
theorem test_meets_GangFormsAndDisbands :
    (calmStrand { pairLab with core := 1, ctx := 1 } = true ∧ 1 % 8 % 2 ≠ 0) ∧
    (calmStrand (lab id) = true ∧ freeFollower (lab id) 1 = none) ∧
    (calmStrand pairLab = true ∧ ∀ j, j < 2 → 1 ≤ j → (freeFollower pairLab (0 + j)).isSome = true) ∧
    (Claims.gangReady (gangLab id id) = true ∧ ∀ p, p ∈ members (gangLab id id) → matrixPending (gangLab id id) p.1 p.2 = false) ∧
    (calm (lab id) = true ∧ (here (lab id)).gangIdx = 0 ∧ matrixPending (lab id) 0 0 = false) := by decide +kernel
/-- A gang ready at one PC, whose members differ on a branch, with a handler. -/
theorem test_meets_GangRunsAndEnds :
    let s := gangLab (gs [(8, 1)]) (fun c => { c with trapVec := 0x80 })
    Claims.gangReady s = true ∧ leads s = true ∧ (∀ p, p ∈ members s → (getCtx s p.1 p.2).pc = (here s).pc) ∧
    (∃ p, p ∈ members s ∧ (if gOf (getCtx s p.1 p.2) 8 = gOf (getCtx s p.1 p.2) 0 then (0x110 : VA) else 0x104) ≠
      (if gOf (here s) 8 = gOf (here s) 0 then (0x110 : VA) else 0x104)) ∧
    (here s).trapVec ≠ 0 ∧ (here s).trapMode = false ∧ (here s).midway = false := by decide +kernel
/-- Handle 2 configured: four slots of 2,048 bytes in A from 0. -/
def handleLab (h : Handle) : State := lab (setHandle 2 h)
def ring4 : W64 := 0x0000_0004_0400_0000
/-- MLDB by handle and by address, MMA and MSTAT with nothing outstanding. -/
theorem test_meets_MatrixInstructionsIssue :
    (handleOfCtx (here (handleLab ⟨ring4, 0, 0, 0⟩)) ((2 : BitVec 5).setWidth 4)).configured = true ∧ (4 : BitVec 3).toNat ≤ 4 ∧
    (reg (lab (gs [(8, 30)])) 8).getLsbD 0 = false ∧
    (getCluster (lab id) (clusterOf (lab id).core)).mtx.any (fun m => isMine (lab id) m.who) = false ∧
    (slotAt (getCluster (lab id) 0) (bits (reg (lab (gs [(8, 0xFF)])) 8) 7 5 * 32 + 31)).loading = false ∧
    (∀ m, m ∈ (getCluster (lab id) 0).mtx → m.accepted = true → 255 ∉ loadsSlot (getCluster (lab id) 0) m) := by decide +kernel
/-- An MZERO and an MMA in the cluster's queue, before and after acceptance; a slot that a parity check may fail. -/
def slotInt8 : WSlot := ⟨0x0000000B, List.replicate 2048 2, List.replicate 256 0, List.replicate 32 0, false⟩
def mtxOp (k : MtxKind) (acc : Bool) : MtxOp :=
  ⟨9, who0, k, 3, 5, none, 0, [], false, 0, false, acc, List.replicate 1024 1, slotInt8, 0⟩
theorem test_meets_MatrixAcceptanceAndCompletion :
    (let s := on (onCl (fun c => { c with mtx := [mtxOp .mzero false] }) (lab fun c => { c with run := .held (.accept 9) })) (.num 0 9 1)
     (getCluster s 0).mtx.find? (fun o => o.id = 9 && !o.accepted) = some (mtxOp .mzero false) ∧ resident s who0 = true ∧
       (getCtx s 0 0).run = .held (.accept 9) ∧ blocked s 0 (mtxOp .mzero false) = false ∧ (mtxOp .mzero false).addr = 0) ∧
    (let s := on (onCl (fun c => { c with mtx := [mtxOp .mma true], slots := [(5, slotInt8)] }) (lab id)) (.num 0 9 0)
     let m := mtxOp .mma true
     (getCluster s 0).mtx.find? (fun o => o.id = 9 && o.accepted) = some m ∧ m.slot.fmt = 3#3 ∧ (getCore s 0).cfree = 0 ∧
       spaceFails (getCore s 0) 2 (2048 * 3) 2048 = false ∧ m.data.length = 1024 ∧ m.slot.cells.length = 2048 ∧
       m.slot.grp.length = 256 ∧ m.slot.band.length = 32 ∧ (slotAt (getCluster s 0) 5).corrupt = false) := by decide +kernel
/-- Words of HSET well formed and malformed; a handle with nothing, one and all slots filled; a producer that is not the
kernel. -/
theorem test_meets_HandleInstructions :
    (badConfig ring4 = false ∧ badConfig 0x1000_0004_0400_0000 = true) ∧
    (handleOfCtx (here (lab id)) 2).configured = false ∧
    (let h := handleOfCtx (here (handleLab ⟨ring4, 0, 4, 0⟩)) 2
     h.configured = true ∧ (4 : BitVec 4).toNat ≤ h.filled.toNat ∧ h.filled.toNat < (5 : BitVec 4).toNat ∧ h.prod = 0) ∧
    (let h := handleOfCtx (here (handleLab ⟨ring4, 0, 1, 3⟩)) 2
     h.prod = 0 ∧ (3 : BitVec 5).toNat ≤ h.free ∧ slotsRead (handleLab ⟨ring4, 0, 1, 3⟩) h 3 = false) ∧
    (let h := handleOfCtx (here (handleLab ⟨ring4, 1, 3, 2⟩)) 2
     h.prod = 0 ∧ (0 : BitVec 5).toNat ≤ h.free ∧ slotsRead (handleLab ⟨ring4, 1, 3, 2⟩) h 0 = false ∧ flying (handleLab ⟨ring4, 1, 3, 2⟩) [.remoteAccessServe] = false) ∧
    (handleOfCtx (here (handleLab ⟨0x0001_0004_0400_0000, 0, 0, 0⟩)) 2).prod ≠ 0 := by decide +kernel
/-- A counter that is even and one that is not; sleeps at their cycle and one before; promises kept and broken; a sleeper;
timers of both waits. -/
def jobBase : Job := ⟨1, 9, who0, .get, .bufA, 8, 0x100, 64, 64, 1, 0, 0, 0, 0, 20, 0, 0, 0, 0, 0, 0, 5, 900, true, false, 1, false, false,
  [], [], 64, 0, 0, 0, [], [], false, none, [], []⟩
theorem test_meets_CountersSleepsAndTimeouts :
    (counterOf (here (lab id)) 3).done = (counterOf (here (lab id)) 3).expect ∧
    (let s := lab fun c => { c with cc := c.cc.set 3 ⟨64, 0⟩ (by decide) }
     (counterOf (here s) 3).done ≠ (counterOf (here s) 3).expect) ∧
    (let s := lab (gs [(8, 1000), (9, 1001), (10, 999 * 256), (11, 1000 * 256), (12, 5 * 256 + 1)])
     (reg s 8).toNat ≤ now s ∧ now s < (reg s 9).toNat ∧ (reg s 10).toNat / 256 < now s ∧ now s ≤ (reg s 11).toNat / 256 ∧
     Machine.kept (getCluster s 0) (reg s 10) = true ∧
     Machine.kept (getCluster (onCl (fun c => { c with jobs := [jobBase] }) s) 0) (reg s 12) = false) ∧
    (let s := on (lab fun c => { c with run := .held (.sleep 77) }) (.who who0 0 77)
     resident s who0 = true ∧ (getCtx s 0 0).run = .held (.sleep 77)) ∧
    (let s := on (lab fun c => { c with waitSince := some 900 }) (.who who0 900 2)
     resident s who0 = true ∧ (getCtx s 0 0).run = .running ∧ (getCtx s 0 0).waitSince = some 900) := by decide +kernel
/-- The launch of domain 1: cluster 0, wells 0 and 5 of die 0, a tree for group 3. -/
def launch1 : Launch := ⟨0, 1, (List.replicate 32 0).set 1 7, .running, [0], [0, 5], 1, 0, 0, 900, none, [(3, 0)], []⟩
def run1 (s : State) : State := { s with launches := [launch1] }
/-- Copies of one row of 64 bytes: by address, and to handle 2 of four slots of 2,048 bytes that the copy unit feeds, one full
slot of 2,048 bytes, of 512 on an E2M1 page's reading; a gather of one row whose page is page 1. -/
theorem test_meets_CopyRequestsEnqueue :
    (let s := lab (oxs [(0, 0x10000), (1, 63)])
     calmStrand s = true ∧ (here s).bound = true ∧ atomicsOut s = false ∧ (getCluster s 0).mtx = [] ∧
     ((getCluster s 0).jobs.filter (·.live)).length ≤ 24 ∧
     (getCluster s 0).jobs = [] ∧
     ((counterOf (here s) 0).expect - (counterOf (here s) 0).done).toNat + copyRows s false * (rowLengths s).getD 1 0 ≤ 2 ^ 31) ∧
    (let s := lab fun c => oxs [(0, 0x10000), (1, 63)] (setHandle 2 ⟨0x0001_0004_0020_0000, 0, 0, 0⟩ c)
     let h := handleOfCtx (here s) ((2 : BitVec 5).setWidth 4)
     h.configured = true ∧ h.prod = 1 ∧ h.slot ≠ 0 ∧ ∀ r, r ∈ rowLengths s →
      ((copyRows s false - 1) * r + r) % h.slot = 0 ∧ ((copyRows s false - 1) * r + r) / h.slot ≤ min h.cnt h.free ∧
      slotsRead s h (((copyRows s false - 1) * r + r) / h.slot) = false) ∧
    (let s := onCl (fun c => { c with jobs := List.replicate 31 jobBase }) served0
     calmStrand s = true ∧ (here s).bound = true ∧ ((getCluster s 0).jobs.filter (·.live)).length < 32 ∧ s.scan = scanEnd ∧
     (getCluster s 0).bids = [] ∧ jobBase.issued ≠ now s) ∧
    (let s := lab fun c => vs [(4, 0)] (oxs [(0, 0x10000), (1, 63 + 2 ^ 32 * 256), (3, 2 ^ 16)] c)
     oxOf (here s) 7 = 0 ∧ copyRows s true = 1 ∧ ((2 : BitVec 2) ≠ 3#2) ∧
     (lane (vreg s 4) 32 0).toNat ≤ bits (oxOf (here s) 1) 31 16 ∧
     (tlbHit (getCluster s 0) (here s).asid ((oxOf (here s) 0).setWidth 56)).isSome = true ∧
     ∀ k, k < (rowLengths s).getD 1 0 + 64 →
      windowOf (0x10000 + BitVec.ofNat 56 k) = none ∧ leafHere s .load (0x10000 + BitVec.ofNat 56 k) = some ⟨0xC200000000210001, 16⟩ ∧
      admits s 1 (here s).asid.toNat .read (0x210000 + k) 0 = true ∧ inPeer (0x210000 + k) = false) := by decide +kernel
/-- A gather of two rows whose first is queued, its context standing at the second, an index out of range and one in range. -/
theorem test_meets_CopyRequestsEnqueue_resumed :
    let j := { jobBase with kind := .gath, issuing := true, queued := 1, rows := 2 }
    let s := onCl (fun c => { c with jobs := [j] }) (lab fun c => vs [(4, 0xFFFFFFFF_00000000), (5, 0)]
      (oxs [(0, 0x10000), (1, 63), (3, 2 * 2 ^ 16), (6, 257), (7, 0xBD00000000000001)] c))
    jobById (getCluster s 0) ((oxOf (here s) 6).extractLsb' 8 8) = some j ∧ jobOf s 0 j.seq = some j ∧ j.issuing = true ∧
    j.who = whoOf (here s) s.core s.ctx ∧ j.hcfg = 0 ∧ j.loc = .bufA ∧ bits (oxOf (here s) 6) 4 0 = 1 ∧ 1 < j.rows ∧ j.rows ≤ 16 ∧
    j.fmt = 0 ∧ j.rowLen = (rowLengths s).getD 0 0 ∧
    ((counterOf (here s) j.cc).expect - (counterOf (here s) j.cc).done).toNat + j.rowLen ≤ 2 ^ 31 ∧
    ¬ (lane (vreg s 4) 32 1).toNat ≤ bits (oxOf (here s) 1) 31 16 ∧ (lane (vreg s 5) 32 1).toNat ≤ bits (oxOf (here s) 1) 31 16 ∧
    ∀ k, k < (rowLengths s).getD 1 0 + 64 →
      windowOf (0x10000 + BitVec.ofNat 56 k) = none ∧ leafHere s .load (0x10000 + BitVec.ofNat 56 k) = some ⟨0xC200000000210001, 16⟩ ∧
      admits s 1 (here s).asid.toNat .read (0x210000 + k) 0 = true ∧ inPeer (0x210000 + k) = false := by decide +kernel
/-- Jobs: live and ended under an id, none under another; one whose first piece's page is in the TLB; a piece that lands in A
at the last row's end. -/
def piece0 : Piece := ⟨0, 64, 0x10040, 0, 0, 0, ⟨0, 0⟩, ⟨0, 0⟩, false, false, 0⟩
def pieceR : Piece := { piece0 with pa := 0x210040, ready := true }
theorem test_meets_CopyStatusAndLanding :
    (let s := onCl (fun c => { c with jobs := [jobBase, { jobBase with id := 2, state := 3 }] }) (lab (gs [(8, 1), (9, 2), (10, 3)]))
     (jobById (getCluster s 0) ((reg s 8).extractLsb' 0 8)).map (·.live) = some true ∧
     (jobById (getCluster s 0) ((reg s 9).extractLsb' 0 8)).map (·.live) = some false ∧
     (jobById (getCluster s 0) ((reg s 10).extractLsb' 0 8)) = none) ∧
    (let j := { jobBase with todo := [piece0] }
     let s := on (onCl (fun c => { c with jobs := [j] }) (lab id)) (.num 0 9 0)
     let l : Leaf := ⟨0xC200000000210001, 16⟩
     jobOf s 0 9 = some j ∧ j.live = true ∧ windowOf piece0.va = none ∧ tlbHit (getCluster s 0) j.who.asid piece0.va = some l ∧
     16 ≤ l.bits ∧ leafFmt l.entry = 0 ∧ admits s 1 j.who.asid.toNat .read (leafPa l piece0.va) 0 = true ∧
     inPeer (leafPa l piece0.va) = false ∧ piece0.va.toNat % 65536 + piece0.bytes ≤ 65536) ∧
    (let j := { jobBase with flying := [pieceR], lbase := 0xFFC0, worked := [0] }
     let s := on (onCl (fun c => { c with jobs := [j] }) (lab id)) (.piece 0 9 pieceR)
     jobOf s 0 9 = some j ∧ j.live = true ∧ j.flying.contains pieceR = true ∧ 0 < j.rowLen ∧
     pieceR.pos % j.rowLen + pieceR.bytes ≤ j.rowLen ∧ asleep s pieceR.pa = none ∧ (∀ k, k < 64 → badAt s (pieceR.pa + k) = false) ∧
     (getCore s 0).powered = true ∧ portBusy (getCore s 0) 1 (now s) = false ∧ resident s j.who = true ∧
     (getCluster s 0).cpLand ≤ now s ∧ rowWork j pieceR = false ∧ onEdge s 0 = true ∧ j.loaded = true ∧ othersUse s { j with loaded := false } pieceR.pa = false) := by
  decide +kernel
/-- Queries to well 5 (die 0): row 511 loaded from the last kilobyte below the mailbox; a table of bytes with wide and narrow
indices, to the last register and to the end of A; a scan of no item; a wait with nothing outstanding. -/
theorem test_meets_TableQueriesIssue :
    (let s := run1 (lab (gs [(8, 1), (9, 0x5C00), (10, 511)]))
     wellOf s 8 = some 5 ∧ tableAdmits s (wellDie 5 * 8 + 2) (wellBank 5 * 524288) 0 1 .write = true ∧ queriesOut (here s) < 8 ∧
     (reg s 10).toNat ≤ 511 ∧ (reg s 9).toNat % 64 = 0 ∧ (reg s 9).toNat % 65536 + 1024 ≤ 0x6000 ∧
     readable s 1024 (.loc 3 0x5C00) = true) ∧
    (let s := run1 (lab fun c => oxs [(0, 2 ^ 32 * 255 + 2 ^ 11), (1, 3)] (gs [(8, 1), (9, 0xFFC0)] c))
     wellOf s 8 = some 5 ∧ tableAdmits s (wellDie 5 * 8 + 2) (wellBank 5 * 524288) 0 1 .read = true ∧
     badTable (oxOf (here s) 0) = false ∧ (30 : BitVec 5) ≠ 31#5 ∧ 31 + 2 ^ bits (oxOf (here s) 0) 10 9 ≤ 32 ∧
     bits (oxOf (here s) 1) 63 4 = 0 ∧ (reg s 9).toNat % 64 = 0 ∧
     (reg s 9).toNat % 65536 + 64 * 2 ^ bits (oxOf (here s) 0) 10 9 ≤ 65536 ∧
     ((counterOf (here s) 3).expect - (counterOf (here s) 3).done).toNat + 64 ≤ 2 ^ 31 ∧ bits (oxOf (here s) 1) 47 0 = 3 ∧
     bits (oxOf (here (lab id)) 1) 47 0 = 0) ∧
    (let s := run1 (lab (gs [(8, 1)]))
     badTable (oxOf (here s) 0) = false ∧ bits (oxOf (here s) 1) 47 18 = 0 ∧ bits (oxOf (here s) 1) 17 16 ≠ 3 ∧
     bits (oxOf (here s) 1) 15 4 = 0 ∧ bits (oxOf (here s) 3) 63 32 = 0 ∧ oxOf (here s) 7 = 0 ∧ bits (oxOf (here s) 3) 31 0 = 0) ∧
    queriesOut (here (lab id)) = 0 := by decide +kernel
/-- Two items of a scan: their page of well 5 at 0x20_0000 and the sums' at page 1, the first two of three items, and the last after
a progress pair. The page is in well 5's bank when the package has bank blocks at all (R418). -/
theorem test_meets_bankOf (h : Config.wb ≠ 0) (pa : Nat) (h1 : 0xF00A00000 ≤ pa) (h2 : pa < 0xF00C00000) :
    bankOf pa = some (wellDie 5, wellBank 5) := by
  have hw : Config.wb < 17 := Nat.mod_lt _ (by decide)
  have h3 : placeOf pa = .first 0 pa := by
    have h4 : pa < 0x1000000000 := by omega
    rw [placeOf, if_pos (by omega), Nat.div_eq_of_lt h4, Nat.mod_eq_of_lt h4]
  have h5 : bankBase ≤ pa ∧ (pa - bankBase) / 0x200000 % 2048 = 5 := by
    unfold bankBase
    generalize Config.wb = k at h hw
    omega
  simp only [bankOf, h3, if_pos h5.1, h5.2]
  decide
def wellLeaf : Leaf := ⟨0xC400000F00A00001, 21⟩
def scanLab (l : List (Nat × Nat)) : State := run1 (onCl (fun c => { c with tlb := ⟨0x200000, 21, some 1, 0xC400000F00A00001⟩ :: pages })
  (lab fun c => oxs ([(2, 0x200000), (3, 3), (4, 0x10000)] ++ l) (gs [(8, 1)] c)))
theorem test_meets_TableQueriesIssue_scan :
    ∀ q, q ∈ [([], 0), ([(6, 2), (7, 0xB180000000000001)], 2)] → let s := scanLab q.1
      calmStrand s = true ∧ wellOf s 8 = some 5 ∧ badTable (oxOf (here s) 0) = false ∧
      ((oxOf (here s) 7 = 0 ∧ q.2 = 0) ∨ (oxOf (here s) 7 = 0xB180000000000001 ∧ (oxOf (here s) 6).toNat = q.2)) ∧ q.2 < 3 ∧
      (oxOf (here s) 2).toNat % 8 = 0 ∧ (oxOf (here s) 4).toNat % 4 = 0 ∧ bits (oxOf (here s) 3) 31 0 = 3 ∧
      windowOf ((oxOf (here s) 2 + BitVec.ofNat 64 (q.2 * 8)).setWidth 56) = none ∧
      leafHere s .load ((oxOf (here s) 2 + BitVec.ofNat 64 (q.2 * 8)).setWidth 56) = some wellLeaf ∧ leafWell wellLeaf.entry = true ∧
      leafPa wellLeaf (0x200000 + BitVec.ofNat 56 (q.2 * 8)) = 0xF00A00000 + q.2 * 8 ∧ inPeer (0xF00A00000 + q.2 * 8) = false ∧
      admits s 0 1 .read (0xF00A00000 + q.2 * 8) 0 = true ∧
      leafHere s .store ((oxOf (here s) 4 + BitVec.ofNat 64 (4 * q.2)).setWidth 56) = some ⟨0xC200000000210001, 16⟩ ∧
      admits s 1 1 .write (0x210000 + 4 * q.2) 0 = true ∧ inPeer 0x210000 = false ∧ (here s).midway = false := by decide +kernel
/-- Requests at a well: the first of their context there; results for registers and for A; a sum. -/
def wellReq (op : WellOp) : WellReq := ⟨6, who0, 5, op⟩
def atWell (op : WellOp) : State := on (onD (fun d => { d with wellQ := [wellReq op] }) (lab id)) (.num 0 6 0)
theorem test_meets_WellServiceAndResults :
    (∀ op, op ∈ [WellOp.ld 511 (List.replicate 1024 1), .q 0 (List.replicate 64 1) none 0 8, .q 0 (List.replicate 64 1) (some 64) 0 8,
        .qs 0 (List.replicate 64 0) 8 0 8, .qs 0 (List.replicate 64 0) 64 0 8, .scan 0 8 0 0x210000 0x220000 ⟨1, 16⟩ ⟨1, 16⟩ 0x210000 0x220000 1 0 6] →
      (getDie (atWell op) 0).wellQ.find? (·.id = 6) = some (wellReq op) ∧
      ((getDie (atWell op) 0).wellQ.takeWhile (·.id ≠ 6)).any (fun o => o.who = who0 && o.well = 5) = false) ∧
    (tabType 0 ≠ 1 ∧ (getDie (atWell (.qs 0 [] 8 0 8)) 0).badRows = []) ∧
    (let s := on (lab id) (.query ⟨who0, none, 8, [1], [], 0, false, false⟩)
     resident s who0 = true) ∧
    (let s := on (lab id) (.query ⟨who0, some 0xFFC0, 8, [], [1, 2], 0, true, false⟩)
     (getCore s 0).powered = true ∧ portBusy (getCore s 0) 1 (now s) = false) ∧
    (let s := on (lab id) (.sum ⟨who0, ⟨1, 16⟩, 0x21FFFC, 7, 0, false, false, 6⟩)
     resident s who0 = true ∧ 0x21FFFC % 4 = 0) := by decide +kernel
def sfuE : SfuEntry := ⟨4, 990, who0, 0, 0x3F800000#512, 8⟩
/-- A queue with room for one more, and one entry of a resident context. -/
theorem test_meets_SpecialFunctions : sfuFull (lab id) 0 1 = false ∧
    sfuFull (onCl (fun c => { c with sfu := List.replicate 31 { sfuE with start := 2000 } }) (lab id)) 0 1 = false ∧
    sfuFull (onCl (fun c => { c with sfu := List.replicate 32 { sfuE with start := 2000 } }) (lab id)) 0 1 = true ∧
    (let s := on (onCl (fun c => { c with sfu := [sfuE] }) (lab id)) (.num 0 4 0)
     (getCluster s 0).sfu.find? (·.id = 4) = some sfuE ∧ resident s who0 = true) := by decide +kernel
/-- Sixteen words of 4 bytes to the end of A; one of 64 bytes to the end of S; accesses that arrive from inside and from
outside the domain; a reply of a PGET. -/
def rem1 (op : RemoteOp) (sz off : Nat) (d : List Byte) : Remote := ⟨who0, 0, false, op, sz, [off], d, 2, 0x40, false, 0, false, 3⟩
theorem test_meets_OneSidedAccesses :
    (let s := lab fun c => gs [(8, 0xFFC0)] (oxs [(1, 16 * 256 + 2 * 65536)] c)
     bits (oxOf (here s) 0) 63 48 = 0 ∧ bits (oxOf (here s) 0) 31 17 = 0 ∧ bits (oxOf (here s) 0) 15 14 = 0 ∧
     bits (oxOf (here s) 1) 63 20 = 0 ∧ bits (oxOf (here s) 1) 15 13 = 0 ∧ bits (oxOf (here s) 1) 7 3 = 0 ∧
     1 ≤ bits (oxOf (here s) 1) 12 8 ∧ bits (oxOf (here s) 1) 12 8 ≤ 16 ∧ bits (oxOf (here s) 1) 2 0 ≤ 4 ∧
     (reg s 8).toNat % 65536 % 4 = 0 ∧ (reg s 8).toNat % 65536 + 16 * 4 ≤ 0x10000 ∧
     ((counterOf (here s) 2).expect + BitVec.ofNat 32 64 - (counterOf (here s) 2).done).toNat ≤ 2 ^ 31 ∧
     atomicsOut s = false ∧ matrixBefore s 1 0xFFC0 64 = false ∧ spaceFails (hereCore s) 1 0xFFC0 64 = false) ∧
    (let s := lab fun c => gs [(8, 0x7FC0)] (oxs [(1, 256 + 4)] c)
     bits (oxOf (here s) 1) 2 0 = 4 ∧ (reg s 8).toNat % 65536 % 64 = 0 ∧ (reg s 8).toNat % 65536 + 1 * 64 ≤ 0x8000) ∧
    (inDomain (lab id) 0 2 = false ∧ inDomain (lab id) 0 1 = true) ∧
    (let r := rem1 .put 4 0xFFFC [1, 2, 3, 4]
     r.localBarred = false ∧ (getCore (lab id) 0).powered = true ∧ r.past 0xFFFC = false ∧ r.past 0xFFFD = true ∧ r.barred 0xFFFC = false ∧
     spaceFails (getCore (lab id) 0) r.space 0xFFFC 4 = false ∧ r.offs[0]? = some 0xFFFC ∧ ((r.data.drop 0).take 4).length = r.size ∧
     (lab id).agenda.any r.after = false ∧ portBusy (getCore (lab id) 0) r.space (now (lab id)) = false) ∧
    (let s := on (lab id) (.remote (rem1 .get 4 0xFFFC []) [1, 2, 3, 4])
     resident s who0 = true ∧ (getCore s 0).powered = true ∧ portBusy (getCore s 0) 1 (now s) = false ∧
     (rem1 .get 4 0xFFFC []).offs[0]? = some 0xFFFC ∧ (rem1 .get 4 0xFFFC []).past 0xFFFC = false) := by decide +kernel
/-- A group with a tree: nothing contributed, nothing awaited and something awaited; setting words at 127 with an operator, at
128 and without one; a round of eight values; arrivals. -/
theorem test_meets_GroupContributions :
    (let s := run1 (lab (gs [(8, 0x5F), (9, 0x70), (10, 128)]))
     groupWord s (here s).dom 3 = some 0 ∧ (groupRound s (here s).dom 3).setting = 0 ∧ contributed s (here s).dom 3 0 = false ∧
     flying s [.remoteAccessServe] = false ∧ 3 ∉ (here s).grpWait ∧ (reg s 8).toNat < 128 ∧
     bits (reg s 8) 6 4 ≠ 7 ∧ (groupRound s (here s).dom 3).vals = [] ∧ bits (reg s 9) 6 4 = 7 ∧ 128 ≤ (reg s 10).toNat) ∧
    3 ∈ (here (run1 (lab fun c => { c with grpWait := [3] }))).grpWait ∧
    (let r : Round := ⟨1, 3, (List.range 8).map (fun j => (0 * 8 + j, some (BitVec.ofNat 64 j))), [who0], [], 0⟩
     let s := on { run1 (lab id) with rounds := [r] } (.num 1 3 0)
     launchOf s 1 = some launch1 ∧ launch1.clusters = [0] ∧ bits (tabGet 0 launch1.groups 3) 6 4 = 0 ∧
     (groupRound s 1 3).vals = (List.range 8).map (fun j => (0 * 8 + j, some (BitVec.ofNat 64 j))) ∧
     (groupRound s 1 3).greln = []) ∧
    resident (on (lab id) (.who who0 3 9)) who0 = true := by decide +kernel
/-- The leaf of page 1. -/
def sync1 : Leaf := ⟨0xC200000000210001, 16⟩
/-- The page tables of address space 1, with page 1. -/
def mapped (s : State) : State :=
  let s := memPut s 0x100000 (toBytes 8 0x8000000000110000)
  let s := memPut s 0x110000 (toBytes 8 0x8000000000120000)
  let s := memPut s 0x120000 (toBytes 8 0x8000000000130000)
  let s := memPut s 0x130008 (toBytes 8 0xC200000000210001)
  { s with root := [(1, 0x8000000000100000)] }
/-- Sync words on page 1, aligned and not, and one that is an object; requests of every bound at their engines. -/
theorem test_meets_AtomicsAndReductions :
    (let s := lab (gs [(8, 0x1FFF8), (9, 0x10004)])
     syncAt s (reg s 8) sync1 ∧ (reg s 9).toNat % 8 ≠ 0) ∧
    (let s := { mapped (lab (gs [(8, 0x10008)])) with binds := [⟨1, 0x10008, 0x10040, 64⟩] }
     (reg s 8).toNat % 8 = 0 ∧ windowOf 0x10008 = none ∧ leafHere s .store 0x10008 = some sync1 ∧ leafFmt sync1.entry = 0 ∧
     (homeDie (leafPa sync1 0x10008)).isSome = true ∧ admitOk s .sync (.phys 0x10008 (leafPa sync1 0x10008) sync1) = true ∧
     isObject s (leafPa sync1 0x10008) = true) ∧
    ((10 : BitVec 4).toNat ≤ 10 ∧ 0x210008 % 8 = 0 ∧ badAt (lab id) 0x210008 = false) ∧ resident (lab id) who0 = true ∧
    ((4 : BitVec 3).toNat ≤ 4 ∧ badAt { lab id with badLines := [0x210008 / 64] } 0x210008 = true) := by
  unfold syncAt; decide +kernel
/-- Objects on page 1: a region that meets no binding and one bound already; an object to acquire and one held; a request of a
free object at its engine, and a release. -/
theorem test_meets_ObjectsAreBoundAndHeld :
    (let s := lab (gs [(8, 0x10008), (9, 0x10040), (10, 64), (11, 0x10080)])
     let t := { s with binds := [⟨1, 0x10008, 0x10040, 64⟩] }
     objectAt s (reg s 8) sync1 ∧ (reg s 9).toNat % 64 = 0 ∧ (reg s 10).toNat % 64 = 0 ∧ reg s 10 ≠ 0 ∧
     (s.binds.filter (·.asid = (here s).asid)).length < 4096 ∧
     (∀ o, o ∈ t.binds → o.obj ≠ addr56 (reg t 8) → meets o (addr56 (reg t 11)) (reg t 10) = false) ∧
     (⟨1, addr56 (reg t 8), addr56 (reg t 9), reg t 10⟩ : Binding) ∈ t.binds ∧
     (⟨1, addr56 (reg t 8), addr56 (reg t 11), reg t 10⟩ : Binding) ∉ t.binds ∧
     (here t).held.length < 8 ∧ addr56 (reg t 8) ∉ (here t).held ∧ (∃ o, o ∈ t.binds ∧ o.obj = addr56 (reg t 8))) ∧
    (let s := { lab (fun c => { gs [(8, 0x10008)] c with held := [0x10008] }) with binds := [⟨1, 0x10008, 0x10040, 64⟩] }
     addr56 (reg s 8) ∈ (here s).held ∧ drained s) ∧
    (let r : AcqReq := ⟨who0, 0x10008, ⟨1, 16⟩, 0x210008, false, 9, []⟩
     let s := on { lab (fun c => { c with run := .held (.grant 0x10008) }) with acqs := [r] } (.num 0x210008 0 0)
     r.pa = 0x210008 ∧ 0x210008 % 8 = 0 ∧ badAt s 0x210008 = false ∧ (memWord s 0x210008).getLsbD 63 = false ∧
     bits (memWord s 0x210008) 15 0 = 0 ∧ resident s r.who = true ∧ (getCluster s 0).cache = []) ∧
    (let s := on (memPut (lab fun c => { c with run := .held (.release 0x10008), held := [0x10008] }) 0x210008 [2])
      (.who who0 0x210008 0x10008)
     resident s who0 = true ∧ badAt s 0x210008 = false ∧ (memWord s 0x210008).getLsbD 63 = false ∧
     0x10008 ∈ (getCtx s 0 0).held ∧ 0 < bits (memWord s 0x210008) 15 0) := by
  unfold objectAt drained; decide +kernel
/-- The table of bindings full. -/
theorem test_meets_ObjectsAreBoundAndHeld_full :
    4096 ≤ ({ lab id with binds := List.replicate 4096 ⟨1, 0x10008, 0x10040, 64⟩ }.binds.filter fun b : Binding => decide (b.asid = (here (lab id)).asid)).length := by
  decide +kernel
/-- Two distinct lines, one dirty, in served memory. -/
def twoLines : List Line := [⟨0x8400, 5#512, BitVec.allOnes 64, 1, false, 1⟩, ⟨0x8401, 0, BitVec.allOnes 64, 0, false, 1⟩]
theorem test_meets_FenceReleasesAndAcquires :
    (let s := onCl (fun c => { c with cache := twoLines }) (lab id)
     (4 : BitVec 3).toNat < 5 ∧ (1 : BitVec 3).toNat < 2 ∧ 2 ≤ (2 : BitVec 3).toNat ∧ flying s [.remoteAccessServe] = false ∧ drained s ∧
     atomicsOut s = false ∧ hostWrites s = false ∧ (((getCluster s 0).cache).map (·.line)).Nodup ∧
     (∀ l, l ∈ (getCluster s 0).cache → l.failed = false ∧ admits s 0 l.owner.toNat .write (l.line * 64) 0 = true)) := by
  unfold drained; decide +kernel
/-- Barriers uninitialised, initialised, enrolled, with an arrival pending, and under a group; expectations 0, 1, 65,535;
signals with and without reserved bits, and arriving at theirs, at another domain's and at none; releases. -/
def barLab (b : Barrier) : State := run1 (onC (fun c => { c with bars := [(511, b)] }) (lab (gs [(8, 1), (9, 65535), (10, 0x40000), (11, 3)])))
theorem test_meets_Barriers :
    (let s := barLab ⟨false, 0, 0, none, 0, 0, 0, false⟩
     (bar s 511).init = false ∧ 0 < (reg s 8).toNat ∧ (reg s 9).toNat < 65536 ∧ reg s 0 = 0 ∧ (bar s 511).enrol.getLsbD 0 = false ∧
     (reg s 10).getLsbD 18 = true ∧ reg s 11 &&& 0xFFFF0000FFF8C000 = 0 ∧ (reg s 11).getLsbD 18 = false) ∧
    (let s := barLab ⟨true, 2, 0, none, 1, 0, 0, false⟩
     (bar s 511).init = true ∧ (bar s 511).enrol.getLsbD s.ctx = true ∧ flying s [.remoteAccessServe] = false ∧
     (bar s 511).pend.getLsbD s.ctx = false ∧ (bar s 511).group = none ∧ (bar s 511).arrived = 0 ∧
     (groupWord s (here s).dom 3).isSome = true ∧ (bar s 511).pend = 0) ∧
    (let s := barLab ⟨true, 2, 1, some 3, 1, 1, 0, false⟩
     (bar s 511).pend.getLsbD s.ctx = true ∧ (bar s 511).group = some 3) ∧
    (let s := on (barLab ⟨true, 1, 0, none, 1, 0, 0, false⟩) (.barSig ⟨1, 0, 0, 5, 511⟩)
     (getCtx s 0 0).bound = true ∧ (getCtx s 0 0).inst = 5 ∧ (getCtx s 0 0).dom = 1 ∧ (barAt (getCore s 0) 511).init = true ∧
     (barAt (getCore s 0) 511).group = none ∧ (getCtx s 0 0).dom ≠ 2 ∧ (barAt (getCore s 0) 510).init = false) ∧
    (∀ gone, gone ∈ [true, false] → let s := onC (fun c => coreSetCtx c 4 { ctx0 with run := .free }) (barLab ⟨true, 1, 1, some 3, 1, 1, 0, gone⟩)
     (barAt (getCore s 0) 511).gone = gone ∧ (barAt (getCore s 0) 510).init = false ∧ (coreLaunch s 0).dom = 1 ∧ (getDie s 0).dir = []) ∧
    (let s := onC (fun k => coreSetCtx k 0 { here (lab id) with await := some (.bar 510) }) (barLab ⟨true, 2, 1, some 3, 1, 1, 0, false⟩)
     (here s).await = some (.bar 510) ∧ (bar s 510).init = false ∧ (bar s 510).pend.getLsbD 0 = false ∧
     (here (lab id)).await ≠ some (.bar 510)) := by decide +kernel
/-- Headers of length 64 raw, of 8 narrowed, and ill-formed; the first send id free and one taken; the handler with a row. -/
theorem test_meets_MessageInstructions :
    (let s := lab fun c => { gs [(8, 64 * 2 ^ 34), (9, 8 * 2 ^ 34 + 2 ^ 32), (10, 65 * 2 ^ 34)] c with
      sends := c.sends.set 0 .flying }
     (reg s 8 &&& 0xFFFFFE0000F8C000 = 0 ∧ bits (reg s 8) 40 34 ≤ 64 ∧ (reg s 8).extractLsb' 32 2 = 0#2) ∧
     (reg s 9 &&& 0xFFFFFE0000F8C000 = 0 ∧ bits (reg s 9) 40 34 ≤ 64 ∧ bits (reg s 9) 40 34 % 4 = 0) ∧
     ¬ bits (reg s 10) 40 34 ≤ 64 ∧ flying s [.remoteAccessServe] = false ∧
     (here s).sends.toList[1]? = some .free ∧ (∀ j, j < 1 → (here s).sends.toList[j]? ≠ some .free) ∧
     (0 : BitVec 3) = (reg s 8).extractLsb' 0 3) ∧
    ({ lab id with ctx := 4 }.ctx = 4 ∧ (getCluster { lab id with ctx := 4 } 0).sfu = []) := by decide +kernel
/-- Messages from inside and outside the domain at a core whose handler table names an entry and whose class 0 has rows; a row
to write; a row whose handler may start; a status for an id and for a waiting sender. -/
def msg0 : Msg := ⟨who0, 0, 0, 2, 0, 4, [1, 2, 3, 4], 0, some 6⟩
def row0 : MailRow := ⟨0, 0, 2, 0x200, 0, 0, List.replicate 64 7, false⟩
def mailLab : State := onC (fun c => coreSetCtx { c with mbcap := 8, htab := 0x10000 } 4 { ctx0 with run := .free }) (memPut (lab id) 0x210010 [0, 2])
theorem test_meets_MessagesArriveAndReturn :
    (portBusy (getCore mailLab 0) 3 (now mailLab) = false ∧ inDomain mailLab 0 1 = true ∧ inDomain mailLab 0 2 = false ∧
     (getCore mailLab 0).inbox = [] ∧ (getCore mailLab 0).powered = true ∧ (getCore mailLab 0).upAt ≤ now mailLab ∧
     msg0.payload.length ≤ 64 ∧ (handlerEntry mailLab msg0).1 = some (some 0x200) ∧
     freeRow (getCore (handlerEntry mailLab msg0).2 0) 0 = some 0 ∧ (getCore (handlerEntry mailLab msg0).2 0).powered = true) ∧
    (let s := onC (fun c => { c with powered := false }) mailLab
     (getCore s 0).powered = false ∧ (handlerEntry s msg0).1 = some (some 0x200) ∧ freeRow (getCore (handlerEntry s msg0).2 0) 0 = some 0 ∧
     (getCore (handlerEntry s msg0).2 0).powered = false) ∧
    (let s := on (onC (fun c => { c with mail := [row0] }) mailLab) (.num 0 0 0)
     row0.bytes.length = 64 ∧ portBusy (getCore s 0) 3 (now s) = false ∧ (getCore s 0).mail.find? (fun p => p.row = 0 && !p.written) = some row0) ∧
    (let q := { row0 with written := true }
     let s := on (onC (fun c => { c with mail := [q] }) mailLab) (.num 0 0 0)
     (getCtx s 0 4).run = .free ∧ (∀ x, x < 4 → (getCtx s 0 x).run ≠ .follower) ∧ q.pc.getLsbD 0 = false ∧
     (getCore s 0).mail.find? (fun p => !(getCore s 0).classMask.getLsbD p.cls.toNat) = some q ∧ q.written = true) ∧
    (resident mailLab msg0.who = true ∧ (getCtx (lab fun c => { c with run := .held (.sendw 8) }) 0 0).run = .held (.sendw 8)) := by
  decide +kernel
/-- Slot words at the last index and with a tag, an alighting address on page 1, a queue with room for one; operations of the
context left in the queue. -/
def ringOp (k : RingKind) (tag : BitVec 16) : RingOp := 
  ⟨8, who0, k, 1, 1000, false, tag, 3, 0, 8, 0x210040, 0x10040, ⟨1, 16⟩, 900, false, false, false, 0⟩
theorem test_meets_RingInstructionsQueue :
    (let s := lab fun c => gs [(8, 2175), (9, 2 ^ 32 * 65535 + 5)] (oxs [(0, 0x10040)] c)
     (getCluster s 0).ringQ.length < 64 ∧ bits (reg s 8) 11 0 < 2176 ∧ (0x10040 : VA).toNat % 64 = 0 ∧ windowOf 0x10040 = none ∧
     leafHere s .store ((oxOf (here s) 0).setWidth 56) = some sync1 ∧ leafFmt sync1.entry = 0 ∧
     admits s 1 (here s).asid.toNat .write (leafPa sync1 0x10040) 0 = true ∧ (reg s 9).getLsbD 15 = false ∧ bits (reg s 9) 47 32 ≠ 0 ∧
     (getCluster s 0).ringQ.any (fun r => isMine s r.who) = false ∧ flying s [.alightWriteLand] = false) ∧
    (let s := onCl (fun c => { c with ringQ := List.replicate 63 (ringOp .rd 0) }) (lab id)
     (getCluster s 0).ringQ.length < 64 ∧ (getCluster s 0).ringQ.any (fun r => isMine s r.who) = true) := by decide +kernel
/-- Slot 1,000 of lane 1 passing station 0 at cycle 1,176: taken with the operation's tag, free, of another tag; the origin;
alighting writes that memory admits and does not. -/
def passLab (o : RingOp) (r : RingSlot) : State := on { onCl (fun c => { c with ringQ := [o] }) (lab id) with
  cyc := 1176, ring := [(5096, r)] } (.num 0 5096 0)
def slot1 : RingSlot := ⟨77, 9, 0, some who0, 0x210040, 0x10040, ⟨1, 16⟩, true⟩
theorem test_meets_RingPassages :
    (∀ o, o ∈ [ringOp .rd 9, ringOp (.add true) 9, ringOp .alight 9, ringOp .board 9, ringOp .cas 8] →
      let s := passLab o slot1
      o.idx < 2176 ∧ o.issued + 4 ≤ now s ∧ slotPassing (stationPos 0) (now s) = o.idx ∧ s.lanesOff.getLsbD o.lane.toNat = false ∧
      { s with lanesOff := 2 }.lanesOff.getLsbD o.lane.toNat = true ∧ (getCluster s 0).ringQ = [o] ∧
      (getDie s (dieOfCluster 0)).bypassed = false ∧ resident s o.who = true ∧ o.lane.toNat * 4096 + o.idx = 5096 ∧ o.outdone = false ∧ o.fail = 0#3) ∧
    (slot1.tag ≠ 0#16 ∧ slot1.tag = (ringOp .rd 9).tag ∧ who0.asid = (ringOp .rd 9).who.asid ∧ who0.ltag = (ringOp .rd 9).who.ltag ∧ slot1.tag ≠ (ringOp .cas 8).tag ∧
     slot1.owner.toNat = 0) ∧
    (let s := passLab (ringOp .board 9) RingSlot.reset
     (tabGet RingSlot.reset s.ring 5096).tag = 0#16 ∧ (tabGet RingSlot.reset s.ring 5096).passed = true ∧ stationHolds s 0 < 32) ∧
    ((getCluster (on (passLab (ringOp .board 9) slot1) (.num 0 8 0)) 0).ringQ.find? (·.id = 8) = some (ringOp .board 9)) ∧
    (4096 * 3 + 2175 < 16384 ∧ (4096 * 3 + 2175) % 4096 < 2176 ∧ (tabGet RingSlot.reset (lab id).ring (4096 * 3 + 2175)).tag = 0#16) ∧
    (served (lab id) 0x210040 = true ∧ admits (lab id) 1 1 .write 0x210040 0 = true ∧ admits (lab id) 1 1 .write 0x20000000000 0 = true ∧
     served (lab id) 0x8000000000 = false) := by decide +kernel
/-- A global access of `n` bytes that may be made, with the physical address: what globalAt asks, computed. -/
def globalB (s : State) (acc : Acc) (n : Nat) (a : W64) : Option Nat :=
  let va : VA := a.setWidth 56
  match leafHere s acc va with
  | some l =>
    if windowOf va = none ∧ va.toNat % n = 0 ∧ leafPa l va % n = 0 ∧ badAt s (leafPa l va) = false ∧
      admitOk s (permOf acc) (.phys va (leafPa l va) l) = true then some (leafPa l va) else none
  | none => none
theorem globalAt_of {s : State} {acc : Acc} {n pa : Nat} {a : W64} (h : globalB s acc n a = some pa) : globalAt s acc n a pa := by
  unfold globalB at h
  dsimp only at h
  split at h
  · next l hl =>
    split at h
    · next hc =>
      cases h
      exact ⟨hc.1, hc.2.1, hc.2.2.1, hc.2.2.2.1, l, hl, rfl, hc.2.2.2.2⟩
    · cases h
  · cases h
/-- What wordAt and listAt ask, computed. -/
def wordB (s : State) (n : Nat) (a : W64) (x : Nat) : Bool :=
  match globalB s .load n a with
  | some pa => decide (natOf (memRead s pa n) = x)
  | none => false
theorem wordAt_of {s : State} {n x : Nat} {a : W64} (h : wordB s n a x = true) : wordAt s n a x := by
  unfold wordB at h
  split at h
  · next pa hp => exact ⟨pa, globalAt_of hp, by simpa using h⟩
  · cases h
def listB (s : State) (n : Nat) (a : W64) (xs : List Nat) : Bool :=
  (List.range xs.length).all fun i => wordB s n (a + BitVec.ofNat 64 (n * i)) (xs.getD i 0)
theorem listAt_of {s : State} {n : Nat} {a : W64} {xs : List Nat} (h : listB s n a xs = true) : listAt s n a xs := by
  intro i hi
  simp only [listB, List.all_eq_true, List.mem_range] at h
  exact wordAt_of (h i hi)

/-- A leaf of `n` rows, and a product of the two nodes after it. -/
def leafOf (n : Nat) : JNode := ⟨1, 0x10000, BitVec.ofNat 64 n, 0⟩
def product2 : JNode := ⟨0x2002, 0x0201, 0, 0⟩
/-- A descriptor of one leaf of twenty rows at page 1, with empty options; another first word; walkers closed, over, at their
start on one leaf, and on a product of two leaves. -/
def joinHdr : List Nat := [0x000100004B4A5431, 0x0101, 0, 0, 0, 0, 0, 0]
def joinWords : List Nat := [1, 0x10000, 20, 0]
def joinLab (h0 : Nat) : State :=
  memPut (lab fun c => gs [(8, 0x10040)] (oxs [(2, 0xFF0000)] c)) 0x210040
    (((joinHdr.set 0 h0) ++ joinWords).flatMap fun w => toBytes 8 w)
def walkLab (w : Walker) : State := lab fun c => { c with walkers := c.walkers.set 1 w (by decide) }
theorem test_meets_JoinWalkers :
    (let s := joinLab 0x000100004B4A5431
     cleanCache s ∧ (atomicsOut s = false ∧ (reg s 8).toNat % 64 = 0) ∧ listAt s 8 (reg s 8) joinHdr ∧ listAt s 8 (reg s 8 + 64) joinWords) ∧
    (let s := joinLab 0x000100004B4A5432
     listAt s 8 (reg s 8) (joinHdr.set 0 0x000100004B4A5432) ∧ 0x000100004B4A5432 % 2 ^ 32 ≠ 0x4B4A5431) ∧
    (joinHdr.getD 1 0 % 2 ^ 8 = [leafOf 20].length ∧ joinHdr.getD 1 0 < 2 ^ 24 ∧ (∀ i, i < 8 → 2 ≤ i → joinHdr.getD i 0 = 0) ∧
     badNodes [leafOf 20] 0 1 = none ∧
     badOptions [leafOf 20] 1 (oxOf (here (joinLab 0)) 2) (oxOf (here (joinLab 0)) 3) = false) ∧
    ((walkerOf (here (lab id)) 1).nodes = []) ∧
    (let s := walkLab ⟨[leafOf 20], 0, 1, 0xFF0000, 0, none, true⟩
     oxOf (here s) 7 = 0 ∧ (walkerOf (here s) 1).nodes ≠ [] ∧ (30 : BitVec 5).toNat + (walkerOf (here s) 1).leaves ≤ 31 ∧
     (walkerOf (here s) 1).ended = true) ∧
    (let x := walkerOf (here (walkLab ⟨[leafOf 20], 0, 1, 0xFF0000, 0, none, false⟩)) 1
     x.cursor = none ∧ x.ended = false ∧ (leafOf 20).kind = 1 ∧ (leafOf 20).w3 = 0#64 ∧ x.opts.getLsbD 0 = false ∧
     bits x.opts 23 16 = 0xFF) ∧
    (product2.kind = 2 ∧ bits product2.w0 15 12 = 2 ∧ bits product2.w1 7 0 = 1 ∧ bits product2.w1 15 8 = 2 ∧
     badNodes [product2, leafOf 3, leafOf 4] 0 2 = none) := by
  refine ⟨⟨?_, by decide +kernel, listAt_of (by decide +kernel), listAt_of (by decide +kernel)⟩,
    ⟨listAt_of (by decide +kernel), by decide⟩, ?_⟩ <;> first | decide +kernel | skip
  unfold cleanCache; decide +kernel
/-- Streams 1, 4, 9 and 4, 9, 10 on page 1, an output of three words at the end of S below the mailbox; a seek from 1 to 9. -/
def streamLab : State :=
  memPut (memPut (lab (oxs [(0, 0x10000), (1, 0x10040), (2, 3 * 2 ^ 32 + 3), (3, 3 * 2 ^ 16 + 0x5FF4), (4, 2 ^ 32 + 9)])) 0x210000
    ([1, 4, 9].flatMap fun w => toBytes 4 w)) 0x210040 ([4, 9, 10].flatMap fun w => toBytes 4 w)
theorem test_meets_SortedStreams :
    cleanCache streamLab ∧ (atomicsOut streamLab = false ∧ oxOf (here streamLab) 7 = 0) ∧ listAt streamLab 4 (oxOf (here streamLab) 0) [1, 4, 9] ∧
    listAt streamLab 4 (oxOf (here streamLab) 1) [4, 9, 10] ∧ strictly [1, 4, 9] ∧ strictly [4, 9, 10] ∧
    (bits (oxOf (here streamLab) 2) 31 0 = 3 ∧ bits (oxOf (here streamLab) 2) 63 32 = 3 ∧
     bits (oxOf (here streamLab) 3) 15 0 % 4 = 0 ∧ bits (oxOf (here streamLab) 3) 63 32 = 0 ∧
     bits (oxOf (here streamLab) 3) 15 0 + 4 * bits (oxOf (here streamLab) 3) 31 16 ≤ 0x6000 ∧
     bits (oxOf (here streamLab) 4) 63 32 < 3) := by
  refine ⟨?_, by decide +kernel, listAt_of (by decide +kernel), listAt_of (by decide +kernel), ?_, ?_, by decide +kernel⟩
  · unfold cleanCache; decide +kernel
  · intro i j h1 h2
    have : (i = 0 ∧ j = 1) ∨ (i = 0 ∧ j = 2) ∨ (i = 1 ∧ j = 2) := by simp at h2; omega
    rcases this with ⟨rfl, rfl⟩ | ⟨rfl, rfl⟩ | ⟨rfl, rfl⟩ <;> decide
  · intro i j h1 h2
    have : (i = 0 ∧ j = 1) ∨ (i = 0 ∧ j = 2) ∨ (i = 1 ∧ j = 2) := by simp at h2; omega
    rcases this with ⟨rfl, rfl⟩ | ⟨rfl, rfl⟩ | ⟨rfl, rfl⟩ <;> decide
/-- Sixteen keys of which one is active, to the last word of A and of S below the mailbox; bins of four records at page 1 and a bin
that holds one record to flush. -/
def oneKey (k : Nat) : Nat := (2 ^ 256 * 2 ^ 256 - 1) - (2 ^ 32 - 1) + k
def binLab : State :=
  lab fun c => vs [(4, oneKey 0)] (gs [(8, 0x10000)] (oxs [(2, 4 * 2 ^ 32 + 2 ^ 16)] c))
def flushLab : State :=
  let s := lab (oxs [(0, 0x11000), (1, 0x12000), (2, 4 * 2 ^ 32 + 2 ^ 16), (3, 1)])
  memPut (memPut (memPut s 0x212000 (toBytes 8 0x10000)) 0x210000 [1]) 0x210040 (toBytes 8 (7 * 2 ^ 32))
/-- The words that the flush reads: the area's address, its count, its record, and the word of the record's key. -/
def flushWords : List (Nat × W64 × Nat) := [(8, 0x12000, 0x10000), (4, 0x10000, 1), (8, 0x10040, 7 * 2 ^ 32), (4, 0x11000, 0)]
theorem words_of {s : State} {l : List (Nat × W64 × Nat)} (h : (l.all fun p => wordB s p.1 p.2.1 p.2.2) = true) :
    ∀ p, p ∈ l → wordAt s p.1 p.2.1 p.2.2 := fun p hp => wordAt_of (List.all_eq_true.1 h p hp)
theorem test_meets_KeyIndexedInstructions :
    (let s := lab fun c => vs [(4, oneKey 0), (5, oneKey 1)] (gs [(8, 0xFFFC), (9, 0x5FF8)] c)
     atomicsOut s = false ∧ s.ctx < 4 ∧ active s 4 = [0] ∧ keyOff s (reg s 8) 4 0 = 0xFFFC ∧ keyOff s (reg s 9) 5 0 = 0x5FFC ∧
     matrixBefore s 1 0xFFFC 4 = false ∧ spaceFails (hereCore s) 1 0xFFFC 4 = false ∧ matrixBefore s 3 0x5FFC 4 = false ∧
     spaceFails (hereCore s) 3 0x5FFC 4 = false) ∧
    (let s := lab fun c => vs [(4, oneKey 3)] (gs [(8, 0x10000)] c)
     active s 4 = [0] ∧ (arrives s .load 4 4 (siteAt 0 (reg s 8 + 12))).isSome = true ∧
     (readEach 4 s [(0, .phys 0x1000C 0x21000C sync1)]).isSome = true) ∧
    (let s := lab fun c => vs [(4, oneKey 0)] (gs [(8, 0x7FFC)] c)
     active s 4 ≠ [] ∧ bits (oxOf (here s) 0) 63 20 = 0 ∧ bits (oxOf (here s) 0) 15 14 = 0 ∧ (reg s 8).toNat % 4 = 0 ∧
     (reg s 8).toNat + 4 * (lane (vreg s 4) 32 0).toNat < 0x8000 ∧
     ((counterOf (here s) 0).expect + BitVec.ofNat 32 4 - (counterOf (here s) 0).done).toNat ≤ 2 ^ 31) ∧
    (cleanCache binLab ∧ (atomicsOut binLab = false ∧ active binLab 4 = [0] ∧ bits (oxOf (here binLab) 2) 47 32 = 4 ∧
     bits (oxOf (here binLab) 2) 4 0 = 0 ∧ bits (oxOf (here binLab) 2) 31 16 = 1 ∧ (reg binLab 8).toNat % 64 = 0) ∧
     wordAt binLab 4 0x10000 0 ∧ globalAt binLab .store 4 0x10000 0x210000 ∧ globalAt binLab .store 8 0x10040 0x210040) ∧
    (cleanCache flushLab ∧ (atomicsOut flushLab = false ∧ oxOf (here flushLab) 3 = 1 ∧ bits (oxOf (here flushLab) 2) 4 0 = 0) ∧
     (∀ p, p ∈ flushWords → wordAt flushLab p.1 p.2.1 p.2.2) ∧ globalAt flushLab .store 4 0x10000 0x210000 ∧
     globalAt flushLab .store 4 0x11000 0x211000 ∧ globalAt flushLab .load 4 0x11000 0x211000) := by
  refine ⟨?_, ?_, ?_, ⟨?_, ?_, wordAt_of ?_, globalAt_of ?_, globalAt_of ?_⟩, ?_, ?_, words_of ?_, globalAt_of ?_, globalAt_of ?_,
    globalAt_of ?_⟩ <;> first | decide +kernel | (unfold cleanCache; decide +kernel)
/-- A proposition for each of the 32 register numbers. -/
theorem all5 {P : BitVec 5 → Prop} (h : ∀ n, n < 32 → P (BitVec.ofNat 5 n)) : ∀ i, P i := fun i => by
  simpa using h i.toNat i.isLt
/-- Nothing of the context left to do. -/
theorem lab_over {s : State} (h : (here s).held = [] ∧
    flying s [.remoteAccessServe, .oneSidedReply, .queryResultLand, .scanSumLand, .amoApply, .amoReply, .alightWriteLand] = false ∧
    s.dies.any (fun p => p.2.wellQ.any fun q => isMine s q.who) = false ∧
    (getCluster s (clusterOf s.core)).jobs.any (fun j => isMine s j.who && jobLive j) = false ∧
    (getCluster s (clusterOf s.core)).ringQ.any (fun r => isMine s r.who) = false ∧
    (getCluster s (clusterOf s.core)).sfu.any (fun e => isMine s e.who) = false ∧
    (getCluster s (clusterOf s.core)).mtx.any (fun m => isMine s m.who) = false) : workOver s := h
/-- A core with `n` resident records, the oldest at place 60. -/
def dequeLab (n : Nat) (s : State) : State := onC (fun c => { c with deque := ⟨60, n, 0, 0, false, [], none, none, 0⟩ }) s
/-- A join record at 0x10040 on page 1, with COUNT and PARKED. -/
def joinRec (n : Nat) (count flags : Nat) : State :=
  memPut (dequeLab n (lab (gs [(8, 0x10040), (9, 0x101C0)]))) 0x210040 (toBytes 8 count ++ toBytes 8 flags)
/-- Strand instructions: deques of 0, 63 and 64; join records of COUNT 0, 1 and 2, with a strand parked and without; a place to
suspend to. -/
theorem test_meets_StrandInstructions :
    (∀ q, q ∈ [(0, 0, 0), (63, 1, 1), (64, 2, 0), (63, 2, 1)] →
      let s := joinRec q.1 q.2.1 q.2.2
      calmStrand s = true ∧ workOver s ∧ released s ∧ dequeHolds s q.1 ∧ (hereCore s).ovn = 0 ∧
      memWord s 0x210040 = BitVec.ofNat 64 q.2.1 ∧ (memWord s 0x210048).getLsbD 0 = decide (q.2.2 = 1)) ∧
    joinAt (joinRec 0 1 1) (reg (joinRec 0 1 1) 8) 0x210040 0x210080 ∧
    (let s := joinRec 0 0 0
     (reg s 9).toNat % 64 = 0 ∧ windowOf 0x101C0 = none ∧ leafHere s .store 0x101C0 = some sync1 ∧ leafFmt sync1.entry = 0 ∧
     (homeDie (leafPa sync1 0x101C0)).isSome = true ∧ admitOk s .write (.phys 0x101C0 (leafPa sync1 0x101C0) sync1) = true) := by
  refine ⟨?_, ?_, by decide +kernel⟩
  · unfold workOver released drained dequeHolds; decide +kernel
  · refine ⟨by decide +kernel, sync1, sync1, ?_, ?_, by decide +kernel⟩ <;> (unfold objectAt; decide +kernel)
/-- The queue engine: a core with one free context and one record; a thief of the domain and one outside; a reply with a record;
an expired wait of the current sequence and of an old one; an overflow record that can be read; banks that may power down. -/
def freeLab (s : State) : State := { onC (fun c => coreSetCtx c 0 { ctx0 with run := .free }) s with
  slotTab := [(0, ⟨true, 0, 0, 1, 1, 7, 0, 1, 0, 0⟩)] }
theorem test_meets_QueueEngine :
    (let s := on (freeLab (dequeLab 1 (lab id))) (.num 0 0 0)
     freeCtxs s 0 = [0] ∧ (getCore s 0).deque.rCount = 0 + 1 ∧ (getCore s 0).deque.oCount = 0 ∧ (getCore s 0).deque.resv = false ∧
     (getCore s 0).deque.hold = none ∧ (getCore s 0).deque.waits = [] ∧ (getCore s 0).deque.carry = none ∧ (le8 (place (getCore s 0) 60)).getLsbD 0 = false) ∧
    (let s := on (setCore (dequeLab 1 (lab id)) 9 (coreSetCtx Core.reset 4 { ctx0 with run := .free })) (.num 0 9 0)
     inDomain s 0 (coreLaunch s 9).dom = true ∧ inDomain s 0 (coreLaunch s 8).dom = false ∧ (getCore s 0).deque.rCount = 0 + 1) ∧
    (let s := on (freeLab (lab id)) (.record 0 (some 0x200))
     freeCtxs s 0 = [0] ∧ (getCore s 0).powered = true ∧ (getCore s 0).upAt ≤ now s ∧ (lane (0x200 : V512) 64 0).getLsbD 0 = false) ∧
    (let s := on (onC (fun c => { c with steal := some ⟨4, 1, 0⟩, lfsr := 0x8003 }) (freeLab (lab id))) (.num 0 4 1)
     (getCtx s 0 0).run = .free ∧ (getCtx s 0 0).bound = true ∧
     (getCore s 0).steal = some ⟨4, 1, 0⟩ ∧ (getCore s 0).steal ≠ some ⟨3, 1, 0⟩ ∧
     ((0x8003 >>> 1) ^^^ 0xB400 : BitVec 16).toNat % 8 ≠ 0 % 8) ∧
    (let s := on (onC (fun c => coreSetCtx { c with
        ovfl := 0x10000, ovn := 4, ltag := 7, deque := ⟨0, 63, 3, 1, false, [], none, none, 0⟩ } 4 { ctx0 with run := .free }) (lab id)) (.num 0 0 0)
     canMigrate (getCore s 0).deque = true ∧ (getCore s 0).deque.busy ≠ now s + 1 ∧
     (match takeOldestOverflow 0 s with
      | .ok (some _) u => let d := (getCore u 0).deque
        !d.resv && d.waits.isEmpty && d.carry.isNone && decide (d.rCount < 64)
      | _ => false) = true) ∧
    (mayPowerDown (onC (fun c => coreSetCtx c 0 Ctx.reset) (lab id)) 0 = true ∧ mayPowerDown (lab id) 0 = false) := by
  decide +kernel
/-- Doublewords to load and to store at a page's end; no matrix instruction of the core; nothing parked. -/
theorem test_meets_OperandExtensionAndSystemRegisters :
    (arrives (lab (gs [(8, 0x1FFF8)])) .load 8 8 (siteAt 0 (reg (lab (gs [(8, 0x1FFF8)])) 8 + (0 : BitVec 12).signExtend 64)) =
      some (.phys 0x1FFF8 0x21FFF8 sync1) ∧ readable (lab id) 8 (.phys 0x1FFF8 0x21FFF8 sync1) = true ∧
     writable (lab id) 8 (.phys 0x1FFF8 0x21FFF8 sync1) = true) ∧
    (arrives (lab (gs [(8, 0x1FFF8)])) .store 8 8 (siteAt 0 (reg (lab (gs [(8, 0x1FFF8)])) 8 + (0 : BitVec 12).signExtend 64))).isSome = true ∧
    (hereCore (lab id)).parked = [] ∧ (getCluster (lab id) 0).mtx.any (fun m => m.who.core.toNat = (lab id).core) = false ∧
    (let s := on (onC (fun c => { c with cfree := 0x80000000 }) (lab id)) (.word 0 0 0)
     (getCore s 0).cfree.getLsbD (32767 / 1024) = true ∧ (0 : W64).getLsbD (32767 / 1024) = false) := by decide +kernel
/-- Contexts with a handler, without one and in it; causes at the edges; pending traps; ERET to an even address; the handler. -/
def trapLab : State :=
  lab fun c => { gs [(8, 1), (9, 0x12), (10, 0x13), (11, 0x0F)] c with trapVec := 0x80, pending := [(0x0A, 3), (0x0C, 4)] }
theorem test_meets_TrapsAreTakenAndLeft :
    (let s := trapLab
     canTrap s 0 0 ∧ 1 ≤ (reg s 8).toNat ∧ (reg s 9).toNat ≤ 0x12 ∧ reg s 9 ≠ 0x0F ∧ 0x12 < (reg s 10).toNat ∧ reg s 11 = 0x0F ∧
     (here s).pending = [(0x0A, 3), (0x0C, 4)]) ∧
    (let s := lab fun c => { c with trapVec := 0x80, trapMode := true, trapPc := 0x200 }
     (here s).trapMode = true ∧ (here s).trapPc.getLsbD 0 = false) ∧
    (let s := lab fun c => { c with trapVec := 0x80, midway := true, pending := [(0x0A, 3)] }
     calm s = true ∧ (here s).trapVec ≠ 0 ∧ (here s).trapMode = false ∧ (here s).midway = true ∧ (here s).pending = [(0x0A, 3)]) ∧
    ((here (lab id)).trapVec = 0) ∧
    (let s := { onC (fun c => coreSetCtx c 4 { ctx0 with trapVec := 0x80 }) (lab id) with ctx := 4 }
     calm s = true ∧ canTrap s 0 4) := by
  unfold canTrap; decide +kernel
theorem test_meets_TrapsAreTakenAndLeft_lowest : ((0x0A, 3) : BitVec 8 × W64) ∈ (here trapLab).pending ∧
    ∀ p, p ∈ (here trapLab).pending → p ≠ (0x0A, 3) → (0x0A : BitVec 8).toNat < p.1.toNat := by
  have h : (here trapLab).pending = [(0x0A, 3), (0x0C, 4)] := by decide +kernel
  rw [h]
  simp
/-- The mailbox ready; a board that fits at page 0's frame, with 0 and with 64 registered, and one misaligned; a launch to kill, to
pre-empt and to resume, alone and beside another on its cluster; free and used peer entries and regions, good and bad. -/
def cmdLab (s : State) : State := { s with link := 16 }
def boardLab : State := memPut (cmdLab (lab id)) 0x200000 (toBytes 8 (2 ^ 32 + 4))
theorem test_meets_cmdReady : cmdReady (cmdLab (lab id)) := by unfold cmdReady; decide +kernel
theorem test_meets_boardFits : boardFits boardLab 0x200000 := by
  refine ⟨?_, ?_, ?_, ⟨2, ?_⟩, ?_, ?_, ?_, ?_, ?_, ?_, ?_⟩ <;> decide +kernel
theorem test_meets_noGangs : noGangs (lab id) := by
  intro core x
  by_cases h : core = 0
  · subst h
    by_cases hx : x < 5
    · have : ∀ x, x < 5 → (getCtx (lab id) 0 x).gangSize = 0 ∧ (getCtx (lab id) 0 x).run ≠ .follower := by decide +kernel
      exact this x hx
    · have : (getCtx (lab id) 0 x) = Ctx.reset := by
        unfold getCtx coreCtx
        rw [Vector.getElem?_eq_none (by omega)]; rfl
      rw [this]; exact ⟨rfl, by decide⟩
  · have : getCore (lab id) core = Core.reset := by
      simp [getCore, lab, tabGet, Ne.symm h]
    have h2 : getCtx (lab id) core x = Ctx.reset := by
      unfold getCtx coreCtx
      rw [this]
      by_cases hx : x < 5
      · simp [Core.reset, hx]
      · rw [Vector.getElem?_eq_none (by omega)]; rfl
    rw [h2]; exact ⟨rfl, by decide⟩
def launch2 : Launch := { launch1 with dom := 2, words := (List.replicate 32 0).set 1 8, wells := [] }
theorem test_meets_MailboxCommands_boards : (cmdLab (lab id)).recovery = false ∧ { cmdLab (lab id) with recovery := true }.recovery = true ∧
    (∀ j, j < 64 → ∃ b, b ∈ (List.range 64).map (fun n => (⟨n, 0, 1, 4, 0, false⟩ : Board)) ∧ b.num = j) ∧ 0x200080 % 256 ≠ 0 := by
  decide +kernel
theorem test_meets_MailboxCommands_running :
    launchOfTag (run1 (cmdLab (lab id))) 7 = some launch1 ∧ launchOfTag (run1 (cmdLab (lab id))) 8 = none ∧ 0x40000 % 65536 = 0 ∧
    0x40080 % 65536 ≠ 0 ∧ launch1.phase = .running := by decide +kernel
def saved1 : Launch := { launch1 with phase := .preempted }
def resumeLab (ls : List Launch) : State := { cmdLab (lab id) with launches := saved1 :: ls }
theorem test_meets_MailboxCommands_resume :
    launchOfTag (resumeLab []) 7 = some saved1 ∧ saved1.phase = .preempted ∧
    othersHold (resumeLab [launch2]) saved1 ∧ ¬ othersHold (resumeLab []) saved1 ∧ quietCores (resumeLab []) saved1 ∧
    launchOf { resumeLab [] with cmd := some (.resume 1 0x400000) } (BitVec.ofNat 12 1) = some saved1 ∧ (resumeLab []).cmds = [] := by
  unfold othersHold quietCores; decide +kernel
theorem test_meets_MailboxCommands_entries :
    (badPeerEntry 0 = false ∧ badPeerEntry 0x1000000 = true ∧ peerUsed (lab id) 7 1023 = false ∧
     peerUsed (onCl (fun c => { c with jobs := [{ jobBase with peer := some 1023 }] }) (lab id)) 0 1023 = true) ∧
    (badRegion 0 = false ∧ badRegion 0x1000000 = true ∧ (255, 0, []) ∈ (getDie (onD (fun d => { d with chunks := [(255, 0, [])] }) (lab id)) 0).chunks) := by
  decide +kernel
def rec1 (act : BitVec 2) : BindRec := ⟨true, act, 0, 1, 1, 7, 0, 1, 0, 0⟩
def pauseLab (t : Tab BindRec) : State := { run1 (lab id) with cmd := some (.preempt 1 0x400000 false), slotTab := t }
theorem test_meets_MailboxCommands_preempt :
    (pauseLab []).cmds = [] ∧ launchOf (pauseLab []) (BitVec.ofNat 12 1) = some launch1 ∧ boundSlots (pauseLab []) launch1 = [] ∧
    boundSlots (pauseLab [(0, rec1 0)]) launch1 ≠ [] ∧
    (∀ p, p ∈ boundSlots (pauseLab [(0, rec1 0)]) launch1 → (bindAt (pauseLab [(0, rec1 0)]) p.1 p.2).act ≠ 3) ∧
    quietCores (pauseLab []) launch1 ∧ quietCores (pauseLab [(0, rec1 0)]) launch1 ∧ tableAdmits (pauseLab []) 6 0 2 0 .write = true := by
  unfold quietCores; decide +kernel
def restoreLab : State := { run1 (lab id) with
  cmd := some (.resume 1 0x400000), slotTab := (List.range 32).map fun i => (i, rec1 0) }
theorem test_meets_MailboxCommands_restored :
    ∀ core, core ∈ launch1.cores → ∀ x, x < 4 → (bindAt restoreLab core x).v = true ∧ (bindAt restoreLab core x).act ≠ 3 := by decide +kernel
/-- A record of one cluster at slot 1 of a board at 0x20_0000 whose completion goes to page 1: its number is next and is not, its
geometry is current and is not. -/
def recWords : List Nat := [1, 9, 1, 2 ^ 32, 0x10000] ++ List.replicate 27 0
def board3 : Board := ⟨3, 0x200000, 1, 4, 0, false⟩
def takeLab (seq geo : Nat) : State :=
  let s := memPut (mapped (lab id)) (0x200000 + 512) ((((recWords.set 0 seq).set 3 (geo * 2 ^ 32))).flatMap (toBytes 8))
  on { s with boards := [board3], locked := (List.range 64).filter isTarget } (.num 3 0 0)
theorem test_meets_recordFits : recordFits fun i => memWord (takeLab 1 1) (0x200000 + 256 * (1 + (0 + 1) % 4) + 8 * i) := by
  have : ∀ i, i < 32 → 19 ≤ i → memWord (takeLab 1 1) (0x200000 + 256 * (1 + (0 + 1) % 4) + 8 * i) = 0 := by decide +kernel
  unfold recordFits
  and_intros <;> first | exact fun i h1 h2 => this i h2 h1 | decide +kernel
theorem test_meets_crecAt : crecAt (memPut (takeLab 1 1) 0x200008 (toBytes 8 1)) 1 (memWord (takeLab 1 1) (0x200200 + 32)) 0x210000 := by
  refine ⟨?_, ?_, ?_, ?_, sync1, ?_⟩ <;> decide +kernel
theorem test_meets_LaunchesAreTaken :
    (let s := takeLab 1 1
     s.boards.find? (·.num = 3) = some board3 ∧ board3.leaving = false ∧ mayTake s board3 = true ∧ 0 < board3.nslot ∧
     memWord (memPut s 0x200008 (toBytes 8 1)) 0x200300 ≠ BitVec.ofNat 64 (0 + 2) ∧ memWord s 0x200200 = BitVec.ofNat 64 (0 + 1) ∧
     (∀ i, i < 4 → badAt s (0x200200 + 64 * i) = false) ∧ (memWord s (0x200200 + 24)).extractLsb' 32 32 = s.geo) ∧
    memWord (takeLab 2 1) 0x200200 ≠ BitVec.ofNat 64 (0 + 1) ∧ (memWord (takeLab 1 2) (0x200200 + 24)).extractLsb' 32 32 ≠ (takeLab 1 2).geo := by
  decide +kernel
theorem test_meets_placeable : placeable (takeLab 1 1) fun i => memWord (takeLab 1 1) (0x200200 + 8 * i) := by
  refine ⟨?_, ?_, fun h => absurd h (by decide +kernel), fun h => absurd h (by decide +kernel)⟩
  · have : bits (memWord (takeLab 1 1) (0x200200 + 8 * 3)) 30 16 = 0 := by decide +kernel
    simp only [this, Nat.zero_le]
  · intro _; decide +kernel
/-- A waiting launch of cluster 0, wells none, at the head of board 3; a bound one whose contexts are all bound; bind records for
another launch and for the context's own, with ACT 0 and 1; the slot table open. -/
def wait1 : Launch := ⟨3, 1, recWords.map (BitVec.ofNat 64), .waiting, [], [], 0, 0, 0, 0, none, [], []⟩
def bindLab : State := { mapped (lab id) with launches := [wait1] }
theorem test_meets_nextHead : (nextHead bindLab).isSome = true := by decide +kernel
theorem test_meets_MailboxCommands_kill : launchOfTag (cmdLab bindLab) 9 = none ∧
    (cmdLab bindLab).launches.find? (fun l => l.ltag.toNat = 9 && l.phase = .waiting) = some wait1 := by decide +kernel
/-- Its completion record has a place, nothing refuses it, and no core of the package has anything in its mailbox. -/
theorem test_meets_headWaits : (∀ n, n < 64 → ∀ h, boardHead bindLab n = some h → h = wait1) ∧ crecAt bindLab wait1.asid wait1.crec 0x210000 ∧
    recordStatus bindLab wait1 true = 0 ∧ ∀ core, mailIdle bindLab core = true := by
  refine ⟨?_, ?_, by decide +kernel, fun core => ?_⟩
  · have : ∀ n, n < 64 → boardHead bindLab n = none ∨ boardHead bindLab n = some wait1 := by decide +kernel
    intro n hn h he
    rcases this n hn with h1 | h1 <;> rw [h1] at he <;> cases he
    rfl
  · refine ⟨?_, ?_, ?_, ?_, sync1, ?_⟩ <;> decide +kernel
  · by_cases h : core = 0
    · subst h; decide +kernel
    · have hc : getCore bindLab core = Core.reset := by
        have hk : ∃ k, bindLab.cores = [(0, k)] := ⟨_, by with_unfolding_all rfl⟩
        obtain ⟨k, hk⟩ := hk
        simp [getCore, hk, tabGet, Ne.symm h]
      simp only [mailIdle, getCtx, hc]
      rfl
def eight : State := { lab id with
  cores := (List.range 8).map fun n => (n, { Core.reset with ctxs := Vector.replicate 5 { ctx0 with run := .free } }),
  launches := [{ launch1 with phase := .bound }] }
theorem test_meets_LaunchesAreBound :
    (∀ o, o ∈ bindLab.launches → o.phase ≠ .done) ∧ bindLab.recovery = false ∧ (∀ d, d ∈ bindLab.dies → d.2.fencedCh = 0) ∧
    (launchOf { eight with launches := [{ launch1 with phase := .bound, kill := some (0x0F, 0, 0, 0) }] } 1).isSome = true ∧
    (launchOf eight 1 = some { launch1 with phase := .bound } ∧
     (∀ core, core ∈ launch1.cores → ∀ x, x < 4 → (getCtx eight core x).bound = true ∧ (getCtx eight core x).dom = 1)) ∧
    (let b : BindRec := ⟨true, 0, 0, 2, 1, 9, 0, 1, 0, 0⟩
     let s := on { lab id with slotTab := [(3, b)], launches := [{ launch2 with phase := .bound }] } (.num 0 3 0)
     bindAt s 0 3 = b ∧ (launchOf s b.dom).map (·.kept) = some [] ∧ (getCtx s 0 4).dom ≠ b.dom ∧
     (∀ y, y < 4 → (getCtx s 0 y).bound = true → (getCtx s 0 y).dom ≠ b.dom) ∧ (getCtx s 0 3).bound = false ∧ clusterFenced s 0 = false ∧ (getDie s 0).dir.length ≤ 16384 ∧
     (bindAt s 0 2).v = false) ∧
    (let s := on (freeLab (lab id)) (.num 0 0 0)
     (bindAt s 0 0).v = true ∧ (bindAt s 0 0).act = 0 ∧ (getCtx s 0 0).bound = true ∧ (getCtx s 0 0).ltag = (bindAt s 0 0).ltag) ∧
    (let s := on { run1 (freeLab (lab id)) with slotTab := [(0, ⟨true, 1, 0, 1, 1, 7, 0, 1, 0, 0⟩)] } (.num 0 0 0)
     (bindAt s 0 0).act = 1 ∧ (getCtx s 0 0).run = .free ∧ launchOf s 1 = some launch1 ∧ launch1.kill = none ∧
     clusterFenced s 0 = false ∧ (launch1.word 8).getLsbD 0 = false ∧
     ((launchOf { s with launches := [{ launch1 with kill := some (0x0F, 0, 0, 0) }] } 1).map fun l => l.kill.isSome) = some true) := by
  decide +kernel
theorem test_meets_slotOpen : slotOpen (lab id) 0 0 ∧ slotOpen (lab id) 7 3 := by unfold slotOpen; decide +kernel
/-- Launches with work left and without, finishing with and without reductions left, a done record to clear. -/
def idleLab (p : Phase) : State := on { freeLab (lab id) with launches := [{ launch1 with phase := p }] } (.num 1 0 0)
theorem test_meets_LaunchesCompleteAndLeave :
    (launchOf (idleLab .running) 1 = some launch1 ∧ launchIdle (idleLab .running) launch1 = true ∧
     launchIdle (run1 (lab id)) launch1 = false) ∧
    (let l := { launch1 with phase := .finishing }
     launchOf (idleLab .finishing) 1 = some l ∧ reductionsLeft (idleLab .finishing) l = false ∧
     (∀ cl, cl ∈ l.clusters → ∀ q, q ∈ (getCluster (idleLab .finishing) cl).cache → q.dirty = 0)) ∧
    (let s := on { freeLab (lab id) with slotTab := [(0, ⟨true, 2, 0, 1, 1, 7, 0, 1, 0, 0⟩)] } (.num 0 0 0)
     (bindAt s 0 0).v = true ∧ (bindAt s 0 0).act = 2 ∧ (getCtx s 0 0).run = .free ∧ (bindAt s 0 1).v = false) := by decide +kernel
/-- A bind record of ACT 3 whose word 2 names the image at 0x40_0000 and whose word 3 is the operation. -/
def opRec (op : Nat) : BindRec := ⟨true, 3, 0, 1, 1, 7, 0, 1, 0x400000, BitVec.ofNat 64 op⟩
def opLab (op : Nat) (s : State) : State := on { s with slotTab := [(0, opRec op)] } (.num 0 0 0)
/-- The same with the cycles that parking has counted. -/
def opLabAt (op p : Nat) (s : State) : State := { opLab op s with arg := .num 0 0 p }
/-- A core whose first `n` contexts run, with columns of C withheld. -/
def busyLab (n : Nat) (cols : BitVec 32) : State :=
  onC (fun c => { c with ctxs := Vector.ofFn fun i => if i.val < n then ctx0 else { ctx0 with run := .free }, cfree := cols }) (lab id)
/-- A saved context and its image in memory: the header's words 0 and 1 with DONE, and its PC; every register is zero. -/
def saved0 : Saved := ⟨0, 0, 5, 0x400000, ctx0, true, false, false, false, false, [], [], [], []⟩
def savedParked : Saved := { saved0 with parked := true }
def imageLab (w1 : Nat) (e : Saved) (s : State) : State :=
  onD (fun d => { d with dir := [e] }) (memPut (memPut (memPut s 0x400000 (toBytes 8 (2 ^ 48 + 7))) 0x400008
    (toBytes 8 (w1 + 5 * 2 ^ 23))) 0x4009C0 (toBytes 8 0x100))
/-- A save, with LOCAL and without, with the buffers still and not; operations 0 and with a reserved bit; kills of a resident
context and of an image. -/
theorem test_meets_ContextsAreSaved :
    (∀ q, q ∈ [0, 1, 5, 17, 2, 3] → let s := opLab q (lab id)
     bindAt s 0 0 = opRec q ∧ (opRec q).v = true ∧ (opRec q).act = 3 ∧ (getCtx s 0 0).gangSize = 0 ∧ (getCtx s 0 0).run ≠ .follower ∧
     (getCtx s 0 0).bound = true ∧ imageOk s 0 0x400000 = true ∧ buffersStill s 0 = true ∧ (getDie s 0).dir.length < 16384 ∧
     (getDie s 0).dir.find? (fun e => e.image = 0x400000) = none ∧ (getCtx s 0 0).leaving = false ∧ parkPlace s 0 0 = none) ∧
    (getCtx (lab fun c => { c with leaving := true }) 0 0).leaving = true ∧ parkPlace (busyLab 4 0) 0 0 = some none ∧
    (parkPlace (busyLab 5 0xE0000000) 0 0 = some (some [29, 30, 31]) ∧ portBusy (getCore (busyLab 5 0xE0000000) 0) spC 1000 = false ∧
     imageOk (opLabAt 1 10 (busyLab 5 0xE0000000)) 0 0x400000 = true) ∧
    (bits (opRec 1).wmap 1 0 = 1 ∧ bits (opRec 1).wmap 63 4 = 0 ∧ (opRec 5).wmap.getLsbD 2 = true ∧ bits (opRec 0).wmap 1 0 = 0 ∧
     bits (opRec 17).wmap 63 4 ≠ 0 ∧ bits (opRec 3).wmap 1 0 = 3) ∧
    buffersStill (onCl (fun c => { c with mtx := [⟨4, who0, .mma, 0, 0, none, 0, [], false, 0, false, true, [], WSlot.reset, 0⟩] }) (lab id)) 0 = false := by
  decide +kernel
theorem test_meets_ContextsAreSaved_full :
    (getDie (onD (fun d => { d with dir := List.replicate 16384 saved0 }) (opLab 1 (lab id))) 0).dir.length = 16384 := by
  decide +kernel
/-- A core bound to nothing, and one whose context 1 is bound to the domain of the image. -/
def restLab (second : Bool) (s : State) : State :=
  onC (fun c => if second then coreSetCtx c 1 { ctx0 with run := .free } else c) s
/-- Restores of a whole image with its registers in it, parked in a bank and in columns, of one without DONE and of a killed one. -/
theorem test_meets_ContextsAreRestored :
    ∀ e, e ∈ [saved0, savedParked] →
    let s := opLabAt 2 (if e.parked then 100 else 0) (restLab e.parked (imageLab (2 ^ 63 + if e.parked then 2 ^ 56 else 0) e
      (lab fun c => { c with bound := false, run := .free })))
    (getDie s 0).dir.find? (fun e => e.image = 0x400000) = some e ∧ e.image = 0x400000 ∧
    header s 0x400000 63 = true ∧ header s 0x400000 62 = false ∧ e.core = 0 ∧ e.ctx = 0 ∧
    e.inst = (memWord s 0x400008).extractLsb' 23 16 ∧
    (∀ o, o ∈ (getDie s 0).dir → o.core = 0 → o.ctxt.ltag = e.ctxt.ltag → o.barm = true → o.image = 0x400000) ∧
    (inDomain s 0 1 = true ∨ (e.parked = false ∧ (getCore s 0).parked = [] ∧ ∀ o, o ∈ (getDie s 0).dir → o.ctxt.dom ≠ (getCtx s 0 4).dom)) ∧
    restoreRefused s 0 0 (opRec 2) e = false ∧ parkedCols s e = none ∧
    parkedCols (onC (fun c => { c with parked := [⟨0, 5, some [29, 30, 31]⟩] }) s) savedParked = some [29, 30, 31] ∧
    portBusy (getCore s 0) spC (now s) = false ∧ (getCore s 0).badC = [] ∧
    (∀ i, i < 59 → badAt s (0x400000 + 64 * i) = false) ∧ e.ctxt.pending = [] ∧
    header (imageLab 0 e (lab id)) 0x400000 63 = false ∧ header (imageLab (2 ^ 62) e (lab id)) 0x400000 62 = true := by
  decide +kernel
theorem test_meets_imageHolds (e : Saved) (h : e ∈ [saved0, savedParked]) :
    imageHolds (opLab 2 (imageLab (2 ^ 63 + if e.parked then 2 ^ 56 else 0) e (lab id))) 0x400000
      { e.ctxt with ltag := 7, inst := e.inst } 0 0 e.parked := by
  simp only [List.mem_cons, List.not_mem_nil, or_false] at h
  rcases h with rfl | rfl
  · unfold imageHolds
    and_intros <;> first | exact fun _ => all5 (by decide +kernel) | decide +kernel
  · unfold imageHolds
    and_intros <;> first | exact fun h => absurd h (by decide) | decide +kernel
/-- Kills: a running context with no image; an image alone in the directory whose context has nothing held and no slot. -/
theorem test_meets_ContextsAreKilled :
    (let s := opLab 3 (lab id)
     (getCtx s 0 0).bound = true ∧ (getCtx s 0 0).run ≠ .free ∧ (getDie s 0).dir.find? (fun e => e.image = 0x400000) = none ∧
     (∀ m, m ∈ (run1 s).launches → m.ltag = 7 ∧ m.kill = none ∧ m.phase ≠ .waiting ∧ m.phase ≠ .done)) ∧
    (let s := opLab 3 (imageLab (2 ^ 63) saved0 (lab id))
     (getDie s 0).dir = [saved0] ∧ saved0.core = 0 ∧ imageOk s 0 0x400000 = true ∧ saved0.ctxt.held = [] ∧ (∀ r, r ∈ s.ring → r.2.tag = 0)) := by decide +kernel

/-- Receive region 3 of endpoint 0: job 9, address space 1, chunks of 4,096 bytes, at page 1, its flags at 0x1F000 there. -/
def region0 : BitVec 256 := BitVec.ofNat 256
  (2 ^ 63 + 12 * 2 ^ 56 + 2 ^ 32 + 9 + 0x10000 * 2 ^ 64 + 0xE000 * 2 ^ 128 + 0x1F000 * 2 ^ 192)
/-- A packet of `n` bytes for the region's offset 0x1000, of a job of cluster 0. -/
def packet0 (kind : PacketKind) (n : Nat) : Packet := ⟨0, 2, kind, 9, 3, 0x1000, List.replicate n 7, n, 0, 0, 9, 0, 1, 0, 0, 0, 4⟩
def netLab (have_ : List (Nat × Nat)) (p : Packet) : State :=
  on (onD (fun d => { d with regions := [(3, region0)], chunks := [(3, 1, have_)] }) (mapped (lab id))) (.packet p false)
theorem reaches_page1 {s : State} {die : Nat} {asid : BitVec 16} {addr : Nat} {p : Perm} {pa : Nat}
    (h : windowOf (BitVec.ofNat 56 addr) = none ∧ walk s asid (BitVec.ofNat 56 addr) = .leaf sync1 ∧ leafW sync1.entry = true ∧
      leafFmt sync1.entry = 0 ∧ pa = leafPa sync1 (BitVec.ofNat 56 addr) ∧ served s pa = true ∧ admits s 4 asid.toNat p pa die = true) :
    reaches s die asid addr p pa := ⟨h.1, sync1, h.2.1, .inr h.2.2.1, h.2.2.2⟩
theorem test_meets_matchesRegion (p : Perm) : matchesRegion (netLab [] (packet0 .write 64)) (packet0 .write 64) region0 p 0x211000 := by
  refine ⟨by decide, by decide +kernel, by decide +kernel, by decide, by decide, by decide, by decide, by decide, by decide, by decide, reaches_page1 ?_⟩
  cases p <;> decide +kernel
/-- A first piece of a chunk and its last one, whose flag is in memory; regions that do not match; an endpoint fenced. -/
theorem test_meets_PacketsAtAnEndpoint :
    (∀ q, q ∈ [([], 64), ([(0x1040, 4032)], 64)] → let p := packet0 .write q.2
     let s := netLab q.1 p
     placed s 0 3 1 = q.1 ∧ p.data.length = p.count ∧ p.offset / chunkSize region0 = 1 ∧ p.offset % chunkSize region0 + p.count ≤ chunkSize region0 ∧
     (((addRange q.1 0x1000 q.2).map (·.2)).sum = chunkSize region0 ↔ q ≠ ([], 64)) ∧ regionFlags region0 + 8 * 1 = 0x1F008 ∧
     (homeDie 0x21F008).isSome = true ∧ badAt (memPut s 0x211000 (p.data.take q.2)) 0x21F008 = false ∧ 0x211000 + p.count ≤ 0x21F008 ∧
     (∀ c, c ∈ s.clusters → ∀ j, j ∈ c.2.jobs → j.chunks = []) ∧ ∀ k, k < 64 → badAt s (0x211000 + k) = false) ∧
    apart [(0x1040, 64), (0x1000, 32)] ∧
    (let s := netLab [] (packet0 .write 64)
     endpointUp (onD (fun d => { d with epFenced := true }) s) 0 = false ∧ regionValid (tabGet 0 (getDie s 0).regions 4) = false ∧
     regionLen region0 < 0xE000 + 64 ∧ (getDie s 0).linkUp = true ∧ (getDie (onD (fun d => { d with linkUp := false }) s) 0).linkUp = false) := by
  unfold apart; decide +kernel
/-- The four events of the network, at the first endpoint and at the last. -/
theorem test_meets_PacketsAtAnEndpoint_events :
    (∀ ep, ep ∈ [0, 7] → let p := { packet0 .write 64 with ep := ep }
     let s := on (netLab [] p) (.packet p false)
     s.arg = .packet p false ∧ p.ep < 8 ∧ goes (exec .packetReceive s) = true ∧ goes (exec .peerReadRequest s) = true) ∧
    (∀ die, die ∈ [0, 7] → let s := on (lab id) (.num die 0 0)
     s.arg = .num die 0 0 ∧ die < 8 ∧ goes (exec .endpointLinkDown s) = true ∧ goes (exec .endpointLinkUp s) = true) := by decide +kernel
theorem test_meets_reaches_flag : reaches (memPut (netLab [(0x1040, 4032)] (packet0 .write 64)) 0x211000 (List.replicate 64 7)) 0
    (regionAsid region0) (regionFlags region0 + 8 * 1) .sync 0x21F008 := reaches_page1 (by decide +kernel)
/-- Peer jobs, a CP.PUT and a CP.GET, with their first piece sent and unanswered, issuing and not; a lost chunk of a group of
two members. -/
def peerJob (kind : CpKind) : Job := { jobBase with kind := kind, peer := some 2, flying := [⟨0, 64, 0, 0, 0, 0, ⟨0, 0⟩, ⟨0, 0⟩, false, true, 0⟩] }
def peerLab (kind : CpKind) (a : EvArg) : State :=
  on (onD (fun d => { d with peers := [(2, BitVec.ofNat 256 (2 ^ 63 + 2 ^ 61 + 12 * 2 ^ 56 + 2 ^ 49 + 2 * 2 ^ 42 + 9 + 3 * 2 ^ 192))] })
    (onCl (fun c => { c with jobs := [peerJob kind] }) (netLab [] (packet0 .write 64)))) a
theorem test_meets_PeerJobs :
    ∀ kind, kind ∈ [CpKind.put, .get] → let p := packet0 (.ack false) 64
    let s := { peerLab kind (.packet p false) with sent := [p] }
    let j := peerJob kind
    jobOf s 0 9 = some j ∧ j.live = true ∧ (j.flying.find? (·.pos = p.piece)).isSome = true ∧ j.stopping = false ∧ j.issuing = false ∧
    resident s j.who = true ∧ j.who.ctx.toNat < 5 ∧ j.kind = kind ∧ j.loc = .bufA ∧ j.fmt = 0 ∧ j.swz = false ∧ 0 < j.rowLen ∧
    0 % j.rowLen + 64 ≤ j.rowLen ∧ p.data.length = 64 ∧ (getCore s 0).powered = true ∧ p ∈ s.sent ∧
    (now s < p.sentAt + 67108864 ∧ p.sentAt + 67108864 ≤ now { s with cyc := 67108864 }) := by decide +kernel
theorem test_meets_Reductions :
    let p := packet0 .reduce 64
    let s := peerLab .red (.lost p [p.data, p.data])
    jobOf s 0 9 = some (peerJob .red) ∧ (peerJob .red).live = true ∧ p.count ≤ 4096 ∧
    bits (entryWord (peerEntry s 0 2) 0) 48 42 = 2 ∧ bits (entryWord (peerEntry s 0 2) 0) 55 49 = 1 ∧
    (localData s (peerJob .red) (Piece.of p.piece p.count 0 0 0)).length = p.count ∧ (peerJob .red).rtype ≠ 3 ∧
    p.count % 4 = 0 ∧ p.data.length = p.count ∧ p.offset % chunkSize region0 + p.count ≤ chunkSize region0 ∧
    ((addRange (placed s 0 3 1) p.offset p.count).map (·.2)).sum ≠ chunkSize region0 := by decide +kernel
theorem test_meets_Reductions_region :
    matchesRegion (peerLab .red (.lost (packet0 .reduce 64) [])) (packet0 .reduce 64) region0 .write 0x211000 :=
  ⟨by decide, by decide +kernel, by decide +kernel, by decide, by decide, by decide, by decide, by decide, by decide, by decide,
    reaches_page1 (by decide +kernel)⟩
/-- CXL offered with both decoders set: addresses at the ends of the first tier, in the second and in none; lines admitted, not
served and in error. -/
def hostLab : State := { lab id with
  link := 16, hdm0 := 0x10000000000, hdm1 := 0x40000000000, hdmOn := 3, badLines := [0x210000 / 64] }
theorem test_meets_HostAccessesAndLink :
    offered hostLab ∧ hostReaches hostLab 0x10000220000 0x220000 ∧ hostReaches hostLab 0x40000000000 0x20000000000 ∧
    (¬ ∃ pa, hostReaches hostLab 0x100 pa) ∧
    (served hostLab 0x220000 = true ∧ ∀ p, p ∈ [Perm.read, .write] → admits hostLab 3 0 p 0x220000 0 = true ∧
      admits { hostLab with access := [] } 3 0 p 0x220000 0 = false) ∧
    (badAt hostLab 0x220000 = false ∧ badAt hostLab 0x210000 = true) := by
  refine ⟨⟨by decide, by decide⟩, .inl ?_, .inr ?_, ?_, by decide +kernel⟩
  · decide
  · decide
  · rintro ⟨pa, ⟨_, h1, h2, _⟩ | ⟨_, _, h1, h2, _⟩⟩ <;> revert h1 h2 <;> decide
/-- The link up and down; slots 0 and 1, operations 0, 2, 4, 5 and all. -/
theorem test_meets_AttestationAnswers : hostLab.link ≠ 0 ∧ (lab id).link = 0 ∧ (0xFF : Nat) ≠ 0 ∧ (5 : Nat) ≠ 0xFF ∧ (4 : Nat).testBit 2 = true := by
  decide +kernel
/-- Lines with and without an error; a channel with fifteen recent errors; a channel with a request queued and without. -/
theorem test_meets_ScrubbingPowerAndReset :
    ((homeDie 0x210000).isSome = true ∧ badAt hostLab 0x210000 = true ∧ badAt (lab id) 0x210000 = false ∧ 0x210000 < 0x8000000000 ∧
     engineErrorAt hostLab 0x210000 = none ∧ engineErrorAt (onD (fun d => { d with engineBad := [0x210000 / 64] }) hostLab) 0x210000 = some 0) ∧
    ((∀ q, q ∈ (getDie (lab id) 0).wellQ → q.well % 2048 / 64 ≠ 0) ∧
     (∃ q, q ∈ (getDie (atWell (.ld 0 [])) 0).wellQ ∧ q.well % 2048 / 64 = 0)) := by decide +kernel
theorem test_meets_recent (u : Nat) :
    15 ≤ recent { lab id with badCount := List.replicate 15 (1, u, 900) } 1 u ∧ recent (lab id) 1 u < 15 := by
  have h : now { lab id with badCount := List.replicate 15 (1, u, 900) } = 1000 := rfl
  unfold recent
  rw [h]
  constructor
  · simp [List.replicate]
  · simp [lab, State.reset]
/-- Functions of every kind, not fenced and fenced; a fenced channel with a launch and without. -/
theorem test_meets_FencingAndRetirement :
    (∀ q, q ∈ [(FencedKind.cluster, 2047), (.channel, 255), (.well, 16383), (.lane, 3), (.endpoint, 7), (.die, 0), (.die, 7)] →
      q.2 < funcCount q.1 ∧ isFenced (lab id) q.1 q.2 = false) ∧
    isFenced (onCl (fun c => { c with fenced := true }) (lab id)) .cluster 0 = true ∧
    (let s := onD (fun d => { d with fencedCh := 1 }) (lab id)
     (getDie s 0).fencedCh.getLsbD 0 = true ∧ (getDie s 0).fencedCh.getLsbD 31 = false ∧ (∀ l, l ∈ s.launches → l.holds = false) ∧
     ∃ l, l ∈ (run1 s).launches ∧ l.holds = true) := by decide +kernel
/-- Walks that end in a leaf, that fail and that an invalidation found; pages in a TLB admitted and refused; a dirty line; the
ends of the targets; invalidations with walks left and without. -/
def missLab (asid : BitVec 16) (stale : Bool) : State :=
  on (onD (fun d => { d with walks := [⟨4, asid, 0x10000, 900, [0], [(0, 0)], [(0, .queue 0 (queueUser 0 0))], [], stale⟩] }) (onCl (fun c => { c with tlb := [] }) (mapped (lab id))))
    (.num 0 4 0)
theorem test_meets_TranslationAndProtection :
    (walk (missLab 1 false) 1 0x10000 = .leaf sync1 ∧ walk (missLab 2 false) 2 0x10000 = .fail none ∧
     tlbHit (getCluster (missLab 1 false) 0) 1 0x10000 = none ∧ (getCluster (missLab 1 false) 0).tlb.length < 1024 ∧
     (∀ w, w ∈ (getDie (missLab 1 false) 0).walks → (getDie (missLab 1 false) 0).walkRuns w = true) ∧
     (let d : Die := { Die.reset with walks := (List.range 65).map fun n => ⟨n, 1, 0, n, [0], [], [], [], false⟩ }
      (d.walks.find? (·.id = 64)).map (fun w => d.walkRuns w) = some false) ∧
     (here (lab fun c => { c with await := some (.pages []) })).await = some (.pages []) ∧
     ∀ b, b ∈ [true, false] → ((getDie (missLab 1 b) 0).walks.find? (·.id = 4)).map (·.stale) = some b) ∧
    (tlbHit (getCluster (lab id) 0) 1 0x10008 = some sync1 ∧
     (served (lab id) 0x210008 && admits (lab id) 0 1 .read 0x210008 0) = true ∧
     (served (lab id) 0x210008 && admits { lab id with access := [] } 0 1 .read 0x210008 0) = false ∧
     (getCluster (lab id) 0).cache = [] ∧ badAt (lab id) 0x210008 = false ∧ setCount (getCluster (lab id) 0) (0x210008 / 64) < 16) ∧
    (let s := onCl (fun c => { c with cache := twoLines }) (lab id)
     ((getCluster s 0).cache.find? (·.line = 0x8400)).map (fun q => (q.failed, decide (q.dirty ≠ 0))) = some (false, true) ∧
     served s (0x8400 * 64) = true ∧ admits s 0 1 .write (0x8400 * 64) 0 = true ∧
     admits { s with access := [] } 0 1 .write (0x8400 * 64) 0 = false) ∧
    (target 6 ∧ target 62 ∧ 6 ∉ (lab id).locked ∧ 6 ∈ { lab id with locked := [6] }.locked) ∧
    (let s : State := { lab id with cmd := some (.inval 1 0 0) }
     (s.dies.any (fun d => d.2.walks.any (·.stale)) || translatedLeft s 1 0 0) = false ∧ s.cmds = [] ∧
     ((missLab 1 true).dies.any (fun d => d.2.walks.any (·.stale)) || translatedLeft (missLab 1 true) 1 0 0) = true) := by
  unfold target; decide +kernel
theorem test_meets_inval : (0 : W64).toNat + (2 ^ 40 : W64).toNat ≤ 2 ^ 40 := by decide
/-- A context whose two halfwords are VCVT g.. of the spec's own words, at 0x100 of page 0; the package with its only core's context
0 alone able to issue, with none able, with an event due and with none, and with its power off. -/
def fetchLab : State := memPut (lab id) 0x200100 (toBytes 4 0xE80A4185)
theorem test_meets_StepRunsTheDecodedInstruction_fetch :
    (here fetchLab).leaving = false ∧ (here fetchLab).pending = [] ∧ (here fetchLab).replay = [] ∧ (here fetchLab).pc.getLsbD 0 = false ∧
    (match fetchAt fetchLab (here fetchLab).pc with
     | some p => fetchSound fetchLab p && decide ((le2 (spotBytes fetchLab 2 p)).getLsbD 0 = true) &&
        (match fetchAt (afterRead fetchLab 2 p) ((here fetchLab).pc + 2) with
         | some q => fetchSound (afterRead fetchLab 2 p) q
         | none => false)
     | none => false) = true := by decide +kernel
theorem issuable_none {s : State} {core x : Nat} (h : (getCtx s core x).run = .free) : issuable s core x = false := by
  simp [issuable, h]
theorem test_meets_StepRunsTheDecodedInstruction_one :
    fetchLab.poweredOff = false ∧ (∃ k, fetchLab.cores = [(0, k)]) ∧ fetchLab.scan ≤ 0 ∧
    (∀ y, issuable fetchLab 0 y = decide (y = 0)) ∧ (getCtx fetchLab 0 0).gangSize = 0 ∧
    (∀ r, attempt { fetchLab with core := 0, ctx := 0 } = .next r → r.stalled = false) := by
  refine ⟨by decide +kernel, ⟨_, rfl⟩, by decide +kernel, fun y => ?_, by decide +kernel, fun r h => ?_⟩
  · by_cases hy : y < 5
    · have : ∀ y, y < 5 → issuable fetchLab 0 y = decide (y = 0) := by decide +kernel
      exact this y hy
    · rw [issuable_none, decide_eq_false (by omega)]
      unfold getCtx coreCtx
      rw [Vector.getElem?_eq_none (by omega)]; rfl
  · have : (after (attempt { fetchLab with core := 0, ctx := 0 })).stalled = false := by decide +kernel
    simpa only [h, after] using this
theorem test_meets_noneIssues : noneIssues State.reset := fun core x _ => issuable_none (by
  have : getCore State.reset core = Core.reset := by simp [getCore, State.reset, tabGet]
  unfold getCtx coreCtx
  rw [this]
  by_cases hx : x < 5
  · simp [Core.reset, hx]; rfl
  · rw [Vector.getElem?_eq_none (by omega)]; rfl)
theorem test_meets_StepRunsTheDecodedInstruction_event :
    State.reset.late = [] ∧ (takeDue (now State.reset) State.reset.agenda).isNone = true ∧ (takeDue 23999 State.reset.agenda).isSome = true ∧
    (∀ d, d ∈ State.reset.agenda → d.ev ≠ .packageReset) := by decide +kernel
/-- A former follower whose work is over; a package that is asked nothing more in its cycle but the load through the S window of
core 0 that the ports have still to serve. -/
theorem test_meets_StepRunsTheDecodedInstruction_leaving :
    let s := lab fun c => { c with leaving := true }
    (here s).leaving = true ∧ workDone s = .ok () s := ⟨by decide +kernel, by with_unfolding_all rfl⟩
def lateLab : State := { memPut (lab (gs [(9, 0x40000000000008)])) 0x200100 (toBytes 4 (natOf (encode (.ldw 5 9 0)).bytes)) with
  late := [(0, 0)], scan := scanEnd }
theorem test_meets_StepRunsTheDecodedInstruction_late :
    lateLab.poweredOff = false ∧ coresLeft lateLab = [] ∧ takeDue (now lateLab) lateLab.agenda = none ∧ issuable lateLab 0 0 = true ∧
    goes (attempt { lateLab with late := [] }) = true ∧ (here (after (attempt { lateLab with late := [] }))).pc = 0x104 := by decide +kernel
/-- Well-formed instructions of both widths, and words that decode. -/
theorem test_meets_DecodeInvertsEncode :
    wellFormed (.tern 3 4 5 0xE8) = true ∧ wellFormed (.bneH 1 0 (-3)) = true ∧
    (∃ i, decode32 0xE80A4185 = .ok i) ∧ ∃ i, decode16 0xE832 = .ok i :=
  ⟨by decide +kernel, by decide +kernel, ⟨_, rfl⟩, ⟨_, rfl⟩⟩
theorem test_meets_StepKeepsMemoryCanonical : memInv State.reset ∧ goes (step State.reset) = true := by
  unfold memInv; decide +kernel
/-! ## Witnesses of the forms at the edges -/

/-- An address of the S window beyond S and one misaligned within it; one of A and one of a page misaligned. -/
theorem test_meets_MemoryChecksTrap_windows :
    let at_ := fun n => reg (lab (gs [(8, n)])) 8 + (0 : BitVec 12).signExtend 64
    ((windowOf ((at_ 0x40000000008003).setWidth 56)).isSome = true ∧ 0x8000 ≤ ((at_ 0x40000000008003).setWidth 56).toNat % 65536) ∧
    (((at_ 0x40000000007FFF).setWidth 56).toNat % 65536 < 0x8000 ∧ ((at_ 0x40000000007FFF).setWidth 56).toNat % 2 ≠ 0) ∧
    (at_ 0xFFFF).toNat % 2 ≠ 0 ∧ (windowOf ((at_ 0x1FFFF).setWidth 56)).isSome = false ∧ ((at_ 0x1FFFF).setWidth 56).toNat % 8 ≠ 0 := by
  decide +kernel
/-- A store of a page's last word, and a full set whose line of another address is given up. -/
theorem test_meets_StoreIsSeenAndNothingElse_full :
    let s := onCl (fun c => { c with cache := (List.range 16).map fun i =>
      (⟨0x8400 + 2048 * i, 5, BitVec.allOnes 64, 3, false, 1⟩ : Line) }) (lab (gs [(8, 0x1FFFC)]))
    calm s = true ∧ arrives s .store 4 4 (siteAt 0 (reg s 8 + (0 : BitVec 12).signExtend 64)) =
      some (.phys 0x1FFFC 0x21FFFC ⟨0xC200000000210001, 16⟩) ∧
    writable s 4 (.phys 0x1FFFC 0x21FFFC ⟨0xC200000000210001, 16⟩) = true ∧
    (lruOf (getCluster s 0) (0x8400 + 2048 * 16)).isSome = true ∧ (cacheWrite s 0 ((0x8400 + 2048 * 16) * 64) [1]).1 = some () := by decide +kernel
/-- A leader with a matrix instruction outstanding and without. -/
theorem test_meets_GangRunsAndEnds_matrix :
    let s := onCl (fun c => { c with mtx := [mtxOp .mma true] }) (gangLab id id)
    leads s = true ∧ matrixPending s s.core s.ctx = true ∧
    matrixPending (gangLab id id) (gangLab id id).core (gangLab id id).ctx = false ∧ leads (gangLab id id) = true := by decide +kernel
/-- Queries, one-sided accesses, contributions, acquisitions, barriers and messages with no atomic outstanding; local bytes at the
end of A that no matrix instruction uses. -/
theorem test_meets_noAtomics : atomicsOut (lab id) = false ∧ atomicsOut (run1 (lab id)) = false ∧ atomicsOut mailLab = false ∧
    matrixBefore (lab id) 1 0xFFC0 64 = false ∧ matrixBefore (lab id) 3 0x7FC0 64 = false ∧ atomicsOut (handleLab ⟨ring4, 0, 1, 3⟩) = false ∧
    flying (lab id) [.remoteAccessServe] = false ∧ hostWrites (lab id) = false := by decide +kernel
/-- A region that meets the binding of another object, and an empty one. -/
theorem test_meets_ObjectsAreBoundAndHeld_meets :
    let s := { lab (gs [(8, 0x10008), (9, 0x10040), (10, 64), (11, 0x10048)]) with binds := [⟨1, 0x10010, 0x10040, 64⟩] }
    (∃ o, o ∈ s.binds ∧ o.obj ≠ addr56 (reg s 8) ∧ meets o (addr56 (reg s 9)) (reg s 10) = true) ∧ reg s 0 = 0 ∧
    (reg s 9).toNat % 64 = 0 := by decide +kernel
/-- Boards that fail at their issue for each reason, and one for any slot on a lane that is not fenced; alighting addresses misaligned, in
the S window and the peer's. -/
theorem test_meets_RingInstructionsQueue_boards :
    let w := fun (i any lane tag : Nat) => reg (lab (gs [(8, i + 4096 * lane + 32768 * any + 2 ^ 32 * tag)])) 8
    (bits (w 5 0 1 0) 47 32 = 0) ∧ ((w 5 1 1 9).getLsbD 15 = true ∧ (2 : BitVec 4).getLsbD ((w 5 1 1 9).extractLsb' 12 2).toNat = true) ∧
    ((w 2176 0 1 9).getLsbD 15 = false ∧ 2176 ≤ bits (w 2176 0 1 9) 11 0) ∧ (2 : BitVec 4).getLsbD ((w 5 1 3 9).extractLsb' 12 2).toNat = false ∧
    (0x10048 : VA).toNat % 64 ≠ 0 ∧ windowOf 0x40000000000000 ≠ none ∧ inPeer (leafPa ⟨0xC200400000000001, 16⟩ 0x10040) = true ∧
    (getCluster (onCl (fun c => { c with ringQ := [ringOp .rd 0] }) (lab id)) 0).ringQ.any (fun r => isMine (lab id) r.who) = true ∧
    flying { lab id with agenda := [⟨2000, .alightWriteLand, .land who0 ⟨1, 16⟩ 0x10040 0x210040 5⟩] } [.alightWriteLand] = true := by decide +kernel
/-- A failed board at its decision; one for any slot offered a free slot, below its limit and at it, and a taken one. -/
def anyBoard : RingOp := { ringOp .board 9 with anyFree := true }
theorem test_meets_RingPassages_boards :
    let failed := { ringOp .board 9 with fail := 4 }
    ((getCluster (passLab failed slot1) 0).ringQ = [failed] ∧ failed.issued + 4 ≤ now (passLab failed slot1) ∧
      failed.fail ≠ 0#3 ∧ failed.lane.toNat * 4096 + failed.idx = 5096) ∧
    (∀ r, r ∈ [RingSlot.reset, { RingSlot.reset with passed := true }, slot1] → let s := on (passLab anyBoard r) (.num 0 5096 (anyBoard.id + 1))
      anyBoard.fail = 0#3 ∧ anyBoard.lane.toNat = 5096 / 4096 ∧ now s < anyBoard.issued + 2180 ∧ resident s anyBoard.who = true ∧
      slotPassing (stationPos 0) (now s) = 5096 % 4096 ∧ (getDie s (dieOfCluster 0)).bypassed = false ∧
      s.lanesOff.getLsbD anyBoard.lane.toNat = false ∧ stationHolds s 0 < 32) ∧
    (let s := passLab anyBoard RingSlot.reset
     RingSlot.reset.passed = true ∧ slot1.tag ≠ 0#16 ∧
     32 ≤ stationHolds { s with ring := (List.range 32).map fun n => (n, { slot1 with owner := 0 }) } 0) := by decide +kernel
/-- Headers refused for their version, for a word that is not zero, and for a reserved bit alone. -/
theorem test_meets_JoinWalkers_headers :
    0x000200004B4A5431 / 2 ^ 48 ≠ 1 ∧ (joinHdr.set 5 7).getD 5 0 ≠ 0 ∧
    (0x000100014B4A5431 % 2 ^ 32 = 0x4B4A5431 ∧ 0x000100014B4A5431 / 2 ^ 48 = 1 ∧ 0x000100014B4A5431 ≠ 0x000100004B4A5431) ∧
    (let h := joinHdr.getD 1 0 + 2 ^ 24
     2 ^ 24 ≤ h ∧ h % 2 ^ 8 = [leafOf 20].length ∧ badNodes [leafOf 20] (h / 2 ^ 16 % 2 ^ 8) 1 = none) := by decide +kernel
/-- Three lanes in two bins of two keys each, one of which holds a record already. -/
def threeKeys : Nat := (List.range 16).foldl
  (fun a i => a + (if i = 0 then 2 else if i = 5 then 5 else if i = 9 then 3 else 0xFFFFFFFF) * 2 ^ (32 * i)) 0
def binLab3 : State := memPut
  (lab fun c => vs [(4, threeKeys)] (gs [(8, 0x10000)] (oxs [(2, 4 * 2 ^ 32 + 4 * 2 ^ 16 + 1)] c))) 0x210060 [1]
def held3 (n : Nat) : Nat := if n = 1 then 1 else 0
def head3 (n : Nat) : Nat := 0x210000 + 96 * n
def place3 (k : Nat) : Nat := if k = 0 then head3 1 + 72 else if k = 9 then head3 1 + 80 else head3 2 + 64
theorem test_meets_KeyIndexedInstructions_bins : cleanCache binLab3 ∧ atomicsOut binLab3 = false ∧ active binLab3 4 = [0, 5, 9] ∧
    binsSound binLab3 (reg binLab3 8) 4 held3 head3 place3 := by
  refine ⟨by unfold cleanCache; decide +kernel, by decide +kernel, by decide +kernel, by decide +kernel, by decide +kernel, by decide +kernel,
    by decide +kernel, by decide +kernel, by decide +kernel, fun k hk => ?_⟩
  have h : ∀ k, k ∈ active binLab3 4 →
      (let n := binOf binLab3 4 k
       let index := held3 n + ((active binLab3 4).filter fun j => decide (j < k) && decide (binOf binLab3 4 j = n)).length
       n < bits (oxOf (here binLab3) 2) 31 16 ∧ wordB binLab3 4 (headOf binLab3 (reg binLab3 8) n) (held3 n) = true ∧
       index < bits (oxOf (here binLab3) 2) 47 32 ∧ globalB binLab3 .store 4 (headOf binLab3 (reg binLab3 8) n) = some (head3 n) ∧
       globalB binLab3 .store 8 (headOf binLab3 (reg binLab3 8) n + BitVec.ofNat 64 (64 + 8 * index)) = some (place3 k)) ∧
      ∀ j, j ∈ active binLab3 4 → (head3 (binOf binLab3 4 j) + 4 ≤ place3 k ∨ place3 k + 8 ≤ head3 (binOf binLab3 4 j)) ∧
        (j ≠ k → place3 j + 8 ≤ place3 k ∨ place3 k + 8 ≤ place3 j) ∧
        (binOf binLab3 4 j ≠ binOf binLab3 4 k → head3 (binOf binLab3 4 j) + 4 ≤ head3 (binOf binLab3 4 k) ∨
          head3 (binOf binLab3 4 k) + 4 ≤ head3 (binOf binLab3 4 j)) := by decide +kernel
  obtain ⟨⟨h1, h2, h3, h4, h5⟩, h6⟩ := h k hk
  exact ⟨h1, wordAt_of h2, h3, globalAt_of h4, globalAt_of h5, h6⟩
/-- Numbers that name no readable and no writable register, among them the edges of the lists. -/
theorem test_meets_OperandExtensionAndSystemRegisters_numbers :
    (∀ m, m ∈ [0x008, 0x00F, 0x012, 0x043, 0x0FF, 0x200, (0xFFF : BitVec 12)] → ¬ readable12 m) ∧
    (∀ m, m ∈ [0x000, 0x00F, 0x012, 0x100, 0x1FF, 0x200, (0xFFF : BitVec 12)] → ¬ writable12 m) := by
  unfold readable12 writable12; decide
/-- A pre-emption with no bind record left and no steal under way; every command with an operand in recovery mode. -/
theorem test_meets_MailboxCommands_steals : stealsOut (pauseLab []) launch1 = false ∧ boundSlots (pauseLab []) launch1 = [] ∧
    { hostLab with recovery := true, arg := .num 0 0 0 }.arg ≠ .none := by decide +kernel
/-- A packet that its endpoint has placed before, and one that it has not; the answer to a read, its landing unit free and not. -/
theorem test_meets_PacketsAtAnEndpoint_heard :
    let p := packet0 .write 64
    p.ident ∉ (getDie (netLab [] p) 0).heard ∧ p.ident ∈ (getDie (onD (fun d => { d with heard := [p.ident] }) (netLab [] p)) 0).heard := by
  decide +kernel
theorem test_meets_PeerJobs_answers :
    let p := packet0 (.ack false) 64
    let s := { peerLab .get (.packet p false) with sent := [p] }
    let j := peerJob .get
    j.inward = true ∧ unitBusy s 0 j (j.flying.getD 0 piece0) = false ∧
    unitBusy (onCl (fun c => { c with cpLand := 1001 }) s) 0 j (j.flying.getD 0 piece0) = true := by decide +kernel
/-- A save whose waiting acceptance is abandoned; a cycle in which parked registers move and one in which they do not. -/
theorem test_meets_ContextsAreSaved_moves :
    recIndex 0 0 ∉ (getDie (opLab 1 (lab id)) 0).dispBad ∧ movesNow (lab id) 0 ∧
    ¬ movesNow (onC (usePort · spC 1000) (lab id)) 0 := by
  unfold movesNow; decide +kernel
/-- Temperatures below 115 and at it; a walk with an engine's miss on it. -/
theorem test_meets_TranslationAndProtection_engines :
    (missLab 1 false).dies.any (fun d => d.2.walks.any fun w => !w.engines.isEmpty) = true ∧ ¬ 115 ≤ 114 := by decide +kernel
end Sys2Proof.Tests
end

section
/-! PROOFS. The statements about reset, a job's page, an error met by the scrub, and fences (00_scope.md R7, R18;
10_engines.md R237, R240; 29_faults_repairs.md R459, R462). -/
namespace Sys2Proof.Scope
open Sys2Proof Sys2Proof.Machine Sys2Proof.Claims

/-! ## Reset (R7) -/

/-- A context of a core at reset is at reset, as is one that the core does not have. -/
@[simp] theorem getCtx_reset (core x : Nat) : getCtx State.reset core x = Ctx.reset := by
  change ((Vector.replicate 5 Ctx.reset)[x]?).getD Ctx.reset = Ctx.reset
  by_cases h : x < 5 <;> simp [h]
@[simp] theorem gOf_reset (r : BitVec 5) : gOf Ctx.reset r = 0 := by simp [gOf, Ctx.reset]
@[simp] theorem vOf_reset (r : BitVec 5) : vOf Ctx.reset r = 0 := by simp [vOf, Ctx.reset]
@[simp] theorem kOf_reset (r : BitVec 3) : kOf Ctx.reset r = if r = 0 then BitVec.allOnes 64 else 0 := by
  simp [kOf, Ctx.reset]
@[simp] theorem oxOf_reset (r : BitVec 3) : oxOf Ctx.reset r = 0 := by simp [oxOf, Ctx.reset]
@[simp] theorem handleOfCtx_reset (n : BitVec 4) : handleOfCtx Ctx.reset n = Handle.reset := by
  simp [handleOfCtx, Ctx.reset]
@[simp] theorem counterOf_reset (n : BitVec 4) : counterOf Ctx.reset n = Counter.reset := by
  simp [counterOf, Ctx.reset]

/-- Settles O58: reset lists no core, cluster, die, slot or bind record, so each reads as its own reset value. -/
theorem resetLeavesTheStatedState : Obligations.ResetLeavesTheStatedState := by
  unfold Obligations.ResetLeavesTheStatedState
  refine ⟨memory_wf_reset, rfl, fun _ => rfl, fun core x => ?contexts, fun _ _ => rfl, fun _ => ⟨rfl, rfl⟩,
    fun _ => ⟨rfl, rfl, rfl, rfl⟩, fun _ => rfl, fun _ => ⟨rfl, rfl⟩, fun _ _ => rfl, rfl, rfl, rfl, rfl, rfl⟩
  case contexts =>
    rw [getCtx_reset]
    exact ⟨rfl, rfl, rfl, rfl, rfl, gOf_reset, vOf_reset, kOf_reset, oxOf_reset, handleOfCtx_reset, counterOf_reset⟩

/-! ## A job that has the failure of a walk still to take (R237, R240, R424) -/

/-- The leaf of page 1 of address space 1: raw, at physical 0x21_0000. -/
def pageLeaf : Leaf := ⟨0xC200000000210001, 16⟩
/-- A piece of 64 bytes of page 1, not translated yet. -/
def firstPiece : Piece := Piece.of 0 64 0x10040 0 0
/-- A CP.GET of one row of 64 bytes into A, whose only piece is to be translated. -/
def waitingJob : Job where
  id := 1
  seq := 9
  who := ⟨0, 0, 5, 1, 1, 7⟩
  kind := .get
  loc := .bufA
  d := 0
  lbase := 0
  rowLen := 64
  pitch := 64
  rows := 1
  ox2 := 0
  ox4 := 0
  fill := 0
  fmt := 0
  lat := 640
  cost := 645
  state := 0
  err := 0
  flags := 0
  oor := 0
  fault := 0
  promise := 645
  issued := 0
  loaded := true
  issuing := false
  queued := 1
  retired := false
  stopping := false
  todo := [firstPiece]
  flying := []
  left := 64
  hcfg := 0
  hFirst := 0
  hDone := 0
  hLeft := []
  wimage := []
  wbegun := false
  peer := none
  chunks := []
  worked := []
/-- The package in which that job's walk of page 1 has failed, its result not taken yet, and another walk has since brought
the page into the TLB of cluster 0; the access table of die 0's first tier admits the copy unit. -/
def failedWalk : State := { State.reset with
  clusters := [(0, { Cluster.reset with
    tlb := [⟨0x10000, 16, some 1, pageLeaf.entry⟩]
    misses := [(.job 9, 1, 1, none)]
    jobs := [waitingJob] })]
  access := [(1, 0x00008000_00000000_F10000FFFF000000#128)]
  arg := .num 0 9 0 }

/-- The job takes the failure of its walk before the TLB's entry, and stops at its page with ERR 1. -/
theorem exec_failedWalk : exec .copyPageTranslate failedWalk =
    .next (stopJob (translatePage failedWalk 0 waitingJob 0x10040).2 0 9 1 0x10040) := rfl
/-- With nothing of it in flight the job is over, and has no piece left. -/
theorem todo_failedWalk :
    (jobOf (stopJob (translatePage failedWalk 0 waitingJob 0x10040).2 0 9 1 0x10040) 0 9).map (·.todo) = some [] := by
  decide +kernel

/-- Refutes O24: a page that the TLB holds is not enough. A job whose own walk of the page has failed takes that result
before it looks at the TLB (R424), and stops with ERR 1; the statement does not ask that no such result waits for it. -/
theorem not_copyStatusAndLanding : ¬ Obligations.CopyStatusAndLanding := by
  unfold Obligations.CopyStatusAndLanding
  rintro ⟨-, hpage, -⟩
  obtain ⟨t, k, q, ht, hk, hq, -⟩ := hpage failedWalk 0 9 waitingJob firstPiece [] pageLeaf rfl rfl rfl rfl rfl rfl rfl rfl rfl
    rfl rfl (by decide) rfl rfl (by decide) rfl (by decide +kernel) (by decide +kernel)
  rw [exec_failedWalk] at ht
  cases ht
  have hnone := todo_failedWalk
  rw [hk, Option.map_some, Option.some.injEq] at hnone
  rw [hnone] at hq
  cases hq

/-! ## An error of an engine's SRAM met by the scrub (R459, R465, R476) -/

/-- Address 0 of a die with every channel in L is behind its channel 0, whatever the size of its bank-block region. -/
theorem channelAt_zero (d : Die) (h : d.chans = 0xFFFFFFFF#32) : channelAt d 0 = 0 := by
  unfold channelAt channelList
  rw [h]
  split
  · simp
  · rfl
/-- A use of a channel is noted beside the dies and the agenda. -/
theorem touch_frame (s : State) (pa u : Nat) : (touch s pa u).dies = s.dies ∧ (touch s pa u).agenda = s.agenda := by
  unfold touch
  split <;> exact ⟨rfl, rfl⟩
/-- A wake changes the dies as the wake of the sleeping channel does, and leaves the agenda. -/
theorem wake_of_asleep {s : State} {pa d ch : Nat} (h : asleep s pa = some (d, ch)) :
    (wake s pa).dies = (wakeChannel s d ch).dies ∧ (wake s pa).agenda = s.agenda := by
  obtain ⟨hdies, hagenda⟩ := touch_frame s pa 0
  have hasleep : asleep (touch s pa 0) pa = some (d, ch) := by
    rw [← h]; unfold asleep getDie; rw [hdies]
  unfold wake
  simp only [hasleep]
  unfold wakeChannel modDie setDie getDie
  rw [hdies]
  split
  · exact ⟨rfl, hagenda⟩
  · exact ⟨hdies, hagenda⟩
/-- An error met in memory has the die fenced at once whose engine is found to hold the line, after the read's wake. -/
theorem errorMet_agenda_of_engine {s : State} {unit pa d : Nat} (h : engineErrorAt (wake s pa) pa = some d) :
    (errorMet s 1 unit pa).agenda = (wake s pa).agenda ++ [⟨now (wake s pa), .functionFence, .func .die d⟩] := by
  unfold errorMet
  simp [h, later]

/-- A package whose table of dies lists die 1 before die 0. The line at address 0 is in error, both dies' engines hold it,
and channel 0 of die 0 is in self-refresh. -/
def twoEngines : State := { State.reset with
  dies := [(1, { Die.reset with engineBad := [0] }), (0, { Die.reset with engineBad := [0], refresh := 1 })]
  badLines := [0]
  agenda := []
  arg := .num 0 0 0 }

theorem asleep_twoEngines (l : List LogRec) : asleep { twoEngines with log := l } 0 = some (0, 0) := by
  simp [asleep, placeOf, getDie, twoEngines, tabGet, channelAt_zero, Die.reset]
/-- The read of the line wakes die 0, which is listed before die 1 from then on. -/
theorem engineErrorAt_wake_twoEngines (l : List LogRec) :
    engineErrorAt (wake { twoEngines with log := l } 0) 0 = some 0 := by
  unfold engineErrorAt
  rw [(wake_of_asleep (asleep_twoEngines l)).1]
  simp [wakeChannel, modDie, setDie, getDie, twoEngines, tabGet, tabPut]
/-- One fence is due after the scrub of the line: that of die 0. -/
theorem scrubLine_twoEngines_agenda : (scrubLine twoEngines 0).agenda.map (·.arg) = [.func .die 0] := by
  change (report twoEngines 2 1 (channelUnit twoEngines 0) 0 2 0 0).agenda.map (·.arg) = _
  unfold report
  rw [if_pos rfl, errorMet_agenda_of_engine (engineErrorAt_wake_twoEngines _), (wake_of_asleep (asleep_twoEngines _)).2]
  rfl
theorem exec_twoEngines : exec .patrolScrub twoEngines = .next (scrubLine twoEngines 0) := rfl

/-- Refutes O53: it speaks of every state, of one too whose table of dies does not list them in rising order. When the
engines of two dies hold the line, and the read wakes the second die listed, that die moves to the front of the table, and
its fence is due instead of the first's. -/
theorem not_scrubbingPowerAndReset : ¬ Obligations.ScrubbingPowerAndReset := by
  unfold Obligations.ScrubbingPowerAndReset
  rintro ⟨hscrub, -⟩
  obtain ⟨-, hbad⟩ := hscrub twoEngines 0 0 0 rfl rfl
  obtain ⟨t, ht, -, -, hfence, -⟩ := hbad rfl
  rw [exec_twoEngines] at ht
  cases ht
  obtain ⟨e, he, -, harg⟩ := hfence 1 rfl
  have hmem : e.arg ∈ (scrubLine twoEngines 0).agenda.map (·.arg) := List.mem_map_of_mem he
  rw [scrubLine_twoEngines_agenda, harg] at hmem
  simp at hmem

/-! ## The fence of die 0 while a cluster is fenced (R462, R469) -/

@[simp] theorem askBind_clusters (s : State) : (askBind s).clusters = s.clusters := by
  unfold askBind; split <;> rfl
/-- Recovery mode keeps the fenced clusters listed, with nothing else of them, and no others. -/
theorem enterRecovery_clusters (s : State) : (enterRecovery s).clusters =
    (s.clusters.filter fun c => c.2.fenced).map fun c => (c.1, { Cluster.reset with fenced := true }) := rfl

/-- A package with cluster 0 fenced, in the cycle in which the fence of die 0 is due. -/
def fencedCluster : State := { State.reset with
  clusters := [(0, { Cluster.reset with fenced := true })]
  arg := .func .die 0 }

/-- The fence of die 0 is logged, the die is fenced, and the package enters recovery mode. -/
theorem exec_fencedCluster :
    exec .functionFence fencedCluster = .next (askBind (enterRecovery
      (modDie (report fencedCluster 4 5 0 0 2 0 0) 0 fun d => { d with fenced := true }))) := rfl

/-- Refutes O54: after the fence of die 0 the statement has no cluster listed, but a cluster that was fenced before stays
fenced, and so listed, in recovery mode (R462, R469). -/
theorem not_fencingAndRetirement : ¬ Obligations.FencingAndRetirement := by
  unfold Obligations.FencingAndRetirement
  rintro ⟨hfences, -⟩
  obtain ⟨-, hnew⟩ := hfences fencedCluster .die 0 rfl (by decide)
  obtain ⟨t, ht, -, -, -, -, -, -, hdie, -⟩ := hnew rfl
  obtain ⟨-, -, hclusters, -⟩ := hdie rfl rfl
  rw [exec_fencedCluster] at ht
  cases ht
  rw [askBind_clusters, enterRecovery_clusters] at hclusters
  cases hclusters

end Sys2Proof.Scope
end
